-- ==== Sys2Proof/Word.lean ====
section
/-! DEFINITION. The word types of the 80386: byte, word and doubleword (spec/00_scope.md R6), and the
two-bit privilege level (R7). -/

namespace Sys2Proof

/-- 8 bits (R6). -/
abbrev Byte := BitVec 8

/-- 16 bits (R6): selectors, 16-bit operands. -/
abbrev Word := BitVec 16

/-- 32 bits (R6): general registers, offsets, linear addresses. -/
abbrev Dword := BitVec 32

/-- A privilege level, 0 (most privileged) to 3 (R7, R362). -/
abbrev Level := BitVec 2

end Sys2Proof
end

