-- ==== Sys2Proof/Config.lean ====
section
/-! DEFINITION. What an implementation fixes and the spec leaves free. The constants without a body
are FREE VALUES: nothing in Lean can evaluate them, so a claim holds whatever they are. Each is
applied to the number of the draw (State.draws, which goes up at every step, at every translation that
has a choice and at every read of an entry whose bits are open), so that each use gets a fresh one. The
parameters the spec leaves OPEN as arguments of the model (`mem_map`, `deliver_exceptions`, `init`) are
fields of State, see Machine/State.lean. -/

namespace Sys2Proof

/-- `PHYS_BITS`, the physical address width, as a configuration field (R62; D28, GK31). -/
def Config.physBits : Nat := 32

/-- FREE VALUE. Bits 19..16 of a LAR result, a draw in 0 .. 15 at each execution (R261; D17, U1).
Assumption log entry 3. -/
opaque Config.larBits : Nat → BitVec 4

/-- FREE VALUE. The six arithmetic flags after MOV to or from CRn, DRn, TRn, each a fresh draw
(R237 to R242; U13): bits 5..0 are OF, SF, ZF, AF, PF, CF. Assumption log entry 4. -/
opaque Config.movFlags : Nat → BitVec 6

/-- FREE VALUE. Bits 6 and 5 (dirty, accessed) that software reads in a page-table entry which a walk
has used, by the draw and the physical address of the entry (R96; U9). Assumption log entry 5. -/
opaque Config.entryBits : Nat → Nat → BitVec 2

/-- FREE VALUE. Which of the translations of a linear address an access takes, the new one or an old one,
after a store into a page directory or page table in use and before the next load of CR3 (R113; D7), by
the draw: free at each access. Assumption log entry 6. -/
opaque Config.staleChoice : Nat → Nat

/-- FREE VALUE. The one parameter of R357: is type code F the interrupt gate (as Table 6-4 prints it,
R76) or type code E (as general knowledge has it)? The spec leaves the question open (U11, C19).
Assumption log entry 7. -/
opaque Config.interruptGateIsF : Bool

end Sys2Proof
end

