-- ==== Sys2Proof/Syntax.lean ====
section
/-! DEFINITION. The abstract instructions of spec/30_encoding.md R141, one constructor per row of
spec/opcode_table.json (R146), and their operands (R143, R144, R145). -/

namespace Sys2Proof

/-- The eight general registers in the order of their numbers (R20, R143). -/
inductive Reg where
  | eax | ecx | edx | ebx | esp | ebp | esi | edi
deriving DecidableEq, Repr

/-- The six segment registers in the order of their numbers (R26, R143). -/
inductive SegName where
  | es | cs | ss | ds | fs | gs
deriving DecidableEq, Repr

/-- A memory operand of 32-bit addressing (R144): its segment register, and the parts of its offset
`base + index * 2^scale + disp`. -/
structure MemOperand where
  /-- `m.seg`, the default or the override. -/
  seg : SegName
  /-- The base register, if there is one. -/
  base : Option Reg
  /-- The index register and the two scale bits, if there is an index. -/
  index : Option (Reg × BitVec 2)
  /-- The displacement, sign-extended to 32 bits. -/
  disp : Dword
deriving DecidableEq, Repr

/-- An operand given by ModRM: a general register (`mod = 3`) or a memory operand (R143, R144). -/
inductive RM where
  | reg (r : Reg)
  | mem (m : MemOperand)
deriving DecidableEq, Repr

/-- The instructions (R141), one constructor per row of the opcode table. Where a rule makes a register
form or a register number raise UD AFTER its privilege check (R233, R237, R239, R241), the form is an
instruction here and its meaning raises; the same for the register forms of far JMP and CALL and for
the segment register numbers of MOV Sreg (R146). -/
inductive Instr where
  /-- `MOV Sreg, r/m16` (R170); `sreg` is the field `reg`. -/
  | movSreg (sreg : BitVec 3) (src : RM)
  /-- `JMP rel8` (R182). -/
  | jmpRel8 (rel : Byte)
  /-- `JMP rel32` (R182). -/
  | jmpRel32 (rel : Dword)
  /-- `JMP r/m32`, near indirect (R183). -/
  | jmpRm (target : RM)
  /-- `JMP ptr16:32`, far (R187, R190, R200, R289). -/
  | jmpFar (sel : Word) (off : Dword)
  /-- `JMP m16:32`, far (R187, R190, R200, R289). -/
  | jmpFarMem (ptr : RM)
  /-- `CALL rel32` (R184). -/
  | callRel32 (rel : Dword)
  /-- `CALL r/m32`, near indirect (R185). -/
  | callRm (target : RM)
  /-- `CALL ptr16:32`, far (R187, R191, R201, R204, R290). -/
  | callFar (sel : Word) (off : Dword)
  /-- `CALL m16:32`, far (R187, R191, R201, R204, R290). -/
  | callFarMem (ptr : RM)
  /-- `RET`, near (R186). -/
  | ret
  /-- `RET imm16`, near (R186). -/
  | retImm (n : Word)
  /-- `RETF` (R211, R213, R214). -/
  | retf
  /-- `RETF imm16` (R211, R213, R214). -/
  | retfImm (n : Word)
  /-- `INT imm8` (R293). -/
  | int (vector : Byte)
  /-- `IRET` (R291, R292). -/
  | iret
  /-- `CLTS` (R232). -/
  | clts
  /-- `HLT` (R243). -/
  | hlt
  /-- `LGDT m` (R233). -/
  | lgdt (src : RM)
  /-- `LIDT m` (R234). -/
  | lidt (src : RM)
  /-- `LLDT r/m16` (R235). -/
  | lldt (src : RM)
  /-- `LMSW r/m16` (R236). -/
  | lmsw (src : RM)
  /-- `LTR r/m16` (R280). -/
  | ltr (src : RM)
  /-- `STR r/m16` (R281). -/
  | str (dst : RM)
  /-- `MOV r32, CRn` (R238); `n` is the field `reg`. -/
  | movFromCr (dst : Reg) (n : BitVec 3)
  /-- `MOV CRn, r32` (R237). -/
  | movToCr (n : BitVec 3) (src : Reg)
  /-- `MOV r32, DRn` (R240). -/
  | movFromDr (dst : Reg) (n : BitVec 3)
  /-- `MOV DRn, r32` (R239). -/
  | movToDr (n : BitVec 3) (src : Reg)
  /-- `MOV r32, TRn` (R242). -/
  | movFromTr (dst : Reg) (n : BitVec 3)
  /-- `MOV TRn, r32` (R241). -/
  | movToTr (n : BitVec 3) (src : Reg)
  /-- `ARPL r/m16, r16` (R260). -/
  | arpl (dst : RM) (src : Reg)
  /-- `LAR r32, r/m16` (R261). -/
  | lar (dst : Reg) (src : RM)
  /-- `LSL r32, r/m16` (R262). -/
  | lsl (dst : Reg) (src : RM)
  /-- `VERR r/m16` (R263). -/
  | verr (src : RM)
  /-- `VERW r/m16` (R264). -/
  | verw (src : RM)
deriving DecidableEq, Repr

end Sys2Proof
end

