-- ==== Sys2Proof/WellFormed.lean ====
section
/-! DEFINITION. Which terms of Syntax.lean an encoding stands for (spec/30_encoding.md R143, R144). The
fields' types carry every other bound (register numbers, displacement and immediate widths). -/

namespace Sys2Proof

/-- ESP is no index register: `index = 4` in a SIB byte means that there is none (R144). -/
def MemOperand.wf (m : MemOperand) : Bool :=
  match m.index with
  | some (r, _) => r != .esp
  | none => true

/-- An operand is well formed when its memory operand is. -/
def RM.wf : RM → Bool
  | .reg _ => true
  | .mem m => m.wf

/-- An instruction is well formed when its operands are. -/
def Instr.wf : Instr → Bool
  | .movSreg _ src => src.wf
  | .jmpRel8 _ => true
  | .jmpRel32 _ => true
  | .jmpRm target => target.wf
  | .jmpFar _ _ => true
  | .jmpFarMem ptr => ptr.wf
  | .callRel32 _ => true
  | .callRm target => target.wf
  | .callFar _ _ => true
  | .callFarMem ptr => ptr.wf
  | .ret => true
  | .retImm _ => true
  | .retf => true
  | .retfImm _ => true
  | .int _ => true
  | .iret => true
  | .clts => true
  | .hlt => true
  | .lgdt src => src.wf
  | .lidt src => src.wf
  | .lldt src => src.wf
  | .lmsw src => src.wf
  | .ltr src => src.wf
  | .str dst => dst.wf
  | .movFromCr _ _ => true
  | .movToCr _ _ => true
  | .movFromDr _ _ => true
  | .movToDr _ _ => true
  | .movFromTr _ _ => true
  | .movToTr _ _ => true
  | .arpl dst _ => dst.wf
  | .lar _ src => src.wf
  | .lsl _ src => src.wf
  | .verr src => src.wf
  | .verw src => src.wf

end Sys2Proof
end

