-- ==== Sys2Proof/Decode.lean ====
section
/-! DEFINITION. The decoder and the encoder (spec/30_encoding.md R142 to R148), the byte-order helpers
(spec/20_memory.md R108), and `decodeTableWord`. Every bit position here is the spec's general
knowledge GK14 and nothing of its source (R140, D4; assumption log entry 1). -/

namespace Sys2Proof

/-! ## Byte order (R108): the byte at the lowest address holds bits 7..0 -/

/-- The word whose bytes are `b0`, `b1` in ascending address order (R108). -/
def wordOf (b0 b1 : Byte) : Word := b1 ++ b0

/-- The doubleword whose bytes are `b0` to `b3` in ascending address order (R108). -/
def dwordOf (b0 b1 b2 b3 : Byte) : Dword := b3 ++ b2 ++ b1 ++ b0

/-- The bytes of a word in ascending address order (R108). -/
def wordBytes (w : Word) : List Byte := [w.extractLsb' 0 8, w.extractLsb' 8 8]

/-- The bytes of a doubleword in ascending address order (R108). -/
def dwordBytes (d : Dword) : List Byte :=
  [d.extractLsb' 0 8, d.extractLsb' 8 8, d.extractLsb' 16 8, d.extractLsb' 24 8]

/-- The word at byte `o` of a run of bytes. -/
def wordAt (bs : List Byte) (o : Nat) : Word := wordOf (bs.getD o 0) (bs.getD (o + 1) 0)

/-- The doubleword at byte `o` of a run of bytes. -/
def dwordAt (bs : List Byte) (o : Nat) : Dword :=
  dwordOf (bs.getD o 0) (bs.getD (o + 1) 0) (bs.getD (o + 2) 0) (bs.getD (o + 3) 0)

/-! ## Register numbers (R143) -/

/-- The general register numbered `n` (R143). -/
def regOfBits (n : BitVec 3) : Reg :=
  match n.toNat with
  | 0 => .eax
  | 1 => .ecx
  | 2 => .edx
  | 3 => .ebx
  | 4 => .esp
  | 5 => .ebp
  | 6 => .esi
  | _ => .edi

/-- The number of a general register (R143). -/
def bitsOfReg : Reg → BitVec 3
  | .eax => 0
  | .ecx => 1
  | .edx => 2
  | .ebx => 3
  | .esp => 4
  | .ebp => 5
  | .esi => 6
  | .edi => 7

/-- The segment register numbered `n`; 6 and 7 name none (R143). -/
def segOfBits (n : BitVec 3) : Option SegName :=
  match n.toNat with
  | 0 => some .es
  | 1 => some .cs
  | 2 => some .ss
  | 3 => some .ds
  | 4 => some .fs
  | 5 => some .gs
  | _ => none

/-! ## The decoder -/

/-- Why the decoder refuses bytes by name. -/
inductive DecodeRefusal where
  /-- The operand-size prefix 66H, which selects 16-bit forms (R147, D8). -/
  | operandSizePrefix
  /-- The address-size prefix 67H, which selects 16-bit forms (R147, D8). -/
  | addressSizePrefix
  /-- A repeat prefix F2H or F3H, which has no meaning on these instructions (R147). -/
  | repeatPrefix
  /-- No row of the opcode table matches: it may be an instruction of the part that the spec does not
  cover (R148; U20, D24). -/
  | noRow
deriving DecidableEq, Repr

/-- Why reading an instruction stops. -/
inductive DecodeStop where
  /-- The bytes end inside the instruction, which has at least `missing` more. -/
  | needMore (missing : Nat)
  /-- The encoding raises the invalid-opcode exception UD (R147, R148). -/
  | ud
  /-- The encoding is refused by name. -/
  | refused (why : DecodeRefusal)
deriving DecidableEq, Repr

/-- A reader of bytes in ascending address order (R108). -/
abbrev Parse := EStateM DecodeStop (List Byte)

/-- Stops the reading. -/
def parseStop {α : Type} (e : DecodeStop) : Parse α := fun l => .error e l

/-- At least `n` more bytes belong to the instruction (R142). -/
def expectBytes (n : Nat) : Parse Unit := fun l =>
  if l.length < n then .error (.needMore (n - l.length)) l else .ok () l

/-- Reads one byte. -/
def nextByte : Parse Byte := fun l =>
  match l with
  | [] => .error (.needMore 1) []
  | b :: rest => .ok b rest

/-- Reads a little-endian word (R142). -/
def nextWord : Parse Word := do
  expectBytes 2
  let b0 ← nextByte
  let b1 ← nextByte
  pure (wordOf b0 b1)

/-- Reads a little-endian doubleword (R142). -/
def nextDword : Parse Dword := do
  expectBytes 4
  let b0 ← nextByte
  let b1 ← nextByte
  let b2 ← nextByte
  let b3 ← nextByte
  pure (dwordOf b0 b1 b2 b3)

/-- Reads a `ptr16:32`: the offset, then the selector (R145). -/
def nextFarPointer : Parse (Word × Dword) := do
  expectBytes 6
  let off ← nextDword
  let sel ← nextWord
  pure (sel, off)

/-- The segment register of a memory operand without an override: SS when the base register is EBP or
ESP, otherwise DS (R144). -/
def defaultSeg : Option Reg → SegName
  | some .ebp => .ss
  | some .esp => .ss
  | _ => .ds

/-- The displacement that follows, by `mod`; with `mod = 0` there is one only without a base (R144). -/
def nextDisp (mode : BitVec 2) (base : Option Reg) : Parse Dword :=
  if mode = 1 then do
    let b ← nextByte
    pure (b.signExtend 32)
  else if mode = 2 then nextDword
  else if base = none then nextDword
  else pure 0

/-- The fewest displacement bytes that follow a SIB byte, by `mod` (R144). -/
def dispLength (mode : BitVec 2) : Nat := if mode = 1 then 1 else if mode = 2 then 4 else 0

/-- The base register that the 3-bit field `b` names: none for 5 with `mod = 0` (R144). -/
def baseOfBits (mode : BitVec 2) (b : BitVec 3) : Option Reg :=
  if b = 5 && mode = 0 then none else some (regOfBits b)

/-- The index register and scale of a SIB byte: none for `index = 4` (R144). -/
def indexOfSib (sb : Byte) : Option (Reg × BitVec 2) :=
  if sb.extractLsb' 3 3 = 4 then none
  else some (regOfBits (sb.extractLsb' 3 3), sb.extractLsb' 6 2)

/-- Reads what follows a ModRM byte with `mod` not 3 (R144). -/
def nextMemOperand (override : Option SegName) (mode : BitVec 2) (rm : BitVec 3) :
    Parse MemOperand := do
  if rm = 4 then
    expectBytes (1 + dispLength mode)
    let sb ← nextByte
    let base := baseOfBits mode (sb.extractLsb' 0 3)
    let disp ← nextDisp mode base
    pure (MemOperand.mk (override.getD (defaultSeg base)) base (indexOfSib sb) disp)
  else
    let base := baseOfBits mode rm
    let disp ← nextDisp mode base
    pure (MemOperand.mk (override.getD (defaultSeg base)) base none disp)

/-- Reads the operand of a ModRM byte already read (R143, R144). -/
def nextRM (override : Option SegName) (mb : Byte) : Parse RM := do
  if mb.extractLsb' 6 2 = 3 then pure (.reg (regOfBits (mb.extractLsb' 0 3)))
  else
    let m ← nextMemOperand override (mb.extractLsb' 6 2) (mb.extractLsb' 0 3)
    pure (.mem m)

/-- The field `reg` of a ModRM byte (R143). -/
def modrmReg (mb : Byte) : BitVec 3 := mb.extractLsb' 3 3

/-- The field `rm` of a ModRM byte (R143). -/
def modrmRm (mb : Byte) : BitVec 3 := mb.extractLsb' 0 3

/-- The group `0F 00` (R146): `/0` is SLDT, which has no row; `/6` and `/7` raise UD (R148). -/
def decodeGroup6 (override : Option SegName) : Parse Instr := do
  let mb ← nextByte
  match (modrmReg mb).toNat with
  | 0 => parseStop (.refused .noRow)
  | 1 => do let op ← nextRM override mb; pure (.str op)
  | 2 => do let op ← nextRM override mb; pure (.lldt op)
  | 3 => do let op ← nextRM override mb; pure (.ltr op)
  | 4 => do let op ← nextRM override mb; pure (.verr op)
  | 5 => do let op ← nextRM override mb; pure (.verw op)
  | _ => parseStop .ud

/-- The group `0F 01` (R146): `/0`, `/1` and `/4` are SGDT, SIDT and SMSW, which have no row; `/5` and
`/7` raise UD (R148). -/
def decodeGroup7 (override : Option SegName) : Parse Instr := do
  let mb ← nextByte
  match (modrmReg mb).toNat with
  | 0 => parseStop (.refused .noRow)
  | 1 => parseStop (.refused .noRow)
  | 2 => do let op ← nextRM override mb; pure (.lgdt op)
  | 3 => do let op ← nextRM override mb; pure (.lidt op)
  | 4 => parseStop (.refused .noRow)
  | 6 => do let op ← nextRM override mb; pure (.lmsw op)
  | _ => parseStop .ud

/-- The group `FF` (R146): `/0`, `/1` and `/6` are INC, DEC and PUSH, which have no row; `/7` raises UD
(R148). -/
def decodeGroup5 (override : Option SegName) : Parse Instr := do
  let mb ← nextByte
  match (modrmReg mb).toNat with
  | 2 => do let op ← nextRM override mb; pure (.callRm op)
  | 3 => do let op ← nextRM override mb; pure (.callFarMem op)
  | 4 => do let op ← nextRM override mb; pure (.jmpRm op)
  | 5 => do let op ← nextRM override mb; pure (.jmpFarMem op)
  | 7 => parseStop .ud
  | _ => parseStop (.refused .noRow)

/-- The second opcode byte after 0FH (R142, R146). In the MOV forms of CRn the `mod` bits are ignored and
taken as 3 (R146, R237). In those of DRn and TRn the rows say only "reg = n": that `mod` is ignored
there too is this model's choice (PRESUMED, from general knowledge of the part; assumption log
entry 44). -/
def decodeTwoByte (override : Option SegName) : Parse Instr := do
  let op ← nextByte
  match op.toNat with
  | 0x00 => decodeGroup6 override
  | 0x01 => decodeGroup7 override
  | 0x02 => do let mb ← nextByte; let x ← nextRM override mb; pure (.lar (regOfBits (modrmReg mb)) x)
  | 0x03 => do let mb ← nextByte; let x ← nextRM override mb; pure (.lsl (regOfBits (modrmReg mb)) x)
  | 0x06 => pure .clts
  | 0x20 => do let mb ← nextByte; pure (.movFromCr (regOfBits (modrmRm mb)) (modrmReg mb))
  | 0x21 => do let mb ← nextByte; pure (.movFromDr (regOfBits (modrmRm mb)) (modrmReg mb))
  | 0x22 => do let mb ← nextByte; pure (.movToCr (modrmReg mb) (regOfBits (modrmRm mb)))
  | 0x23 => do let mb ← nextByte; pure (.movToDr (modrmReg mb) (regOfBits (modrmRm mb)))
  | 0x24 => do let mb ← nextByte; pure (.movFromTr (regOfBits (modrmRm mb)) (modrmReg mb))
  | 0x26 => do let mb ← nextByte; pure (.movToTr (modrmReg mb) (regOfBits (modrmRm mb)))
  | _ => parseStop (.refused .noRow)

/-- The opcode byte `op`, after any prefix bytes (R146, R147). -/
def decodeOpcode (override : Option SegName) (op : Byte) : Parse Instr :=
  match op.toNat with
  | 0x0F => decodeTwoByte override
  | 0x63 => do let mb ← nextByte; let x ← nextRM override mb; pure (.arpl x (regOfBits (modrmReg mb)))
  | 0x66 => parseStop (.refused .operandSizePrefix)
  | 0x67 => parseStop (.refused .addressSizePrefix)
  | 0x8E => do let mb ← nextByte; let x ← nextRM override mb; pure (.movSreg (modrmReg mb) x)
  | 0x9A => do let p ← nextFarPointer; pure (.callFar p.1 p.2)
  | 0xC2 => do let n ← nextWord; pure (.retImm n)
  | 0xC3 => pure .ret
  | 0xCA => do let n ← nextWord; pure (.retfImm n)
  | 0xCB => pure .retf
  | 0xCD => do let n ← nextByte; pure (.int n)
  | 0xCF => pure .iret
  | 0xE8 => do let rel ← nextDword; pure (.callRel32 rel)
  | 0xE9 => do let rel ← nextDword; pure (.jmpRel32 rel)
  | 0xEA => do let p ← nextFarPointer; pure (.jmpFar p.1 p.2)
  | 0xEB => do let rel ← nextByte; pure (.jmpRel8 rel)
  | 0xF2 => parseStop (.refused .repeatPrefix)
  | 0xF3 => parseStop (.refused .repeatPrefix)
  | 0xF4 => pure .hlt
  | 0xFF => decodeGroup5 override
  | _ => parseStop (.refused .noRow)

/-- The segment register that a segment-override prefix byte names (R144). -/
def overrideOf (b : Byte) : Option SegName :=
  match b.toNat with
  | 0x26 => some .es
  | 0x2E => some .cs
  | 0x36 => some .ss
  | 0x3E => some .ds
  | 0x64 => some .fs
  | 0x65 => some .gs
  | _ => none

/-- Reads the prefix bytes and then the instruction: a segment override applies to its memory operand
(R144; of several the last one, assumption log entry 8), and the LOCK prefix F0H before any row of
the table raises UD (R147). No rule orders this UD and the GP(0) of `Privileged()` (R231): that UD comes
first is this model's choice (DESIGN CHOICE; assumption log entry 36). -/
def decodeFrom (override : Option SegName) (lock : Bool) :
    List Byte → EStateM.Result DecodeStop (List Byte) Instr
  | [] => .error (.needMore 1) []
  | b :: rest =>
    match overrideOf b with
    | some seg => decodeFrom (some seg) lock rest
    | none =>
      if b = 0xF0 then decodeFrom override true rest
      else
        match decodeOpcode override b rest with
        | .ok i rest' => if lock then .error .ud rest' else .ok i rest'
        | .error e rest' => .error e rest'

/-- What a run of bytes decodes to. -/
inductive Decoded where
  /-- An instruction and its length in bytes. -/
  | instr (i : Instr) (len : Nat)
  /-- The bytes end inside the instruction, which has at least `missing` more. -/
  | needMore (missing : Nat)
  /-- The invalid-opcode exception UD. -/
  | ud
  /-- Refused by name. -/
  | refused (why : DecodeRefusal)
deriving DecidableEq, Repr

/-- Decodes the instruction at the head of a run of bytes (R142, R146); total on any bytes. -/
def decode (bytes : List Byte) : Decoded :=
  match decodeFrom none false bytes with
  | .ok i rest => .instr i (bytes.length - rest.length)
  | .error (.needMore m) _ => .needMore m
  | .error .ud _ => .ud
  | .error (.refused why) _ => .refused why

/-- The most bytes an instruction has (R142). -/
def maxInstrLen : Nat := 15

/-! ## The encoder -/

/-- A ModRM byte, or a SIB byte, from its three fields (R143, R144). -/
def fieldsByte (hi : BitVec 2) (mid lo : BitVec 3) : Byte := hi ++ mid ++ lo

/-- The segment-override prefix byte of a segment register (R144). -/
def overrideByte : SegName → Byte
  | .es => 0x26
  | .cs => 0x2E
  | .ss => 0x36
  | .ds => 0x3E
  | .fs => 0x64
  | .gs => 0x65

/-- The prefix bytes an operand needs: an override where its segment is not the default (R144). -/
def encodeOverride : RM → List Byte
  | .reg _ => []
  | .mem m => if m.seg = defaultSeg m.base then [] else [overrideByte m.seg]

/-- ModRM, SIB and displacement of a memory operand, with `reg` in the ModRM byte; always the disp32
forms (R144). -/
def encodeMem (reg : BitVec 3) (m : MemOperand) : List Byte :=
  match m.base, m.index with
  | none, none => fieldsByte 0 reg 5 :: dwordBytes m.disp
  | none, some (i, scale) => fieldsByte 0 reg 4 :: fieldsByte scale (bitsOfReg i) 5 :: dwordBytes m.disp
  | some b, none =>
    if b = .esp then fieldsByte 2 reg 4 :: fieldsByte 0 4 4 :: dwordBytes m.disp
    else fieldsByte 2 reg (bitsOfReg b) :: dwordBytes m.disp
  | some b, some (i, scale) =>
    fieldsByte 2 reg 4 :: fieldsByte scale (bitsOfReg i) (bitsOfReg b) :: dwordBytes m.disp

/-- The ModRM byte and what follows it for an operand, with `reg` in the ModRM byte (R143, R144). -/
def encodeRM (reg : BitVec 3) : RM → List Byte
  | .reg r => [fieldsByte 3 reg (bitsOfReg r)]
  | .mem m => encodeMem reg m

/-- An instruction with a ModRM operand: override, opcode bytes, ModRM and the rest (R142). -/
def encodeWithRM (opcode : List Byte) (reg : BitVec 3) (x : RM) : List Byte :=
  encodeOverride x ++ opcode ++ encodeRM reg x

/-- The bytes of a well-formed instruction (R142, R145, R146). -/
def encode : Instr → List Byte
  | .movSreg sreg src => encodeWithRM [0x8E] sreg src
  | .jmpRel8 rel => [0xEB, rel]
  | .jmpRel32 rel => 0xE9 :: dwordBytes rel
  | .jmpRm target => encodeWithRM [0xFF] 4 target
  | .jmpFar sel off => 0xEA :: (dwordBytes off ++ wordBytes sel)
  | .jmpFarMem ptr => encodeWithRM [0xFF] 5 ptr
  | .callRel32 rel => 0xE8 :: dwordBytes rel
  | .callRm target => encodeWithRM [0xFF] 2 target
  | .callFar sel off => 0x9A :: (dwordBytes off ++ wordBytes sel)
  | .callFarMem ptr => encodeWithRM [0xFF] 3 ptr
  | .ret => [0xC3]
  | .retImm n => 0xC2 :: wordBytes n
  | .retf => [0xCB]
  | .retfImm n => 0xCA :: wordBytes n
  | .int vector => [0xCD, vector]
  | .iret => [0xCF]
  | .clts => [0x0F, 0x06]
  | .hlt => [0xF4]
  | .lgdt src => encodeWithRM [0x0F, 0x01] 2 src
  | .lidt src => encodeWithRM [0x0F, 0x01] 3 src
  | .lldt src => encodeWithRM [0x0F, 0x00] 2 src
  | .lmsw src => encodeWithRM [0x0F, 0x01] 6 src
  | .ltr src => encodeWithRM [0x0F, 0x00] 3 src
  | .str dst => encodeWithRM [0x0F, 0x00] 1 dst
  | .movFromCr dst n => [0x0F, 0x20, fieldsByte 3 n (bitsOfReg dst)]
  | .movToCr n src => [0x0F, 0x22, fieldsByte 3 n (bitsOfReg src)]
  | .movFromDr dst n => [0x0F, 0x21, fieldsByte 3 n (bitsOfReg dst)]
  | .movToDr n src => [0x0F, 0x23, fieldsByte 3 n (bitsOfReg src)]
  | .movFromTr dst n => [0x0F, 0x24, fieldsByte 3 n (bitsOfReg dst)]
  | .movToTr n src => [0x0F, 0x26, fieldsByte 3 n (bitsOfReg src)]
  | .arpl dst src => encodeWithRM [0x63] (bitsOfReg src) dst
  | .lar dst src => encodeWithRM [0x0F, 0x02] (bitsOfReg dst) src
  | .lsl dst src => encodeWithRM [0x0F, 0x03] (bitsOfReg dst) src
  | .verr src => encodeWithRM [0x0F, 0x00] 4 src
  | .verw src => encodeWithRM [0x0F, 0x00] 5 src

/-! ## The opcode table's words -/

/-- The first `maxInstrLen` bytes, in ascending address order, of an instruction whose first `nbits`
bits are `w`, bit 0 being the least significant bit of the first byte, and whose further bits are 0. -/
def tableWordBytes (nbits w : Nat) : List Byte :=
  (List.range maxInstrLen).map fun k => BitVec.ofNat 8 ((w % 2 ^ nbits) / 256 ^ k)

/-- The instruction the decoder reads from a word of the opcode table; none where it refuses. -/
def decodeTableWord (nbits w : Nat) : Option Instr :=
  match decode (tableWordBytes nbits w) with
  | .instr i _ => some i
  | _ => none

end Sys2Proof
end

