-- ==== Sys2Proof/Machine/State.lean ====
section
/-! DEFINITION. The state of the machine as plain data (spec/10_state.md), the ways a step can stop,
and the state a run starts from. INVENTORY.md lists every field with the rule that names it. -/

namespace Sys2Proof.Machine

open Sys2Proof

/-- The eight general registers (R20). -/
structure Regs where
  eax : Dword
  ecx : Dword
  edx : Dword
  ebx : Dword
  esp : Dword
  ebp : Dword
  esi : Dword
  edi : Dword
deriving DecidableEq, Repr

/-- A segment register, its visible and its invisible part (R26). -/
structure SegReg where
  /-- The selector last loaded, the visible part. -/
  sel : Word
  /-- False when `sel` is a null selector; the other invisible parts then have no meaning (R28). -/
  valid : Bool
  base : Dword
  /-- The effective, byte-granular limit (R74). -/
  limit : Dword
  /-- Descriptor bit S. -/
  s : Bool
  /-- Descriptor TYPE: bit 3 executable, bit 2 C or E, bit 1 R or W, bit 0 A (R73). -/
  typ : BitVec 4
  /-- The B bit of a data segment, the D bit of a code segment. -/
  db : Bool
  dpl : Level
deriving DecidableEq, Repr

/-- The six segment registers (R26). -/
structure SegFile where
  es : SegReg
  cs : SegReg
  ss : SegReg
  ds : SegReg
  fs : SegReg
  gs : SegReg
deriving DecidableEq, Repr

/-- GDTR or IDTR (R30). -/
structure TableReg where
  base : Dword
  limit : Word
deriving DecidableEq, Repr

/-- LDTR, its visible and its invisible part (R31). -/
structure LdtReg where
  sel : Word
  base : Dword
  limit : Dword
  valid : Bool
deriving DecidableEq, Repr

/-- TR, the task register, its visible and its invisible part (R32). -/
structure TaskReg where
  sel : Word
  base : Dword
  limit : Dword
deriving DecidableEq, Repr

/-- The control, debug and test registers (R33, R34, R35). CR1, DR4, DR5 and TR0 to TR5 do not exist. -/
structure ControlRegs where
  cr0 : Dword
  cr2 : Dword
  cr3 : Dword
  dr0 : Dword
  dr1 : Dword
  dr2 : Dword
  dr3 : Dword
  dr6 : Dword
  dr7 : Dword
  tr6 : Dword
  tr7 : Dword
deriving DecidableEq, Repr

/-- What the page tables say of a linear page: its frame, and whether it is a user page and writable
(R101, R102). -/
structure Translation where
  frame : BitVec 20
  user : Bool
  writable : Bool
deriving DecidableEq, Repr

/-- A range of physical addresses that hold memory, of the parameter `mem_map` (R62, D28). -/
structure Region where
  base : Nat
  size : Nat
deriving DecidableEq, Repr

/-- Whether the processor is executing instructions. -/
inductive Activity where
  | running
  /-- HLT was executed at privilege level 0 (R243). -/
  | halted
  /-- An exception was raised while a double fault was being delivered (R357). -/
  | shutdown
deriving DecidableEq, Repr

/-- Physical memory: the bytes that are not what an unlisted address reads as, in ascending order of
their addresses (Memory.lean says the form, R36, R62). -/
abbrev Memory := List Host.Cell

/-- The state of the machine. -/
structure State where
  /-- The general registers (R20). -/
  regs : Regs
  /-- The offset of the instruction in CS (R24). -/
  eip : Dword
  /-- `next_eip`, the offset of the following instruction, which the fetch sets (R24). -/
  nextEip : Dword
  /-- The flag register (R25). -/
  eflags : Dword
  /-- The segment registers (R26). -/
  segs : SegFile
  /-- The current privilege level (R29). -/
  cpl : Level
  /-- The global descriptor table register (R30). -/
  gdtr : TableReg
  /-- The interrupt descriptor table register (R30). -/
  idtr : TableReg
  /-- The local descriptor table register (R31). -/
  ldtr : LdtReg
  /-- The task register (R32). -/
  tr : TaskReg
  /-- CR0 to CR3, DR0 to DR7, TR6 and TR7 (R33, R34, R35). -/
  ctl : ControlRegs
  /-- Physical memory, and in it descriptor tables, TSSs and page tables (R36). -/
  mem : Memory
  /-- Running, halted or shut down (R243, R357). -/
  activity : Activity
  /-- The pending debug trap of the T-bit (R38, R305). -/
  debugTrap : Bool
  /-- An address was translated by the page tables since CR3 was last loaded: they are in use (R113). -/
  tablesUsed : Bool
  /-- Memory as it stood before each store made while the page tables were in use, the newest first: what
  the translation lookaside buffer may still go by (R38, R113). -/
  pastMemory : List Memory
  /-- Physical addresses of the page-directory and page-table entries that a walk has used: their bits 5
  and 6 read as a draw (R96, U9). -/
  walked : List Nat
  /-- Linear addresses of bytes of the instruction stream that an instruction has stored into since the last
  taken transfer, among the 16 from the instruction after it on: what the prefetch queue may hold stale
  (R38, R112). -/
  storedAhead : List Dword
  /-- The model's own: the number of the draw a free value is taken at; it goes up at every step and
  wherever a free value may be asked for again within one. -/
  draws : Nat
  /-- The spec's parameter `deliver_exceptions` (00_scope section 5, R355, R357); no step changes it. -/
  deliverExceptions : Bool
  /-- The spec's parameter `mem_map` (00_scope section 5, R62); no step changes it. -/
  memMap : List Region
deriving DecidableEq, Repr

/-- The exceptions (R340, R347), with their error codes (R348). -/
inductive Exception where
  /-- General protection. -/
  | gp (code : Word)
  /-- Stack fault. -/
  | sf (code : Word)
  /-- Segment not present. -/
  | np (code : Word)
  /-- Invalid TSS. -/
  | ts (code : Word)
  /-- Page fault, with the faulting linear address that CR2 receives. -/
  | pf (lin : Dword) (code : Word)
  /-- Debug. -/
  | db
  /-- Invalid opcode. -/
  | ud
  /-- Double fault, raised only by the delivery of another exception (R357). -/
  | df
deriving DecidableEq, Repr

/-- The ways a step ends the run. All are SAFE: nothing is claimed of what the hardware does after. -/
inductive Fault where
  /-- `Fault(X, code)` of R355 with the state reported with it: raised by any instruction or fetch while
  the parameter `deliver_exceptions` is false. -/
  | exception (e : Exception) (at_ : State)
  /-- The outcome `Halted`: a step of a machine that HLT has halted (R243, R408). -/
  | halted
  /-- A step of a machine that has shut down (R357). -/
  | shutdown
deriving DecidableEq, Repr

/-- The reasons for which a step is refused. All are SAFE: a run that reaches one proves nothing. -/
inductive Refusal where
  /-- An arm of exec that has no meaning yet. -/
  | notModelled (mnemonic : String)
  /-- The bytes at CS:EIP are no instruction of the spec: raised by the step (R147, R148). -/
  | undecoded (why : DecodeRefusal)
  /-- A 16-bit form: a code segment with D = 0, a stack segment with B = 0, an 80286 TSS or gate; raised
  by loads of CS and SS, far transfers, LTR, INT, task switches, and the step (R75, R147, D8). -/
  | sixteenBitForm
  /-- MOV to CR0 that would clear PE (R237, D29). -/
  | leavesProtectedMode
  /-- A task switch or IRET that would load VM = 1, and the step with VM = 1 (R300, R358, D29). -/
  | virtual8086Mode
  /-- The step with CR0.PE = 0, a mode outside the spec (R391 P1). -/
  | realAddressMode
  /-- MOV to or from DR4 or DR5 (R239, R240, U14). -/
  | noSuchDebugRegister
  /-- An access to a physical address at which `mem_map` has no memory (R62, R117, D28). -/
  | noMemory
  /-- A run in which an instruction stored into one of the next 16 bytes of the sequential stream, with no
  taken transfer since: raised by the fetch of such a byte, and where the run ends before, by a halted or
  shut-down machine or an exception that is not delivered (R112, D6). -/
  | staleCode
deriving DecidableEq, Repr

/-- A segment register that holds the null selector 0 and has never held another. -/
def SegReg.null : SegReg := SegReg.mk 0 false 0 0 false 0 false 0

/-- The state a run starts from. The spec gives no reset value of anything (R39, R40, R390): the state
at the start is its parameter `init`, under the premises P1 to P10 of R391. This is ONE such state.
Where the premises leave room it takes the values R40 tells of a real 80386 (GK25): EIP, the selector
and base of CS, EFLAGS, IDTR, null data segments. PE, CS and SS are what P1, P3, P4 and P5 ask for.
Everything else but `next_eip` is 0, memory lists nothing; the machine is running, no debug trap is pending, and nothing
is noted of walks, stores and draws (this hidden state, R38, is not in R40's table either: DESIGN CHOICE,
entry 10). `next_eip` (R24) has no reset value in the spec either and is 0000FFF0H, as EIP (DESIGN CHOICE,
entry 10): every fetch sets it before an instruction reads it. Assumption log entries 9, 10 and 11. -/
def State.reset : State where
  regs := Regs.mk 0 0 0 0 0 0 0 0
  eip := 0x0000FFF0
  nextEip := 0x0000FFF0
  eflags := 0x00000002
  segs :=
    { es := SegReg.null
      cs := SegReg.mk 0xF000 true 0xFFFF0000 0x0000FFFF true 0xB true 0
      ss := SegReg.mk 0x0010 true 0 0xFFFFFFFF true 0x3 true 0
      ds := SegReg.null
      fs := SegReg.null
      gs := SegReg.null }
  cpl := 0
  gdtr := TableReg.mk 0 0
  idtr := TableReg.mk 0 0x03FF
  ldtr := LdtReg.mk 0 0 0 false
  tr := TaskReg.mk 0 0 0
  ctl := ControlRegs.mk 0x00000001 0 0 0 0 0 0 0 0 0 0
  mem := []
  activity := .running
  debugTrap := false
  tablesUsed := false
  pastMemory := []
  walked := []
  storedAhead := []
  draws := 0
  deliverExceptions := true
  memMap := [Region.mk 0 (2 ^ 32)]

end Sys2Proof.Machine
end

