-- ==== Sys2Proof/Machine/Exec.lean ====
section
/-! DEFINITION. How a meaning is written: a function of the state that answers a value and a state, or
stops with an exception or a refusal and the state at that moment (spec/00_scope.md R10, R11). -/

namespace Sys2Proof.Machine

open Sys2Proof

/-- Why a meaning stops before its end: `raise X` of R10, or a refusal. -/
inductive Stop where
  | exc (e : Exception)
  | refuse (r : Refusal)
deriving DecidableEq, Repr

/-- A piece of a meaning. On a stop the state goes on, as it stood: an exception of step 5 of a task
switch has the incoming task's context (R304). -/
abbrev Exec := EStateM Stop State

/-- `raise X(e)`: no later line runs (R10). -/
def raise {α : Type} (e : Exception) : Exec α := fun s => .error (.exc e) s

/-- The model gives the situation no meaning ("refused", 00_scope section 7). -/
def refuse {α : Type} (r : Refusal) : Exec α := fun s => .error (.refuse r) s

/-- The state. -/
def getState : Exec State := fun s => .ok s s

/-- Changes the state. -/
def update (f : State → State) : Exec Unit := fun s => .ok () (f s)

end Sys2Proof.Machine
end

