-- ==== Sys2Proof/Machine/Flags.lean ====
section
/-! DEFINITION. EFLAGS and CR0: their bits and every way an instruction changes them
(spec/10_state.md R25, R33). -/

namespace Sys2Proof.Machine

open Sys2Proof

/-- `v` with bit `n` set to `b`. -/
def withBit (v : Dword) (n : Nat) (b : Bool) : Dword :=
  if b then v ||| BitVec.twoPow 32 n else v &&& ~~~(BitVec.twoPow 32 n)

/-- ZF is bit 6 of EFLAGS (R25). -/
def bitZF : Nat := 6

/-- TF is bit 8 of EFLAGS (R25). -/
def bitTF : Nat := 8

/-- IF is bit 9 of EFLAGS (R25). -/
def bitIF : Nat := 9

/-- NT is bit 14 of EFLAGS (R25). -/
def bitNT : Nat := 14

/-- VM is bit 17 of EFLAGS (R25). -/
def bitVM : Nat := 17

/-- IOPL is bits 13..12 of EFLAGS (R25). -/
def iopl (fl : Dword) : Level := fl.extractLsb' 12 2

/-- What EFLAGS holds after `v` is loaded: bit 1 reads as 1, bits 3, 5, 15 and 31..18 as 0 (R25). -/
def eflagsOf (v : Dword) : Dword := (v &&& 0x00037FD5) ||| 0x00000002

/-- EFLAGS with ZF set to `b`, every other flag unchanged (R25). -/
def setZF (fl : Dword) (b : Bool) : Dword := withBit fl bitZF b

/-- EFLAGS after MOV to or from CRn, DRn, TRn: OF, SF, ZF, AF, PF and CF (bits 11, 7, 6, 4, 2, 0) are a
fresh draw each, every other bit unchanged (R237; U13). -/
def drawArithFlags (fl : Dword) (draw : BitVec 6) : Dword :=
  withBit (withBit (withBit (withBit (withBit (withBit fl
    11 (draw.getLsbD 5)) 7 (draw.getLsbD 4)) 6 (draw.getLsbD 3)) 4 (draw.getLsbD 2))
    2 (draw.getLsbD 1)) 0 (draw.getLsbD 0)

/-- EFLAGS after entry through a trap or interrupt gate: TF and NT are 0, and IF too when the gate is an
interrupt gate (R357). -/
def flagsAfterEntry (fl : Dword) (interruptGate : Bool) : Dword :=
  let fl' := withBit (withBit fl bitTF false) bitNT false
  if interruptGate then withBit fl' bitIF false else fl'

/-- EFLAGS after IRET pops `image` at privilege level `cpl`: IOPL is written only at level 0, IF only
when `cpl <= IOPL`; VM is not written (R358: at level 0 an image with VM = 1 is refused; entry 20 of
the assumption log). -/
def flagsAfterIret (old image : Dword) (cpl : Level) : Dword :=
  let a := eflagsOf image
  let b := if cpl = 0 then a
    else withBit (withBit a 12 (old.getLsbD 12)) 13 (old.getLsbD 13)
  let c := if cpl ≤ iopl old then b else withBit b bitIF (old.getLsbD bitIF)
  withBit c bitVM (old.getLsbD bitVM)

/-- TS is bit 3 of CR0 (R33). -/
def bitTS : Nat := 3

/-- PE is bit 0 of CR0 (R33). -/
def bitPE : Nat := 0

/-- PG is bit 31 of CR0 (R33). -/
def bitPG : Nat := 31

/-- CR0 after MOV writes `v`: PG, ET, TS, EM, MP and PE; reserved bits read as 0 (R237). -/
def cr0Of (v : Dword) : Dword := v &&& 0x8000001F

/-- CR0 after LMSW writes `v`: TS, EM and MP are copied, PE can be set and not cleared (R236). -/
def cr0AfterLmsw (cr0 : Dword) (v : Word) : Dword :=
  (cr0 &&& ~~~(0x0000000E : Dword)) ||| (v.zeroExtend 32 &&& 0x0000000F)

/-- CR3 after it is loaded with `v`: bits 11..0 read as 0 (R34, R237). -/
def cr3Of (v : Dword) : Dword := v &&& 0xFFFFF000

/-- Paging is enabled: CR0.PG = 1 (R33, R62). -/
def State.paging (s : State) : Bool := s.ctl.cr0.getLsbD bitPG

/-- The page-level privilege is user level: CPL is 3 (R98). -/
def State.userLevel (s : State) : Bool := s.cpl == 3

end Sys2Proof.Machine
end

