-- ==== Sys2Proof/Machine/Registers.lean ====
section
/-! DEFINITION. Reading and writing the numbered registers (spec/10_state.md R20, R21, R26; R35). -/

namespace Sys2Proof.Machine

open Sys2Proof

/-- `x[r]`, the 32-bit register `r` (R10, R20). -/
def Regs.get (x : Regs) : Reg → Dword
  | .eax => x.eax
  | .ecx => x.ecx
  | .edx => x.edx
  | .ebx => x.ebx
  | .esp => x.esp
  | .ebp => x.ebp
  | .esi => x.esi
  | .edi => x.edi

/-- `x[r] <- v` (R10, R20). -/
def Regs.set (x : Regs) (r : Reg) (v : Dword) : Regs :=
  match r with
  | .eax => { x with eax := v }
  | .ecx => { x with ecx := v }
  | .edx => { x with edx := v }
  | .ebx => { x with ebx := v }
  | .esp => { x with esp := v }
  | .ebp => { x with ebp := v }
  | .esi => { x with esi := v }
  | .edi => { x with edi := v }

/-- `x16[r]`, the low 16 bits of register `r` (R10, R21). -/
def Regs.get16 (x : Regs) (r : Reg) : Word := (x.get r).extractLsb' 0 16

/-- `x16[r] <- v`: bits 31..16 of the register are unchanged (R10, R21). -/
def Regs.set16 (x : Regs) (r : Reg) (v : Word) : Regs :=
  x.set r ((x.get r).extractLsb' 16 16 ++ v)

/-- The segment register of a name (R26). -/
def SegFile.get (f : SegFile) : SegName → SegReg
  | .es => f.es
  | .cs => f.cs
  | .ss => f.ss
  | .ds => f.ds
  | .fs => f.fs
  | .gs => f.gs

/-- Replaces the segment register of a name (R26). -/
def SegFile.set (f : SegFile) (n : SegName) (v : SegReg) : SegFile :=
  match n with
  | .es => { f with es := v }
  | .cs => { f with cs := v }
  | .ss => { f with ss := v }
  | .ds => { f with ds := v }
  | .fs => { f with fs := v }
  | .gs => { f with gs := v }

/-- `CRn`; of the numbers only 0, 2 and 3 name a register (R35, R237). -/
def ControlRegs.cr (c : ControlRegs) (n : BitVec 3) : Option Dword :=
  match n.toNat with
  | 0 => some c.cr0
  | 2 => some c.cr2
  | 3 => some c.cr3
  | _ => none

/-- `DRn`; of the numbers only 0 to 3, 6 and 7 name a register (R35, R239). -/
def ControlRegs.dr (c : ControlRegs) (n : BitVec 3) : Option Dword :=
  match n.toNat with
  | 0 => some c.dr0
  | 1 => some c.dr1
  | 2 => some c.dr2
  | 3 => some c.dr3
  | 6 => some c.dr6
  | 7 => some c.dr7
  | _ => none

/-- `DRn <- v`, none where `n` names no register (R239). -/
def ControlRegs.setDr (c : ControlRegs) (n : BitVec 3) (v : Dword) : Option ControlRegs :=
  match n.toNat with
  | 0 => some { c with dr0 := v }
  | 1 => some { c with dr1 := v }
  | 2 => some { c with dr2 := v }
  | 3 => some { c with dr3 := v }
  | 6 => some { c with dr6 := v }
  | 7 => some { c with dr7 := v }
  | _ => none

/-- `TRn`, a test register; only 6 and 7 name one (R35, R241). -/
def ControlRegs.testReg (c : ControlRegs) (n : BitVec 3) : Option Dword :=
  match n.toNat with
  | 6 => some c.tr6
  | 7 => some c.tr7
  | _ => none

/-- `TRn <- v`, none where `n` names no test register (R241). -/
def ControlRegs.setTestReg (c : ControlRegs) (n : BitVec 3) (v : Dword) : Option ControlRegs :=
  match n.toNat with
  | 6 => some { c with tr6 := v }
  | 7 => some { c with tr7 := v }
  | _ => none

end Sys2Proof.Machine
end

