-- ==== Sys2Proof/Machine/Memory.lean ====
section
/-! DEFINITION. Memory: physical bytes, page translation and the page-level checks, `MemRead` and
`MemWrite` and their privilege-level-0 forms `SysRead` and `SysWrite` (spec/20_memory.md sections 1, 6, 7
and 8). -/

namespace Sys2Proof.Machine

open Sys2Proof

/-! ## Physical memory -/

/-- What an unlisted address reads as: 00H. The spec gives no initial contents (R40); its programs say
"Memory not listed holds 00H" (95_test_vectors part 3). Assumption log entry 2. -/
def unlistedByte : Byte := 0

/-- The byte at a physical address. -/
def Memory.read (m : Memory) (a : Nat) : Byte :=
  match m with
  | [] => unlistedByte
  | c :: rest => if c.1 = a then c.2 else Memory.read rest a

/-- Removes the entry of an address. -/
def Memory.erase (m : Memory) (a : Nat) : Memory :=
  match m with
  | [] => []
  | c :: rest => if c.1 = a then rest else c :: Memory.erase rest a

/-- Puts an entry at its place in the ascending order, in place of one of the same address. -/
def Memory.insert (m : Memory) (a : Nat) (b : Byte) : Memory :=
  match m with
  | [] => [(a, b)]
  | c :: rest =>
    if a < c.1 then (a, b) :: c :: rest
    else if c.1 = a then (a, b) :: rest
    else c :: Memory.insert rest a b

/-- Stores a byte, keeping the canonical form: the value an unlisted address reads as takes no entry. -/
def Memory.write (m : Memory) (a : Nat) (b : Byte) : Memory :=
  if b = unlistedByte then m.erase a else m.insert a b

/-- The canonical form: addresses strictly rising, no entry equal to what an unlisted address reads as. -/
def Memory.wf (m : Memory) : Bool :=
  match m with
  | [] => true
  | c :: rest => c.2 != unlistedByte && rest.all (fun d => c.1 < d.1) && Memory.wf rest

/-- Whether there is memory at a physical address: inside the physical address space and in a region of
`mem_map` (R62, D28). -/
def State.hasMemory (s : State) (p : Nat) : Bool :=
  decide (p < 2 ^ Config.physBits) &&
    s.memMap.any (fun r => decide (r.base ≤ p) && decide (p < r.base + r.size))

/-- The byte that software reads at a physical address: bits 6 and 5 of a page-table entry that a walk
has used are a draw (R96, U9). -/
def State.byteAt (s : State) (p : Nat) : Byte :=
  let b := s.mem.read p
  if s.walked.contains p then
    (b &&& 0x9F) ||| ((Config.entryBits s.draws p).zeroExtend 8 <<< 5)
  else b

/-- Where the instruction after the one executing lies, a linear address (R24). -/
def State.nextCode (s : State) : Dword := s.segs.cs.base + s.nextEip

/-- Memory after bytes are stored, in order. -/
def Memory.writeAll (m : Memory) (cells : List Host.Cell) : Memory :=
  match cells with
  | [] => m
  | c :: rest => Memory.writeAll (m.write c.1 c.2) rest

/-- What a read of physical addresses notes: where a walk has used one of them, the next read takes the
next draw (R96, U9). -/
def State.noteRead (s : State) (ps : List Nat) : State :=
  { s with draws := if ps.any s.walked.contains then s.draws + 1 else s.draws }

/-- The bytes at physical addresses, read as one operation. -/
def readPhys (ps : List Nat) : Exec (List Byte) := do
  let s ← getState
  update (·.noteRead ps)
  pure (ps.map s.byteAt)

/-! ## Page translation (R96) and the page check (R103) -/

/-- The kinds of access; an instruction fetch counts as a read (R100). -/
inductive Access where
  | fetch
  | read
  | write
deriving DecidableEq, Repr

/-- The doubleword at a physical address (`PhysRead`, R96). -/
def Memory.dword (m : Memory) (p : Nat) : Dword :=
  dwordOf (m.read p) (m.read (p + 1)) (m.read (p + 2)) (m.read (p + 3))

/-- Whether the four bytes at a physical address are memory. -/
def State.hasDword (s : State) (p : Nat) : Bool :=
  s.hasMemory p && s.hasMemory (p + 1) && s.hasMemory (p + 2) && s.hasMemory (p + 3)

/-- What looking up a linear address gives, with the physical addresses of the entries the walk used. -/
inductive Lookup where
  /-- The directory or the table entry is not present. -/
  | notPresent (entries : List Nat)
  /-- A translation. -/
  | mapped (t : Translation) (entries : List Nat)
  /-- The tables lie where there is no memory. -/
  | noMemory
deriving DecidableEq, Repr

/-- The entries that the walk used. -/
def Lookup.entries : Lookup → List Nat
  | .notPresent es => es
  | .mapped _ es => es
  | .noMemory => []

/-- The physical address of the page-directory entry of a linear address (R96). -/
def pdeAddr (s : State) (lin : Dword) : Nat :=
  (s.ctl.cr3.extractLsb' 12 20).toNat * 4096 + 4 * (lin.extractLsb' 22 10).toNat

/-- The physical address of the page-table entry of a linear address, given its directory entry (R96). -/
def pteAddr (pde : Dword) (lin : Dword) : Nat :=
  (pde.extractLsb' 12 20).toNat * 4096 + 4 * (lin.extractLsb' 12 10).toNat

/-- What a directory entry and a table entry give: the combined attributes of R101 and R102 (bit 2 U/S,
bit 1 R/W; R82). -/
def translationOf (pde pte : Dword) : Translation where
  frame := pte.extractLsb' 12 20
  user := pde.getLsbD 2 && pte.getLsbD 2
  writable := pde.getLsbD 1 && pte.getLsbD 1

/-- `Walk(lin)` through the page tables as they stand in `m` (R96). -/
def walkIn (s : State) (m : Memory) (lin : Dword) : Lookup :=
  if !s.hasDword (pdeAddr s lin) then .noMemory
  else if !(m.dword (pdeAddr s lin)).getLsbD 0 then .notPresent [pdeAddr s lin]
  else if !s.hasDword (pteAddr (m.dword (pdeAddr s lin)) lin) then .noMemory
  else if !(m.dword (pteAddr (m.dword (pdeAddr s lin)) lin)).getLsbD 0 then
    .notPresent [pdeAddr s lin, pteAddr (m.dword (pdeAddr s lin)) lin]
  else .mapped
    (translationOf (m.dword (pdeAddr s lin)) (m.dword (pteAddr (m.dword (pdeAddr s lin)) lin)))
    [pdeAddr s lin, pteAddr (m.dword (pdeAddr s lin)) lin]

/-- `Walk(lin)` (R96). -/
def walk (s : State) (lin : Dword) : Lookup := walkIn s s.mem lin

/-- The old translations of a linear address: what walks gave before the stores made while the tables were
in use, where it is not what a walk gives now (R113, D7). -/
def oldLookups (s : State) (lin : Dword) : List Lookup :=
  (s.pastMemory.map fun m => walkIn s m lin).filter fun l => l != walk s lin

/-- The lookup an access takes: the walk's, or, after a store into the tables, freely an old one, as the
draw has it (R113, D7). -/
def lookup (s : State) (lin : Dword) : Lookup :=
  match oldLookups s lin with
  | [] => walk s lin
  | l :: ls => (l :: ls).getD (Config.staleChoice s.draws % (ls.length + 2)) (walk s lin)

/-- Records a lookup: the tables are in use, the walk used these entries (R96), and where there was a
choice the next one is taken at the next draw (R113). -/
def State.noteLookup (s : State) (lin : Dword) (entries : List Nat) : State :=
  { s with
    tablesUsed := true
    walked := entries.filter (fun p => !s.walked.contains p) ++ s.walked
    draws := if (oldLookups s lin).isEmpty then s.draws else s.draws + 1 }

/-- The error code of a page fault: bit 0 present, bit 1 write, bit 2 user level (R103, R344). -/
def pfCode (present : Bool) (acc : Access) (user : Bool) : Word :=
  (if present then 1 else 0) ||| (if acc = .write then 2 else 0) ||| (if user then 4 else 0)

/-- `raise PF(lin, ...)`: the linear address goes to CR2 (R103, R344). -/
def raisePF {α : Type} (lin : Dword) (present : Bool) (acc : Access) (user : Bool) : Exec α := fun s =>
  .error (.exc (.pf lin (pfCode present acc user))) { s with ctl := { s.ctl with cr2 := lin } }

/-- The physical address of a linear address in a frame. -/
def Translation.phys (t : Translation) (lin : Dword) : Nat := (t.frame ++ lin.extractLsb' 0 12).toNat

/-- `PageCheck(lin, kind, user)`: the physical address (R62, R99, R100, R103). -/
def pageCheck (acc : Access) (user : Bool) (lin : Dword) : Exec Nat := do
  let s ← getState
  if !s.paging then pure lin.toNat
  else
    update (·.noteLookup lin (lookup s lin).entries)
    match lookup s lin with
    | .noMemory => refuse .noMemory
    | .notPresent _ => raisePF lin false acc user
    | .mapped t _ =>
      if user && !t.user then raisePF lin true acc user
      else if user && acc == .write && !t.writable then raisePF lin true acc user
      else pure (t.phys lin)

/-- The page checks of `n` bytes at `lin` and on, each address taken modulo 2^32, in ascending order, and
their physical addresses (R103, R109). R103 names no order among the bytes: that the page fault and CR2
are those of the first byte that fails is this model's choice (DESIGN CHOICE; assumption log entry 33).
Each byte is looked up for itself, so that where a translation is out of date the bytes of one page may
take different ones, while R113 speaks of an access (DESIGN CHOICE; assumption log entry 6). -/
def pageCheckRange (acc : Access) (user : Bool) (lin : Dword) : Nat → Exec (List Nat)
  | 0 => pure []
  | n + 1 => do
    let p ← pageCheck acc user lin
    let ps ← pageCheckRange acc user (lin + 1) n
    pure (p :: ps)

/-- An access to physical addresses is refused where one of them is no memory (R62, D28). -/
def requireMemory (ps : List Nat) : Exec Unit := do
  let s ← getState
  if ps.all s.hasMemory then pure () else refuse .noMemory

/-- The physical addresses of the `n` bytes at `lin` and on of one access: every byte's page is checked
before any byte is moved, and only then is it asked whether there is memory to move (R62, R103, D3). -/
def translateRange (acc : Access) (user : Bool) (lin : Dword) (n : Nat) : Exec (List Nat) := do
  let ps ← pageCheckRange acc user lin n
  requireMemory ps
  pure ps

/-! ## Stores -/

/-- The physical address that a lookup of `lin` gives, if it gives one. -/
def Lookup.phys (l : Lookup) (lin : Dword) : List Nat :=
  match l with
  | .mapped t _ => [t.phys lin]
  | .notPresent _ => []
  | .noMemory => []

/-- The physical addresses at which the byte at a linear address may lie: that of the walk, and those of
the old translations (R62, R96, R113). -/
def State.addrsOf (s : State) (lin : Dword) : List Nat :=
  if !s.paging then [lin.toNat]
  else (walk s lin :: oldLookups s lin).flatMap fun l => l.phys lin

/-- Which of the next 16 bytes of the instruction stream, from the instruction after the one executing on,
a store of `cells` changes, as the translations stand before it (R112). -/
def State.ahead (s : State) (cells : List Host.Cell) : List Dword :=
  ((List.range 16).map fun k => s.nextCode + BitVec.ofNat 32 k).filter fun lin =>
    cells.any fun c => (s.addrsOf lin).contains c.1

/-- Stores bytes as one operation: those of the coming instruction stream are noted (R112), and while the
page tables are in use memory as it stood is kept for the translations made from it (R113). Bits 6 and 5 of
an entry that a walk has used stay open (R96). -/
def State.store (s : State) (cells : List Host.Cell) : State :=
  { s with
    mem := s.mem.writeAll cells
    pastMemory := if s.tablesUsed && !cells.isEmpty then s.mem :: s.pastMemory else s.pastMemory
    storedAhead := s.ahead cells ++ s.storedAhead }

/-- Stores bytes at physical addresses. -/
def State.storeBytes (s : State) (ps : List Nat) (bs : List Byte) : State := s.store (ps.zip bs)

/-! ## Reading and writing linear memory -/

/-- `n` bytes at `lin` in ascending order, at user or supervisor page level (R103, R104). -/
def readBytes (user : Bool) (lin : Dword) (n : Nat) : Exec (List Byte) := do
  let ps ← translateRange .read user lin n
  readPhys ps

/-- The checks of a write of bytes at `lin` and on, at user or supervisor page level: what it will store,
and where (R103, R104). An instruction that makes several stores prepares them all before the first
(R352). -/
def prepareWrite (user : Bool) (lin : Dword) (bs : List Byte) : Exec (List Host.Cell) := do
  let ps ← translateRange .write user lin bs.length
  pure (ps.zip bs)

/-- Writes bytes at `lin` and on, at user or supervisor page level (R103, R104). -/
def writeBytes (user : Bool) (lin : Dword) (bs : List Byte) : Exec Unit := do
  let cells ← prepareWrite user lin bs
  update (·.store cells)

/-- `MemRead(lin, n)` at the current page-level privilege (R103). -/
def memRead (lin : Dword) (n : Nat) : Exec (List Byte) := do
  let s ← getState
  readBytes s.userLevel lin n

/-- `MemWrite(lin, n, v)` at the current page-level privilege (R103). -/
def memWrite (lin : Dword) (bs : List Byte) : Exec Unit := do
  let s ← getState
  writeBytes s.userLevel lin bs

/-- `SysRead(lin, n)`: checked as a privilege-level-0 reference whatever CPL is (R104). -/
def sysRead (lin : Dword) (n : Nat) : Exec (List Byte) := readBytes false lin n

/-- `SysWrite(lin, n, v)`: checked as a privilege-level-0 reference whatever CPL is (R104). -/
def sysWrite (lin : Dword) (bs : List Byte) : Exec Unit := writeBytes false lin bs

/-- The page check of `n` bytes at `lin`, moving none (R103). -/
def checkBytes (acc : Access) (user : Bool) (lin : Dword) (n : Nat) : Exec Unit := do
  let _ ← pageCheckRange acc user lin n
  pure ()

end Sys2Proof.Machine
end

