-- ==== Sys2Proof/Machine/Descriptors.lean ====
section
/-! DEFINITION. Selectors, descriptors, the checks on an access through a segment register, and the loads
of segment registers (spec/20_memory.md sections 3 to 5, spec/40_segment_load.md). -/

namespace Sys2Proof.Machine

open Sys2Proof

/-! ## Selectors (R71, R87) -/

/-- The RPL of a selector, its lowest two bits (R71). -/
def selRpl (sel : Word) : Level := sel.extractLsb' 0 2

/-- TI: the selector names an entry of the current LDT (R71). -/
def selTI (sel : Word) : Bool := sel.getLsbD 2

/-- The byte offset of the descriptor in its table, INDEX * 8 (R71, R84). -/
def selOffset (sel : Word) : Nat := (sel.extractLsb' 3 13).toNat * 8

/-- The null selector: INDEX = 0 and TI = 0, whatever the RPL (R28, R71). -/
def isNull (sel : Word) : Bool := sel.extractLsb' 2 14 == 0

/-- `SelErr(sel)`, the error code that names a selector; EXT is 0 (R87, R348). -/
def selErr (sel : Word) : Word := sel &&& 0xFFFC

/-- The numerically larger of two privilege levels, `MAX` (R7). -/
def maxLevel (a b : Level) : Level := if a < b then b else a

/-! ## Descriptors (R72 to R79) -/

/-- A descriptor of 8 bytes as two doublewords (R72). -/
structure Desc where
  lo : Dword
  hi : Dword
deriving DecidableEq, Repr

/-- The descriptor whose eight bytes are given (R86, R108). -/
def descOf (bs : List Byte) : Desc where
  lo := dwordAt bs 0
  hi := dwordAt bs 4

/-- Bit S: a code or data segment (R73). -/
def Desc.isSeg (d : Desc) : Bool := d.hi.getLsbD 12

/-- A code segment (R73). -/
def Desc.isCode (d : Desc) : Bool := d.isSeg && d.hi.getLsbD 11

/-- A data segment (R73). -/
def Desc.isData (d : Desc) : Bool := d.isSeg && !d.hi.getLsbD 11

/-- A conforming code segment (R73, R189). -/
def Desc.conforming (d : Desc) : Bool := d.isCode && d.hi.getLsbD 10

/-- A data segment, or a readable code segment (R73). -/
def Desc.readable (d : Desc) : Bool := d.isData || (d.isCode && d.hi.getLsbD 9)

/-- A writable data segment (R73). -/
def Desc.writable (d : Desc) : Bool := d.isData && d.hi.getLsbD 9

/-- The descriptor privilege level (R72). -/
def Desc.dpl (d : Desc) : Level := d.hi.extractLsb' 13 2

/-- The present bit P (R72). -/
def Desc.present (d : Desc) : Bool := d.hi.getLsbD 15

/-- The D or B bit (R72, R75). -/
def Desc.big (d : Desc) : Bool := d.hi.getLsbD 22

/-- The accessed bit A of a code or data segment (R73, R88). -/
def Desc.accessed (d : Desc) : Bool := d.hi.getLsbD 8

/-- TYPE: the type of a segment, or the system type code of R76. -/
def Desc.typ (d : Desc) : BitVec 4 := d.hi.extractLsb' 8 4

/-- BASE (R72). -/
def Desc.base (d : Desc) : Dword :=
  d.hi.extractLsb' 24 8 ++ d.hi.extractLsb' 0 8 ++ d.lo.extractLsb' 16 16

/-- LIMIT, 20 bits (R72). -/
def Desc.limit (d : Desc) : BitVec 20 := d.hi.extractLsb' 16 4 ++ d.lo.extractLsb' 0 16

/-- `EffLimit(d)`: with G = 1 the limit scaled by `shl(X, 12, 1)` (R8, R74). -/
def Desc.effLimit (d : Desc) : Dword :=
  if d.hi.getLsbD 23 then d.limit ++ (0xFFF : BitVec 12) else d.limit.zeroExtend 32

/-- The access byte of a descriptor, `hi[15:8]` (R108). -/
def Desc.accessByte (d : Desc) : Byte := d.hi.extractLsb' 8 8

/-- The selector field of a gate (R78, R79). -/
def Desc.gateSelector (d : Desc) : Word := d.lo.extractLsb' 16 16

/-- The offset field of a call, trap or interrupt gate (R78). -/
def Desc.gateOffset (d : Desc) : Dword := d.hi.extractLsb' 16 16 ++ d.lo.extractLsb' 0 16

/-- The doubleword count of a call gate (R78). -/
def Desc.gateCount (d : Desc) : Nat := (d.hi.extractLsb' 0 5).toNat

/-- `Cache(sel, d)`: what a segment register holds after it is loaded, A set (R164). -/
def cacheOf (sel : Word) (d : Desc) : SegReg where
  sel := sel
  valid := true
  base := d.base
  limit := d.effLimit
  s := true
  typ := d.typ ||| 1
  db := d.big
  dpl := d.dpl

/-! ## The parts of a segment register (R73, R26) -/

/-- The register holds an executable segment. -/
def SegReg.code (g : SegReg) : Bool := g.typ.getLsbD 3

/-- The register holds an expand-down data segment. -/
def SegReg.expandDown (g : SegReg) : Bool := !g.typ.getLsbD 3 && g.typ.getLsbD 2

/-- The register holds a conforming code segment. -/
def SegReg.conformingCode (g : SegReg) : Bool := g.typ.getLsbD 3 && g.typ.getLsbD 2

/-- The register holds a data segment, or a readable code segment. -/
def SegReg.canRead (g : SegReg) : Bool := !g.typ.getLsbD 3 || g.typ.getLsbD 1

/-- The register holds a writable data segment. -/
def SegReg.canWrite (g : SegReg) : Bool := !g.typ.getLsbD 3 && g.typ.getLsbD 1

/-! ## Limit and type checks (R90, R91) -/

/-- `LimitOK(S, off, n)`: the `n` bytes from `off` lie inside the segment; unbounded arithmetic (R91). -/
def limitOK (g : SegReg) (off n : Nat) : Bool :=
  if g.expandDown then
    decide (g.limit.toNat < off) && decide (off + n - 1 ≤ (if g.db then 0xFFFFFFFF else 0xFFFF))
  else decide (off + n - 1 ≤ g.limit.toNat)

/-- `SegCheck(S, off, n, kind)`: null selector, type and limit, in this order; the linear address (R70,
R90). A limit violation through SS is a stack fault. -/
def segCheck (name : SegName) (off : Dword) (n : Nat) (wr : Bool) : Exec Dword := do
  let s ← getState
  let g := s.segs.get name
  if !g.valid then raise (.gp 0)
  else if wr && g.code then raise (.gp 0)
  else if wr && !g.canWrite then raise (.gp 0)
  else if !wr && !g.canRead then raise (.gp 0)
  else if !limitOK g off.toNat n then
    if name = .ss then raise (.sf 0) else raise (.gp 0)
  else pure (g.base + off)

/-- `SegRead(S, off, n)` (R90). -/
def segRead (name : SegName) (off : Dword) (n : Nat) : Exec (List Byte) := do
  let a ← segCheck name off n false
  memRead a n

/-- `SegWrite(S, off, n, v)` (R90). -/
def segWrite (name : SegName) (off : Dword) (bs : List Byte) : Exec Unit := do
  let a ← segCheck name off bs.length true
  memWrite a bs

/-- Reads a word through a segment register. -/
def segReadWord (name : SegName) (off : Dword) : Exec Word := do
  let bs ← segRead name off 2
  pure (wordAt bs 0)

/-- Reads a doubleword through a segment register. -/
def segReadDword (name : SegName) (off : Dword) : Exec Dword := do
  let bs ← segRead name off 4
  pure (dwordAt bs 0)

/-- ESP after `n` doublewords are pushed, modulo 2^32 (R93, R181). -/
def Regs.pushed (x : Regs) (n : Nat) : Dword := x.esp - BitVec.ofNat 32 (4 * n)

/-- Writes ESP. -/
def State.withEsp (s : State) (v : Dword) : State := { s with regs := { s.regs with esp := v } }

/-- All the checks of `PushAll`: the segment check and the page check of every byte; what will be stored,
the first doubleword highest (R181). With ESP = 0 the prose of R181 says SF(0), as for every ESP below
`4 * k`, but its access ends at FFFFFFFFH exactly and passes `LimitOK` in a stack of limit FFFFFFFFH: that
the model goes by the pseudocode and pushes is its choice (DESIGN CHOICE; assumption log entry 46). -/
def preparePush (vs : List Dword) : Exec (List Host.Cell) := do
  let s ← getState
  let a ← segCheck .ss (s.regs.pushed vs.length) (4 * vs.length) true
  prepareWrite s.userLevel a (vs.reverse.flatMap dwordBytes)

/-- `PushAll([v1, ..., vk])`: all checks, then all stores, then ESP (R93, R181). -/
def pushAll (vs : List Dword) : Exec Unit := do
  let cells ← preparePush vs
  update fun s => (s.store cells).withEsp (s.regs.pushed vs.length)

/-! ## Descriptor tables (R84 to R88) -/

/-- The base of the table a selector names an entry of (R84). -/
def State.tableBase (s : State) (sel : Word) : Dword := if selTI sel then s.ldtr.base else s.gdtr.base

/-- A selector is within its table (R85). -/
def State.inTable (s : State) (sel : Word) : Bool :=
  if selTI sel then s.ldtr.valid && decide (selOffset sel + 7 ≤ s.ldtr.limit.toNat)
  else decide (selOffset sel + 7 ≤ s.gdtr.limit.toNat)

/-- The linear address of the descriptor a selector names (R84, R86). -/
def State.descAddr (s : State) (sel : Word) : Dword :=
  s.tableBase sel + BitVec.ofNat 32 (selOffset sel)

/-- `ReadDesc(sel)`: none when the selector is out of its table (R86). -/
def readDesc (sel : Word) : Exec (Option Desc) := do
  let s ← getState
  if s.inTable sel then
    let bs ← sysRead (s.descAddr sel) 8
    pure (some (descOf bs))
  else pure none

/-- `ReadDesc(sel)` where a selector out of its table raises `e`. -/
def readDescOr (sel : Word) (e : Exception) : Exec Desc := do
  match ← readDesc sel with
  | some d => pure d
  | none => raise e

/-- The checks of `SetAccessed(sel, d)`: when A is 0, the access byte will be stored with A = 1 (R88). -/
def prepareAccessed (sel : Word) (d : Desc) : Exec (List Host.Cell) := do
  let s ← getState
  if d.accessed then pure []
  else prepareWrite false (s.descAddr sel + 5) [d.accessByte ||| 1]

/-- `SetAccessed(sel, d)` (R88). -/
def setAccessed (sel : Word) (d : Desc) : Exec Unit := do
  let cells ← prepareAccessed sel d
  update (·.store cells)

/-! ## Loading segment registers (spec/40_segment_load.md) -/

/-- `DataPrivOK(sel, d)` for the privilege level `cpl` (R162). -/
def dataPrivOK (cpl : Level) (sel : Word) (d : Desc) : Bool := decide (maxLevel cpl (selRpl sel) ≤ d.dpl)

/-- Replaces a segment register. -/
def State.withSeg (s : State) (name : SegName) (g : SegReg) : State :=
  { s with segs := s.segs.set name g }

/-- A segment register after the null selector `sel` is loaded: invalid, the other parts without
meaning (R163). -/
def SegReg.withNull (g : SegReg) (sel : Word) : SegReg := { g with sel := sel, valid := false }

/-- `LoadDataSeg(S, sel)` (R164). -/
def loadDataSeg (name : SegName) (sel : Word) : Exec Unit := do
  if isNull sel then
    update fun s => s.withSeg name ((s.segs.get name).withNull sel)
  else
    let d ← readDescOr sel (.gp (selErr sel))
    let s ← getState
    if !d.isSeg then raise (.gp (selErr sel))
    else if d.isCode && !d.readable then raise (.gp (selErr sel))
    else if !d.conforming && !dataPrivOK s.cpl sel d then raise (.gp (selErr sel))
    else if !d.present then raise (.np (selErr sel))
    else
      setAccessed sel d
      update fun s => s.withSeg name (cacheOf sel d)

/-- `LoadSS(sel, lvl)` for MOV, where `lvl` is CPL (R165). -/
def loadSS (sel : Word) : Exec Unit := do
  if isNull sel then raise (.gp 0)
  else
    let d ← readDescOr sel (.gp (selErr sel))
    let s ← getState
    if selRpl sel != s.cpl then raise (.gp (selErr sel))
    else if !d.writable then raise (.gp (selErr sel))
    else if d.dpl != s.cpl then raise (.gp (selErr sel))
    else if !d.present then raise (.sf (selErr sel))
    else if !d.big then refuse .sixteenBitForm
    else
      setAccessed sel d
      update fun s => s.withSeg .ss (cacheOf sel d)

/-- CS and CPL after a far transfer: the selector's RPL becomes the new level (R29, R172). -/
def State.withCS (s : State) (sel : Word) (d : Desc) (lvl : Level) : State :=
  { s with
    segs := { s.segs with cs := cacheOf (sel.extractLsb' 2 14 ++ lvl) d }
    cpl := lvl }

/-- The prefetched bytes are discarded (R112). -/
def State.discardPrefetch (s : State) : State := { s with storedAhead := [] }

/-- Control goes to `target` (R112). -/
def State.jumpTo (s : State) (target : Dword) : State := { s.discardPrefetch with eip := target }

/-- A code segment with D = 0 is refused (R75, D8). -/
def require32 (d : Desc) : Exec Unit := if d.big then pure () else refuse .sixteenBitForm

/-- The end of a far transfer at the current level: `LoadCS(sel, d, CPL)` and `pc <- target` (R172), with
the stores `pushed` of the transfer's push, whose checks are made, and the new ESP. The accessed bit is
checked as a write before the first store, so that a page fault of it finds nothing changed (R352;
assumption log entry 37). -/
def enterCode (sel : Word) (d : Desc) (target : Dword) (pushed : List Host.Cell) (esp : Dword) :
    Exec Unit := do
  require32 d
  let mark ← prepareAccessed sel d
  update fun s => (((s.store (pushed ++ mark)).withEsp esp).withCS sel d s.cpl).jumpTo target

/-- `TargetOK(limit, off)` (R181). -/
def targetOK (limit off : Dword) : Bool := decide (off.toNat ≤ limit.toNat)

/-- The instruction ends without transferring control: `pc <- next_eip` (R24). -/
def advance : Exec Unit := update fun s => { s with eip := s.nextEip }

/-- The target limit check of a near transfer, against the cached limit of CS (R181, R182). -/
def nearTarget (target : Dword) : Exec Unit := do
  let s ← getState
  if targetOK s.segs.cs.limit target then pure () else raise (.gp 0)

/-- `Privileged()`: the first line of every privileged instruction (R231). -/
def privileged : Exec Unit := do
  let s ← getState
  if s.cpl = 0 then pure () else raise (.gp 0)

end Sys2Proof.Machine
end

