-- ==== Sys2Proof/Machine/Operands.lean ====
section
/-! DEFINITION. The operand forms: the offset of a memory operand, and reading and writing an `r/m`
operand (spec/30_encoding.md R143 to R145; spec/20_memory.md R64, R83, R110). -/

namespace Sys2Proof.Machine

open Sys2Proof

/-- `m.off`: base + index * 2^scale + disp, modulo 2^32 (R144). -/
def effectiveOffset (x : Regs) (m : MemOperand) : Dword :=
  (match m.base with
    | some b => x.get b
    | none => 0)
  + (match m.index with
    | some (i, scale) => x.get i <<< scale.toNat
    | none => 0)
  + m.disp

/-- Reads an `r/m16` operand: `x16[rm]` or `SegRead(m.seg, m.off, 2)`. -/
def readRM16 : RM → Exec Word
  | .reg r => do
    let s ← getState
    pure (s.regs.get16 r)
  | .mem m => do
    let s ← getState
    segReadWord m.seg (effectiveOffset s.regs m)

/-- Reads an `r/m32` operand: `x[rm]` or `SegRead(m.seg, m.off, 4)`. -/
def readRM32 : RM → Exec Dword
  | .reg r => do
    let s ← getState
    pure (s.regs.get r)
  | .mem m => do
    let s ← getState
    segReadDword m.seg (effectiveOffset s.regs m)

/-- Writes register `r` (R10). -/
def setReg (r : Reg) (v : Dword) : Exec Unit := update fun s => { s with regs := s.regs.set r v }

/-- Writes the low 16 bits of register `r` (R10, R21). -/
def setReg16 (r : Reg) (v : Word) : Exec Unit := update fun s => { s with regs := s.regs.set16 r v }

/-- Writes an `r/m16` operand: `x16[rm] <- v` or `SegWrite(m.seg, m.off, 2, v)`. -/
def writeRM16 (x : RM) (v : Word) : Exec Unit :=
  match x with
  | .reg r => setReg16 r v
  | .mem m => do
    let s ← getState
    segWrite m.seg (effectiveOffset s.regs m) (wordBytes v)

/-- The access to an `r/m16` operand checked as a write of 2 bytes, moving none (R260, D9). -/
def checkWritableRM16 : RM → Exec Unit
  | .reg _ => pure ()
  | .mem m => do
    let s ← getState
    let a ← segCheck m.seg (effectiveOffset s.regs m) 2 true
    checkBytes .write s.userLevel a 2

/-- Reads an `m16:32` operand, 6 bytes: the offset, then the selector; a register operand raises UD
(R83, R146, R187). -/
def readFarPointer : RM → Exec (Word × Dword)
  | .reg _ => raise .ud
  | .mem m => do
    let s ← getState
    let bs ← segRead m.seg (effectiveOffset s.regs m) 6
    pure (wordAt bs 4, dwordAt bs 0)

/-- Reads the 6-byte operand of LGDT and LIDT: the 16-bit limit, then the 32-bit base; a register operand
raises UD (R145, R233). -/
def readTableOperand : RM → Exec TableReg
  | .reg _ => raise .ud
  | .mem m => do
    let s ← getState
    let limit ← segReadWord m.seg (effectiveOffset s.regs m)
    let base ← segReadDword m.seg (effectiveOffset s.regs m + 2)
    pure (TableReg.mk base limit)

end Sys2Proof.Machine
end

