-- ==== Sys2Proof/Machine/TaskSwitch.lean ====
section
/-! DEFINITION. The task switch: its five steps (spec/44_multitasking.md section 4), the busy bit (R301)
and the validation of the incoming task (R312). Field offsets of a TSS are those of
spec/20_memory.md R80. -/

namespace Sys2Proof.Machine

open Sys2Proof

/-- What causes a task switch (R300); `int` is an interrupt instruction or an exception through a task
gate. -/
inductive SwitchCause where
  | jmp
  | call
  | int
  | iret
deriving DecidableEq, Repr

/-- The switch is nested: the incoming task gets a back link and NT (R306, the CALL column). -/
def SwitchCause.nests : SwitchCause → Bool
  | .call => true
  | .int => true
  | _ => false

/-- The outgoing task's busy bit is cleared (R306, the JMP and IRET columns). -/
def SwitchCause.frees : SwitchCause → Bool
  | .jmp => true
  | .iret => true
  | _ => false

/-- The linear address of the access byte of the GDT descriptor of a selector, byte 5 (R301). -/
def State.gdtAccessAddr (s : State) (sel : Word) : Dword :=
  s.gdtr.base + BitVec.ofNat 32 (selOffset sel + 5)

/-- The page checks of the access byte of a GDT descriptor, and the physical addresses at which it is read
and written (R301). -/
def accessByteAddrs (sel : Word) : Exec (Nat × Nat) := do
  let s ← getState
  let r ← pageCheck .read false (s.gdtAccessAddr sel)
  let w ← pageCheck .write false (s.gdtAccessAddr sel)
  pure (r, w)

/-- Changes the access byte whose addresses are given: one locked read and write (R301). -/
def changeAccessByte (f : Byte → Byte) (at_ : Nat × Nat) : Exec Unit := do
  let bs ← readPhys [at_.1]
  update (·.store [(at_.2, f (bs.getD 0 0))])

/-- The access byte of a TSS descriptor with the busy bit set (R301). -/
def busyByte (b : Byte) : Byte := b ||| 0x02

/-- The access byte of a TSS descriptor with the busy bit cleared (R301). -/
def freeByte (b : Byte) : Byte := b &&& 0xFD

/-- `SetBusy(sel)` (R301). -/
def setBusy (sel : Word) : Exec Unit := do
  let at_ ← accessByteAddrs sel
  requireMemory [at_.1, at_.2]
  changeAccessByte busyByte at_

/-- The exception a selector or descriptor that is no proper TSS raises: TS for IRET, else GP (R300). -/
def switchError (cause : SwitchCause) (sel : Word) : Exception :=
  if cause = .iret then .ts (selErr sel) else .gp (selErr sel)

/-- The incoming TSS descriptor, found in the GDT and checked: type and busy bit (R284, R306, R307), then
step 2, present and limit (R298). -/
def incomingTss (cause : SwitchCause) (tsel : Word) : Exec Desc := do
  let s ← getState
  if isNull tsel || selTI tsel then raise (switchError cause tsel)
  else if !s.inTable tsel then raise (switchError cause tsel)
  else
    let bs ← sysRead (s.descAddr tsel) 8
    let d := descOf bs
    if d.isSeg then raise (switchError cause tsel)
    else if d.typ = 1 || d.typ = 3 then refuse .sixteenBitForm
    else if cause = .iret && d.typ != 0xB then raise (.ts (selErr tsel))
    else if cause != .iret && d.typ != 9 then raise (.gp (selErr tsel))
    else if !d.present then raise (.np (selErr tsel))
    else if d.effLimit.toNat < 103 then raise (.ts (selErr tsel))
    else pure d

/-- The physical addresses of all the bytes that a task switch reads and stores. -/
structure SwitchPages where
  /-- Bytes 32 to 93 of the outgoing TSS. -/
  saved : List Nat
  /-- The 104 bytes of the incoming TSS. -/
  image : List Nat
  /-- The back link of the incoming TSS, where it is written. -/
  link : List Nat
  /-- The access byte of the outgoing descriptor, where its busy bit is cleared. -/
  freed : Option (Nat × Nat)
  /-- The access byte of the incoming descriptor, where its busy bit is set. -/
  busied : Option (Nat × Nat)
deriving DecidableEq, Repr

/-- The addresses of an access byte, where there is one. -/
def accessByteList (at_ : Option (Nat × Nat)) : List Nat := at_.toList.flatMap fun a => [a.1, a.2]

/-- All of the addresses. -/
def SwitchPages.all (g : SwitchPages) : List Nat :=
  g.saved ++ g.image ++ g.link ++ accessByteList g.freed ++ accessByteList g.busied

/-- `accessByteAddrs`, where the byte is changed. -/
def accessByteAddrsIf (changed : Bool) (sel : Word) : Exec (Option (Nat × Nat)) := do
  if changed then
    let at_ ← accessByteAddrs sel
    pure (some at_)
  else pure none

/-- The page checks made before the first write, all as level-0 references: the dynamic fields of the
outgoing TSS, the incoming TSS, its back link where it is written (R300, R404), and the access bytes that
the busy bits lie in. R300's page-check line does not name these last ones: that they too are checked
here, before the outgoing state is saved, is this model's choice, for R352's sake (assumption log entry
21). After them all, an access where there is no memory is refused (R62). The outgoing TSS lies where
TR.base says, whatever TR holds; before LTR that is its value at reset (assumption log entry 43). -/
def prepareSwitch (cause : SwitchCause) (tsel : Word) (d : Desc) : Exec SwitchPages := do
  let s ← getState
  let saved ← pageCheckRange .write false (s.tr.base + 32) 62
  let image ← pageCheckRange .read false d.base 104
  let link ← pageCheckRange .write false d.base (if cause.nests then 2 else 0)
  let freed ← accessByteAddrsIf cause.frees s.tr.sel
  let busied ← accessByteAddrsIf (cause != .iret) tsel
  let pages := SwitchPages.mk saved image link freed busied
  requireMemory pages.all
  pure pages

/-- What is stored into the outgoing TSS, whose bytes from 32 on lie at the physical addresses `ps`: EIP,
EFLAGS, for an IRET with NT cleared (R306), the eight general registers and the six selectors (R80,
R299). -/
def State.savedCells (s : State) (cause : SwitchCause) (retEip : Dword) (ps : List Nat) :
    List Host.Cell :=
  let fl := if cause = .iret then withBit s.eflags bitNT false else s.eflags
  let x := s.regs
  ps.zip ([retEip, fl, x.eax, x.ecx, x.edx, x.ebx, x.esp, x.ebp, x.esi, x.edi].flatMap dwordBytes)
    ++ (ps.drop 40).zip (wordBytes s.segs.es.sel)
    ++ (ps.drop 44).zip (wordBytes s.segs.cs.sel)
    ++ (ps.drop 48).zip (wordBytes s.segs.ss.sel)
    ++ (ps.drop 52).zip (wordBytes s.segs.ds.sel)
    ++ (ps.drop 56).zip (wordBytes s.segs.fs.sel)
    ++ (ps.drop 60).zip (wordBytes s.segs.gs.sel)

/-- Step 3: the dynamic fields of the outgoing TSS are written (R299). -/
def saveOutgoing (cause : SwitchCause) (retEip : Dword) (ps : List Nat) : Exec Unit :=
  update fun s => s.store (s.savedCells cause retEip ps)

/-- Changes the access byte of a descriptor where there is one to change. -/
def changeAccessByteIf (f : Byte → Byte) : Option (Nat × Nat) → Exec Unit
  | some at_ => changeAccessByte f at_
  | none => pure ()

/-- The busy bits, step 4 and the back link: TR names the incoming task, TS is set, and the back link of
the incoming TSS names the outgoing one where the switch nests (R300, R302, R306). -/
def linkTasks (tsel : Word) (d : Desc) (pages : SwitchPages) : Exec Unit := do
  let s ← getState
  changeAccessByteIf freeByte pages.freed
  changeAccessByteIf busyByte pages.busied
  update fun t =>
    { t.store (pages.link.zip (wordBytes s.tr.sel)) with
      tr := TaskReg.mk tsel d.base d.effLimit
      ctl := { t.ctl with cr0 := withBit t.ctl.cr0 bitTS true } }

/-- EFLAGS of the incoming task from its image: NT set, cleared or as saved (R300, R306). -/
def incomingFlags (cause : SwitchCause) (image : Dword) : Dword :=
  match cause with
  | .jmp => eflagsOf (withBit image bitNT false)
  | .call => eflagsOf (withBit image bitNT true)
  | .int => eflagsOf (withBit image bitNT true)
  | .iret => eflagsOf image

/-- The registers after the first half of step 5: everything of the incoming TSS image, the segment
registers and LDTR not valid yet, CPL the RPL of the new CS, CR3 only with paging (R300, R303). -/
def State.withTssImage (s : State) (cause : SwitchCause) (img : List Byte) : State :=
  { s with
    eip := dwordAt img 32
    eflags := incomingFlags cause (dwordAt img 36)
    regs := Regs.mk (dwordAt img 40) (dwordAt img 44) (dwordAt img 48) (dwordAt img 52)
      (dwordAt img 56) (dwordAt img 60) (dwordAt img 64) (dwordAt img 68)
    ctl := if s.paging then { s.ctl with cr3 := cr3Of (dwordAt img 28) } else s.ctl
    tablesUsed := if s.paging then false else s.tablesUsed
    pastMemory := if s.paging then [] else s.pastMemory
    segs :=
      { es := s.segs.es.withNull (wordAt img 72)
        cs := s.segs.cs.withNull (wordAt img 76)
        ss := s.segs.ss.withNull (wordAt img 80)
        ds := s.segs.ds.withNull (wordAt img 84)
        fs := s.segs.fs.withNull (wordAt img 88)
        gs := s.segs.gs.withNull (wordAt img 92) }
    ldtr := { s.ldtr with sel := wordAt img 96, valid := false }
    cpl := selRpl (wordAt img 76) }

/-- The LDT of the incoming task (R312). -/
def loadTaskLdt : Exec Unit := do
  let s ← getState
  let sel := s.ldtr.sel
  if isNull sel then pure ()
  else if selTI sel then raise (.ts (selErr sel))
  else
    let d ← readDescOr sel (.ts (selErr sel))
    if d.isSeg || d.typ != 2 || !d.present then raise (.ts (selErr sel))
    else update fun s => { s with ldtr := LdtReg.mk sel d.base d.effLimit true }

/-- CS of the incoming task (R312). -/
def loadTaskCS : Exec Unit := do
  let s ← getState
  let sel := s.segs.cs.sel
  if isNull sel then raise (.ts (selErr sel))
  else
    let d ← readDescOr sel (.ts (selErr sel))
    if !d.isCode then raise (.ts (selErr sel))
    else if d.conforming && decide (s.cpl < d.dpl) then raise (.ts (selErr sel))
    else if !d.conforming && d.dpl != s.cpl then raise (.ts (selErr sel))
    else if !d.present then raise (.np (selErr sel))
    else
      require32 d
      setAccessed sel d
      update fun t => t.withCS sel d s.cpl

/-- SS of the incoming task (R312). -/
def loadTaskSS : Exec Unit := do
  let s ← getState
  let sel := s.segs.ss.sel
  if isNull sel then raise (.ts (selErr sel))
  else
    let d ← readDescOr sel (.ts (selErr sel))
    if selRpl sel != s.cpl || !d.writable || d.dpl != s.cpl then raise (.ts (selErr sel))
    else if !d.present then raise (.sf (selErr sel))
    else
      require32 d
      setAccessed sel d
      update fun t => t.withSeg .ss (cacheOf sel d)

/-- DS, ES, FS or GS of the incoming task (R312). -/
def loadTaskData (name : SegName) : Exec Unit := do
  let s ← getState
  let sel := (s.segs.get name).sel
  if isNull sel then pure ()
  else
    let d ← readDescOr sel (.ts (selErr sel))
    if !d.isSeg || (d.isCode && !d.readable) then raise (.ts (selErr sel))
    else if !d.conforming && !dataPrivOK s.cpl sel d then raise (.ts (selErr sel))
    else if !d.present then raise (.np (selErr sel))
    else
      setAccessed sel d
      update fun t => t.withSeg name (cacheOf sel d)

/-- `LoadTaskSegments`: LDT, CS, SS, then DS, ES, FS and GS in that order (R312). -/
def loadTaskSegments : Exec Unit := do
  loadTaskLdt
  loadTaskCS
  loadTaskSS
  loadTaskData .ds
  loadTaskData .es
  loadTaskData .fs
  loadTaskData .gs

/-- `m` is part of a transfer that is taken: however it ends, the prefetched bytes are discarded (R112). -/
def whileTaken (m : Exec Unit) : Exec Unit := fun s =>
  match m s with
  | .ok _ t => .ok () t.discardPrefetch
  | .error e t => .error e t.discardPrefetch

/-- The validation of the incoming task: its segments, then its EIP (R300, R312). -/
def validateTask : Exec Unit := do
  loadTaskSegments
  let s ← getState
  if targetOK s.segs.cs.limit s.eip then pure () else raise (.gp 0)

/-- Step 5: the incoming state is loaded from the image at the physical addresses `ps` and validated
(R303); the answer is its T-bit (R305). An image with VM = 1 is refused (D29). The prefetched bytes are
discarded when the step is over, also where it raises in the context of the incoming task, so that the
accessed bits it stored make none of them stale (R112; assumption log entry 28). -/
def loadIncoming (cause : SwitchCause) (ps : List Nat) : Exec Bool := do
  let img ← readPhys ps
  if (dwordAt img 36).getLsbD bitVM then refuse .virtual8086Mode
  else
    update fun s => s.withTssImage cause img
    whileTaken validateTask
    pure ((wordAt img 100).getLsbD 0)

/-- `TaskSwitch(cause, tsel, ret_eip)` up to its last line (R300): the answer is the incoming T-bit, on
which the caller raises DB (R305). -/
def taskSwitch (cause : SwitchCause) (tsel : Word) (retEip : Dword) : Exec Bool := do
  let d ← incomingTss cause tsel
  let pages ← prepareSwitch cause tsel d
  saveOutgoing cause retEip pages.saved
  linkTasks tsel d pages
  loadIncoming cause pages.image

/-- A task switch made by an instruction: DB is raised after it when the T-bit asks for it (R300, R305). -/
def switchByInstruction (cause : SwitchCause) (tsel : Word) : Exec Unit := do
  let s ← getState
  let trap ← taskSwitch cause tsel s.nextEip
  if trap then raise .db else pure ()

end Sys2Proof.Machine
end

