-- ==== Sys2Proof/Machine/Ops.lean ====
section
/-! DEFINITION. The operations that instructions share and that change the privilege level: far transfers
and call gates (spec/41_control_transfer.md sections 3 to 6), far return (section 7), TAKING AN
EXCEPTION and entry through a gate of the IDT (spec/60_exceptions.md R357), the return from one (R358),
and how a meaning ends (R355). -/

namespace Sys2Proof.Machine

open Sys2Proof

/-! ## The stack switch (R203 to R207) -/

/-- The stack of a more privileged level: its ESP from the current TSS, its selector and its descriptor,
checked (R204). -/
def innerStack (new : Level) : Exec (Dword × Word × Desc) := do
  let s ← getState
  if s.tr.limit.toNat < 4 + 8 * new.toNat + 7 then raise (.ts (selErr s.tr.sel))
  else
    let espBytes ← sysRead (s.tr.base + BitVec.ofNat 32 (4 + 8 * new.toNat)) 4
    let ssBytes ← sysRead (s.tr.base + BitVec.ofNat 32 (8 + 8 * new.toNat)) 2
    let nss := wordAt ssBytes 0
    if isNull nss then raise (.gp 0)
    else
      let d ← readDescOr nss (.gp (selErr nss))
      if selRpl nss != new then raise (.gp (selErr nss))
      else if !d.writable then raise (.gp (selErr nss))
      else if d.dpl != new then raise (.sf (selErr nss))
      else if !d.present then raise (.sf (selErr nss))
      else if !d.big then refuse .sixteenBitForm
      else pure (dwordAt espBytes 0, nss, d)

/-- SS and ESP after a stack switch or an interlevel return. -/
def State.withStack (s : State) (sel : Word) (d : Desc) (esp : Dword) : State :=
  { s with
    segs := { s.segs with ss := cacheOf sel d }
    regs := { s.regs with esp := esp } }

/-- An inward transfer to `target` in the code segment `t`, at its DPL: the new stack is found and must
hold `count` doublewords, which `frame` reads in the order they are pushed; then, every check being made,
those of the accessed bits too (R352; assumption log entry 37), they are pushed with level-0 page rights
and control goes to the target (R204 to R207; R357). -/
def innerTransfer (tsel : Word) (t : Desc) (target : Dword) (count : Nat) (frame : Exec (List Dword)) :
    Exec Unit := do
  let (nesp, nss, d) ← innerStack t.dpl
  let top := nesp - BitVec.ofNat 32 (4 * count)
  if !limitOK (cacheOf nss d) top.toNat (4 * count) then raise (.sf 0)
  else if !targetOK t.effLimit target then raise (.gp 0)
  else
    let vs ← frame
    let pushed ← prepareWrite false (d.base + top) (vs.reverse.flatMap dwordBytes)
    require32 t
    let stackMark ← prepareAccessed nss d
    let codeMark ← prepareAccessed tsel t
    update fun s =>
      (((s.store (stackMark ++ pushed ++ codeMark)).withCS tsel t t.dpl).withStack nss d top).jumpTo
        target

/-! ## Far JMP and CALL (R187 to R201) -/

/-- The two instructions that make a far transfer. -/
inductive FarKind where
  | jmp
  | call
deriving DecidableEq, Repr

/-- The cause of the task switch that a far JMP or CALL makes (R289, R290). -/
def FarKind.cause : FarKind → SwitchCause
  | .jmp => .jmp
  | .call => .call

/-- The return pointer of a far CALL: the CS selector and `next_eip`, in the order they are pushed
(R191). -/
def State.farReturnPointer (s : State) : List Dword := [s.segs.cs.sel.zeroExtend 32, s.nextEip]

/-- Pushes `vs` and enters the code segment `d` that `sel` names, at the current level: every check comes
before the first store (R181, R172, R352). -/
def pushAndEnter (sel : Word) (d : Desc) (target : Dword) (vs : List Dword) : Exec Unit := do
  let pushed ← preparePush vs
  let s ← getState
  enterCode sel d target pushed (s.regs.pushed vs.length)

/-- The end of a far transfer at the current privilege level: present and target checks, the push of a
CALL, CS and EIP (R190, R191, R200, R201). -/
def sameLevelTransfer (kind : FarKind) (sel : Word) (d : Desc) (target : Dword) : Exec Unit := do
  let s ← getState
  if !d.present then raise (.np (selErr sel))
  else if !targetOK d.effLimit target then raise (.gp 0)
  else
    match kind with
    | .jmp => enterCode sel d target [] s.regs.esp
    | .call => pushAndEnter sel d target s.farReturnPointer

/-- `DirectTransfer(kind, sel, off, d)` (R188, R190, R191). -/
def directTransfer (kind : FarKind) (sel : Word) (off : Dword) (d : Desc) : Exec Unit := do
  let s ← getState
  if d.conforming && decide (s.cpl < d.dpl) then raise (.gp (selErr sel))
  else if !d.conforming && decide (s.cpl < selRpl sel) then raise (.gp (selErr sel))
  else if !d.conforming && d.dpl != s.cpl then raise (.gp (selErr sel))
  else sameLevelTransfer kind sel d off

/-- The code segment a gate names: not null, in its table, executable (R200). -/
def gateTarget (tsel : Word) : Exec Desc := do
  if isNull tsel then raise (.gp 0)
  else
    let t ← readDescOr tsel (.gp (selErr tsel))
    if !t.isCode then raise (.gp (selErr tsel)) else pure t

/-- The parameters of an inward CALL, read from the caller's stack: doubleword `i` at `ESP + 4*i`, for
`i` from `i` on (R204, R206). -/
def readParams (i : Nat) : Nat → Exec (List Dword)
  | 0 => pure []
  | n + 1 => do
    let s ← getState
    let p ← segReadDword .ss (s.regs.esp + BitVec.ofNat 32 (4 * i))
    let ps ← readParams (i + 1) n
    pure (p :: ps)

/-- What an inward CALL pushes: old SS, old ESP, the parameters from the last to the first, old CS and
`next_eip` (R205, R206). -/
def callFrame (count : Nat) : Exec (List Dword) := do
  let ps ← readParams 0 count
  let s ← getState
  pure ([s.segs.ss.sel.zeroExtend 32, s.regs.esp] ++ ps.reverse ++ s.farReturnPointer)

/-- `GateTransfer(kind, sel, g)` through a call gate (R196 to R201). -/
def gateTransfer (kind : FarKind) (sel : Word) (g : Desc) : Exec Unit := do
  let s ← getState
  if g.dpl < maxLevel s.cpl (selRpl sel) then raise (.gp (selErr sel))
  else if !g.present then raise (.np (selErr sel))
  else
    let t ← gateTarget g.gateSelector
    match kind with
    | .jmp =>
      if t.conforming && decide (s.cpl < t.dpl) then raise (.gp (selErr g.gateSelector))
      else if !t.conforming && t.dpl != s.cpl then raise (.gp (selErr g.gateSelector))
      else sameLevelTransfer .jmp g.gateSelector t g.gateOffset
    | .call =>
      if s.cpl < t.dpl then raise (.gp (selErr g.gateSelector))
      else if !t.present then raise (.np (selErr g.gateSelector))
      else if !t.conforming && decide (t.dpl < s.cpl) then
        innerTransfer g.gateSelector t g.gateOffset (4 + g.gateCount) (callFrame g.gateCount)
      else sameLevelTransfer .call g.gateSelector t g.gateOffset

/-- `TssTransfer(kind, sel, d)` (R289, R290, R297). -/
def tssTransfer (kind : FarKind) (sel : Word) (d : Desc) : Exec Unit := do
  let s ← getState
  if selTI sel then raise (.gp (selErr sel))
  else if d.dpl < maxLevel s.cpl (selRpl sel) then raise (.gp (selErr sel))
  else switchByInstruction kind.cause sel

/-- `TaskGateTransfer(kind, sel, g)` (R285, R289, R290). -/
def taskGateTransfer (kind : FarKind) (sel : Word) (g : Desc) : Exec Unit := do
  let s ← getState
  if g.dpl < maxLevel s.cpl (selRpl sel) then raise (.gp (selErr sel))
  else if !g.present then raise (.np (selErr sel))
  else switchByInstruction kind.cause g.gateSelector

/-- `FarTransfer(kind, sel, off)`: the dispatch on the descriptor that the operand selects (R187). -/
def farTransfer (kind : FarKind) (sel : Word) (off : Dword) : Exec Unit := do
  if isNull sel then raise (.gp 0)
  else
    let d ← readDescOr sel (.gp (selErr sel))
    if d.isCode then directTransfer kind sel off d
    else if d.isData then raise (.gp (selErr sel))
    else
      match d.typ.toNat with
      | 0xC => gateTransfer kind sel d
      | 0x5 => taskGateTransfer kind sel d
      | 0x9 => tssTransfer kind sel d
      | 0xB => tssTransfer kind sel d
      | 0x1 => refuse .sixteenBitForm
      | 0x3 => refuse .sixteenBitForm
      | 0x4 => refuse .sixteenBitForm
      | _ => raise (.gp (selErr sel))

/-! ## Far return and return from an exception (R210 to R216, R358) -/

/-- Rows 3 to 8 of Table 6-3: the checks on the return CS (R213). -/
def returnCS (rcs : Word) : Exec Desc := do
  let s ← getState
  if selRpl rcs < s.cpl then raise (.gp (selErr rcs))
  else if isNull rcs then raise (.gp (selErr rcs))
  else
    let d ← readDescOr rcs (.gp (selErr rcs))
    if !d.isCode then raise (.gp (selErr rcs))
    else if !d.present then raise (.np (selErr rcs))
    else if d.conforming && decide (selRpl rcs < d.dpl) then raise (.gp (selErr rcs))
    else if !d.conforming && d.dpl != selRpl rcs then raise (.gp (selErr rcs))
    else pure d

/-- Rows 10 to 15 of Table 6-3: the checks on the return SS, for the new level (R213). -/
def returnSS (rss : Word) (new : Level) : Exec Desc := do
  if isNull rss then raise (.gp (selErr rss))
  else
    let d ← readDescOr rss (.gp (selErr rss))
    if !d.writable then raise (.gp (selErr rss))
    else if !d.present then raise (.sf (selErr rss))
    else if d.dpl != new then raise (.gp (selErr rss))
    else if selRpl rss != d.dpl then raise (.gp (selErr rss))
    else if !d.big then refuse .sixteenBitForm
    else pure d

/-- `NullIfInaccessible(S, new)` (R216). -/
def SegReg.nullIfInaccessible (g : SegReg) (new : Level) : SegReg :=
  if g.valid && decide (g.dpl < new) && !g.conformingCode then g.withNull 0 else g

/-- Step 3 of an interlevel return: DS, ES, FS and GS (R216). -/
def State.nullInaccessible (s : State) (new : Level) : State :=
  { s with
    segs :=
      { s.segs with
        ds := s.segs.ds.nullIfInaccessible new
        es := s.segs.es.nullIfInaccessible new
        fs := s.segs.fs.nullIfInaccessible new
        gs := s.segs.gs.nullIfInaccessible new } }

/-- The end of a return to the same level: ESP and CS:EIP (R211, R215). -/
def returnSame (rcs : Word) (d : Desc) (reip : Dword) (esp : Dword) : Exec Unit := do
  let s ← getState
  if !targetOK d.effLimit reip then raise (.gp 0)
  else
    require32 d
    setAccessed rcs d
    update fun t =>
      State.jumpTo { (t.withCS rcs d s.cpl) with regs := { t.regs with esp := esp } } reip

/-- The end of an interlevel return: the frame of the outer SS:ESP lies at offset `off` of the current
stack; its checks, those of the two accessed bits too before either is stored (R352; assumption log entry
37), then CS:EIP, SS, ESP released by `n` bytes, and step 3 (R214, R215, R216). -/
def returnOuter (rcs : Word) (d : Desc) (reip : Dword) (off : Nat) (n : Word) : Exec Unit := do
  let s ← getState
  if !limitOK s.segs.ss off 8 then raise (.sf 0)
  else
    let resp ← segReadDword .ss (BitVec.ofNat 32 off)
    let rssd ← segReadDword .ss (BitVec.ofNat 32 (off + 4))
    let rss := rssd.extractLsb' 0 16
    let sd ← returnSS rss (selRpl rcs)
    if !targetOK d.effLimit reip then raise (.gp 0)
    else
      require32 d
      let codeMark ← prepareAccessed rcs d
      let stackMark ← prepareAccessed rss sd
      update fun t =>
        ((((t.store (codeMark ++ stackMark)).withCS rcs d (selRpl rcs)).withStack rss sd
          (resp + n.zeroExtend 32)).nullInaccessible (selRpl rcs)).jumpTo reip

/-- `FarReturn(N)` (R211, R214). -/
def farReturn (n : Word) : Exec Unit := do
  let s ← getState
  if !limitOK s.segs.ss s.regs.esp.toNat 8 then raise (.sf 0)
  else
    let reip ← segReadDword .ss s.regs.esp
    let rcsd ← segReadDword .ss (s.regs.esp + 4)
    let rcs := rcsd.extractLsb' 0 16
    let d ← returnCS rcs
    if s.cpl < selRpl rcs then returnOuter rcs d reip (s.regs.esp.toNat + 8 + n.toNat) n
    else returnSame rcs d reip (s.regs.esp + 8 + n.zeroExtend 32)

/-- THE RETURN FROM AN EXCEPTION, IRET with NT = 0 (R292, R358): EIP, CS and EFLAGS from the stack, with
the checks of a far return; to an outer level SS:ESP as well. R358 does not say where among the checks an
image with VM = 1 is refused: after those of the return CS, so that an exception of rows 3 to 8 of Table
6-3 comes first, is this model's choice (DESIGN CHOICE; assumption log entry 20). -/
def interruptReturn : Exec Unit := do
  let s ← getState
  if !limitOK s.segs.ss s.regs.esp.toNat 12 then raise (.sf 0)
  else
    let reip ← segReadDword .ss s.regs.esp
    let rcsd ← segReadDword .ss (s.regs.esp + 4)
    let image ← segReadDword .ss (s.regs.esp + 8)
    let rcs := rcsd.extractLsb' 0 16
    let d ← returnCS rcs
    if s.cpl = 0 && image.getLsbD bitVM then refuse .virtual8086Mode
    else
      if s.cpl < selRpl rcs then returnOuter rcs d reip (s.regs.esp.toNat + 12) 0
      else returnSame rcs d reip (s.regs.esp + 12)
      update fun t => { t with eflags := flagsAfterIret t.eflags image s.cpl }

/-! ## Entry through a gate of the IDT (R293, R294, R357) -/

/-- The error code that names entry `n` of the IDT, `8*n + 2` (R293, R348). -/
def idtErr (n : Nat) : Word := BitVec.ofNat 16 (8 * n + 2)

/-- The gate of vector `n` in the IDT, checked. For an exception the order is that of R357, which refuses
the 80286 gate types on its type line; for INT that of R293, which refuses them after the checks of
`DPL(gate) >= CPL` and of the present bit. -/
def idtGate (n : Nat) (software : Bool) : Exec Desc := do
  let s ← getState
  if s.idtr.limit.toNat < 8 * n + 7 then raise (.gp (idtErr n))
  else
    let bs ← sysRead (s.idtr.base + BitVec.ofNat 32 (8 * n)) 8
    let g := descOf bs
    if g.isSeg || !(g.typ = 5 || g.typ = 6 || g.typ = 7 || g.typ = 0xE || g.typ = 0xF) then
      raise (.gp (idtErr n))
    else if !software && (g.typ = 6 || g.typ = 7) then refuse .sixteenBitForm
    else if software && decide (g.dpl < s.cpl) then raise (.gp (idtErr n))
    else if !g.present then raise (.np (idtErr n))
    else if g.typ = 6 || g.typ = 7 then refuse .sixteenBitForm
    else pure g

/-- Whether a gate is an interrupt gate; which of the type codes E and F it is, is free (U11). -/
def Desc.isInterruptGate (g : Desc) : Bool := g.typ == (if Config.interruptGateIsF then 0xF else 0xE)

/-- Entry through the trap or interrupt gate `g`: EFLAGS, CS, the return offset and an error code are
pushed, on the inner stack after the old SS:ESP where the level changes; then TF, NT and IF (R357). R357
says of the inner stack only "as R204 with count = 0", which asks for room for 16 bytes: that there must be
room for all that is pushed, 20 bytes or 24, else SF(0), is this model's choice (DESIGN CHOICE; assumption
log entry 45). -/
def enterGate (g : Desc) (code : Option Dword) (retEip : Dword) : Exec Unit := do
  let s ← getState
  let t ← gateTarget g.gateSelector
  let frame := [s.eflags, s.segs.cs.sel.zeroExtend 32, retEip] ++ code.toList
  if s.cpl < t.dpl then raise (.gp (selErr g.gateSelector))
  else if !t.present then raise (.np (selErr g.gateSelector))
  else
    if !t.conforming && decide (t.dpl < s.cpl) then
      innerTransfer g.gateSelector t g.gateOffset (2 + frame.length)
        (pure ([s.segs.ss.sel.zeroExtend 32, s.regs.esp] ++ frame))
    else
      if !targetOK t.effLimit g.gateOffset then raise (.gp 0)
      else
        pushAndEnter g.gateSelector t g.gateOffset frame
    update fun u => { u with eflags := flagsAfterEntry u.eflags g.isInterruptGate }

/-- `Deliver(n, code, ret_eip, software)` (R357): through a task gate a task switch and then the push of
the code on the incoming task's stack (R294). Delivery ends with the prefetched bytes discarded (R112;
assumption log entry 28). The answer is whether a debug trap is due (R305). -/
def deliver (n : Nat) (code : Option Dword) (retEip : Dword) (software : Bool) : Exec Bool := do
  let g ← idtGate n software
  if g.typ = 5 then
    let trap ← taskSwitch .int g.gateSelector retEip
    match code with
    | some c => pushAll [c]
    | none => pure ()
    update (·.discardPrefetch)
    pure trap
  else
    enterGate g code retEip
    pure false

/-! ## Taking an exception (R355, R357) -/

/-- The vector of an exception (R347). -/
def Exception.vector : Exception → Nat
  | .db => 1
  | .ud => 6
  | .df => 8
  | .ts _ => 10
  | .np _ => 11
  | .sf _ => 12
  | .gp _ => 13
  | .pf _ _ => 14

/-- The error code pushed for an exception, a doubleword with its upper half 0 (R347, R348; entry 18 of
the assumption log for the upper half). -/
def Exception.errorCode : Exception → Option Dword
  | .db => none
  | .ud => none
  | .df => some 0
  | .ts c => some (c.zeroExtend 32)
  | .np c => some (c.zeroExtend 32)
  | .sf c => some (c.zeroExtend 32)
  | .gp c => some (c.zeroExtend 32)
  | .pf _ c => some (c.zeroExtend 32)

/-- Delivers an exception to its handler, to return to the instruction EIP addresses (R294, R357). A
debug trap that the handler task's T-bit asks for becomes pending (R38, R305). -/
def deliverException (e : Exception) : Exec Unit := do
  let s ← getState
  let trap ← deliver e.vector e.errorCode s.eip false
  update fun t => { t with debugTrap := trap }

/-- THE END OF A RUN, with the outcome `f` (R355, R408), unless an instruction has stored into the coming
bytes of the instruction stream and no transfer was taken since: such a run is refused (R112, D6;
assumption log entry 28). -/
def State.endRun (s : State) (f : Fault) : Host.Outcome State Fault Refusal :=
  if s.storedAhead.isEmpty then .fault f else .refused .staleCode

/-- TAKING AN EXCEPTION. With `deliver_exceptions` false the run ends in `Fault(X, code)` with the state
as it stood (R355). With it true the exception is delivered; an exception raised while delivering it
becomes a double fault, and one raised while delivering that shuts the processor down (R357). -/
def takeException (e : Exception) (s : State) : Host.Outcome State Fault Refusal :=
  if s.deliverExceptions then
    match deliverException e s with
    | .ok _ t => .next t
    | .error (.refuse r) _ => .refused r
    | .error (.exc _) t =>
      match deliverException .df t with
      | .ok _ u => .next u
      | .error (.refuse r) _ => .refused r
      | .error (.exc _) u => .next { u with activity := .shutdown }
  else s.endRun (.exception e s)

/-- How a meaning ends: in its next state, in an exception that is taken, or in a refusal. -/
def conclude (m : Exec Unit) (s : State) : Host.Outcome State Fault Refusal :=
  match m s with
  | .ok _ t => .next t
  | .error (.exc e) t => takeException e t
  | .error (.refuse r) _ => .refused r

end Sys2Proof.Machine
end

