-- ==== Sys2Proof/Machine/Pointers.lean ====
section
/-! DEFINITION. The meanings of the pointer validation instructions ARPL, LAR, LSL, VERR and VERW
(spec/43_pointer_validation.md). They write no flag but ZF. -/

namespace Sys2Proof.Machine

open Sys2Proof

/-- `Lookup(sel)`: none for a null selector and one out of its table (R266). -/
def lookupDesc (sel : Word) : Exec (Option Desc) := do
  if isNull sel then pure none else readDesc sel

/-- `Visible(sel, d)` at privilege level `cpl` (R266). -/
def visible (cpl : Level) (sel : Word) (d : Desc) : Bool :=
  d.conforming || (decide (cpl ≤ d.dpl) && decide (selRpl sel ≤ d.dpl))

/-- The system types that are valid for LAR: all but 0, 8, A and D (R76, R261). -/
def larType (d : Desc) : Bool := !(d.typ == 0 || d.typ == 8 || d.typ == 0xA || d.typ == 0xD)

/-- The system types that are valid for LSL: 1, 2, 3, 9 and B (R262). -/
def lslType (d : Desc) : Bool :=
  d.typ == 1 || d.typ == 2 || d.typ == 3 || d.typ == 9 || d.typ == 0xB

/-- The result of LAR: the second doubleword masked with 00F0FF00H, and bits 19..16 a draw (R261). -/
def larResult (d : Desc) (draw : BitVec 4) : Dword :=
  (d.hi &&& 0x00F0FF00) ||| (draw.zeroExtend 32 <<< 16)

/-- The RPL of `a` becomes the RPL of `b` (R260). -/
def withRpl (a b : Word) : Word := a.extractLsb' 2 14 ++ selRpl b

/-- ZF is written, every other flag unchanged (R25). -/
def writeZF (b : Bool) : Exec Unit := update fun s => { s with eflags := setZF s.eflags b }

/-- `ARPL r/m16, r16` (R260): a memory operand is checked as a write first (D9). -/
def execArpl (dst : RM) (src : Reg) (s : State) : Host.Outcome State Fault Refusal :=
  conclude (do
    checkWritableRM16 dst
    let a ← readRM16 dst
    if selRpl a < selRpl (s.regs.get16 src) then
      writeRM16 dst (withRpl a (s.regs.get16 src))
      writeZF true
    else writeZF false
    advance) s

/-- `LAR r32, r/m16` (R261). -/
def execLar (dst : Reg) (src : RM) (s : State) : Host.Outcome State Fault Refusal :=
  conclude (do
    let sel ← readRM16 src
    match ← lookupDesc sel with
    | none => writeZF false
    | some d =>
      if (d.isSeg || larType d) && visible s.cpl sel d then
        setReg dst (larResult d (Config.larBits s.draws))
        writeZF true
      else writeZF false
    advance) s

/-- `LSL r32, r/m16` (R262). -/
def execLsl (dst : Reg) (src : RM) (s : State) : Host.Outcome State Fault Refusal :=
  conclude (do
    let sel ← readRM16 src
    match ← lookupDesc sel with
    | none => writeZF false
    | some d =>
      if (d.isSeg || lslType d) && visible s.cpl sel d then
        setReg dst d.effLimit
        writeZF true
      else writeZF false
    advance) s

/-- `VERR r/m16` (R263). -/
def execVerr (src : RM) (s : State) : Host.Outcome State Fault Refusal :=
  conclude (do
    let sel ← readRM16 src
    match ← lookupDesc sel with
    | none => writeZF false
    | some d => writeZF (d.isSeg && d.readable && visible s.cpl sel d)
    advance) s

/-- `VERW r/m16` (R264). -/
def execVerw (src : RM) (s : State) : Host.Outcome State Fault Refusal :=
  conclude (do
    let sel ← readRM16 src
    match ← lookupDesc sel with
    | none => writeZF false
    | some d =>
      writeZF (d.isSeg && d.writable && decide (s.cpl ≤ d.dpl) && decide (selRpl sel ≤ d.dpl))
    advance) s

end Sys2Proof.Machine
end

