-- ==== Sys2Proof/Machine/Privileged.lean ====
section
/-! DEFINITION. The meanings of the instructions reserved for the operating system
(spec/42_privileged.md; LTR is in Tasks.lean). `privileged` is the first line of each (R231). -/

namespace Sys2Proof.Machine

open Sys2Proof

/-- The six arithmetic flags become a draw, after MOV to or from CRn, DRn, TRn (R237; U13). -/
def drawFlags : Exec Unit :=
  update fun s => { s with eflags := drawArithFlags s.eflags (Config.movFlags s.draws) }

/-- `CLTS` (R232). -/
def execClts (s : State) : Host.Outcome State Fault Refusal :=
  conclude (do
    privileged
    update fun t => { t with ctl := { t.ctl with cr0 := withBit t.ctl.cr0 bitTS false } }
    advance) s

/-- `HLT` (R243): EIP goes on and the processor is halted. -/
def execHlt (s : State) : Host.Outcome State Fault Refusal :=
  conclude (do
    privileged
    advance
    update fun t => { t with activity := .halted }) s

/-- `LGDT m` (R233). -/
def execLgdt (src : RM) (s : State) : Host.Outcome State Fault Refusal :=
  conclude (do
    privileged
    let table ← readTableOperand src
    update fun t => { t with gdtr := table }
    advance) s

/-- `LIDT m` (R234). -/
def execLidt (src : RM) (s : State) : Host.Outcome State Fault Refusal :=
  conclude (do
    privileged
    let table ← readTableOperand src
    update fun t => { t with idtr := table }
    advance) s

/-- `LLDT r/m16` (R235). -/
def execLldt (src : RM) (s : State) : Host.Outcome State Fault Refusal :=
  conclude (do
    privileged
    let sel ← readRM16 src
    if isNull sel then update fun t => { t with ldtr := { t.ldtr with sel := sel, valid := false } }
    else if selTI sel then raise (.gp (selErr sel))
    else
      let d ← readDescOr sel (.gp (selErr sel))
      if d.isSeg || d.typ != 2 then raise (.gp (selErr sel))
      else if !d.present then raise (.np (selErr sel))
      else update fun t => { t with ldtr := LdtReg.mk sel d.base d.effLimit true }
    advance) s

/-- `LMSW r/m16` (R236). -/
def execLmsw (src : RM) (s : State) : Host.Outcome State Fault Refusal :=
  conclude (do
    privileged
    let v ← readRM16 src
    update fun t => { t with ctl := { t.ctl with cr0 := cr0AfterLmsw t.ctl.cr0 v } }
    advance) s

/-- Writes control register `n`: UD where there is none, a refusal where PE would be cleared; a load of
CR3 discards every cached translation, and the tables are not in use yet (R113, R237). -/
def writeCr (n : BitVec 3) (v : Dword) : Exec Unit :=
  match n.toNat with
  | 0 =>
    if v.getLsbD bitPE then update fun t => { t with ctl := { t.ctl with cr0 := cr0Of v } }
    else refuse .leavesProtectedMode
  | 2 => update fun t => { t with ctl := { t.ctl with cr2 := v } }
  | 3 => update fun t => { t with ctl := { t.ctl with cr3 := cr3Of v }, tablesUsed := false, pastMemory := [] }
  | _ => raise .ud

/-- `MOV CRn, r32` (R237). -/
def execMovToCr (n : BitVec 3) (src : Reg) (s : State) : Host.Outcome State Fault Refusal :=
  conclude (do
    privileged
    writeCr n (s.regs.get src)
    drawFlags
    advance) s

/-- `MOV r32, CRn` (R238). -/
def execMovFromCr (dst : Reg) (n : BitVec 3) (s : State) : Host.Outcome State Fault Refusal :=
  conclude (do
    privileged
    match s.ctl.cr n with
    | some v => setReg dst v
    | none => raise .ud
    drawFlags
    advance) s

/-- `MOV DRn, r32` (R239); DR4 and DR5 are refused (U14). -/
def execMovToDr (n : BitVec 3) (src : Reg) (s : State) : Host.Outcome State Fault Refusal :=
  conclude (do
    privileged
    match s.ctl.setDr n (s.regs.get src) with
    | some c => update fun t => { t with ctl := c }
    | none => refuse .noSuchDebugRegister
    drawFlags
    advance) s

/-- `MOV r32, DRn` (R240); DR4 and DR5 are refused (U14). -/
def execMovFromDr (dst : Reg) (n : BitVec 3) (s : State) : Host.Outcome State Fault Refusal :=
  conclude (do
    privileged
    match s.ctl.dr n with
    | some v => setReg dst v
    | none => refuse .noSuchDebugRegister
    drawFlags
    advance) s

/-- `MOV TRn, r32`, a test register (R241). -/
def execMovToTr (n : BitVec 3) (src : Reg) (s : State) : Host.Outcome State Fault Refusal :=
  conclude (do
    privileged
    match s.ctl.setTestReg n (s.regs.get src) with
    | some c => update fun t => { t with ctl := c }
    | none => raise .ud
    drawFlags
    advance) s

/-- `MOV r32, TRn`, a test register (R242). -/
def execMovFromTr (dst : Reg) (n : BitVec 3) (s : State) : Host.Outcome State Fault Refusal :=
  conclude (do
    privileged
    match s.ctl.testReg n with
    | some v => setReg dst v
    | none => raise .ud
    drawFlags
    advance) s

end Sys2Proof.Machine
end

