-- ==== Sys2Proof/Machine/SegmentLoad.lean ====
section
/-! DEFINITION. The meaning of MOV Sreg, r/m16 (spec/40_segment_load.md R170). -/

namespace Sys2Proof.Machine

open Sys2Proof

/-- `MOV Sreg, r/m16` (R170): the operand is read, then CS and the numbers 6 and 7 raise UD. -/
def execMovSreg (sreg : BitVec 3) (src : RM) (s : State) : Host.Outcome State Fault Refusal :=
  conclude (do
    let sel ← readRM16 src
    match segOfBits sreg with
    | none => raise .ud
    | some .cs => raise .ud
    | some .ss => loadSS sel
    | some name => loadDataSeg name sel
    advance) s

end Sys2Proof.Machine
end

