-- ==== Sys2Proof/Machine/Tasks.lean ====
section
/-! DEFINITION. The meanings of LTR, STR, INT and IRET (spec/44_multitasking.md R280, R281, R291 to R293;
spec/60_exceptions.md R357, R358). -/

namespace Sys2Proof.Machine

open Sys2Proof

/-- `LTR r/m16` (R280). -/
def execLtr (src : RM) (s : State) : Host.Outcome State Fault Refusal :=
  conclude (do
    privileged
    let sel ← readRM16 src
    if isNull sel then raise (.gp 0)
    else if selTI sel then raise (.gp (selErr sel))
    else
      let d ← readDescOr sel (.gp (selErr sel))
      if d.isSeg then raise (.gp (selErr sel))
      else if d.typ = 1 then refuse .sixteenBitForm
      else if d.typ != 9 then raise (.gp (selErr sel))
      else if !d.present then raise (.np (selErr sel))
      else
        setBusy sel
        update fun t => { t with tr := TaskReg.mk sel d.base d.effLimit }
    advance) s

/-- `STR r/m16` (R281). -/
def execStr (dst : RM) (s : State) : Host.Outcome State Fault Refusal :=
  conclude (do
    writeRM16 dst s.tr.sel
    advance) s

/-- `INT imm8` (R293), with R357 adopted for trap and interrupt gates (D25). -/
def execInt (vector : Byte) (s : State) : Host.Outcome State Fault Refusal :=
  conclude (do
    let trap ← deliver vector.toNat none s.nextEip true
    if trap then raise .db else pure ()) s

/-- `IRET`: with NT = 1 a task switch to the back link (R291), with NT = 0 the return from an exception
(R292, R358 adopted, D25). -/
def execIret (s : State) : Host.Outcome State Fault Refusal :=
  conclude (do
    if s.eflags.getLsbD bitNT then
      let bs ← sysRead s.tr.base 2
      switchByInstruction .iret (wordAt bs 0)
    else interruptReturn) s

end Sys2Proof.Machine
end

