-- ==== Sys2Proof/Machine/Transfer.lean ====
section
/-! DEFINITION. The meanings of JMP, CALL and RET, near and far (spec/41_control_transfer.md). No
instruction of this file writes ZF, NT or TS but by a task switch. -/

namespace Sys2Proof.Machine

open Sys2Proof

/-- The target of a near relative transfer: `trunc_32(next_eip + sext_32(rel))` (R145, R182). -/
def relTarget (s : State) (rel : Dword) : Dword := s.nextEip + rel

/-- A near JMP to `target` (R182, R183). -/
def nearJump (target : Dword) : Exec Unit := do
  nearTarget target
  update (·.jumpTo target)

/-- A near CALL of `target`: the target check, the push of `next_eip`, the jump (R184, R185). -/
def nearCall (target : Dword) : Exec Unit := do
  nearTarget target
  let s ← getState
  pushAll [s.nextEip]
  update (·.jumpTo target)

/-- A near RET that releases `n` bytes: the new ESP is not compared to the limit (R186, R215). -/
def nearReturn (n : Word) : Exec Unit := do
  let s ← getState
  let target ← segReadDword .ss s.regs.esp
  nearTarget target
  update fun t =>
    State.jumpTo { t with regs := { t.regs with esp := s.regs.esp + 4 + n.zeroExtend 32 } } target

/-- `JMP rel8` (R182). -/
def execJmpRel8 (rel : Byte) (s : State) : Host.Outcome State Fault Refusal :=
  conclude (nearJump (relTarget s (rel.signExtend 32))) s

/-- `JMP rel32` (R182). -/
def execJmpRel32 (rel : Dword) (s : State) : Host.Outcome State Fault Refusal :=
  conclude (nearJump (relTarget s rel)) s

/-- `JMP r/m32` (R183). -/
def execJmpRm (target : RM) (s : State) : Host.Outcome State Fault Refusal :=
  conclude (do
    let t ← readRM32 target
    nearJump t) s

/-- `JMP ptr16:32` (R187, R190, R200, R289). -/
def execJmpFar (sel : Word) (off : Dword) (s : State) : Host.Outcome State Fault Refusal :=
  conclude (farTransfer .jmp sel off) s

/-- `JMP m16:32` (R187, R190, R200, R289). -/
def execJmpFarMem (ptr : RM) (s : State) : Host.Outcome State Fault Refusal :=
  conclude (do
    let p ← readFarPointer ptr
    farTransfer .jmp p.1 p.2) s

/-- `CALL rel32` (R184). -/
def execCallRel32 (rel : Dword) (s : State) : Host.Outcome State Fault Refusal :=
  conclude (nearCall (relTarget s rel)) s

/-- `CALL r/m32` (R185). -/
def execCallRm (target : RM) (s : State) : Host.Outcome State Fault Refusal :=
  conclude (do
    let t ← readRM32 target
    nearCall t) s

/-- `CALL ptr16:32` (R187, R191, R201, R204, R290). -/
def execCallFar (sel : Word) (off : Dword) (s : State) : Host.Outcome State Fault Refusal :=
  conclude (farTransfer .call sel off) s

/-- `CALL m16:32` (R187, R191, R201, R204, R290). -/
def execCallFarMem (ptr : RM) (s : State) : Host.Outcome State Fault Refusal :=
  conclude (do
    let p ← readFarPointer ptr
    farTransfer .call p.1 p.2) s

/-- `RET`, near (R186). -/
def execRet (s : State) : Host.Outcome State Fault Refusal :=
  conclude (nearReturn 0) s

/-- `RET imm16`, near (R186). -/
def execRetImm (n : Word) (s : State) : Host.Outcome State Fault Refusal :=
  conclude (nearReturn n) s

/-- `RETF` (R211, R213, R214). -/
def execRetf (s : State) : Host.Outcome State Fault Refusal :=
  conclude (farReturn 0) s

/-- `RETF imm16` (R211, R213, R214). -/
def execRetfImm (n : Word) (s : State) : Host.Outcome State Fault Refusal :=
  conclude (farReturn n) s

end Sys2Proof.Machine
end

