-- ==== Sys2Proof/Machine/Dispatch.lean ====
section
/-! DEFINITION. The dispatch of every instruction to its meaning. -/

namespace Sys2Proof.Machine

open Sys2Proof

/-- The meaning of an instruction, one arm per row of the opcode table. -/
def exec (i : Instr) (s : State) : Host.Outcome State Fault Refusal :=
  match i with
  | .movSreg sreg src => Sys2Proof.Machine.execMovSreg sreg src s
  | .jmpRel8 rel => Sys2Proof.Machine.execJmpRel8 rel s
  | .jmpRel32 rel => Sys2Proof.Machine.execJmpRel32 rel s
  | .jmpRm target => Sys2Proof.Machine.execJmpRm target s
  | .jmpFar sel off => Sys2Proof.Machine.execJmpFar sel off s
  | .jmpFarMem ptr => Sys2Proof.Machine.execJmpFarMem ptr s
  | .callRel32 rel => Sys2Proof.Machine.execCallRel32 rel s
  | .callRm target => Sys2Proof.Machine.execCallRm target s
  | .callFar sel off => Sys2Proof.Machine.execCallFar sel off s
  | .callFarMem ptr => Sys2Proof.Machine.execCallFarMem ptr s
  | .ret => Sys2Proof.Machine.execRet s
  | .retImm n => Sys2Proof.Machine.execRetImm n s
  | .retf => Sys2Proof.Machine.execRetf s
  | .retfImm n => Sys2Proof.Machine.execRetfImm n s
  | .int vector => Sys2Proof.Machine.execInt vector s
  | .iret => Sys2Proof.Machine.execIret s
  | .clts => Sys2Proof.Machine.execClts s
  | .hlt => Sys2Proof.Machine.execHlt s
  | .lgdt src => Sys2Proof.Machine.execLgdt src s
  | .lidt src => Sys2Proof.Machine.execLidt src s
  | .lldt src => Sys2Proof.Machine.execLldt src s
  | .lmsw src => Sys2Proof.Machine.execLmsw src s
  | .ltr src => Sys2Proof.Machine.execLtr src s
  | .str dst => Sys2Proof.Machine.execStr dst s
  | .movFromCr dst n => Sys2Proof.Machine.execMovFromCr dst n s
  | .movToCr n src => Sys2Proof.Machine.execMovToCr n src s
  | .movFromDr dst n => Sys2Proof.Machine.execMovFromDr dst n s
  | .movToDr n src => Sys2Proof.Machine.execMovToDr n src s
  | .movFromTr dst n => Sys2Proof.Machine.execMovFromTr dst n s
  | .movToTr n src => Sys2Proof.Machine.execMovToTr n src s
  | .arpl dst src => Sys2Proof.Machine.execArpl dst src s
  | .lar dst src => Sys2Proof.Machine.execLar dst src s
  | .lsl dst src => Sys2Proof.Machine.execLsl dst src s
  | .verr src => Sys2Proof.Machine.execVerr src s
  | .verw src => Sys2Proof.Machine.execVerw src s

end Sys2Proof.Machine
end

