-- ==== Sys2Proof/Machine/Fetch.lean ====
section
/-! DEFINITION. Fetching an instruction through CS (spec/20_memory.md R92, R100, R108, R112;
spec/30_encoding.md R142). -/

namespace Sys2Proof.Machine

open Sys2Proof

/-- The limit check of a fetch: `LimitOK(CS, EIP, n)` (R92). -/
def fetchLimit (n : Nat) : Exec Unit := do
  let s ← getState
  if !s.segs.cs.valid then raise (.gp 0)
  else if !limitOK s.segs.cs s.eip.toNat n then raise (.gp 0)
  else pure ()

/-- Whether an instruction has stored into one of the `n` bytes at `lin` and on, with no taken transfer since
(R112). -/
def State.anyStale (s : State) (lin : Dword) (n : Nat) : Bool :=
  (List.range n).any fun k => s.storedAhead.contains (lin + BitVec.ofNat 32 k)

/-- Fetches `n` bytes of the instruction from byte `k` on: every page as a read, then the bytes (R92, R103).
Stale ones are refused (R112; assumption log entry 28). -/
def fetchBytes (k n : Nat) : Exec (List Byte) := do
  let s ← getState
  let lin := s.segs.cs.base + s.eip + BitVec.ofNat 32 k
  let ps ← translateRange .fetch s.userLevel lin n
  if s.anyStale lin n then refuse .staleCode else readPhys ps

/-- Fetches bytes in ascending order until they are an instruction, or are none; `fuel` more times at most.
What is fetched at a time is every byte that is known to belong to the instruction: its limit, then its
pages, then its bytes (R92, R105; assumption log entry 26). An instruction longer than 15 bytes raises
GP(0) (R142). -/
def fetchFrom (bytes : List Byte) : Nat → Exec Decoded
  | 0 =>
    match decode bytes with
    | .needMore _ => raise (.gp 0)
    | d => pure d
  | fuel + 1 =>
    match decode bytes with
    | .needMore missing =>
      if maxInstrLen ≤ bytes.length then raise (.gp 0)
      else do
        let n := min missing (maxInstrLen - bytes.length)
        fetchLimit (bytes.length + n)
        let bs ← fetchBytes bytes.length n
        fetchFrom (bytes ++ bs) fuel
    | d => pure d

/-- Fetches and decodes the instruction at CS:EIP (R92, R142). -/
def fetch : Exec Decoded := fetchFrom [] maxInstrLen

/-- Why the state lies outside the modes and forms that the spec covers, if it does (R391 P1, P2, P5;
R147, D8). -/
def outsideModes (s : State) : Option Refusal :=
  if !s.ctl.cr0.getLsbD bitPE then some .realAddressMode
  else if s.eflags.getLsbD bitVM then some .virtual8086Mode
  else if s.segs.cs.valid && !s.segs.cs.db then some .sixteenBitForm
  else if s.segs.ss.valid && !s.segs.ss.db then some .sixteenBitForm
  else none

/-- The physical address that a fetch at linear address `lin` reads through the tables as they stand, where
there is one. -/
def fetchAddr (s : State) (lin : Dword) : Option Nat :=
  if !s.paging then some lin.toNat
  else
    match walk s lin with
    | .mapped t _ => some (t.phys lin)
    | _ => none

/-- Memory with bytes placed where a fetch at `lin` and on reads them. -/
def placeCode (s : State) (lin : Dword) : List Byte → Memory
  | [] => s.mem
  | b :: bs =>
    match fetchAddr s lin with
    | some p => (placeCode s (lin + 1) bs).write p b
    | none => placeCode s (lin + 1) bs

end Sys2Proof.Machine
end

