-- ==== Sys2Proof/Machine/Step.lean ====
section
/-! DEFINITION. One step of the machine: a pending debug trap, or the fetch of one instruction and its
meaning (spec/10_state.md R24, R38). -/

namespace Sys2Proof.Machine

open Sys2Proof

/-- The step of a running machine. The draw number goes up first, so that every free value of the step is
fresh. -/
def runStep (s : State) : Host.Outcome State Fault Refusal :=
  match outsideModes s with
  | some r => .refused r
  | none =>
    if s.debugTrap then takeException .db { s with debugTrap := false }
    else
      match fetch s with
      | .error (.exc e) t => takeException e t
      | .error (.refuse r) _ => .refused r
      | .ok .ud t => takeException .ud t
      | .ok (.needMore _) _ => .refused (.undecoded .noRow)
      | .ok (.refused why) _ => .refused (.undecoded why)
      | .ok (.instr i len) t => exec i { t with nextEip := t.eip + BitVec.ofNat 32 len }

/-- One step (R24): a halted or shut-down machine ends the run (R112, R243, R357, R408). -/
def step (s : State) : Host.Outcome State Fault Refusal :=
  match s.activity with
  | .halted => s.endRun .halted
  | .shutdown => s.endRun .shutdown
  | .running => runStep { s with draws := s.draws + 1 }

/-- `s` with the instruction whose first `nbits` bits are `w` (the bits above are 0) stored where the next
step fetches it; the fetch also needs a running machine with no debug trap due and nothing prefetched,
no old translation in force and no byte of the instruction open because a walk has used it.
Assumption log entry 9 says how a program comes to run. -/
def State.withFetchWord (s : State) (nbits w : Nat) : State :=
  { s with
    mem := placeCode s (s.segs.cs.base + s.eip) (tableWordBytes nbits w)
    activity := .running
    debugTrap := false
    tablesUsed := false
    pastMemory := []
    walked := []
    storedAhead := [] }

end Sys2Proof.Machine
end

