-- ==== Sys2Proof/Safety.lean ====
section
/-! DEFINITION. What counts as a safe step, the premises on the state that every rule preserves
(spec/70_reset_and_hazards.md R391), and the terms in which statements say what an instruction reads,
stores and leaves as it was. -/

namespace Sys2Proof

open Sys2Proof.Machine

/-- The outcome is a next state. -/
def Completes (o : Host.Outcome State Fault Refusal) : Prop := ∃ t, o = .next t

/-- The outcome is a next state and `P` holds of it. -/
def CompletesWith (o : Host.Outcome State Fault Refusal) (P : State → Prop) : Prop :=
  ∃ t, o = .next t ∧ P t

/-- The fixed parts of the control state: PE = 1 and VM = 0 (premises P1 and P2 of R391), the bits of CR0,
CR3 and EFLAGS that hold nothing read as R25, R33 and R34 say (P9). -/
structure Machine.State.ControlOK (s : State) : Prop where
  protectedMode : s.ctl.cr0.getLsbD bitPE = true
  cr0 : cr0Of s.ctl.cr0 = s.ctl.cr0
  cr3 : cr3Of s.ctl.cr3 = s.ctl.cr3
  notVirtual : s.eflags.getLsbD bitVM = false
  eflags : eflagsOf s.eflags = s.eflags

/-- CS may be executed at level `cpl`: a 32-bit code segment, of that DPL, or conforming and of that DPL
or a more privileged one (P3 and P5 of R391; R189). -/
structure Machine.SegReg.CodeAt (g : SegReg) (cpl : Level) : Prop where
  isSeg : g.s = true
  code : g.code = true
  big : g.db = true
  level : if g.conformingCode then g.dpl ≤ cpl else g.dpl = cpl

/-- SS may be the stack at level `cpl`: a writable 32-bit data segment whose DPL and RPL are that level
(P4 and P5 of R391). -/
structure Machine.SegReg.StackAt (g : SegReg) (cpl : Level) : Prop where
  isSeg : g.s = true
  writable : g.canWrite = true
  big : g.db = true
  dpl : g.dpl = cpl
  rpl : selRpl g.sel = cpl

/-- A data-segment register may be used at level `cpl`: a data segment or readable code segment that is
conforming code or whose DPL is numerically no less (P6 of R391). -/
structure Machine.SegReg.DataAt (g : SegReg) (cpl : Level) : Prop where
  isSeg : g.s = true
  readable : g.canRead = true
  level : g.conformingCode = true ∨ cpl ≤ g.dpl

/-- The protection state: CPL is the RPL of CS (P3), every valid segment register holds a segment that
may be used at that level (P3 to P6), and one that holds a null selector is not valid (R28). -/
structure Machine.State.Guarded (s : State) : Prop where
  level : selRpl s.segs.cs.sel = s.cpl
  code : s.segs.cs.valid = true → s.segs.cs.CodeAt s.cpl
  stack : s.segs.ss.valid = true → s.segs.ss.StackAt s.cpl
  data : ∀ n, n ≠ .cs → n ≠ .ss → (s.segs.get n).valid = true → (s.segs.get n).DataAt s.cpl
  null : ∀ n, isNull (s.segs.get n).sel = true → (s.segs.get n).valid = false

/-- The machine has a code segment and a stack (P3, P4: CS and SS never hold the null selector, R28). -/
def Machine.State.Seated (s : State) : Prop := s.segs.cs.valid = true ∧ s.segs.ss.valid = true

/-- TR names a task: its selector is not null and selects from the GDT, as after LTR or a task switch
(R391 P7). -/
def Machine.State.taskNamed (s : State) : Bool := !isNull s.tr.sel && !selTI s.tr.sel

/-- Premise P7 of R391: TR names a busy 386 TSS of the GDT, whose descriptor gives its base and limit, and
whose limit is at least 103. No step checks it: before LTR what uses TR goes on with the values it holds,
LTR takes a shorter TSS (the weakening R391 states), and a program may change the descriptor (assumption
log entry 43). -/
structure Machine.State.TaskOK (s : State) : Prop where
  named : s.taskNamed = true
  inTable : s.inTable s.tr.sel = true
  limit : 103 ≤ s.tr.limit.toNat
  described : ∃ bytes u, sysRead (s.descAddr s.tr.sel) 8 s = .ok bytes u ∧
    (descOf bytes).isSeg = false ∧ (descOf bytes).typ = 0xB ∧ (descOf bytes).present = true ∧
    (descOf bytes).base = s.tr.base ∧ (descOf bytes).effLimit = s.tr.limit

/-- What premise P10 of R391 says of one state: with NT = 1 the back link of the current TSS selects a TSS
of the GDT. No step checks it: IRET reads the back link as it stands, and the checks of R300 raise TS
where it names no busy TSS (assumption log entry 43). -/
def Machine.State.LinkOK (s : State) : Prop :=
  s.eflags.getLsbD bitNT = true → ∃ bytes u, sysRead s.tr.base 2 s = .ok bytes u ∧
    isNull (wordAt bytes 0) = false ∧ selTI (wordAt bytes 0) = false ∧ s.inTable (wordAt bytes 0) = true

/-! ## What an instruction leaves as it was -/

/-- `t` is `s` but for what accesses note of the page tables and the draws they take (R38, R96, R113):
every register and every byte of memory is as it was. -/
def Machine.State.ReadTo (s t : State) : Prop :=
  t = { s with tablesUsed := t.tablesUsed, walked := t.walked, draws := t.draws }

/-- `t` is `s` but for the bytes of memory at the physical addresses `ps`, and for what accesses and stores
note (R38, R96, R112, R113): every register is as it was. -/
def Machine.State.StoredTo (s : State) (ps : List Nat) (t : State) : Prop :=
  t = { s with
    mem := t.mem
    tablesUsed := t.tablesUsed
    pastMemory := t.pastMemory
    walked := t.walked
    storedAhead := t.storedAhead
    draws := t.draws } ∧
    ∀ a, a ∉ ps → t.mem.read a = s.mem.read a

/-- `t` is `s` but for what accesses note and the linear address in CR2, as a page fault leaves it (R103,
R352). -/
def Machine.State.StoppedTo (s t : State) : Prop :=
  t = { s with
    tablesUsed := t.tablesUsed
    walked := t.walked
    draws := t.draws
    ctl := { s.ctl with cr2 := t.ctl.cr2 } }

/-- The bytes of memory at `lin` and on, where linear and physical addresses are the same (R62). -/
def Machine.State.bytesAt (s : State) (lin : Dword) (n : Nat) : List Byte :=
  (List.range n).map fun k => s.mem.read (lin + BitVec.ofNat 32 k).toNat

/-- Every linear address is the physical address of memory: no paging, and memory everywhere (R62). -/
def Machine.State.Flat (s : State) : Prop :=
  s.paging = false ∧ ∀ lin : Dword, s.hasMemory lin.toNat = true

/-- The physical addresses that `SetAccessed(sel, d)` stores to (R88). -/
def accessedStores (sel : Word) (d : Desc) (s : State) : List Nat :=
  match prepareAccessed sel d s with
  | .ok cells _ => cells.map (·.1)
  | .error _ _ => []

/-- The checks of a push of the doublewords `vs` pass, and `cells` is what it will store: the segment check,
then the page check of every byte, which leaves the state `u` (R93, R181). -/
def PushPrepared (s : State) (vs : List Dword) (cells : List Host.Cell) (u : State) : Prop :=
  ∃ lin ps,
    segCheck .ss (s.regs.esp - BitVec.ofNat 32 (4 * vs.length)) (4 * vs.length) true s = .ok lin s ∧
    translateRange .write s.userLevel lin (4 * vs.length) s = .ok ps u ∧
    cells = ps.zip (vs.reverse.flatMap dwordBytes)

/-- The doublewords `vs` are pushed as one checked operation, the first one first: all the checks, and then
the stores, at the physical addresses `ps`, and ESP (R93, R181). -/
def PushedTo (s : State) (vs : List Dword) (ps : List Nat) (t : State) : Prop :=
  ∃ cells u, PushPrepared s vs cells u ∧ ps = cells.map (·.1) ∧
    t = { u.store cells with
          regs := { s.regs with esp := s.regs.esp - BitVec.ofNat 32 (4 * vs.length) } }

/-- `i` is a far transfer of a kind, its operand reads as `sel` and `off`, and leaves the state `u`
(R141, R187). -/
def FarOperand (kind : FarKind) (i : Instr) (s : State) (sel : Word) (off : Dword) (u : State) : Prop :=
  match kind with
  | .jmp => (i = .jmpFar sel off ∧ u = s) ∨ ∃ x, i = .jmpFarMem x ∧ readFarPointer x s = .ok (sel, off) u
  | .call => (i = .callFar sel off ∧ u = s) ∨ ∃ x, i = .callFarMem x ∧ readFarPointer x s = .ok (sel, off) u

/-- The far transfer `i` finds the call gate `g`, which it may use, and in it the code segment `d`, that
`csel` names, and the offset `off`; the reads leave the state `v` (R78, R196 to R200). -/
def GateOperand (kind : FarKind) (i : Instr) (s : State) (g : Desc) (csel : Word) (off : Dword) (d : Desc)
    (v : State) : Prop :=
  ∃ (sel : Word) (unused : Dword) (u w : State),
    FarOperand kind i s sel unused u ∧ isNull sel = false ∧ readDesc sel u = .ok (some g) w ∧
    g.isSeg = false ∧ g.typ = 0xC ∧ s.cpl ≤ g.dpl ∧ selRpl sel ≤ g.dpl ∧ g.present = true ∧
    csel = g.lo.extractLsb' 16 16 ∧ off = g.hi.extractLsb' 16 16 ++ g.lo.extractLsb' 0 16 ∧
    isNull csel = false ∧ readDesc csel w = .ok (some d) v ∧ d.isCode = true

/-- The far transfer `i` finds, directly or through a call gate, the code segment `d`, that `csel` names, at
the current level or conforming, and the offset `off` in it (R188 to R191, R198 to R201). -/
def SameLevelOperand (kind : FarKind) (i : Instr) (s : State) (csel : Word) (off : Dword) (d : Desc)
    (v : State) : Prop :=
  (∃ u, FarOperand kind i s csel off u ∧ isNull csel = false ∧ readDesc csel u = .ok (some d) v ∧
    d.isCode = true ∧ if d.conforming then d.dpl ≤ s.cpl else selRpl csel ≤ s.cpl ∧ d.dpl = s.cpl) ∨
  ((∃ g, GateOperand kind i s g csel off d v) ∧ if d.conforming then d.dpl ≤ s.cpl else d.dpl = s.cpl)

/-- Control entered the code segment `d` that `sel` names at the current level, after the push that will
store `pushed` and leaves ESP at `esp`: every check is made, those of the accessed bit too, then the
stores, at the physical addresses `ps`, then CS, ESP and `target` as the new instruction pointer (R172,
R352). -/
def EnteredCode (sel : Word) (d : Desc) (target : Dword) (pushed : List Host.Cell) (esp : Dword)
    (s : State) (ps : List Nat) (t : State) : Prop :=
  ∃ mark u, d.big = true ∧ prepareAccessed sel d s = .ok mark u ∧ ps = (pushed ++ mark).map (·.1) ∧
    t = (((u.store (pushed ++ mark)).withEsp esp).withCS sel d s.cpl).jumpTo target

/-- The stack switch of an inward transfer to the code segment `c` that `csel` names, with the stack
`nss:nesp` of descriptor `d` and the frame `vs` (R204 to R206): every check is made, with level-0 page
rights; then the accessed bit of the stack, the frame and the accessed bit of the code segment are
stored; `ps` are the stores in this order. -/
def EnteredInner (csel : Word) (c : Desc) (target : Dword) (nesp : Dword) (nss : Word) (d : Desc)
    (vs : List Dword) (s : State) (ps : List Nat) (t : State) : Prop :=
  ∃ qs stackMark codeMark u v w,
    limitOK (cacheOf nss d) (nesp - BitVec.ofNat 32 (4 * vs.length)).toNat (4 * vs.length) = true ∧
    targetOK c.effLimit target = true ∧ c.big = true ∧
    translateRange .write false (d.base + (nesp - BitVec.ofNat 32 (4 * vs.length))) (4 * vs.length) s
      = .ok qs u ∧
    prepareAccessed nss d u = .ok stackMark v ∧ prepareAccessed csel c v = .ok codeMark w ∧
    ps = stackMark.map (·.1) ++ qs ++ codeMark.map (·.1) ∧
    t = (((w.store (stackMark ++ qs.zip (vs.reverse.flatMap dwordBytes) ++ codeMark)).withCS csel c
      c.dpl).withStack nss d (nesp - BitVec.ofNat 32 (4 * vs.length))).jumpTo target

/-- `i` is a return of a frame of `size` bytes that releases `n` more: RETF and RETF imm16 (R211), and IRET
with NT = 0 (R292, R358). -/
def Returns (i : Instr) (s : State) (size : Nat) (n : Word) : Prop :=
  (size = 8 ∧ (i = .retf ∧ n = 0 ∨ i = .retfImm n)) ∨
  (size = 12 ∧ n = 0 ∧ i = .iret ∧ s.eflags.getLsbD bitNT = false)

/-- The frame of the return `i` lies within SS and reads as the offset `reip`, the doubleword `csword` of
CS and, for IRET, the flags `image`, 0 for a far return; the reads leave the state `v` (R211, R358). -/
def ReturnFrame (i : Instr) (s : State) (size : Nat) (n : Word) (reip csword image : Dword)
    (v : State) : Prop :=
  Returns i s size n ∧ limitOK s.segs.ss s.regs.esp.toNat size = true ∧
  ∃ u w, segReadDword .ss s.regs.esp s = .ok reip u ∧
    segReadDword .ss (s.regs.esp + 4) u = .ok csword w ∧
    (if size = 8 then image = 0 ∧ v = w else segReadDword .ss (s.regs.esp + 8) w = .ok image v)

/-- How an instruction ends that makes the checks or effects `m` last: with an exception of `m` it takes the
exception, with a refusal it is refused, and else it ends as `f` says (R10, R355). -/
def outcomeOf {α : Type} (m : EStateM.Result Stop State α)
    (f : α → State → Host.Outcome State Fault Refusal) : Host.Outcome State Fault Refusal :=
  match m with
  | .ok a t => f a t
  | .error (.exc e) t => takeException e t
  | .error (.refuse r) _ => .refused r

/-! ## What a task switch does -/

/-- The instructions that may switch tasks, by what causes the switch (R289 to R291, R293, R300). -/
def SwitchesTasks (i : Instr) : SwitchCause → Prop
  | .jmp => (∃ sel off, i = .jmpFar sel off) ∨ ∃ x, i = .jmpFarMem x
  | .call => (∃ sel off, i = .callFar sel off) ∨ ∃ x, i = .callFarMem x
  | .int => ∃ vector, i = .int vector
  | .iret => i = .iret

/-- The page checks of the access byte of the GDT descriptor of `sel` pass: it lies, as a read, at the
physical address `at_.1` and, as a write, at `at_.2`, with level-0 page rights; the state is then `t`
(R301). -/
def AccessByteAt (s : State) (sel : Word) (at_ : Nat × Nat) (t : State) : Prop :=
  ∃ u, pageCheck .read false (s.gdtAccessAddr sel) s = .ok at_.1 u ∧
    pageCheck .write false (s.gdtAccessAddr sel) u = .ok at_.2 t

/-- The page checks of a task switch pass: of the 62 bytes of the outgoing TSS that are saved, the 104 of
the incoming TSS, its back link where CALL or an interrupt writes it, and the access byte of each
descriptor whose busy bit changes; there is memory at all of them; `pages` are their physical addresses
and `v` the state left (R62, R300, R306; assumption log entry 21). -/
def SwitchPrepared (s : State) (cause : SwitchCause) (tsel : Word) (d : Desc) (pages : SwitchPages)
    (v : State) : Prop :=
  (∀ p ∈ pages.all, s.hasMemory p = true) ∧ ∃ u w x y,
    pageCheckRange .write false (s.tr.base + 32) 62 s = .ok pages.saved u ∧
    pageCheckRange .read false d.base 104 u = .ok pages.image w ∧
    pageCheckRange .write false d.base (if cause = .call ∨ cause = .int then 2 else 0) w
      = .ok pages.link x ∧
    (if cause = .jmp ∨ cause = .iret then
      ∃ at_, pages.freed = some at_ ∧ AccessByteAt x s.tr.sel at_ y
     else pages.freed = none ∧ y = x) ∧
    (if cause = .iret then pages.busied = none ∧ v = y
     else ∃ at_, pages.busied = some at_ ∧ AccessByteAt y tsel at_ v)

/-- `r` is what the operations `ms` give from `s`, one after another, up to the first that stops. -/
def RunsInOrder : List (Exec Unit) → State → EStateM.Result Stop State Unit → Prop
  | [], s, r => r = .ok () s
  | m :: ms, s, r =>
    (∃ e t, m s = .error e t ∧ r = .error e t) ∨ ∃ t, m s = .ok () t ∧ RunsInOrder ms t r

end Sys2Proof
end

