-- ==== Sys2Proof/Certificates/Slice0/Obligations.lean ====
section
/-! DEFINITION. The statements for the provers, `def Obligations.<Name> : Prop`. Each docstring names the
rule of spec/ that it formalises; the words `ReadTo`, `StoredTo`, `PushedTo`, `FarOperand`, `EnteredCode`
and `EnteredInner` are those of Safety.lean. -/

open Sys2Proof Sys2Proof.Machine

/-! ## Encoding (spec/30_encoding.md) -/

/-- Some words written out from R142 to R146, with the operands that R150 and the examples of the rules
give them. -/
def Obligations.DecodesSpecWords : Prop :=
  decode [0xEB, 0x10] = .instr (.jmpRel8 0x10) 2 ∧
  decode [0xFF, 0xE0] = .instr (.jmpRm (.reg .eax)) 2 ∧
  decode [0xE8, 0xFB, 0x0F, 0x00, 0x00] = .instr (.callRel32 0x00000FFB) 5 ∧
  decode [0xEA, 0x00, 0x10, 0x00, 0x00, 0x18, 0x00] = .instr (.jmpFar 0x0018 0x00001000) 7 ∧
  decode [0xFF, 0x1B] = .instr (.callFarMem (.mem ⟨.ds, some .ebx, none, 0⟩)) 2 ∧
  decode [0xCA, 0x08, 0x00] = .instr (.retfImm 8) 3 ∧
  decode [0xCD, 0x30] = .instr (.int 0x30) 2 ∧
  decode [0x0F, 0x22, 0xD8] = .instr (.movToCr 3 .eax) 3 ∧
  decode [0x0F, 0x00, 0xC8] = .instr (.str (.reg .eax)) 3 ∧
  decode [0x63, 0xD8] = .instr (.arpl (.reg .eax) .ebx) 2 ∧
  decode [0x63, 0x4D, 0x08] = .instr (.arpl (.mem ⟨.ss, some .ebp, none, 8⟩) .ecx) 3 ∧
  decode [0x26, 0x8E, 0x18] = .instr (.movSreg 3 (.mem ⟨.es, some .eax, none, 0⟩)) 3

/-- DECODE AND ENCODE AGREE (R142 to R146): the bytes of every well-formed instruction, whatever follows
them, decode to that instruction, with every operand at every value. -/
def Obligations.DecodeEncode : Prop :=
  ∀ (i : Instr) (rest : List Byte), i.wf = true →
    decode (encode i ++ rest) = .instr i (encode i).length

/-- The length of an instruction is told by its own bytes (R142): a decoding does not depend on what
follows, what is decoded is well formed, and no shorter run of the bytes is an instruction: it lacks at
least the number of bytes that the decoder answers. -/
def Obligations.DecodeUsesItsOwnBytes : Prop :=
  ∀ (bytes : List Byte) (i : Instr) (n : Nat), decode bytes = .instr i n →
    0 < n ∧ n ≤ bytes.length ∧ i.wf = true ∧
      (∀ rest, decode (bytes.take n ++ rest) = .instr i n) ∧
      ∀ k, k < n → ∃ m, decode (bytes.take k) = .needMore m ∧ 0 < m ∧ k + m ≤ n

/-- The prefix bytes and the reserved encodings (R147, R148): LOCK before a row of the table raises UD;
66H, 67H, F2H and F3H are refused; `0F 00 /6` and `/7`, `0F 01 /5` and `/7` and `FF /7` raise UD; SLDT,
SGDT, SIDT, SMSW, INC, DEC and PUSH are refused. -/
def Obligations.PrefixesAndReservedEncodings : Prop :=
  (∀ (i : Instr) (rest : List Byte), i.wf = true → decode (0xF0 :: (encode i ++ rest)) = .ud) ∧
  (∀ rest, decode (0x66 :: rest) = .refused .operandSizePrefix) ∧
  (∀ rest, decode (0x67 :: rest) = .refused .addressSizePrefix) ∧
  (∀ rest, decode (0xF2 :: rest) = .refused .repeatPrefix) ∧
  (∀ rest, decode (0xF3 :: rest) = .refused .repeatPrefix) ∧
  (∀ (hi : BitVec 2) (lo : BitVec 3) (rest : List Byte),
    (∀ digit : BitVec 3, digit = 6 ∨ digit = 7 →
      decode (0x0F :: 0x00 :: fieldsByte hi digit lo :: rest) = .ud) ∧
    (∀ digit : BitVec 3, digit = 5 ∨ digit = 7 →
      decode (0x0F :: 0x01 :: fieldsByte hi digit lo :: rest) = .ud) ∧
    decode (0xFF :: fieldsByte hi 7 lo :: rest) = .ud ∧
    decode (0x0F :: 0x00 :: fieldsByte hi 0 lo :: rest) = .refused .noRow ∧
    (∀ digit : BitVec 3, digit = 0 ∨ digit = 1 ∨ digit = 4 →
      decode (0x0F :: 0x01 :: fieldsByte hi digit lo :: rest) = .refused .noRow) ∧
    (∀ digit : BitVec 3, digit = 0 ∨ digit = 1 ∨ digit = 6 →
      decode (0xFF :: fieldsByte hi digit lo :: rest) = .refused .noRow))

/-! ## The step (R24, R38, R92, R243) -/

/-- A STEP RUNS THE DECODED INSTRUCTION: a running machine, in the modes of the spec and with no debug trap
due, whose fetch at CS:EIP gives an instruction, runs it with `next_eip` the offset after it. The step
also advances the number of the draw, which is the model's own. -/
def Obligations.StepRunsDecoded : Prop :=
  ∀ (s u : State) (i : Instr) (n : Nat),
    s.activity = .running → outsideModes s = none → s.debugTrap = false →
    fetch { s with draws := s.draws + 1 } = .ok (.instr i n) u →
      step s = exec i { u with nextEip := u.eip + BitVec.ofNat 32 n } ∧
      State.ReadTo { s with draws := s.draws + 1 } u

/-- The fetch reads the bytes of memory at CS:EIP (R92, R100, R108): where the `n` bytes at
`CS.base + EIP` translate, none is a page-table entry a walk has used, and none is stale, the fetch gives
what they decode to if that is an instruction of `n` bytes within the limit of CS, and GP(0) if 15 bytes
are not a whole instruction (R142). Where the bytes known to belong to the instruction do not all lie
within the limit, it gives GP(0) before the page of the next one is looked at (R92, R105; which bytes are
known so: assumption log entry 26).
An instruction one of whose bytes is stale is refused (R112): one of the 16 bytes of the stream from the
next instruction on that an instruction stored into, since the last taken transfer, by its address in the
tables at the store or by an old translation. That the fetch is where the run is refused, or its end if
that comes first (TakingAnException, StepRunsNoInstruction), and not the store, since a transfer may still
intervene: entry 28, an inference. -/
def Obligations.FetchReadsCode : Prop :=
  (∀ (s u : State) (n : Nat) (ps : List Nat),
    let lin := s.segs.cs.base + s.eip
    let stale := ∃ k, k < n ∧ lin + BitVec.ofNat 32 k ∈ s.storedAhead
    s.segs.cs.valid = true → translateRange .fetch s.userLevel lin n s = .ok ps u →
    (∀ p ∈ ps, p ∉ u.walked) →
      (¬stale →
        (∀ i, n ≤ maxInstrLen → limitOK s.segs.cs s.eip.toNat n = true →
          decode (ps.map s.mem.read) = .instr i n → fetch s = .ok (.instr i n) u) ∧
        (∀ m, n = maxInstrLen → limitOK s.segs.cs s.eip.toNat n = true →
          decode (ps.map s.mem.read) = .needMore m → fetch s = .error (.exc (.gp 0)) u) ∧
        (∀ m, n < maxInstrLen → decode (ps.map s.mem.read) = .needMore m →
          limitOK s.segs.cs s.eip.toNat (min (n + m) maxInstrLen) = false →
            ∃ v, fetch s = .error (.exc (.gp 0)) v ∧ s.ReadTo v)) ∧
      (stale → ∀ i, n ≤ maxInstrLen → limitOK s.segs.cs s.eip.toNat n = true →
        decode (ps.map s.mem.read) = .instr i n → ∃ v, fetch s = .error (.refuse .staleCode) v)) ∧
  (∀ (s : State) (cells : List Host.Cell) (a : Dword),
    a ∈ (s.store cells).storedAhead ↔ a ∈ s.storedAhead ∨
      (∃ k < 16, a = s.segs.cs.base + s.nextEip + BitVec.ofNat 32 k) ∧
      ∃ c ∈ cells, s.paging = false ∧ c.1 = a.toNat ∨
        s.paging = true ∧ ∃ tr entries, (walk s a = .mapped tr entries ∨
          .mapped tr entries ∈ oldLookups s a) ∧ c.1 = tr.phys a)

/-- What a step is where it runs no instruction: halted (R243, R408) and shut down (R357); outside
protected mode (PE = 0), in virtual-8086 mode (VM = 1) or with a valid 16-bit CS (D = 0) or SS (B = 0),
which P1, P2 and P5 of R391 exclude and the model refuses, and in no other case; a pending debug trap, before any instruction (R38, R305); an instruction pointer above
the limit of CS (R92); an exception or a refusal of the fetch; and bytes that raise UD or are refused
(R147, R148).
A halted or shut-down machine whose last instructions stored into the coming bytes of the stream is refused
(R112; assumption log entry 28).
The model's choices in it: the refusals outside the modes of the spec, assumption log entries 24 and 25;
the stop after halt and shutdown, entry 30. Shutdown rests on R357, adopted: entry 12. -/
def Obligations.StepRunsNoInstruction : Prop :=
  ∀ s : State,
    let s1 := { s with draws := s.draws + 1 }
    (s.activity = .halted →
      step s = if s.storedAhead = [] then .fault .halted else .refused .staleCode) ∧
    (s.activity = .shutdown →
      step s = if s.storedAhead = [] then .fault .shutdown else .refused .staleCode) ∧
    (outsideModes s =
      if s.ctl.cr0.getLsbD 0 = false then some .realAddressMode
      else if s.eflags.getLsbD 17 = true then some .virtual8086Mode
      else if s.segs.cs.valid = true ∧ s.segs.cs.db = false ∨
          s.segs.ss.valid = true ∧ s.segs.ss.db = false then some .sixteenBitForm
      else none) ∧
    (∀ r, s.activity = .running → outsideModes s = some r → step s = .refused r) ∧
    (s.activity = .running → outsideModes s = none →
      (s.debugTrap = true → step s = takeException .db { s1 with debugTrap := false }) ∧
      (s.debugTrap = false →
        (s.segs.cs.valid = false ∨ s.segs.cs.expandDown = false ∧ s.segs.cs.limit.toNat < s.eip.toNat →
          step s = takeException (.gp 0) s1) ∧
        (∀ e u, fetch s1 = .error (.exc e) u → step s = takeException e u) ∧
        (∀ r u, fetch s1 = .error (.refuse r) u → step s = .refused r) ∧
        (∀ u, fetch s1 = .ok .ud u → step s = takeException .ud u) ∧
        (∀ why u, fetch s1 = .ok (.refused why) u → step s = .refused (.undecoded why))))

/-! ## Invariants that every step keeps -/

/-- EVERY STEP KEEPS memory in its canonical form, and the two parameters of the model (`mem_map`,
`deliver_exceptions`: 00_scope section 5); the number of its next draw rises, so that no step uses one
that an earlier step used. -/
def Obligations.StepKeepsMemoryForm : Prop :=
  ∀ s t : State, s.mem.wf = true → step s = .next t →
    t.mem.wf = true ∧ t.memMap = s.memMap ∧ t.deliverExceptions = s.deliverExceptions ∧
      s.draws < t.draws

/-- EVERY STEP KEEPS protected mode, VM = 0 and the bits of CR0, CR3 and EFLAGS that hold nothing (R391 P1,
P2 and P9; R25, R33, R34). -/
def Obligations.StepKeepsControlState : Prop :=
  ∀ s t : State, s.ControlOK → step s = .next t → t.ControlOK

/-- EVERY STEP KEEPS the protection state: CPL is the RPL of CS, and every valid segment register holds a
segment that may be used at that level (R391 P3 to P6; R28, R29, R165, R189, R216). It also keeps CS and
SS loaded, unless it shuts the processor down (R28: they never hold the null selector; a task switch that
fails in its step 5 may leave one that is not valid, but then the exception is delivered on a stack of the
handler's, or the processor shuts down: R304, R357), and TR, once it names a task, naming one (of R391 P7
the part that every step keeps: assumption log entry 43).
Delivery rests on R357 and R358, adopted: assumption log entries 12 and 20. -/
def Obligations.StepKeepsProtection : Prop :=
  ∀ s t : State, s.Guarded → step s = .next t →
    t.Guarded ∧ (s.Seated → t.activity ≠ .shutdown → t.Seated) ∧
      (s.taskNamed = true → t.taskNamed = true)

/-- The state after reset satisfies the four invariants, and the premises P1 to P6 and P8 to P10 of R391
hold of it; P7 does not, until LTR names a task (R393; assumption log entry 43). That it is this state is
the model's choice: assumption log entries 10 and 11. -/
def Obligations.ResetMeetsInvariants : Prop :=
  State.reset.mem.wf = true ∧ State.reset.ControlOK ∧ State.reset.Guarded ∧ State.reset.Seated ∧
    State.reset.Flat ∧ State.reset.LinkOK ∧ ¬State.reset.TaskOK

/-- At CPL 1, 2 and 3 no step changes GDTR, IDTR, a debug register or a test register, and of CR0 only TS
can change, from 0 to 1 (R231; R302: a task switch sets it). -/
def Obligations.UserKeepsSystemRegisters : Prop :=
  ∀ s t : State, s.cpl ≠ 0 → step s = .next t →
    t.gdtr = s.gdtr ∧ t.idtr = s.idtr ∧
    (t.ctl.dr0, t.ctl.dr1, t.ctl.dr2, t.ctl.dr3, t.ctl.dr6, t.ctl.dr7)
      = (s.ctl.dr0, s.ctl.dr1, s.ctl.dr2, s.ctl.dr3, s.ctl.dr6, s.ctl.dr7) ∧
    (t.ctl.tr6, t.ctl.tr7) = (s.ctl.tr6, s.ctl.tr7) ∧
    (t.ctl.cr0 = s.ctl.cr0 ∨ t.ctl.cr0 = withBit s.ctl.cr0 bitTS true)

/-- EXCEPTIONS ARE PRECISE (R4, R352): an instruction that raises an exception has changed no register but
CR2, which a page fault loads, and no byte of memory, whatever the exception; or it switched tasks: the
checks of the switch passed, TS is set and the exception is that of the incoming task, raised in step 5
or by its T-bit (R304, R305). Stated with `deliver_exceptions` false, where the outcome shows the state
at the exception (R355).
That the accessed and busy bits are among what is not changed yet is the model's choice: assumption log
entries 21 and 37. -/
def Obligations.ExceptionsArePrecise : Prop :=
  ∀ (i : Instr) (s t : State) (e : Exception),
    s.deliverExceptions = false → exec i s = .fault (.exception e t) →
      (s.StoppedTo t ∧ (t.ctl.cr2 = s.ctl.cr2 ∨ ∃ c, e = .pf t.ctl.cr2 c)) ∨
      ∃ cause tsel u d v pages w,
        SwitchesTasks i cause ∧ s.ReadTo u ∧ incomingTss cause tsel u = .ok d v ∧
        prepareSwitch cause tsel d v = .ok pages w ∧ t.ctl.cr0.getLsbD bitTS = true ∧
        (taskSwitch cause tsel s.nextEip u = .error (.exc e) t ∨
          taskSwitch cause tsel s.nextEip u = .ok true t ∧ e = .db)

/-! ## Memory, segments and pages (spec/20_memory.md) -/

/-- `LimitOK` (R91): outside expand-down segments an access of `n` bytes passes exactly when its last byte
does not lie above the limit, so a byte fails above the limit, a word at or above it, a doubleword at
`limit - 2` or above; in an expand-down segment it passes exactly from `limit + 1` to 64K - 1 or 4G - 1 by
the B bit.
`EffLimit` (R74): with G = 0 the 20-bit field as it stands, with G = 1 twelve one-bits appended, that
is `X * 4096 + 4095` (R8). -/
def Obligations.LimitsOfSegments : Prop :=
  (∀ (g : SegReg) (off n : Nat), 0 < n →
     (g.expandDown = false →
       (limitOK g off n = true ↔ off + n - 1 ≤ g.limit.toNat) ∧
       (limitOK g off 1 = false ↔ off > g.limit.toNat) ∧
       (limitOK g off 2 = false ↔ off ≥ g.limit.toNat) ∧
       (limitOK g off 4 = false ↔ (off : Int) ≥ (g.limit.toNat : Int) - 2)) ∧
     (g.expandDown = true →
       (limitOK g off n = true ↔
         g.limit.toNat + 1 ≤ off ∧ off + n - 1 ≤ if g.db then 2 ^ 32 - 1 else 2 ^ 16 - 1))) ∧
  (∀ d : Desc,
     (d.hi.getLsbD 23 = false → d.effLimit.toNat = d.limit.toNat ∧ d.effLimit.toNat ≤ 0xFFFFF) ∧
     (d.hi.getLsbD 23 = true → d.effLimit.toNat = d.limit.toNat * 4096 + 4095 ∧
       0xFFF ≤ d.effLimit.toNat ∧ d.effLimit.toNat ≤ 2 ^ 32 - 1))

/-- `SegCheck` (R90), in its order: the null selector, a write into an executable segment, a write into a
data segment that is not writable, a read of an executable segment that is not readable: GP(0); a limit
violation: SF(0) through SS, GP(0) otherwise; else the linear address modulo 2^32 (R70). No state changes;
and a read or write is this check and then the access (R105: segment before page). -/
def Obligations.SegmentCheck : Prop :=
  ∀ (s : State) (name : SegName) (off : Dword) (n : Nat) (wr : Bool),
    let g := s.segs.get name
    let gp : EStateM.Result Stop State Dword := .error (.exc (.gp 0)) s
    (g.valid = false → segCheck name off n wr s = gp) ∧
    (g.valid = true → wr = true → g.typ.getLsbD 3 = true → segCheck name off n wr s = gp) ∧
    (g.valid = true → wr = true → g.typ.getLsbD 3 = false → g.typ.getLsbD 1 = false →
      segCheck name off n wr s = gp) ∧
    (g.valid = true → wr = false → g.typ.getLsbD 3 = true → g.typ.getLsbD 1 = false →
      segCheck name off n wr s = gp) ∧
    (g.valid = true →
      (if wr then g.typ.getLsbD 3 = false ∧ g.typ.getLsbD 1 = true
        else g.typ.getLsbD 3 = false ∨ g.typ.getLsbD 1 = true) →
      segCheck name off n wr s =
        if limitOK g off.toNat n then .ok (g.base + off) s
        else if name = .ss then .error (.exc (.sf 0)) s else gp) ∧
    (∀ a, segCheck name off n false s = .ok a s → segRead name off n s = memRead a n s) ∧
    (∀ e t, segCheck name off n false s = .error e t → segRead name off n s = .error e t) ∧
    (∀ a bs, segCheck name off bs.length true s = .ok a s → segWrite name off bs s = memWrite a bs s) ∧
    (∀ e t bs, segCheck name off bs.length true s = .error e t → segWrite name off bs s = .error e t)

/-- `Walk` and `PageCheck` (R96, R101, R102, R103). Without paging the physical address is the linear one
(R62). With it, and no old translation left: an entry that is not present raises PF with bit 0 of the
code 0; a user-level access to a page that is not user in both entries, or a user-level write to one not
writable in both, PF with bit 0 = 1; else the frame of the table entry and the offset. CR2 receives the
linear address; bit 1 of the code is 1 for a write, bit 2 for user level. Of every entry the walk used,
bits 6 and 5 are open from then on.
Old translations (R113): each access takes the translation of the tables as they stand or one of those
from before a store made while they were in use, at a draw of its own (assumption log entry 6). -/
def Obligations.PageTranslation : Prop :=
  ∀ (s : State) (acc : Access) (user : Bool) (lin : Dword),
    (s.paging = false → pageCheck acc user lin s = .ok lin.toNat s) ∧
    (s.paging = true → oldLookups s lin = [] → s.hasDword (pdeAddr s lin) = true →
      let pde := s.mem.dword (pdeAddr s lin)
      let pte := s.mem.dword (pteAddr pde lin)
      let code (present : Bool) : Word := (if present then 1 else 0) + (if acc = .write then 2 else 0)
        + (if user then 4 else 0)
      let fault (present : Bool) (u : State) : EStateM.Result Stop State Nat :=
        .error (.exc (.pf lin (code present))) { u with ctl := { u.ctl with cr2 := lin } }
      (pde.getLsbD 0 = false →
        ∃ u, s.ReadTo u ∧ pdeAddr s lin ∈ u.walked ∧ pageCheck acc user lin s = fault false u) ∧
      (pde.getLsbD 0 = true → s.hasDword (pteAddr pde lin) = true →
        ∃ u, s.ReadTo u ∧ pdeAddr s lin ∈ u.walked ∧ pteAddr pde lin ∈ u.walked ∧
          (pte.getLsbD 0 = false → pageCheck acc user lin s = fault false u) ∧
          (pte.getLsbD 0 = true → pageCheck acc user lin s =
            if user = true ∧ ¬(pde.getLsbD 2 = true ∧ pte.getLsbD 2 = true) then fault true u
            else if user = true ∧ acc = .write ∧ ¬(pde.getLsbD 1 = true ∧ pte.getLsbD 1 = true) then
              fault true u
            else .ok ((pte.extractLsb' 12 20).toNat * 4096 + (lin.extractLsb' 0 12).toNat) u))) ∧
    (lookup s lin = walk s lin ∨ ∃ m ∈ s.pastMemory, lookup s lin = walkIn s m lin) ∧
    (∀ cells, s.tablesUsed = true → cells ≠ [] → (s.store cells).pastMemory = s.mem :: s.pastMemory) ∧
    (∀ p u, s.paging = true → oldLookups s lin ≠ [] → pageCheck acc user lin s = .ok p u →
      u.draws = s.draws + 1)

/-- Restriction of the addressable domain and of the page type (R99, R100). With paging, an access at user
level reaches exactly the pages that belong to the user level, a write exactly those of them marked
read/write, and any other page raises PF with the protection bit; at supervisor level every page with a
translation and memory is reached, for reading and writing. This holds also of a translation that is out
of date (R113). -/
def Obligations.PagePrivilege : Prop :=
  ∀ (s : State) (acc : Access) (lin : Dword), s.paging = true →
    (∀ p u, translateRange acc true lin 1 s = .ok [p] u →
      ∃ t entries, lookup s lin = .mapped t entries ∧ t.user = true ∧
        (acc = .write → t.writable = true) ∧ p = t.phys lin ∧ s.hasMemory p = true) ∧
    (∀ t entries, lookup s lin = .mapped t entries → s.hasMemory (t.phys lin) = true →
      (∃ u, translateRange acc false lin 1 s = .ok [t.phys lin] u ∧ s.ReadTo u) ∧
      (t.user = true → (acc = .write → t.writable = true) →
        ∃ u, translateRange acc true lin 1 s = .ok [t.phys lin] u ∧ s.ReadTo u)) ∧
    (∀ t entries, lookup s lin = .mapped t entries →
      t.user = false ∨ acc = .write ∧ t.writable = false →
        ∃ u, translateRange acc true lin 1 s = .error (.exc (.pf lin (if acc = .write then 7 else 5))) u ∧
          s.StoppedTo u)

/-- What a read gives (R103, R108): the bytes at the physical addresses of its translations, in ascending
order; every register and every byte of memory is as it was. Where a walk has used an entry, only bits 6
and 5 of the byte may differ from memory, and the next read of it takes a draw of its own (R96). Without
paging the addresses are `lin` and on modulo 2^32, and nothing at all changes. Every byte's page is
checked before any byte is moved (R103): an exception of one page check is raised even where another byte
has no memory, and the access is refused where all pass and there is no memory at one of the addresses
(R62). That this refusal comes with the move of the bytes, after the page checks of all, and that these go
in ascending order, is the model's choice: assumption log entry 33. -/
def Obligations.ReadsBytes : Prop :=
  ∀ (s u : State) (user : Bool) (lin : Dword) (n : Nat) (ps : List Nat),
    (translateRange .read user lin n s = .ok ps u →
      ∃ v, readBytes user lin n s = .ok (ps.map u.byteAt) v ∧ s.ReadTo v ∧ ps.length = n ∧
        (∀ p ∈ ps, u.byteAt p &&& 0x9F = s.mem.read p &&& 0x9F ∧
          (p ∉ u.walked → u.byteAt p = s.mem.read p)) ∧
        ((∃ p ∈ ps, p ∈ u.walked) → v.draws = u.draws + 1)) ∧
    (∀ e v, pageCheckRange .read user lin n s = .error e v → readBytes user lin n s = .error e v) ∧
    (∀ qs v, pageCheckRange .read user lin n s = .ok qs v → (∃ p ∈ qs, s.hasMemory p = false) →
      readBytes user lin n s = .error (.refuse .noMemory) v) ∧
    (s.Flat → s.walked = [] → readBytes user lin n s = .ok (s.bytesAt lin n) s)

/-- What a write does (R103, R109): every byte is translated before any is moved; then each is stored at
its address, every other byte of memory and every register is as it was. Without paging the addresses are
`lin` and on modulo 2^32.
Which byte's page fault is raised where several fail: assumption log entry 33. -/
def Obligations.WritesBytes : Prop :=
  ∀ (s u : State) (user : Bool) (lin : Dword) (bytes : List Byte) (ps : List Nat),
    s.mem.wf = true →
    (translateRange .write user lin bytes.length s = .ok ps u →
      ∃ t, writeBytes user lin bytes s = .ok () t ∧ s.StoredTo ps t ∧ ps.length = bytes.length ∧
        (ps.Nodup → ∀ (k p : Nat) (b : Byte), ps[k]? = some p → bytes[k]? = some b →
          t.mem.read p = b)) ∧
    (∀ e v, translateRange .write user lin bytes.length s = .error e v →
      writeBytes user lin bytes s = .error e v ∧ s.StoppedTo v) ∧
    (s.Flat → bytes.length ≤ 2 ^ 32 →
      ∃ t, writeBytes user lin bytes s = .ok () t ∧ t.bytesAt lin bytes.length = bytes ∧
        s.StoredTo ((List.range bytes.length).map fun k => (lin + BitVec.ofNat 32 k).toNat) t)

/-- `ReadDesc` (R84, R85, R86): TI selects the LDT or the GDT; a selector is out of its table when
`INDEX * 8 + 7` is above the limit, and with TI = 1 whenever LDTR is not valid; else the 8 bytes at
`base + INDEX * 8` are read with level-0 page rights whatever CPL is (R104).
`SetAccessed` (R88): with A = 1 nothing happens; with A = 0 the access byte, byte 5 of the descriptor,
is written back with A = 1 and its other bits as they were read, with level-0 page rights; no other byte
of memory and no register changes. That the byte is written back as it was read is an inference:
assumption log entry 42. -/
def Obligations.DescriptorTables : Prop :=
  (∀ (s : State) (sel : Word),
     (selTI sel = false → s.gdtr.limit.toNat < (sel.toNat / 8) * 8 + 7 → readDesc sel s = .ok none s) ∧
     (selTI sel = true → s.ldtr.valid = false → readDesc sel s = .ok none s) ∧
     (selTI sel = true → s.ldtr.limit.toNat < (sel.toNat / 8) * 8 + 7 → readDesc sel s = .ok none s) ∧
     (∀ (base : Dword) (bytes : List Byte) (u : State),
       (selTI sel = false ∧ (sel.toNat / 8) * 8 + 7 ≤ s.gdtr.limit.toNat ∧ base = s.gdtr.base ∨
         selTI sel = true ∧ s.ldtr.valid = true ∧ (sel.toNat / 8) * 8 + 7 ≤ s.ldtr.limit.toNat ∧
           base = s.ldtr.base) →
       sysRead (base + BitVec.ofNat 32 ((sel.toNat / 8) * 8)) 8 s = .ok bytes u →
         readDesc sel s = .ok (some ⟨dwordAt bytes 0, dwordAt bytes 4⟩) u ∧ s.ReadTo u)) ∧
  (∀ (s u : State) (sel : Word) (d : Desc) (p : Nat), s.mem.wf = true →
     (d.accessed = true → setAccessed sel d s = .ok () s) ∧
     (d.accessed = false → translateRange .write false (s.tableBase sel + BitVec.ofNat 32 (selOffset sel) + 5) 1 s
         = .ok [p] u →
       ∃ t, setAccessed sel d s = .ok () t ∧ s.StoredTo [p] t ∧
         t.mem.read p = d.hi.extractLsb' 8 8 ||| 1) ∧
     (∀ t, setAccessed sel d s = .ok () t → s.StoredTo (accessedStores sel d s) t))

/-- `PushAll` (R93, R181): `k` doublewords are pushed as one checked operation, the first one highest; ESP
falls by `4 * k` modulo 2^32 after every check; a check that fails leaves registers and memory as they
were, and beyond the limit of SS it is the stack fault (R90).
With ESP = 0 and a stack of limit FFFFFFFFH the push passes, by the pseudocode of R181 and against its
prose: the model's choice, assumption log entry 46. -/
def Obligations.PushAll : Prop :=
  ∀ (s t : State) (vs : List Dword) (ps : List Nat), s.mem.wf = true →
    (PushedTo s vs ps t →
      pushAll vs s = .ok () t ∧ ps.length = 4 * vs.length ∧
      t.regs = { s.regs with esp := s.regs.esp - BitVec.ofNat 32 (4 * vs.length) } ∧
      s.StoredTo ps { t with regs := s.regs } ∧
      (ps.Nodup → ∀ (k : Nat) (v : Dword), vs.reverse[k]? = some v →
        ((ps.drop (4 * k)).take 4).map t.mem.read = dwordBytes v)) ∧
    (∀ e u, pushAll vs s = .error e u → s.StoppedTo u) ∧
    (s.segs.ss.valid = true → s.segs.ss.typ.getLsbD 3 = false → s.segs.ss.typ.getLsbD 1 = true →
      limitOK s.segs.ss (s.regs.esp - BitVec.ofNat 32 (4 * vs.length)).toNat (4 * vs.length) = false →
        pushAll vs s = .error (.exc (.sf 0)) s)

/-- EFLAGS bit by bit: a load leaves bit 1 as 1 and bits 3, 5, 15 and 31..18 as 0 (R25); ARPL, LAR, LSL,
VERR and VERW write ZF only (R25); MOV to or from CRn, DRn, TRn leaves every flag but OF, SF, ZF, AF, PF
and CF (R237); entry through a trap or interrupt gate clears TF and NT, and IF for an interrupt gate
(R357); IRET writes IOPL only at CPL 0 and IF only when `CPL <= IOPL` (R358).
That a load normalises the bits that R25 says read as 1 and 0, whatever is loaded (R300 has only
`EFLAGS <- nfl`), is an inference: assumption log entry 27. R357 and R358 are adopted: entries 12 and 20. -/
def Obligations.FlagUpdates : Prop :=
  ∀ (old image : Dword) (b ig : Bool) (draw : BitVec 6) (cpl : Level) (k : Nat), k < 32 →
    (eflagsOf image).getLsbD k =
      (if k = 1 then true else if k = 3 ∨ k = 5 ∨ k = 15 ∨ 18 ≤ k then false else image.getLsbD k) ∧
    (setZF old b).getLsbD k = (if k = 6 then b else old.getLsbD k) ∧
    (k ∉ [0, 2, 4, 6, 7, 11] → (drawArithFlags old draw).getLsbD k = old.getLsbD k) ∧
    (flagsAfterEntry old ig).getLsbD k =
      (if k = 8 ∨ k = 14 ∨ k = 9 ∧ ig = true then false else old.getLsbD k) ∧
    (flagsAfterIret old image cpl).getLsbD k =
      (if k = 17 then old.getLsbD k
       else if (k = 12 ∨ k = 13) ∧ cpl ≠ 0 then old.getLsbD k
       else if k = 9 ∧ iopl old < cpl then old.getLsbD k
       else (eflagsOf image).getLsbD k)

/-! ## Loading segment registers (spec/40_segment_load.md) -/

/-- `MOV DS, ES, FS or GS, r/m16` completes (R164, R170): a null selector is loaded without any check and
the register becomes invalid (R163); another needs a segment that is data or readable code, conforming
code or `DPL >= MAX(CPL, RPL)` (R162), present, and the register holds what its descriptor says (R164),
the accessed bit being set (R88). Nothing else changes but EIP.
What a register then holds, `Cache(sel, d)` of R164, is said field by field from the bits of the descriptor
(R72, R73, R74), and so are the predicates of R73 on descriptors.
`MOV SS, r/m16` completes (R165, R170) exactly with a present, writable, 32-bit data segment whose DPL
and whose selector's RPL are CPL. Nothing else changes but EIP and the accessed bit. -/
def Obligations.MovToSegmentRegister : Prop :=
  (∀ (s u : State) (sreg : BitVec 3) (name : SegName) (src : RM) (sel : Word),
     segOfBits sreg = some name → name ≠ .cs → name ≠ .ss → readRM16 src s = .ok sel u →
     (isNull sel = true →
       s.ReadTo u ∧ exec (.movSreg sreg src) s =
         .next { u.withSeg name { u.segs.get name with sel := sel, valid := false } with eip := s.nextEip }) ∧
     (∀ (d : Desc) (v w : State), isNull sel = false → readDesc sel u = .ok (some d) v →
       d.isData = true ∨ d.isCode = true ∧ d.hi.getLsbD 9 = true →
       d.conforming = true ∨ s.cpl ≤ d.dpl ∧ selRpl sel ≤ d.dpl →
       d.present = true → setAccessed sel d v = .ok () w →
         s.ReadTo v ∧ v.StoredTo (accessedStores sel d v) w ∧
         exec (.movSreg sreg src) s = .next { w.withSeg name (cacheOf sel d) with eip := s.nextEip })) ∧
  (∀ (s u v w : State) (src : RM) (sel : Word) (d : Desc),
     readRM16 src s = .ok sel u → isNull sel = false → readDesc sel u = .ok (some d) v →
     selRpl sel = s.cpl → d.writable = true → d.dpl = s.cpl → d.present = true → d.big = true →
     setAccessed sel d v = .ok () w →
       s.ReadTo v ∧ v.StoredTo (accessedStores sel d v) w ∧
       exec (.movSreg 2 src) s = .next { w.withSeg .ss (cacheOf sel d) with eip := s.nextEip }) ∧
  (∀ (sel : Word) (d : Desc),
     let g := cacheOf sel d
     let limit : BitVec 20 := d.hi.extractLsb' 16 4 ++ d.lo.extractLsb' 0 16
     g.sel = sel ∧ g.valid = true ∧ g.s = true ∧
     g.base = d.hi.extractLsb' 24 8 ++ d.hi.extractLsb' 0 8 ++ d.lo.extractLsb' 16 16 ∧
     g.limit.toNat = (if d.hi.getLsbD 23 then limit.toNat * 4096 + 4095 else limit.toNat) ∧
     g.typ.getLsbD 0 = true ∧ (∀ k, 1 ≤ k → k < 4 → g.typ.getLsbD k = d.hi.getLsbD (8 + k)) ∧
     g.db = d.hi.getLsbD 22 ∧ g.dpl = d.hi.extractLsb' 13 2) ∧
  (∀ d : Desc,
     d.isSeg = d.hi.getLsbD 12 ∧
     (d.isCode = true ↔ d.hi.getLsbD 12 = true ∧ d.hi.getLsbD 11 = true) ∧
     (d.isData = true ↔ d.hi.getLsbD 12 = true ∧ d.hi.getLsbD 11 = false) ∧
     (d.conforming = true ↔ d.isCode = true ∧ d.hi.getLsbD 10 = true) ∧
     (d.writable = true ↔ d.isData = true ∧ d.hi.getLsbD 9 = true) ∧
     d.dpl = d.hi.extractLsb' 13 2 ∧ d.present = d.hi.getLsbD 15 ∧ d.big = d.hi.getLsbD 22)

/-- Where `MOV Sreg, r/m16` traps (R160, R164, R165, R170, R341 to R343), the register unchanged: with the
exception of reading its operand or the descriptor; CS and the numbers 6 and 7 raise UD; SS with a null selector GP(0); a
selector out of its table, a descriptor of the wrong kind and a privilege violation GP with the selector; a
segment not present NP with the selector, for SS the stack fault. A 16-bit stack is refused (R75). Where
all these pass, the write of the accessed bit decides how the instruction ends: with its exception (R88),
or with the register loaded.
That the numbers 6 and 7, which no row of the table names (R143, R146), read their operand before UD is an
inference: assumption log entry 35. -/
def Obligations.MovToSegmentTraps : Prop :=
  (∀ (s u : State) (sreg : BitVec 3) (src : RM) (e : Exception), readRM16 src s = .error (.exc e) u →
    exec (.movSreg sreg src) s = takeException e u) ∧
  ∀ (s u : State) (sreg : BitVec 3) (src : RM) (sel : Word), readRM16 src s = .ok sel u →
    (sreg = 1 ∨ sreg = 6 ∨ sreg = 7 → exec (.movSreg sreg src) s = takeException .ud u) ∧
    (sreg = 2 → isNull sel = true → exec (.movSreg sreg src) s = takeException (.gp 0) u) ∧
    (sreg ∉ [1, 6, 7] → isNull sel = false →
      (∀ v, readDesc sel u = .ok none v →
        exec (.movSreg sreg src) s = takeException (.gp (selErr sel)) v) ∧
      (∀ e v, readDesc sel u = .error (.exc e) v → exec (.movSreg sreg src) s = takeException e v) ∧
      (∀ (d : Desc) (v : State), readDesc sel u = .ok (some d) v →
        let loads (name : SegName) : Prop := exec (.movSreg sreg src) s =
          outcomeOf (setAccessed sel d v) fun _ w =>
            .next { w.withSeg name (cacheOf sel d) with eip := s.nextEip }
        (sreg ≠ 2 →
          (d.isSeg = false → exec (.movSreg sreg src) s = takeException (.gp (selErr sel)) v) ∧
          (d.isCode = true → d.hi.getLsbD 9 = false →
            exec (.movSreg sreg src) s = takeException (.gp (selErr sel)) v) ∧
          (d.conforming = false → d.dpl < s.cpl ∨ d.dpl < selRpl sel →
            exec (.movSreg sreg src) s = takeException (.gp (selErr sel)) v) ∧
          (d.isData = true ∨ d.isCode = true ∧ d.hi.getLsbD 9 = true →
            d.conforming = true ∨ s.cpl ≤ d.dpl ∧ selRpl sel ≤ d.dpl →
            (d.present = false → exec (.movSreg sreg src) s = takeException (.np (selErr sel)) v) ∧
            (d.present = true → ∀ name, segOfBits sreg = some name → loads name))) ∧
        (sreg = 2 →
          (selRpl sel ≠ s.cpl ∨ d.writable = false ∨ d.dpl ≠ s.cpl →
            exec (.movSreg sreg src) s = takeException (.gp (selErr sel)) v) ∧
          (selRpl sel = s.cpl → d.writable = true → d.dpl = s.cpl →
            (d.present = false → exec (.movSreg sreg src) s = takeException (.sf (selErr sel)) v) ∧
            (d.present = true → d.big = false → exec (.movSreg sreg src) s = .refused .sixteenBitForm) ∧
            (d.present = true → d.big = true → loads .ss)))))

/-! ## Near transfers (spec/41_control_transfer.md section 2) -/

/-- `JMP rel8`, `JMP rel32` (R182) and `JMP r/m32` (R183): EIP becomes the target, CS and every other
register is as it was; a target above the limit of CS raises GP(0).
The offset of a memory operand, here and in every other instruction that has one (R144): base, index times
2^scale and displacement, modulo 2^32. -/
def Obligations.NearJumps : Prop :=
  (∀ (x : Regs) (m : MemOperand), (effectiveOffset x m).toNat =
    (m.base.elim 0 (fun b => (x.get b).toNat) +
      m.index.elim 0 (fun i => (x.get i.1).toNat * 2 ^ i.2.toNat) + m.disp.toNat) % 2 ^ 32) ∧
  ∀ s : State,
    let jump (target : Dword) (u : State) :=
      if target.toNat ≤ s.segs.cs.limit.toNat then
        Host.Outcome.next { u with eip := target, storedAhead := [] }
      else takeException (.gp 0) u
    (∀ rel : Byte, decode [0xEB, rel] = .instr (.jmpRel8 rel) 2 ∧
      exec (.jmpRel8 rel) s = jump (s.nextEip + rel.signExtend 32) s) ∧
    (∀ rel : Dword, decode (0xE9 :: dwordBytes rel) = .instr (.jmpRel32 rel) 5 ∧
      exec (.jmpRel32 rel) s = jump (s.nextEip + rel) s) ∧
    (∀ x : RM, encode (.jmpRm x) = encodeWithRM [0xFF] 4 x) ∧
    (∀ r : Reg, exec (.jmpRm (.reg r)) s = jump (s.regs.get r) s) ∧
    (∀ (m : MemOperand) (target : Dword) (u : State),
      segReadDword m.seg (effectiveOffset s.regs m) s = .ok target u →
        s.ReadTo u ∧ exec (.jmpRm (.mem m)) s = jump target u) ∧
    (∀ (m : MemOperand) (e : Exception) (u : State),
      segReadDword m.seg (effectiveOffset s.regs m) s = .error (.exc e) u →
        exec (.jmpRm (.mem m)) s = takeException e u)

/-- `CALL rel32` (R184) and `CALL r/m32` (R185): the target is checked, then `next_eip` is pushed and EIP
becomes the target; ESP falls by 4 and no other register changes. A target above the limit raises GP(0)
and pushes nothing; an exception of reading the operand or of the push is raised. -/
def Obligations.NearCalls : Prop :=
  (∀ rel : Dword, encode (.callRel32 rel) = 0xE8 :: dwordBytes rel) ∧
  (∀ x : RM, encode (.callRm x) = encodeWithRM [0xFF] 2 x) ∧
  (∀ (s u : State) (i : Instr) (target : Dword),
    (∃ rel, i = .callRel32 rel ∧ target = s.nextEip + rel ∧ u = s) ∨
      (∃ x, i = .callRm x ∧ readRM32 x s = .ok target u) →
    (target.toNat ≤ s.segs.cs.limit.toNat → ∀ ps v, PushedTo u [s.nextEip] ps v →
      s.ReadTo u ∧ u.StoredTo ps { v with regs := u.regs } ∧
      exec i s = .next { v with eip := target, storedAhead := [] }) ∧
    (s.segs.cs.limit.toNat < target.toNat → exec i s = takeException (.gp 0) u) ∧
    (target.toNat ≤ s.segs.cs.limit.toNat → ∀ e v, pushAll [s.nextEip] u = .error (.exc e) v →
      exec i s = takeException e v)) ∧
  ∀ (s u : State) (x : RM) (e : Exception), readRM32 x s = .error (.exc e) u →
    exec (.callRm x) s = takeException e u

/-- `RET` and `RET imm16`, near (R186): the offset at SS:ESP becomes EIP, ESP rises by 4 and by the
immediate, and is not compared to the limit (R215); an offset above the limit of CS raises GP(0) with ESP
as it was, and an exception of reading the stack is raised. -/
def Obligations.NearReturns : Prop :=
  encode .ret = [0xC3] ∧ (∀ n : Word, encode (.retImm n) = 0xC2 :: wordBytes n) ∧
  ∀ (s u : State) (i : Instr) (n : Word), i = .ret ∧ n = 0 ∨ i = .retImm n →
    (∀ target, segReadDword .ss s.regs.esp s = .ok target u →
      s.ReadTo u ∧ exec i s =
        if target.toNat ≤ s.segs.cs.limit.toNat then
          .next { u with
            regs := { s.regs with esp := s.regs.esp + 4 + n.zeroExtend 32 }
            eip := target
            storedAhead := [] }
        else takeException (.gp 0) u) ∧
    (∀ e, segReadDword .ss s.regs.esp s = .error (.exc e) u → exec i s = takeException e u)

/-! ## Far transfers (sections 3 to 6) -/

/-- A far JMP or CALL, `ptr16:32` or `m16:32`, to a code segment completes (R188, R190, R191): conforming
with `DPL <= CPL`, or nonconforming with `DPL = CPL` and `RPL <= CPL`; present; the offset within its
limit. A CALL pushes the CS selector and `next_eip`, EIP at the new ESP and the selector above it; CS and
EIP are loaded; CPL and the stack segment do not change, nor does any other register (R189).
Every check comes before the first store, that of the accessed bit too: assumption log entry 37. -/
def Obligations.FarTransferToCode : Prop :=
  ∀ (s u v : State) (kind : FarKind) (i : Instr) (sel : Word) (off : Dword) (d : Desc),
    FarOperand kind i s sel off u → isNull sel = false → readDesc sel u = .ok (some d) v →
    d.isCode = true →
    (if d.conforming then d.dpl ≤ s.cpl else selRpl sel ≤ s.cpl ∧ d.dpl = s.cpl) →
    d.present = true → off.toNat ≤ d.effLimit.toNat →
    let newSegs := { s.segs with cs := { cacheOf sel d with sel := sel.extractLsb' 2 14 ++ s.cpl } }
    (kind = .jmp → ∀ ps t, EnteredCode sel d off [] s.regs.esp v ps t →
      exec i s = .next t ∧ t.cpl = s.cpl ∧ t.eip = off ∧ t.segs = newSegs ∧
      s.StoredTo ps { t with segs := s.segs, eip := s.eip }) ∧
    (kind = .call → ∀ cells ps w t,
      PushPrepared v [s.segs.cs.sel.zeroExtend 32, s.nextEip] cells w →
      EnteredCode sel d off cells (s.regs.esp - 8) w ps t →
      exec i s = .next t ∧ t.cpl = s.cpl ∧ t.eip = off ∧ t.segs = newSegs ∧
      t.regs = { s.regs with esp := s.regs.esp - 8 } ∧
      s.StoredTo ps { t with segs := s.segs, regs := s.regs, eip := s.eip } ∧
      cells.map (·.2) = dwordBytes s.nextEip ++ dwordBytes (s.segs.cs.sel.zeroExtend 32) ∧
      (s.mem.wf = true → ps.Nodup → ∀ c ∈ cells, t.mem.read c.1 = c.2))

/-- A far JMP or CALL through a call gate at the same privilege level completes (R198, R199, R200, R201):
`MAX(CPL, RPL) <= gate DPL`, the gate present, its selector that of a present code segment which is
nonconforming with `DPL = CPL` or conforming with `DPL <= CPL`, its offset within the limit. The offset of
the operand, the RPL of the gate's selector and the count are not used; a CALL pushes as a direct one.
That the accessed bit is checked before the push is stored, where R191 and R201 push first, is the model's
choice: assumption log entry 37. -/
def Obligations.CallGateAtSameLevel : Prop :=
  ∀ (s v : State) (kind : FarKind) (i : Instr) (csel : Word) (off : Dword) (g d : Desc),
    GateOperand kind i s g csel off d v →
    (if d.conforming then d.dpl ≤ s.cpl else d.dpl = s.cpl) → d.present = true →
    off.toNat ≤ d.effLimit.toNat →
    (kind = .jmp → ∀ ps t, EnteredCode csel d off [] s.regs.esp v ps t →
      exec i s = .next t ∧ t.cpl = s.cpl ∧ t.eip = off ∧
      s.StoredTo ps { t with segs := { t.segs with cs := s.segs.cs }, eip := s.eip }) ∧
    (kind = .call → ∀ cells ps w t,
      PushPrepared v [s.segs.cs.sel.zeroExtend 32, s.nextEip] cells w →
      EnteredCode csel d off cells (s.regs.esp - 8) w ps t →
      exec i s = .next t ∧ t.cpl = s.cpl ∧ t.eip = off ∧
      t.regs = { s.regs with esp := s.regs.esp - 8 } ∧
      s.StoredTo ps { t with segs := { t.segs with cs := s.segs.cs }, regs := s.regs, eip := s.eip })

/-- A CALL through a call gate to a more privileged level completes (R199, R202 to R207): the new stack is
the one the TSS names for the DPL of the target; the frame pushed on it is old SS, old ESP, the `count`
doublewords from the caller's stack, parameter `k` from `ESP + 4 * k`, the last first, old CS and
`next_eip`; CPL becomes the target's DPL and ESP addresses the return pointer. DS, ES, FS, GS, EFLAGS and
the other general registers are as they were.
Where such a CALL traps instead: with the exception or the refusal of the stack's selection; a frame that
does not fit, SF(0); an offset above the limit of the target, GP(0); an exception of reading a parameter
or of the push. A 16-bit target is refused (R75). An exception of the write of an accessed bit is raised
with nothing stored: no rule says where in the order it comes or what it leaves, and this place, after the
page checks of the frame and the 16-bit refusal and before the first store, is the model's choice:
assumption log entry 37. -/
def Obligations.CallGateToInnerLevel : Prop :=
  ∀ (s v : State) (i : Instr) (csel : Word) (off : Dword) (g d : Desc),
    GateOperand .call i s g csel off d v → d.conforming = false → d.dpl < s.cpl → d.present = true →
    let count := (g.hi.extractLsb' 0 5).toNat
    let room := 16 + 4 * count
    (∀ e w, innerStack d.dpl v = .error (.exc e) w → exec i s = takeException e w) ∧
    (∀ r w, innerStack d.dpl v = .error (.refuse r) w → exec i s = .refused r) ∧
    (∀ (nesp : Dword) (nss : Word) (e : Desc) (x : State), innerStack d.dpl v = .ok (nesp, nss, e) x →
      let top := nesp - BitVec.ofNat 32 room
      let fits := limitOK (cacheOf nss e) top.toNat room
      (fits = false → exec i s = takeException (.sf 0) x) ∧
      (fits = true → d.effLimit.toNat < off.toNat → exec i s = takeException (.gp 0) x) ∧
      (fits = true → off.toNat ≤ d.effLimit.toNat →
        (∀ f y, readParams 0 count x = .error (.exc f) y → exec i s = takeException f y) ∧
        (∀ (params : List Dword) (y : State), readParams 0 count x = .ok params y →
          let frame := [s.segs.ss.sel.zeroExtend 32, s.regs.esp] ++ params.reverse
            ++ [s.segs.cs.sel.zeroExtend 32, s.nextEip]
          params.length = count ∧
          (∀ (k : Nat) (p : Dword), params[k]? = some p → ∃ a b, x.ReadTo a ∧
            segReadDword .ss (s.regs.esp + BitVec.ofNat 32 (4 * k)) a = .ok p b ∧ b.ReadTo y) ∧
          (∀ f z, prepareWrite false (e.base + top) (frame.reverse.flatMap dwordBytes) y
              = .error (.exc f) z → exec i s = takeException f z) ∧
          (∀ cells z, prepareWrite false (e.base + top) (frame.reverse.flatMap dwordBytes) y
              = .ok cells z →
            (d.big = false → exec i s = .refused .sixteenBitForm) ∧
            (d.big = true → exec i s = outcomeOf (prepareAccessed nss e z) fun m a =>
              outcomeOf (prepareAccessed csel d a) fun n b => .next
                ((((b.store (m ++ cells ++ n)).withCS csel d d.dpl).withStack nss e top).jumpTo off))) ∧
          (∀ ps t, EnteredInner csel d off nesp nss e frame y ps t →
            exec i s = .next t ∧ t.cpl = d.dpl ∧ t.eip = off ∧ t.segs.ss = cacheOf nss e ∧
            t.segs.cs = { cacheOf csel d with sel := csel.extractLsb' 2 14 ++ d.dpl } ∧
            t.regs = { s.regs with esp := top } ∧
            s.StoredTo ps
              { t with segs := { t.segs with cs := s.segs.cs, ss := s.segs.ss }
                       regs := s.regs, eip := s.eip, cpl := s.cpl }))))

/-- The new stack of an inward transfer (R203, R204): its ESP and SS are read from the current TSS at
`4 + 8 * n` and `8 + 8 * n` with level-0 rights; a TSS too short raises TS; a null selector GP(0); a wrong
RPL, or no writable data segment, GP with the selector; a DPL other than the new level, or a segment not
present, SF with the selector; a 16-bit stack is refused.
The exception kinds are the decision of the spec (D15) and not of its source. An exception of reading
either field of the TSS or the descriptor is raised. -/
def Obligations.InnerStackSelection : Prop :=
  ∀ (s : State) (new : Level),
    (s.tr.limit.toNat < 8 * new.toNat + 11 →
      innerStack new s = .error (.exc (.ts (selErr s.tr.sel))) s) ∧
    (8 * new.toNat + 11 ≤ s.tr.limit.toNat → ∀ e u,
      sysRead (s.tr.base + BitVec.ofNat 32 (4 + 8 * new.toNat)) 4 s = .error e u →
        innerStack new s = .error e u) ∧
    (8 * new.toNat + 11 ≤ s.tr.limit.toNat → ∀ espBytes u,
      sysRead (s.tr.base + BitVec.ofNat 32 (4 + 8 * new.toNat)) 4 s = .ok espBytes u → ∀ e v,
        sysRead (s.tr.base + BitVec.ofNat 32 (8 + 8 * new.toNat)) 2 u = .error e v →
          innerStack new s = .error e v) ∧
    (8 * new.toNat + 11 ≤ s.tr.limit.toNat →
      ∀ (espBytes ssBytes : List Byte) (u v : State),
      sysRead (s.tr.base + BitVec.ofNat 32 (4 + 8 * new.toNat)) 4 s = .ok espBytes u →
      sysRead (s.tr.base + BitVec.ofNat 32 (8 + 8 * new.toNat)) 2 u = .ok ssBytes v →
      let nss := wordAt ssBytes 0
      (isNull nss = true → innerStack new s = .error (.exc (.gp 0)) v) ∧
      (isNull nss = false →
        (∀ w, readDesc nss v = .ok none w → innerStack new s = .error (.exc (.gp (selErr nss))) w) ∧
        (∀ e w, readDesc nss v = .error e w → innerStack new s = .error e w) ∧
        (∀ (d : Desc) (w : State), readDesc nss v = .ok (some d) w →
          (selRpl nss ≠ new ∨ d.writable = false →
            innerStack new s = .error (.exc (.gp (selErr nss))) w) ∧
          (selRpl nss = new → d.writable = true →
            (d.dpl ≠ new ∨ d.present = false →
              innerStack new s = .error (.exc (.sf (selErr nss))) w) ∧
            (d.dpl = new → d.present = true → d.big = false →
              innerStack new s = .error (.refuse .sixteenBitForm) w) ∧
            (d.dpl = new → d.present = true → d.big = true →
              innerStack new s = .ok (dwordAt espBytes 0, nss, d) w)))))

/-- A far JMP or CALL to a TSS descriptor or a task gate completes (R287, R289, R290, R297): the DPL of
the descriptor or gate is at least `MAX(CPL, RPL)`, that of the TSS behind a gate is not looked at, and
the offset is not used; then the task is switched. With the T-bit of the new task, DB is raised in its
context (R305). Every exception of the task switch is raised by the instruction, and its refusals are the
instruction's (R300). -/
def Obligations.FarTransferToTask : Prop :=
  ∀ (s u v t : State) (kind : FarKind) (i : Instr) (sel tsel : Word) (off : Dword) (d : Desc),
    FarOperand kind i s sel off u → isNull sel = false → readDesc sel u = .ok (some d) v →
    d.isSeg = false → s.cpl ≤ d.dpl → selRpl sel ≤ d.dpl →
    ((d.typ = 9 ∨ d.typ = 0xB) ∧ selTI sel = false ∧ tsel = sel ∨
      d.typ = 5 ∧ d.present = true ∧ tsel = d.lo.extractLsb' 16 16) →
    let switch := taskSwitch kind.cause tsel s.nextEip v
    (∀ trap, switch = .ok trap t → exec i s = if trap then takeException .db t else .next t) ∧
    (∀ e, switch = .error (.exc e) t → exec i s = takeException e t) ∧
    (∀ r, switch = .error (.refuse r) t → exec i s = .refused r)

/-- Where a far JMP or CALL traps before it switches a task or a stack (R187, R188, R190, R191, R198 to
R201, R285, R289): a register operand, UD (R146); an exception of reading the pointer, whose offset is the
bytes 0 to 3 and whose selector the bytes 4 and 5 (R83); a null selector GP(0); out of its table, a data
segment, a system type that is no gate or TSS it may use, or a broken privilege rule, GP with the selector;
a call gate, task gate or code segment not present, NP. 80286 types are refused.
Only CALL may use a gate to a more privileged level, and none goes to a less privileged one (R197): with
the gate usable, a target whose DPL is above CPL, and for a JMP a nonconforming target whose DPL is not
CPL, raise GP with the gate's selector; a null one GP(0), one out of its table or of no code segment GP, a
target not present NP.
At the same level, directly or through a gate: an offset above the limit of the target, GP(0); for a CALL
the exception of the push, beyond the limit of SS the stack fault; and of the write of the accessed bit,
raised with nothing stored although R191 pushes first: the model's choice, assumption log entry 37. A
16-bit target is refused (R75). An exception of reading a descriptor is raised.
The exceptions of the task switch are in FarTransferToTask, those of the stack switch in
CallGateToInnerLevel. -/
def Obligations.FarTransferTraps : Prop :=
  (∀ (s : State) (r : Reg), exec (.jmpFarMem (.reg r)) s = takeException .ud s ∧
     exec (.callFarMem (.reg r)) s = takeException .ud s) ∧
  (∀ (s u : State) (m : MemOperand),
     (∀ bytes, segRead m.seg (effectiveOffset s.regs m) 6 s = .ok bytes u →
       readFarPointer (.mem m) s = .ok (wordAt bytes 4, dwordAt bytes 0) u) ∧
     (∀ e, segRead m.seg (effectiveOffset s.regs m) 6 s = .error (.exc e) u →
       exec (.jmpFarMem (.mem m)) s = takeException e u ∧
       exec (.callFarMem (.mem m)) s = takeException e u)) ∧
  (∀ (s u : State) (kind : FarKind) (i : Instr) (sel : Word) (off : Dword),
     FarOperand kind i s sel off u →
     (isNull sel = true → exec i s = takeException (.gp 0) u) ∧
     (isNull sel = false →
       (∀ v, readDesc sel u = .ok none v → exec i s = takeException (.gp (selErr sel)) v) ∧
       (∀ e v, readDesc sel u = .error (.exc e) v → exec i s = takeException e v) ∧
       (∀ (d : Desc) (v : State), readDesc sel u = .ok (some d) v →
         (d.isData = true → exec i s = takeException (.gp (selErr sel)) v) ∧
         (d.isSeg = false → d.typ.toNat ∈ [0, 2, 6, 7, 8, 0xA, 0xD, 0xE, 0xF] →
           exec i s = takeException (.gp (selErr sel)) v) ∧
         (d.isSeg = false → d.typ.toNat ∈ [1, 3, 4] → exec i s = .refused .sixteenBitForm) ∧
         (d.isSeg = false → d.typ.toNat ∈ [5, 9, 0xB, 0xC] → d.dpl < s.cpl ∨ d.dpl < selRpl sel →
           exec i s = takeException (.gp (selErr sel)) v) ∧
         (d.isSeg = false → d.typ.toNat ∈ [9, 0xB] → selTI sel = true →
           exec i s = takeException (.gp (selErr sel)) v) ∧
         (d.isSeg = false → d.typ.toNat ∈ [5, 0xC] → s.cpl ≤ d.dpl → selRpl sel ≤ d.dpl →
           d.present = false → exec i s = takeException (.np (selErr sel)) v) ∧
         (d.isCode = true →
           (d.conforming = true → s.cpl < d.dpl → exec i s = takeException (.gp (selErr sel)) v) ∧
           (d.conforming = false → s.cpl < selRpl sel ∨ d.dpl ≠ s.cpl →
             exec i s = takeException (.gp (selErr sel)) v))))) ∧
  (∀ (s u v : State) (kind : FarKind) (i : Instr) (sel : Word) (off : Dword) (g : Desc),
     FarOperand kind i s sel off u → isNull sel = false → readDesc sel u = .ok (some g) v →
     g.isSeg = false → g.typ = 0xC → s.cpl ≤ g.dpl → selRpl sel ≤ g.dpl → g.present = true →
     let tsel := g.lo.extractLsb' 16 16
     (isNull tsel = true → exec i s = takeException (.gp 0) v) ∧
     (isNull tsel = false →
       (∀ w, readDesc tsel v = .ok none w → exec i s = takeException (.gp (selErr tsel)) w) ∧
       (∀ e w, readDesc tsel v = .error (.exc e) w → exec i s = takeException e w) ∧
       (∀ (d : Desc) (w : State), readDesc tsel v = .ok (some d) w →
         (d.isCode = false → exec i s = takeException (.gp (selErr tsel)) w) ∧
         (d.isCode = true → s.cpl < d.dpl → exec i s = takeException (.gp (selErr tsel)) w) ∧
         (d.isCode = true → kind = .jmp → d.conforming = false → d.dpl ≠ s.cpl →
           exec i s = takeException (.gp (selErr tsel)) w) ∧
         (d.isCode = true → d.dpl ≤ s.cpl → (kind = .jmp → d.conforming = true ∨ d.dpl = s.cpl) →
           d.present = false → exec i s = takeException (.np (selErr tsel)) w)))) ∧
  (∀ (s v : State) (kind : FarKind) (i : Instr) (sel : Word) (off : Dword) (d : Desc),
     SameLevelOperand kind i s sel off d v →
     (d.present = false → exec i s = takeException (.np (selErr sel)) v) ∧
     (d.present = true → d.effLimit.toNat < off.toNat → exec i s = takeException (.gp 0) v) ∧
     (d.present = true → off.toNat ≤ d.effLimit.toNat →
       let pushed := [s.segs.cs.sel.zeroExtend 32, s.nextEip]
       (kind = .jmp → d.big = false → exec i s = .refused .sixteenBitForm) ∧
       (kind = .jmp → exec i s = outcomeOf (enterCode sel d off [] s.regs.esp v) fun _ t => .next t) ∧
       (kind = .call →
         (∀ e w, preparePush pushed v = .error (.exc e) w → exec i s = takeException e w) ∧
         (s.segs.ss.valid = true → s.segs.ss.typ.getLsbD 3 = false → s.segs.ss.typ.getLsbD 1 = true →
           limitOK s.segs.ss (s.regs.esp - 8).toNat 8 = false → exec i s = takeException (.sf 0) v) ∧
         (∀ cells w, PushPrepared v pushed cells w →
           (d.big = false → exec i s = .refused .sixteenBitForm) ∧
           exec i s = outcomeOf (enterCode sel d off cells (s.regs.esp - 8) w) fun _ t => .next t)))) ∧
  (∀ (s t : State) (sel : Word) (off esp : Dword) (d : Desc) (cells : List Host.Cell) (e : Stop),
     d.big = true → prepareAccessed sel d s = .error e t →
       enterCode sel d off cells esp s = .error e t ∧ s.StoppedTo t)

/-! ## Far return, and return from an exception (section 7; spec/60_exceptions.md R358) -/

/-- `RETF` and `RETF imm16` to the same level complete (R211, R213): the return CS has `RPL = CPL` and
names a present code segment, nonconforming with `DPL = RPL` or conforming with `DPL <= RPL`, whose limit
holds the offset; CS and EIP are loaded and ESP rises by 8 and the immediate (R215). Nothing else
changes. -/
def Obligations.FarReturnSameLevel : Prop :=
  ∀ (s u v w x : State) (i : Instr) (n : Word) (reip csword : Dword) (d : Desc),
    i = .retf ∧ n = 0 ∨ i = .retfImm n →
    limitOK s.segs.ss s.regs.esp.toNat 8 = true → segReadDword .ss s.regs.esp s = .ok reip u →
    segReadDword .ss (s.regs.esp + 4) u = .ok csword v →
    let rcs := csword.extractLsb' 0 16
    selRpl rcs = s.cpl → isNull rcs = false → readDesc rcs v = .ok (some d) w → d.isCode = true →
    d.present = true → (if d.conforming then d.dpl ≤ selRpl rcs else d.dpl = selRpl rcs) →
    reip.toNat ≤ d.effLimit.toNat → d.big = true → setAccessed rcs d w = .ok () x →
      s.ReadTo w ∧ w.StoredTo (accessedStores rcs d w) x ∧
      exec i s = .next { x with
        segs := { s.segs with cs := cacheOf rcs d }
        regs := { s.regs with esp := s.regs.esp + 8 + n.zeroExtend 32 }
        eip := reip
        storedAhead := [] }

/-- `RETF` and `RETF imm16` to a less privileged level complete (R214, R215, R216): the fifteen checks of
Table 6-3 hold (R213); CS, EIP, CPL = RPL of the return CS, SS and ESP are loaded from the stack, ESP
released by the immediate a second time and not compared to the limit; and each of DS, ES, FS and GS whose
segment has a DPL below the new CPL and is no conforming code is loaded with the null selector. The
accessed bits of both segments are checked before either is stored: assumption log entry 37. -/
def Obligations.FarReturnToOuterLevel : Prop :=
  ∀ (s u v w x y z p q : State) (i : Instr) (n : Word) (reip csword resp ssword : Dword) (d e : Desc)
    (codeMark stackMark : List Host.Cell),
    i = .retf ∧ n = 0 ∨ i = .retfImm n →
    limitOK s.segs.ss s.regs.esp.toNat 8 = true → segReadDword .ss s.regs.esp s = .ok reip u →
    segReadDword .ss (s.regs.esp + 4) u = .ok csword v →
    let rcs := csword.extractLsb' 0 16
    s.cpl < selRpl rcs → isNull rcs = false → readDesc rcs v = .ok (some d) w → d.isCode = true →
    d.present = true → (if d.conforming then d.dpl ≤ selRpl rcs else d.dpl = selRpl rcs) →
    limitOK s.segs.ss (s.regs.esp.toNat + n.toNat + 8) 8 = true →
    segReadDword .ss (s.regs.esp + n.zeroExtend 32 + 8) w = .ok resp x →
    segReadDword .ss (s.regs.esp + n.zeroExtend 32 + 12) x = .ok ssword y →
    let rss := ssword.extractLsb' 0 16
    isNull rss = false → readDesc rss y = .ok (some e) z → e.writable = true → e.present = true →
    e.dpl = selRpl rcs → selRpl rss = selRpl rcs → e.big = true →
    reip.toNat ≤ d.effLimit.toNat → d.big = true →
    prepareAccessed rcs d z = .ok codeMark p → prepareAccessed rss e p = .ok stackMark q →
      s.ReadTo q ∧
      q.StoredTo (accessedStores rcs d z ++ accessedStores rss e p) (q.store (codeMark ++ stackMark)) ∧
      exec i s = .next { q.store (codeMark ++ stackMark) with
        segs :=
          { cs := cacheOf rcs d
            ss := cacheOf rss e
            ds := s.segs.ds.nullIfInaccessible (selRpl rcs)
            es := s.segs.es.nullIfInaccessible (selRpl rcs)
            fs := s.segs.fs.nullIfInaccessible (selRpl rcs)
            gs := s.segs.gs.nullIfInaccessible (selRpl rcs) }
        cpl := selRpl rcs
        regs := { s.regs with esp := resp + n.zeroExtend 32 }
        eip := reip
        storedAhead := [] }

/-- `NullIfInaccessible` (R216): a valid register whose segment has `DPL < new CPL` and is not conforming
code then holds selector 0 and is not valid; every other register is left as it is; and none is left
through which the new level could reach a segment it may not load (R162). -/
def Obligations.NullIfInaccessible : Prop :=
  ∀ (g : SegReg) (new : Level),
    let conforming := g.typ.getLsbD 3 = true ∧ g.typ.getLsbD 2 = true
    (g.valid = true → g.dpl < new → ¬conforming →
      (g.nullIfInaccessible new).sel = 0 ∧ (g.nullIfInaccessible new).valid = false) ∧
    (g.valid = false ∨ new ≤ g.dpl ∨ conforming → g.nullIfInaccessible new = g) ∧
    ((g.nullIfInaccessible new).valid = true → new ≤ g.dpl ∨ conforming)

/-- Table 6-3 (R213) in the order of its rows, for RETF, RETF imm16 and IRET with NT = 0 (R358): rows 1 and
2, the frame not within SS, SF(0); rows 3 to 8, the return CS; row 9, the outer SS:ESP not within SS,
SF(0), for IRET by R292, since R358 does not name it (an inference: assumption log entry 23); rows 10 to
15, what the check of the return SS gives for the level `new` that the return CS names, and that the
instruction raises or refuses it; then the offset above the limit of the return CS, GP(0). An image of
EFLAGS with VM = 1 at CPL 0 is refused (R358). An exception of reading the frame, the outer SS:ESP or a
descriptor is raised, and one of the write of an accessed bit, of both segments before either is stored,
with nothing changed: that place is the model's choice, assumption log entry 37.
R358 is adopted, and where in the order VM = 1 is refused is the model's choice: assumption log entry 20.
A 16-bit segment is refused (R75). -/
def Obligations.ReturnChecks : Prop :=
  (∀ (s : State) (i : Instr) (size : Nat) (n : Word), Returns i s size n →
     (limitOK s.segs.ss s.regs.esp.toNat size = false → exec i s = takeException (.sf 0) s) ∧
     (limitOK s.segs.ss s.regs.esp.toNat size = true →
       (∀ e u, segReadDword .ss s.regs.esp s = .error (.exc e) u → exec i s = takeException e u) ∧
       ∀ reip u, segReadDword .ss s.regs.esp s = .ok reip u →
         (∀ e v, segReadDword .ss (s.regs.esp + 4) u = .error (.exc e) v → exec i s = takeException e v) ∧
         ∀ csword v, segReadDword .ss (s.regs.esp + 4) u = .ok csword v → size = 12 →
           ∀ e w, segReadDword .ss (s.regs.esp + 8) v = .error (.exc e) w →
             exec i s = takeException e w)) ∧
  (∀ (s v : State) (i : Instr) (size : Nat) (n : Word) (reip csword image : Dword),
     ReturnFrame i s size n reip csword image v →
     let rcs := csword.extractLsb' 0 16
     let gp := takeException (.gp (selErr rcs))
     (selRpl rcs < s.cpl → exec i s = gp v) ∧
     (s.cpl ≤ selRpl rcs → isNull rcs = true → exec i s = gp v) ∧
     (s.cpl ≤ selRpl rcs → isNull rcs = false →
       (∀ w, readDesc rcs v = .ok none w → exec i s = gp w) ∧
       (∀ e w, readDesc rcs v = .error (.exc e) w → exec i s = takeException e w) ∧
       (∀ (d : Desc) (w : State), readDesc rcs v = .ok (some d) w →
         (d.isCode = false → exec i s = gp w) ∧
         (d.isCode = true → d.present = false → exec i s = takeException (.np (selErr rcs)) w) ∧
         (d.isCode = true → d.present = true →
           (d.conforming = true → selRpl rcs < d.dpl → exec i s = gp w) ∧
           (d.conforming = false → d.dpl ≠ selRpl rcs → exec i s = gp w) ∧
           ((if d.conforming then d.dpl ≤ selRpl rcs else d.dpl = selRpl rcs) →
             (s.cpl = 0 → image.getLsbD bitVM = true → exec i s = .refused .virtual8086Mode) ∧
             (¬(s.cpl = 0 ∧ image.getLsbD bitVM = true) → s.cpl = selRpl rcs →
               (d.effLimit.toNat < reip.toNat → exec i s = takeException (.gp 0) w) ∧
               (reip.toNat ≤ d.effLimit.toNat → d.big = false → exec i s = .refused .sixteenBitForm) ∧
               (reip.toNat ≤ d.effLimit.toNat → d.big = true → ∃ ended : State → State,
                 exec i s = outcomeOf (setAccessed rcs d w) fun _ y => .next (ended y))) ∧
             (¬(s.cpl = 0 ∧ image.getLsbD bitVM = true) → s.cpl < selRpl rcs →
               (limitOK s.segs.ss (s.regs.esp.toNat + size + n.toNat) 8 = false →
                 exec i s = takeException (.sf 0) w) ∧
               (limitOK s.segs.ss (s.regs.esp.toNat + size + n.toNat) 8 = true →
                 (∀ e x, segReadDword .ss (s.regs.esp + BitVec.ofNat 32 (size + n.toNat)) w
                   = .error (.exc e) x → exec i s = takeException e x) ∧
                 (∀ resp x, segReadDword .ss (s.regs.esp + BitVec.ofNat 32 (size + n.toNat)) w
                   = .ok resp x → ∀ e y,
                     segReadDword .ss (s.regs.esp + BitVec.ofNat 32 (size + n.toNat + 4)) x
                       = .error (.exc e) y → exec i s = takeException e y) ∧
                 ∀ (resp ssword : Dword) (x y : State),
                 segReadDword .ss (s.regs.esp + BitVec.ofNat 32 (size + n.toNat)) w = .ok resp x →
                 segReadDword .ss (s.regs.esp + BitVec.ofNat 32 (size + n.toNat + 4)) x
                   = .ok ssword y →
                 let rss := ssword.extractLsb' 0 16
                 (∀ f z, returnSS rss (selRpl rcs) y = .error (.exc f) z →
                   exec i s = takeException f z) ∧
                 (∀ r z, returnSS rss (selRpl rcs) y = .error (.refuse r) z → exec i s = .refused r) ∧
                 (∀ e z, returnSS rss (selRpl rcs) y = .ok e z →
                   (d.effLimit.toNat < reip.toNat → exec i s = takeException (.gp 0) z) ∧
                   (reip.toNat ≤ d.effLimit.toNat → d.big = false →
                     exec i s = .refused .sixteenBitForm) ∧
                   (reip.toNat ≤ d.effLimit.toNat → d.big = true →
                     ∃ ended : List Host.Cell → List Host.Cell → State → State, exec i s =
                       outcomeOf (prepareAccessed rcs d z) fun codeMark a =>
                         outcomeOf (prepareAccessed rss e a) fun stackMark b =>
                           .next (ended codeMark stackMark b)))))))))) ∧
  (∀ (s : State) (rss : Word) (new : Level),
     (isNull rss = true → returnSS rss new s = .error (.exc (.gp (selErr rss))) s) ∧
     (isNull rss = false →
       (∀ v, readDesc rss s = .ok none v → returnSS rss new s = .error (.exc (.gp (selErr rss))) v) ∧
       (∀ e v, readDesc rss s = .error e v → returnSS rss new s = .error e v) ∧
       (∀ (e : Desc) (v : State), readDesc rss s = .ok (some e) v →
         (e.writable = false → returnSS rss new s = .error (.exc (.gp (selErr rss))) v) ∧
         (e.writable = true → e.present = false →
           returnSS rss new s = .error (.exc (.sf (selErr rss))) v) ∧
         (e.writable = true → e.present = true → e.dpl ≠ new ∨ selRpl rss ≠ e.dpl →
           returnSS rss new s = .error (.exc (.gp (selErr rss))) v) ∧
         (e.writable = true → e.present = true → e.dpl = new → selRpl rss = e.dpl →
           returnSS rss new s
             = if e.big then .ok e v else .error (.refuse .sixteenBitForm) v))))

/-- A return never goes to a more privileged level (R212, R364): where RETF, RETF imm16, or IRET with
NT = 0 gives a next state and no exception is taken, CPL is numerically the same or greater. Stated with
`deliver_exceptions` false, where an exception gives no next state.
R358 is adopted: assumption log entry 20. -/
def Obligations.ReturnsGoOutward : Prop :=
  ∀ (s t : State) (i : Instr),
    s.deliverExceptions = false →
    (i = .retf ∨ (∃ n, i = .retfImm n) ∨ i = .iret ∧ s.eflags.getLsbD bitNT = false) →
    exec i s = .next t → s.cpl ≤ t.cpl ∧ t.cpl = selRpl t.segs.cs.sel

/-- `IRET` with NT = 0 completes (R292, R358 adopted; assumption log entry 20), to the same level: EIP, CS
and EFLAGS are loaded from the stack and ESP rises by 12; and to a less privileged one: ESP and SS too,
with step 3 of the interlevel return (R216). EFLAGS as the level allows.
Where it traps instead, ReturnChecks says for this instruction too, the exceptions of reading the frame and
the descriptors and of the writes of the accessed bits among them. That both accessed bits are checked
before either is stored: entry 37. -/
def Obligations.InterruptReturn : Prop :=
  ∀ (s u v w x : State) (reip csword image : Dword) (d : Desc),
    s.eflags.getLsbD bitNT = false → limitOK s.segs.ss s.regs.esp.toNat 12 = true →
    segReadDword .ss s.regs.esp s = .ok reip u → segReadDword .ss (s.regs.esp + 4) u = .ok csword v →
    segReadDword .ss (s.regs.esp + 8) v = .ok image w →
    let rcs := csword.extractLsb' 0 16
    isNull rcs = false → readDesc rcs w = .ok (some d) x → d.isCode = true → d.present = true →
    (if d.conforming then d.dpl ≤ selRpl rcs else d.dpl = selRpl rcs) → d.big = true →
    ¬(s.cpl = 0 ∧ image.getLsbD bitVM = true) → reip.toNat ≤ d.effLimit.toNat →
    (∀ y, selRpl rcs = s.cpl → setAccessed rcs d x = .ok () y →
      s.ReadTo x ∧ x.StoredTo (accessedStores rcs d x) y ∧
      exec .iret s = .next { y with
        segs := { s.segs with cs := cacheOf rcs d }
        regs := { s.regs with esp := s.regs.esp + 12 }
        eip := reip
        eflags := flagsAfterIret s.eflags image s.cpl
        storedAhead := [] }) ∧
    (∀ (y z p q r : State) (resp ssword : Dword) (e : Desc) (codeMark stackMark : List Host.Cell),
      s.cpl < selRpl rcs → limitOK s.segs.ss (s.regs.esp.toNat + 12) 8 = true →
      segReadDword .ss (s.regs.esp + 12) x = .ok resp y →
      segReadDword .ss (s.regs.esp + 16) y = .ok ssword z →
      let rss := ssword.extractLsb' 0 16
      isNull rss = false → readDesc rss z = .ok (some e) p → e.writable = true → e.present = true →
      e.dpl = selRpl rcs → selRpl rss = selRpl rcs → e.big = true →
      prepareAccessed rcs d p = .ok codeMark q → prepareAccessed rss e q = .ok stackMark r →
        s.ReadTo r ∧
        r.StoredTo (accessedStores rcs d p ++ accessedStores rss e q) (r.store (codeMark ++ stackMark)) ∧
        exec .iret s = .next { r.store (codeMark ++ stackMark) with
          segs :=
            { cs := cacheOf rcs d
              ss := cacheOf rss e
              ds := s.segs.ds.nullIfInaccessible (selRpl rcs)
              es := s.segs.es.nullIfInaccessible (selRpl rcs)
              fs := s.segs.fs.nullIfInaccessible (selRpl rcs)
              gs := s.segs.gs.nullIfInaccessible (selRpl rcs) }
          cpl := selRpl rcs
          regs := { s.regs with esp := resp }
          eip := reip
          eflags := flagsAfterIret s.eflags image s.cpl
          storedAhead := [] })

/-! ## INT, taking an exception, and IRET between tasks (R291 to R294, R347, R355 to R357) -/

/-- The gate of a vector (R293, R357): above the limit of the IDT, GP; an entry that is no task, trap or
interrupt gate, GP; for INT alone a gate DPL below CPL, GP; a gate not present, NP; each with the error
code `8 * n + 2`; an 80286 gate is refused, for an exception before its present bit is looked at, as R357
has it, for INT after, as R293 has it; else the gate.
R357 is adopted: assumption log entry 12. R357 adds EXT to the error code of an exception: that it is 0
here is an inference, entry 19. -/
def Obligations.InterruptGateChecks : Prop :=
  ∀ (s : State) (n : Nat) (software : Bool), n < 256 →
    let code := BitVec.ofNat 16 (8 * n + 2)
    (s.idtr.limit.toNat < 8 * n + 7 → idtGate n software s = .error (.exc (.gp code)) s) ∧
    (8 * n + 7 ≤ s.idtr.limit.toNat → ∀ (bytes : List Byte) (u : State),
      sysRead (s.idtr.base + BitVec.ofNat 32 (8 * n)) 8 s = .ok bytes u →
      let g := Desc.mk (dwordAt bytes 0) (dwordAt bytes 4)
      let small := g.typ.toNat = 6 ∨ g.typ.toNat = 7
      (g.isSeg = true ∨ g.typ.toNat ∉ [5, 6, 7, 0xE, 0xF] →
        idtGate n software s = .error (.exc (.gp code)) u) ∧
      (g.isSeg = false → g.typ.toNat ∈ [5, 6, 7, 0xE, 0xF] →
        (software = false → small → idtGate n software s = .error (.refuse .sixteenBitForm) u) ∧
        (software = true → g.dpl < s.cpl → idtGate n software s = .error (.exc (.gp code)) u) ∧
        (software = false ∧ ¬small ∨ software = true ∧ s.cpl ≤ g.dpl →
          (g.present = false → idtGate n software s = .error (.exc (.np code)) u) ∧
          (g.present = true → small → idtGate n software s = .error (.refuse .sixteenBitForm) u) ∧
          (g.present = true → ¬small → idtGate n software s = .ok g u))))

/-- What entry through a trap or interrupt gate does, for INT and for an exception (R357): at the same
level EFLAGS, CS and the return offset are pushed, then the error code if there is one; CS and EIP are
loaded from the gate, and TF, NT and for an interrupt gate IF are cleared. INT returns to the instruction
after it; an exception to the one EIP addresses.
Entry through a trap or interrupt gate to a more privileged level (R357, R356): the stack is the one
the TSS names, and old SS and old ESP are pushed on it before the rest; CPL becomes the DPL of the
handler's code segment.
Where entry traps instead, INT and an exception alike, with nothing changed but CR2: the exception of the
gate; of the gate's selector null GP(0), out of its table, no code segment or of a DPL above CPL GP, not
present NP; an exception of reading its descriptor; the gate's offset above its limit GP(0) (assumption log
entry 22); the exception of the push; the exception or refusal of the stack's selection; a frame that does
not fit on the new stack SF(0) (entry 45). A 16-bit handler is refused (R75). An exception of the writes of
the accessed bits, of the handler's code segment and of the inner stack, is raised before the first store:
the model's choice, entry 37.
That entry discards the prefetched bytes, as a taken transfer, although R112 names neither INT nor delivery,
is the model's choice: entry 28. R357 is adopted: entry 12. -/
def Obligations.GateEntry : Prop :=
  (∀ (s u v w t : State) (n : Nat) (software : Bool) (code : Option Dword) (ret : Dword) (g d : Desc)
     (cells : List Host.Cell) (ps : List Nat),
     idtGate n software s = .ok g u → g.typ.toNat ≠ 5 → isNull g.gateSelector = false →
     readDesc g.gateSelector u = .ok (some d) v → d.isCode = true → d.present = true →
     (if d.conforming then d.dpl ≤ s.cpl else d.dpl = s.cpl) → g.gateOffset.toNat ≤ d.effLimit.toNat →
     let frame := [s.eflags, s.segs.cs.sel.zeroExtend 32, ret] ++ code.toList
     let esp := s.regs.esp - BitVec.ofNat 32 (4 * frame.length)
     PushPrepared v frame cells w → EnteredCode g.gateSelector d g.gateOffset cells esp w ps t →
       deliver n code ret software s
         = .ok false { t with eflags := flagsAfterEntry s.eflags g.isInterruptGate } ∧
       t.eip = g.gateOffset ∧ t.cpl = s.cpl ∧ t.regs = { s.regs with esp := esp } ∧
       s.StoredTo ps
         { t with segs := { t.segs with cs := s.segs.cs }, regs := s.regs, eip := s.eip }) ∧
  (∀ (s u v w t : State) (n : Nat) (software : Bool) (code : Option Dword) (ret nesp : Dword)
     (nss : Word) (g d e : Desc) (ps : List Nat),
     idtGate n software s = .ok g u → g.typ.toNat ≠ 5 → isNull g.gateSelector = false →
     readDesc g.gateSelector u = .ok (some d) v → d.isCode = true → d.present = true →
     d.conforming = false → d.dpl < s.cpl → innerStack d.dpl v = .ok (nesp, nss, e) w →
     EnteredInner g.gateSelector d g.gateOffset nesp nss e
       ([s.segs.ss.sel.zeroExtend 32, s.regs.esp] ++
         ([s.eflags, s.segs.cs.sel.zeroExtend 32, ret] ++ code.toList)) w ps t →
       deliver n code ret software s
         = .ok false { t with eflags := flagsAfterEntry s.eflags g.isInterruptGate } ∧
       t.eip = g.gateOffset ∧ t.cpl = d.dpl ∧ t.segs.ss = cacheOf nss e ∧
       s.StoredTo ps
         { t with segs := { t.segs with cs := s.segs.cs, ss := s.segs.ss }
                  regs := s.regs, eip := s.eip, cpl := s.cpl }) ∧
  (∀ (s : State) (n : Nat) (software : Bool) (code : Option Dword) (ret : Dword),
     let enter := deliver n code ret software s
     let frame := [s.eflags, s.segs.cs.sel.zeroExtend 32, ret] ++ code.toList
     (∀ e u, idtGate n software s = .error e u → enter = .error e u ∧ s.StoppedTo u) ∧
     (∀ g u, idtGate n software s = .ok g u → g.typ.toNat ≠ 5 →
       let csel := g.gateSelector
       (isNull csel = true → enter = .error (.exc (.gp 0)) u) ∧
       (isNull csel = false →
         (∀ v, readDesc csel u = .ok none v → enter = .error (.exc (.gp (selErr csel))) v) ∧
         (∀ e v, readDesc csel u = .error e v → enter = .error e v ∧ s.StoppedTo v) ∧
         (∀ (d : Desc) (v : State), readDesc csel u = .ok (some d) v →
           (d.isCode = false ∨ s.cpl < d.dpl → enter = .error (.exc (.gp (selErr csel))) v) ∧
           (d.isCode = true → d.dpl ≤ s.cpl → d.present = false →
             enter = .error (.exc (.np (selErr csel))) v) ∧
           (d.isCode = true → d.present = true →
             (if d.conforming then d.dpl ≤ s.cpl else d.dpl = s.cpl) →
             (d.effLimit.toNat < g.gateOffset.toNat → enter = .error (.exc (.gp 0)) v) ∧
             (g.gateOffset.toNat ≤ d.effLimit.toNat →
               (∀ e w, preparePush frame v = .error e w → enter = .error e w ∧ s.StoppedTo w) ∧
               (∀ cells w, preparePush frame v = .ok cells w → d.big = false →
                 enter = .error (.refuse .sixteenBitForm) w) ∧
               (∀ cells w, preparePush frame v = .ok cells w → d.big = true →
                 match prepareAccessed csel d w with
                 | .ok mark _ => ∃ t, enter = .ok false t ∧ s.StoredTo ((cells ++ mark).map (·.1))
                     { s with mem := t.mem }
                 | .error e x => enter = .error e x ∧ s.StoppedTo x))) ∧
           (d.isCode = true → d.present = true → d.conforming = false → d.dpl < s.cpl →
             (∀ e w, innerStack d.dpl v = .error e w → enter = .error e w ∧ s.StoppedTo w) ∧
             (∀ (nesp : Dword) (nss : Word) (e : Desc) (w : State),
               innerStack d.dpl v = .ok (nesp, nss, e) w →
               let room := 4 * (2 + frame.length)
               let top := nesp - BitVec.ofNat 32 room
               let fits := limitOK (cacheOf nss e) top.toNat room
               let bytes := (frame.reverse ++ [s.regs.esp, s.segs.ss.sel.zeroExtend 32]).flatMap dwordBytes
               (fits = false → enter = .error (.exc (.sf 0)) w) ∧
               (fits = true → d.effLimit.toNat < g.gateOffset.toNat → enter = .error (.exc (.gp 0)) w) ∧
               (fits = true → g.gateOffset.toNat ≤ d.effLimit.toNat →
                 (∀ f x, prepareWrite false (e.base + top) bytes w = .error f x →
                   enter = .error f x ∧ s.StoppedTo x) ∧
                 (∀ cells x, prepareWrite false (e.base + top) bytes w = .ok cells x → d.big = false →
                   enter = .error (.refuse .sixteenBitForm) x) ∧
                 (∀ cells x, prepareWrite false (e.base + top) bytes w = .ok cells x → d.big = true →
                   match prepareAccessed nss e x with
                   | .error f y => enter = .error f y ∧ s.StoppedTo y
                   | .ok stackMark y =>
                     match prepareAccessed csel d y with
                     | .error f z => enter = .error f z ∧ s.StoppedTo z
                     | .ok codeMark _ => ∃ t, enter = .ok false t ∧
                         s.StoredTo ((stackMark ++ cells ++ codeMark).map (·.1))
                           { s with mem := t.mem }))))))))

/-- Entry through a task gate of the IDT (R286, R293, R294): a task switch with the CALL column of Table
7-2, without a check of the TSS's DPL; then an error code is pushed on the new task's stack, after which
no prefetched byte is left (assumption log entry 28). An exception or refusal of the switch, or of that
push, is that of the entry.
`INT imm8` completes (R293, R357) with what delivery through its gate leaves, `next_eip` being the
return offset; after a switch to a task whose T-bit is 1, DB is raised (R305).
R357 is adopted: assumption log entry 12. -/
def Obligations.InterruptAndTaskGate : Prop :=
  (∀ (s u v : State) (n : Nat) (software : Bool) (ret : Dword) (g : Desc) (trap : Bool),
     idtGate n software s = .ok g u → g.typ.toNat = 5 →
     taskSwitch .int (g.lo.extractLsb' 16 16) ret u = .ok trap v →
       deliver n none ret software s = .ok trap v ∧
       (∀ (c : Dword) (ps : List Nat) (t : State), PushedTo v [c] ps t →
         deliver n (some c) ret software s = .ok trap { t with storedAhead := [] }) ∧
       (∀ (c : Dword) (e : Stop) (t : State), pushAll [c] v = .error e t →
         deliver n (some c) ret software s = .error e t)) ∧
  (∀ (s u v : State) (n : Nat) (software : Bool) (code : Option Dword) (ret : Dword) (g : Desc)
     (e : Stop), idtGate n software s = .ok g u → g.typ.toNat = 5 →
     taskSwitch .int (g.lo.extractLsb' 16 16) ret u = .error e v →
       deliver n code ret software s = .error e v) ∧
  (∀ (s t : State) (vector : Byte),
     (deliver vector.toNat none s.nextEip true s = .ok false t → exec (.int vector) s = .next t) ∧
     (deliver vector.toNat none s.nextEip true s = .ok true t →
       exec (.int vector) s = takeException .db t) ∧
     (∀ e, deliver vector.toNat none s.nextEip true s = .error (.exc e) t →
       exec (.int vector) s = takeException e t) ∧
     (∀ r, deliver vector.toNat none s.nextEip true s = .error (.refuse r) t →
       exec (.int vector) s = .refused r))

/-- TAKING AN EXCEPTION (R347, R355, R357): the vectors and the error codes pushed; with
`deliver_exceptions` false the run ends with the exception and the state as it stood, or is refused where
an instruction stored into the coming bytes of the stream and no transfer was taken since (R112; assumption
log entry 28); with it true the handler is entered with EIP the return offset; an exception while
delivering one becomes a double fault, and one while delivering that shuts the processor down.
R357 is adopted: assumption log entry 12. An error code is pushed as a doubleword whose upper half is 0:
entry 18, presumed. The debug trap of a handler task's T-bit is left pending: entry 17, an inference. -/
def Obligations.TakingAnException : Prop :=
  (∀ (c : Word) (a : Dword),
    Exception.db.vector = 1 ∧ Exception.ud.vector = 6 ∧ Exception.df.vector = 8 ∧
    (Exception.ts c).vector = 10 ∧ (Exception.np c).vector = 11 ∧ (Exception.sf c).vector = 12 ∧
    (Exception.gp c).vector = 13 ∧ (Exception.pf a c).vector = 14 ∧
    Exception.db.errorCode = none ∧ Exception.ud.errorCode = none ∧ Exception.df.errorCode = some 0 ∧
    ∀ e ∈ [Exception.ts c, .np c, .sf c, .gp c, .pf a c], e.errorCode = some (c.zeroExtend 32)) ∧
  (∀ (e : Exception) (s : State),
    (s.deliverExceptions = false → takeException e s =
      if s.storedAhead = [] then .fault (.exception e s) else .refused .staleCode) ∧
    (s.deliverExceptions = true →
      (∀ trap t, deliver e.vector e.errorCode s.eip false s = .ok trap t →
        takeException e s = .next { t with debugTrap := trap }) ∧
      (∀ f t, deliver e.vector e.errorCode s.eip false s = .error (.exc f) t →
        (∀ trap u, deliver 8 (some 0) t.eip false t = .ok trap u →
          takeException e s = .next { u with debugTrap := trap }) ∧
        (∀ h u, deliver 8 (some 0) t.eip false t = .error (.exc h) u →
          takeException e s = .next { u with activity := .shutdown }))))

/-- `IRET` with NT = 1 completes (R291): it switches to the task that the back link of the current TSS
names, with no privilege check, and nothing is popped; with the T-bit of that task DB is raised (R305).
An exception of reading the back link or of the switch is raised, and its refusals are the instruction's.
The back link is read where TR.base says, also before LTR: assumption log entry 43. -/
def Obligations.InterruptReturnToTask : Prop :=
  ∀ s : State, s.eflags.getLsbD bitNT = true →
    (∀ e u, sysRead s.tr.base 2 s = .error (.exc e) u → exec .iret s = takeException e u) ∧
    (∀ bytes u, sysRead s.tr.base 2 s = .ok bytes u →
      (∀ trap t, taskSwitch .iret (wordAt bytes 0) s.nextEip u = .ok trap t →
        exec .iret s = if trap then takeException .db t else .next t) ∧
      (∀ e t, taskSwitch .iret (wordAt bytes 0) s.nextEip u = .error (.exc e) t →
        exec .iret s = takeException e t) ∧
      (∀ r t, taskSwitch .iret (wordAt bytes 0) s.nextEip u = .error (.refuse r) t →
        exec .iret s = .refused r))

/-! ## The instructions reserved for the operating system (spec/42_privileged.md) -/

/-- PRIVILEGED INSTRUCTIONS (R231): at CPL 1, 2 and 3 each raises GP(0), whatever its operand, and changes
nothing. -/
def Obligations.PrivilegedInstructions : Prop :=
  ∀ (s : State) (i : Instr), s.cpl ≠ 0 →
    i = .clts ∨ i = .hlt ∨ (∃ x, i = .lgdt x) ∨ (∃ x, i = .lidt x) ∨ (∃ x, i = .lldt x) ∨
      (∃ x, i = .lmsw x) ∨ (∃ x, i = .ltr x) ∨ (∃ r n, i = .movFromCr r n) ∨ (∃ n r, i = .movToCr n r) ∨
      (∃ r n, i = .movFromDr r n) ∨ (∃ n r, i = .movToDr n r) ∨ (∃ r n, i = .movFromTr r n) ∨
      (∃ n r, i = .movToTr n r) →
    exec i s = takeException (.gp 0) s

/-- At CPL 0, `CLTS` (R232) clears TS and nothing else, `HLT` (R243) halts the processor with EIP after it,
and `LMSW` (R236) copies TS, EM and MP and can set but never clear PE; an exception of reading its operand
is raised. -/
def Obligations.MachineStatusWord : Prop :=
  ∀ s : State, s.cpl = 0 →
    exec .clts s = .next { s with
      ctl := { s.ctl with cr0 := s.ctl.cr0 &&& 0xFFFFFFF7 }, eip := s.nextEip } ∧
    exec .hlt s = .next { s with activity := .halted, eip := s.nextEip } ∧
    (∀ src e u, readRM16 src s = .error (.exc e) u → exec (.lmsw src) s = takeException e u) ∧
    (∀ (src : RM) (v : Word) (u : State), readRM16 src s = .ok v u →
      s.ReadTo u ∧ ∃ c : Dword,
        exec (.lmsw src) s = .next { u with ctl := { s.ctl with cr0 := c }, eip := s.nextEip } ∧
        ∀ k, k < 32 → c.getLsbD k =
          (if k = 0 then s.ctl.cr0.getLsbD 0 || v.getLsbD 0
           else if 1 ≤ k ∧ k ≤ 3 then v.getLsbD k else s.ctl.cr0.getLsbD k))

/-- At CPL 0, `LGDT` (R233) and `LIDT` (R234) load the limit from the word of their operand and the base
from the doubleword after it; nothing else changes. A register operand raises UD, and an exception of
reading either part of the operand is raised. -/
def Obligations.LoadTableRegisters : Prop :=
  ∀ (s u v : State) (m : MemOperand) (r : Reg) (limit : Word) (base : Dword), s.cpl = 0 →
    exec (.lgdt (.reg r)) s = takeException .ud s ∧ exec (.lidt (.reg r)) s = takeException .ud s ∧
    (∀ e, segReadWord m.seg (effectiveOffset s.regs m) s = .error (.exc e) u →
      exec (.lgdt (.mem m)) s = takeException e u ∧ exec (.lidt (.mem m)) s = takeException e u) ∧
    (∀ e, segReadWord m.seg (effectiveOffset s.regs m) s = .ok limit u →
      segReadDword m.seg (effectiveOffset s.regs m + 2) u = .error (.exc e) v →
      exec (.lgdt (.mem m)) s = takeException e v ∧ exec (.lidt (.mem m)) s = takeException e v) ∧
    (segReadWord m.seg (effectiveOffset s.regs m) s = .ok limit u →
      segReadDword m.seg (effectiveOffset s.regs m + 2) u = .ok base v →
        s.ReadTo v ∧
        exec (.lgdt (.mem m)) s = .next { v with gdtr := ⟨base, limit⟩, eip := s.nextEip } ∧
        exec (.lidt (.mem m)) s = .next { v with idtr := ⟨base, limit⟩, eip := s.nextEip })

/-- At CPL 0, `LLDT` (R235): a null selector makes LDTR invalid; one that names a present LDT descriptor of
the GDT loads LDTR from it; nothing else changes. Else GP with the selector, or NP.
At CPL 0, `LTR` (R280): a selector of an available 386 TSS, present, in the GDT, makes the TSS busy and
loads TR; its limit is not tested and no other register changes. A null selector raises GP(0); TI = 1, no
TSS descriptor or a busy one GP with the selector; not present NP; an 80286 TSS is refused.
For both, an exception of reading the operand or the descriptor is raised, and for LTR one of the access
to the byte of the busy bit. -/
def Obligations.LoadLdtAndTaskRegisters : Prop :=
  (∀ (s u : State) (src : RM) (e : Exception), s.cpl = 0 → readRM16 src s = .error (.exc e) u →
     exec (.lldt src) s = takeException e u ∧ exec (.ltr src) s = takeException e u) ∧
  (∀ (s u v : State) (src : RM) (sel : Word) (e : Exception), s.cpl = 0 →
     readRM16 src s = .ok sel u → isNull sel = false → selTI sel = false →
     readDesc sel u = .error (.exc e) v →
       exec (.lldt src) s = takeException e v ∧ exec (.ltr src) s = takeException e v) ∧
  (∀ (s u : State) (src : RM) (sel : Word), s.cpl = 0 → readRM16 src s = .ok sel u →
     (isNull sel = true → s.ReadTo u ∧
       exec (.lldt src) s = .next { u with
         ldtr := { s.ldtr with sel := sel, valid := false }, eip := s.nextEip }) ∧
     (isNull sel = false →
       (selTI sel = true → exec (.lldt src) s = takeException (.gp (selErr sel)) u) ∧
       (selTI sel = false →
         (∀ v, readDesc sel u = .ok none v → exec (.lldt src) s = takeException (.gp (selErr sel)) v) ∧
         (∀ (d : Desc) (v : State), readDesc sel u = .ok (some d) v →
           (d.isSeg = true ∨ d.typ ≠ 2 → exec (.lldt src) s = takeException (.gp (selErr sel)) v) ∧
           (d.isSeg = false → d.typ = 2 →
             (d.present = false → exec (.lldt src) s = takeException (.np (selErr sel)) v) ∧
             (d.present = true → s.ReadTo v ∧
               exec (.lldt src) s = .next { v with
                 ldtr := ⟨sel, d.base, d.effLimit, true⟩, eip := s.nextEip })))))) ∧
  (∀ (s u : State) (src : RM) (sel : Word), s.cpl = 0 → readRM16 src s = .ok sel u →
     (isNull sel = true → exec (.ltr src) s = takeException (.gp 0) u) ∧
     (isNull sel = false →
       (selTI sel = true → exec (.ltr src) s = takeException (.gp (selErr sel)) u) ∧
       (selTI sel = false →
         (∀ v, readDesc sel u = .ok none v → exec (.ltr src) s = takeException (.gp (selErr sel)) v) ∧
         (∀ (d : Desc) (v : State), readDesc sel u = .ok (some d) v →
           (d.isSeg = true ∨ d.typ ≠ 1 ∧ d.typ ≠ 9 →
             exec (.ltr src) s = takeException (.gp (selErr sel)) v) ∧
           (d.isSeg = false → d.typ = 1 → exec (.ltr src) s = .refused .sixteenBitForm) ∧
           (d.isSeg = false → d.typ = 9 →
             (d.present = false → exec (.ltr src) s = takeException (.np (selErr sel)) v) ∧
             (d.present = true → exec (.ltr src) s = outcomeOf (setBusy sel v) fun _ t =>
               .next { t with tr := ⟨sel, d.base, d.effLimit⟩, eip := s.nextEip }) ∧
             (∀ (r p : Nat) (x : State), d.present = true → AccessByteAt v sel (r, p) x →
               s.hasMemory r = true → s.hasMemory p = true →
                 ∃ y, s.ReadTo y ∧ exec (.ltr src) s = .next { y.store [(p, x.byteAt r ||| 0x02)] with
                   tr := ⟨sel, d.base, d.effLimit⟩, eip := s.nextEip })))))) ∧
  (∀ (s t : State) (sel : Word) (e : Stop), accessByteAddrs sel s = .error e t →
     setBusy sel s = .error e t ∧ s.StoppedTo t)

/-- At CPL 0, `MOV CRn, r32` and `MOV r32, CRn` (R237, R238): CR0 keeps its six defined bits (PE, MP,
EM, TS, ET and PG) and CR3 bits 31..12, and a load of CR3 leaves no old translation (R113); a write of CR0 that would clear
PE is refused; a number that names no control register raises UD. The six arithmetic flags become free
values (U13), every other flag and register is as it was. -/
def Obligations.MoveControlRegisters : Prop :=
  ∀ (s : State) (r : Reg) (n : BitVec 3), s.cpl = 0 →
    let v := s.regs.get r
    let flags := drawArithFlags s.eflags (Config.movFlags s.draws)
    exec (.movToCr n r) s =
      (if n = 0 then
        if v.getLsbD 0 then
          .next { s with
            ctl := { s.ctl with cr0 := v &&& 0x8000001F }, eflags := flags, eip := s.nextEip }
        else .refused .leavesProtectedMode
      else if n = 2 then
        .next { s with ctl := { s.ctl with cr2 := v }, eflags := flags, eip := s.nextEip }
      else if n = 3 then
        .next { s with
          ctl := { s.ctl with cr3 := v &&& 0xFFFFF000 }, tablesUsed := false, pastMemory := []
          eflags := flags, eip := s.nextEip }
      else takeException .ud s) ∧
    exec (.movFromCr r n) s =
      (let load (c : Dword) : Host.Outcome State Fault Refusal :=
        .next { s with regs := s.regs.set r c, eflags := flags, eip := s.nextEip }
      if n = 0 then load s.ctl.cr0 else if n = 2 then load s.ctl.cr2
      else if n = 3 then load s.ctl.cr3 else takeException .ud s)

/-- At CPL 0, MOV to and from the debug registers (R239, R240) and the test registers (R241, R242): each is
a cell of 32 bits that holds what was moved to it, and moving to one changes no other; DR4 and DR5 are
refused (U14), TR0 to TR5 raise UD. The six arithmetic flags become free values, nothing else changes. -/
def Obligations.MoveDebugAndTestRegisters : Prop :=
  ∀ (s : State) (r : Reg) (n : BitVec 3), s.cpl = 0 →
    let flags := drawArithFlags s.eflags (Config.movFlags s.draws)
    let with_ (c : ControlRegs) : Host.Outcome State Fault Refusal :=
      .next { s with ctl := c, eflags := flags, eip := s.nextEip }
    (n = 4 ∨ n = 5 → exec (.movToDr n r) s = .refused .noSuchDebugRegister ∧
      exec (.movFromDr r n) s = .refused .noSuchDebugRegister) ∧
    (n ≠ 4 → n ≠ 5 → ∃ c x,
      exec (.movToDr n r) s = with_ c ∧
      c.dr n = some (s.regs.get r) ∧ (∀ m, m ≠ n → c.dr m = s.ctl.dr m) ∧
      (c.cr0, c.cr2, c.cr3, c.tr6, c.tr7) = (s.ctl.cr0, s.ctl.cr2, s.ctl.cr3, s.ctl.tr6, s.ctl.tr7) ∧
      s.ctl.dr n = some x ∧
      exec (.movFromDr r n) s =
        .next { s with regs := s.regs.set r x, eflags := flags, eip := s.nextEip }) ∧
    (n ≠ 6 → n ≠ 7 → exec (.movToTr n r) s = takeException .ud s ∧
      exec (.movFromTr r n) s = takeException .ud s) ∧
    (n = 6 → exec (.movToTr n r) s = with_ { s.ctl with tr6 := s.regs.get r } ∧
      exec (.movFromTr r n) s =
        .next { s with regs := s.regs.set r s.ctl.tr6, eflags := flags, eip := s.nextEip }) ∧
    (n = 7 → exec (.movToTr n r) s = with_ { s.ctl with tr7 := s.regs.get r } ∧
      exec (.movFromTr r n) s =
        .next { s with regs := s.regs.set r s.ctl.tr7, eflags := flags, eip := s.nextEip })

/-- `STR r/m16` (R281), at every CPL: the selector of TR goes to the low half of a register, whose upper
half stays as it is (R21), or to the word in memory that the operand addresses; nothing else changes. -/
def Obligations.StoreTaskRegister : Prop :=
  (∀ dst : RM, encode (.str dst) = encodeWithRM [0x0F, 0x00] 1 dst) ∧
  (∀ (s : State) (r : Reg), ∃ x,
    exec (.str (.reg r)) s = .next { s with regs := x, eip := s.nextEip } ∧
    (x.get r).extractLsb' 0 16 = s.tr.sel ∧
    (x.get r).extractLsb' 16 16 = (s.regs.get r).extractLsb' 16 16 ∧
    ∀ q, q ≠ r → x.get q = s.regs.get q) ∧
  (∀ (s u : State) (m : MemOperand) (a : Dword) (ps : List Nat),
    segCheck m.seg (effectiveOffset s.regs m) 2 true s = .ok a s →
    translateRange .write s.userLevel a 2 s = .ok ps u →
      s.ReadTo u ∧ s.StoredTo ps (u.storeBytes ps (wordBytes s.tr.sel)) ∧
      exec (.str (.mem m)) s =
        .next { u.storeBytes ps (wordBytes s.tr.sel) with eip := s.nextEip }) ∧
  (∀ (s : State) (m : MemOperand) (e : Exception) (u : State),
    segWrite m.seg (effectiveOffset s.regs m) (wordBytes s.tr.sel) s = .error (.exc e) u →
      exec (.str (.mem m)) s = takeException e u)

/-! ## Pointer validation (spec/43_pointer_validation.md) -/

/-- `ARPL r/m16, r16` (R260): where the RPL of the first operand is below that of the second, it becomes
that RPL, its other bits as they were, and ZF is set; else the operand is as it was and ZF is cleared. No
other flag and no other register changes; the upper half of a register destination is kept. A memory
operand is checked as a write before it is read, whether or not it changes. -/
def Obligations.AdjustRpl : Prop :=
  (∀ (dst : RM) (src : Reg), encode (.arpl dst src) = encodeWithRM [0x63] (bitsOfReg src) dst) ∧
  (∀ (s u : State) (m : MemOperand) (src : Reg) (e : Exception),
    checkWritableRM16 (.mem m) s = .error (.exc e) u →
      exec (.arpl (.mem m) src) s = takeException e u) ∧
  (∀ (s : State) (r src : Reg),
    let a := s.regs.get16 r
    let b := s.regs.get16 src
    (selRpl a < selRpl b → ∃ x,
      exec (.arpl (.reg r) src) s =
        .next { s with regs := x, eflags := setZF s.eflags true, eip := s.nextEip } ∧
      x.get r = (s.regs.get r).extractLsb' 2 30 ++ selRpl b ∧ ∀ q, q ≠ r → x.get q = s.regs.get q) ∧
    (selRpl b ≤ selRpl a →
      exec (.arpl (.reg r) src) s =
        .next { s with eflags := setZF s.eflags false, eip := s.nextEip })) ∧
  (∀ (s u v : State) (m : MemOperand) (src : Reg) (a : Word),
    checkWritableRM16 (.mem m) s = .ok () u →
    segReadWord m.seg (effectiveOffset s.regs m) u = .ok a v →
    let b := s.regs.get16 src
    s.ReadTo v ∧
    (selRpl a < selRpl b → ∀ (lin : Dword) (ps : List Nat) (w : State),
      segCheck m.seg (effectiveOffset s.regs m) 2 true v = .ok lin v →
      translateRange .write s.userLevel lin 2 v = .ok ps w →
        s.StoredTo ps (w.storeBytes ps (wordBytes (a.extractLsb' 2 14 ++ selRpl b))) ∧
        exec (.arpl (.mem m) src) s =
          .next { w.storeBytes ps (wordBytes (a.extractLsb' 2 14 ++ selRpl b)) with
            eflags := setZF s.eflags true, eip := s.nextEip }) ∧
    (selRpl b ≤ selRpl a →
      exec (.arpl (.mem m) src) s =
        .next { v with eflags := setZF s.eflags false, eip := s.nextEip }))

/-- `LAR` (R261, R266): where the selector names a descriptor of its table, of a valid type, that is
visible at `MAX(CPL, RPL)` or conforming code, the destination gets its second doubleword masked with
00FxFF00H, bits 19..16 being a free value, and ZF is set; else ZF is cleared and no register changes.
`LSL` (R262, R266): where the selector names a code or data segment, a TSS or an LDT of its table,
visible as for LAR, the destination gets its effective, byte-granular limit (R74) and ZF is set; else ZF
is cleared and no register changes.
Neither raises an exception for what the selector names; one of reading the operand or the descriptor is
raised (R266: a page fault as usual). -/
def Obligations.LoadRightsAndLimit : Prop :=
  (∀ (dst : Reg) (src : RM),
    encode (.lar dst src) = encodeWithRM [0x0F, 0x02] (bitsOfReg dst) src ∧
    encode (.lsl dst src) = encodeWithRM [0x0F, 0x03] (bitsOfReg dst) src) ∧
  (∀ (s u : State) (dst : Reg) (src : RM) (e : Exception), readRM16 src s = .error (.exc e) u →
     exec (.lar dst src) s = takeException e u ∧ exec (.lsl dst src) s = takeException e u) ∧
  (∀ (s u v : State) (dst : Reg) (src : RM) (sel : Word) (e : Exception), readRM16 src s = .ok sel u →
     isNull sel = false → readDesc sel u = .error (.exc e) v →
       exec (.lar dst src) s = takeException e v ∧ exec (.lsl dst src) s = takeException e v) ∧
  (∀ (s u : State) (dst : Reg) (src : RM) (sel : Word), readRM16 src s = .ok sel u →
     let negative (v : State) : Host.Outcome State Fault Refusal :=
       .next { v with eflags := setZF s.eflags false, eip := s.nextEip }
     s.ReadTo u ∧
     (isNull sel = true → exec (.lar dst src) s = negative u) ∧
     (isNull sel = false →
       (∀ v, readDesc sel u = .ok none v → s.ReadTo v ∧ exec (.lar dst src) s = negative v) ∧
       (∀ (d : Desc) (v : State), readDesc sel u = .ok (some d) v →
         s.ReadTo v ∧
         ((d.isSeg = true ∨ d.typ.toNat ∉ [0, 8, 0xA, 0xD]) →
           (d.conforming = true ∨ s.cpl ≤ d.dpl ∧ selRpl sel ≤ d.dpl) →
           ∃ x : Dword, exec (.lar dst src) s =
             .next { v with
               regs := s.regs.set dst x, eflags := setZF s.eflags true, eip := s.nextEip } ∧
           x &&& 0xFFF0FFFF = d.hi &&& 0x00F0FF00 ∧
           x.extractLsb' 16 4 = Config.larBits s.draws) ∧
         (d.isSeg = false ∧ d.typ.toNat ∈ [0, 8, 0xA, 0xD] ∨
           d.conforming = false ∧ (d.dpl < s.cpl ∨ d.dpl < selRpl sel) →
           exec (.lar dst src) s = negative v)))) ∧
  (∀ (s u : State) (dst : Reg) (src : RM) (sel : Word), readRM16 src s = .ok sel u →
     let negative (v : State) : Host.Outcome State Fault Refusal :=
       .next { v with eflags := setZF s.eflags false, eip := s.nextEip }
     s.ReadTo u ∧
     (isNull sel = true → exec (.lsl dst src) s = negative u) ∧
     (isNull sel = false →
       (∀ v, readDesc sel u = .ok none v → s.ReadTo v ∧ exec (.lsl dst src) s = negative v) ∧
       (∀ (d : Desc) (v : State), readDesc sel u = .ok (some d) v →
         s.ReadTo v ∧
         exec (.lsl dst src) s =
           if (d.isSeg = true ∨ d.typ.toNat ∈ [1, 2, 3, 9, 0xB]) ∧
               (d.conforming = true ∨ s.cpl ≤ d.dpl ∧ selRpl sel ≤ d.dpl) then
             .next { v with
               regs := s.regs.set dst d.effLimit, eflags := setZF s.eflags true, eip := s.nextEip }
           else negative v)))

/-- `VERR` (R263) and `VERW` (R264): ZF is set exactly where the selector names a segment of its table that
is readable and visible, or writable with a DPL at least CPL and RPL; no register and no other flag
changes, and neither raises an exception for a negative result; one of reading the operand or the
descriptor is raised (R266: a page fault as usual). -/
def Obligations.VerifyAccess : Prop :=
  (∀ src : RM, encode (.verr src) = encodeWithRM [0x0F, 0x00] 4 src ∧
    encode (.verw src) = encodeWithRM [0x0F, 0x00] 5 src) ∧
  (∀ (s u : State) (src : RM) (e : Exception), readRM16 src s = .error (.exc e) u →
    exec (.verr src) s = takeException e u ∧ exec (.verw src) s = takeException e u) ∧
  (∀ (s u v : State) (src : RM) (sel : Word) (e : Exception), readRM16 src s = .ok sel u →
    isNull sel = false → readDesc sel u = .error (.exc e) v →
      exec (.verr src) s = takeException e v ∧ exec (.verw src) s = takeException e v) ∧
  ∀ (s u : State) (src : RM) (sel : Word), readRM16 src s = .ok sel u →
    let answer (b : Bool) (v : State) : Host.Outcome State Fault Refusal :=
      .next { v with eflags := setZF s.eflags b, eip := s.nextEip }
    s.ReadTo u ∧
    (isNull sel = true →
      exec (.verr src) s = answer false u ∧ exec (.verw src) s = answer false u) ∧
    (isNull sel = false →
      (∀ v, readDesc sel u = .ok none v →
        s.ReadTo v ∧ exec (.verr src) s = answer false v ∧ exec (.verw src) s = answer false v) ∧
      (∀ (d : Desc) (v : State), readDesc sel u = .ok (some d) v →
        s.ReadTo v ∧
        exec (.verr src) s = answer (decide (
          (d.isData = true ∧ s.cpl ≤ d.dpl ∧ selRpl sel ≤ d.dpl) ∨
          (d.isCode = true ∧ d.hi.getLsbD 9 = true ∧
            (d.hi.getLsbD 10 = true ∨ s.cpl ≤ d.dpl ∧ selRpl sel ≤ d.dpl)))) v ∧
        exec (.verw src) s = answer (decide (
          d.isData = true ∧ d.hi.getLsbD 9 = true ∧ s.cpl ≤ d.dpl ∧ selRpl sel ≤ d.dpl)) v))

/-! ## The task switch (spec/44_multitasking.md section 4) -/

/-- Steps 1 and 2 of the task switch (R284, R298, R300, R306, R307): the incoming TSS must be in the GDT,
not busy, or busy for IRET, present and of limit at least 103; in this order, with the exception and the
error code of each, the outgoing task's registers and memory as they were (R304); so for the page checks
that follow. The checks of type, busy bit and TI before step 2, and their codes, are decisions of the spec
(R284, R300, R307) and the model's choice where it gives none: assumption log entry 34. That the access
bytes are among what the page checks look at: entry 21. The outgoing TSS lies where TR.base says, also
before LTR: entry 43. -/
def Obligations.TaskSwitchChecks : Prop :=
  ∀ (s : State) (cause : SwitchCause) (tsel : Word) (ret : Dword),
    let bad : Exception := if cause = .iret then .ts (selErr tsel) else .gp (selErr tsel)
    let stops (e : Exception) (u : State) : Prop := taskSwitch cause tsel ret s = .error (.exc e) u
    (isNull tsel = true ∨ selTI tsel = true ∨ s.gdtr.limit.toNat < selOffset tsel + 7 → stops bad s) ∧
    (isNull tsel = false → selTI tsel = false → selOffset tsel + 7 ≤ s.gdtr.limit.toNat →
      (∀ e u, sysRead (s.descAddr tsel) 8 s = .error (.exc e) u → stops e u ∧ s.StoppedTo u) ∧
      ∀ (bytes : List Byte) (u : State), sysRead (s.descAddr tsel) 8 s = .ok bytes u →
      let d := Desc.mk (dwordAt bytes 0) (dwordAt bytes 4)
      s.ReadTo u ∧
      (d.isSeg = true ∨ d.typ.toNat ∉ [1, 3, 9, 0xB] → stops bad u) ∧
      (d.isSeg = false → d.typ.toNat = 1 ∨ d.typ.toNat = 3 →
        taskSwitch cause tsel ret s = .error (.refuse .sixteenBitForm) u) ∧
      (d.isSeg = false → d.typ.toNat = (if cause = .iret then 9 else 0xB) → stops bad u) ∧
      (d.isSeg = false → d.typ.toNat = (if cause = .iret then 0xB else 9) →
        (d.present = false → stops (.np (selErr tsel)) u) ∧
        (d.present = true → d.effLimit.toNat < 103 → stops (.ts (selErr tsel)) u) ∧
        (d.present = true → 103 ≤ d.effLimit.toNat →
          incomingTss cause tsel s = .ok d u ∧
          (∀ e v, pageCheckRange .write false (s.tr.base + 32) 62 u = .error (.exc e) v → stops e v) ∧
          ∀ e v, prepareSwitch cause tsel d u = .error (.exc e) v → stops e v ∧ s.StoppedTo v)))

/-- The task switch completes (R295, R300): the checks of steps 1 and 2 and the page checks pass, the
outgoing state is saved, busy bits, TR, TS and back link are updated, the image of the incoming task is
loaded, its segments pass their checks and its EIP is within its CS limit; the answer is its T-bit. An
image with VM = 1 is refused.
The page checks are those of R300's line and of the access bytes, whatever TR holds: assumption log entries
21 and 43; no prefetched byte is left, whether step 5 passes or raises: entry 28. -/
def Obligations.TaskSwitchCompletes : Prop :=
  ∀ (s u v : State) (cause : SwitchCause) (tsel : Word) (ret : Dword) (d : Desc) (pages : SwitchPages),
    incomingTss cause tsel s = .ok d u → SwitchPrepared u cause tsel d pages v →
    s.ReadTo v ∧ ∃ (w x y : State) (img : List Byte),
      saveOutgoing cause ret pages.saved v = .ok () w ∧ linkTasks tsel d pages w = .ok () x ∧
      readPhys pages.image x = .ok img y ∧ img = pages.image.map x.byteAt ∧
      ((dwordAt img 36).getLsbD bitVM = true →
        taskSwitch cause tsel ret s = .error (.refuse .virtual8086Mode) y) ∧
      ((dwordAt img 36).getLsbD bitVM = false →
        (∀ t, loadTaskSegments (y.withTssImage cause img) = .ok () t →
          taskSwitch cause tsel ret s =
            if t.eip.toNat ≤ t.segs.cs.limit.toNat then
              .ok ((wordAt img 100).getLsbD 0) { t with storedAhead := [] }
            else .error (.exc (.gp 0)) { t with storedAhead := [] }) ∧
        (∀ e t, loadTaskSegments (y.withTssImage cause img) = .error e t →
          taskSwitch cause tsel ret s = .error e { t with storedAhead := [] }))

/-- Step 3 (R299, R306): nothing is stored but at the physical addresses of the 62 bytes from byte 32 of
the outgoing TSS, and no register changes. Where linear and physical addresses are the same: the dynamic
fields of the outgoing TSS hold EIP, EFLAGS, with NT cleared for an IRET, the eight general registers and
the six selectors; every other byte of memory, the upper halves of the selector fields and the static
fields of the TSS among them, is as it was. -/
def Obligations.OutgoingTaskSaved : Prop :=
  ∀ (s : State) (cause : SwitchCause) (ret : Dword),
    (∀ ps, ∃ t, saveOutgoing cause ret ps s = .ok () t ∧ s.StoredTo ps t) ∧
    (s.Flat → s.mem.wf = true →
      ∃ ps t, translateRange .write false (s.tr.base + 32) 62 s = .ok ps s ∧
      saveOutgoing cause ret ps s = .ok () t ∧
      (∀ (k : Nat) (v : Dword),
        [ret, if cause = .iret then s.eflags &&& 0xFFFFBFFF else s.eflags, s.regs.eax, s.regs.ecx,
          s.regs.edx, s.regs.ebx, s.regs.esp, s.regs.ebp, s.regs.esi, s.regs.edi][k]? = some v →
        t.bytesAt (s.tr.base + BitVec.ofNat 32 (32 + 4 * k)) 4 = dwordBytes v) ∧
      (∀ (k : Nat) (v : Word),
        [s.segs.es.sel, s.segs.cs.sel, s.segs.ss.sel, s.segs.ds.sel, s.segs.fs.sel, s.segs.gs.sel][k]?
          = some v →
        t.bytesAt (s.tr.base + BitVec.ofNat 32 (72 + 4 * k)) 2 = wordBytes v) ∧
      s.StoredTo
        (((List.range 40).map fun k => (s.tr.base + BitVec.ofNat 32 (32 + k)).toNat) ++
          [72, 76, 80, 84, 88, 92].flatMap fun o =>
            [(s.tr.base + BitVec.ofNat 32 o).toNat, (s.tr.base + BitVec.ofNat 32 (o + 1)).toNat]) t)

/-- Table 7-2 (R306, R307) and step 4 (R302), where linear and physical addresses are the same and the
access bytes of the two TSS descriptors and the back link are distinct bytes: the busy bit of the incoming
task is set by JMP, CALL and interrupts and unchanged by IRET; that of the outgoing one is cleared by JMP
and IRET and unchanged by the others; the back link of the incoming TSS names the outgoing task after CALL
and interrupts and is unchanged otherwise; TR names the incoming task, TS is set, and nothing else
changes. -/
def Obligations.TaskLinking : Prop :=
  ∀ (s : State) (cause : SwitchCause) (tsel : Word) (d : Desc),
    s.Flat → s.mem.wf = true → s.walked = [] →
    let old := (s.gdtAccessAddr s.tr.sel).toNat
    let new := (s.gdtAccessAddr tsel).toNat
    [old, new, d.base.toNat, (d.base + 1).toNat].Nodup →
    ∃ pages t, SwitchPrepared s cause tsel d pages s ∧ linkTasks tsel d pages s = .ok () t ∧
      t.mem.read new = (if cause = .iret then s.mem.read new else s.mem.read new ||| 0x02) ∧
      t.mem.read old = (if cause = .jmp ∨ cause = .iret then s.mem.read old &&& 0xFD
        else s.mem.read old) ∧
      t.bytesAt d.base 2 = (if cause = .call ∨ cause = .int then wordBytes s.tr.sel
        else s.bytesAt d.base 2) ∧
      t.tr = ⟨tsel, d.base, d.effLimit⟩ ∧ t.ctl = { s.ctl with cr0 := s.ctl.cr0 ||| 0x00000008 } ∧
      s.StoredTo [old, new, d.base.toNat, (d.base + 1).toNat] { t with tr := s.tr, ctl := s.ctl }

/-- Step 5 (R303, R305, R306): what is loaded from the image of the incoming TSS. EIP, EFLAGS with NT as
Table 7-2 has it, the eight general registers, the selectors of the segment registers and LDTR, not valid
until they pass their checks, CPL the RPL of the CS selector, and CR3 only if paging is enabled, which
also leaves no old translation (R113). GDTR, IDTR, CR0, CR2, the debug and test registers and memory are
as they were (R37). That the fixed bits of EFLAGS are loaded as R25 has them, whatever the image holds,
is an inference: assumption log entry 27. -/
def Obligations.IncomingImageLoaded : Prop :=
  ∀ (s : State) (cause : SwitchCause) (img : List Byte),
    let t := s.withTssImage cause img
    t.eip = dwordAt img 32 ∧
    (∀ k, k < 32 → k ≠ 14 → t.eflags.getLsbD k = (eflagsOf (dwordAt img 36)).getLsbD k) ∧
    (t.eflags.getLsbD 14 = true ↔ cause = .call ∨ cause = .int ∨
      cause = .iret ∧ (dwordAt img 36).getLsbD 14 = true) ∧
    [t.regs.eax, t.regs.ecx, t.regs.edx, t.regs.ebx, t.regs.esp, t.regs.ebp, t.regs.esi, t.regs.edi]
      = (List.range 8).map (fun k => dwordAt img (40 + 4 * k)) ∧
    [t.segs.es.sel, t.segs.cs.sel, t.segs.ss.sel, t.segs.ds.sel, t.segs.fs.sel, t.segs.gs.sel]
      = (List.range 6).map (fun k => wordAt img (72 + 4 * k)) ∧
    (∀ name, (t.segs.get name).valid = false) ∧
    t.ldtr.sel = wordAt img 96 ∧ t.ldtr.valid = false ∧
    t.cpl = (wordAt img 76).extractLsb' 0 2 ∧
    (s.paging = true → t.ctl = { s.ctl with cr3 := dwordAt img 28 &&& 0xFFFFF000 } ∧
      t.tablesUsed = false ∧ t.pastMemory = []) ∧
    (s.paging = false → t.ctl = s.ctl ∧ t.tablesUsed = s.tablesUsed ∧ t.pastMemory = s.pastMemory) ∧
    t.gdtr = s.gdtr ∧ t.idtr = s.idtr ∧ t.tr = s.tr ∧ t.mem = s.mem

/-- The validation of the incoming task (R312): the LDT, CS, SS, and DS, ES, FS and GS, in this order, up to
the first that fails.
The LDT and CS: the exception of each failed check, and what is loaded where they pass.
SS, and DS, ES, FS and GS: the exception of each failed check, and what is loaded where they pass; a null
data segment is left as it is. An exception of reading a descriptor or of setting its accessed bit is
raised; a 16-bit code or stack segment is refused (R75; assumption log entry 24).
The checks are the decision of the spec (D26) and not of its source. -/
def Obligations.IncomingSegmentsValidated : Prop :=
  (∀ s : State,
     RunsInOrder [loadTaskLdt, loadTaskCS, loadTaskSS, loadTaskData .ds, loadTaskData .es,
       loadTaskData .fs, loadTaskData .gs] s (loadTaskSegments s)) ∧
  (∀ s : State,
     let l := s.ldtr.sel
     let c := s.segs.cs.sel
     (isNull l = true → loadTaskLdt s = .ok () s) ∧
     (isNull l = false →
       (selTI l = true → loadTaskLdt s = .error (.exc (.ts (selErr l))) s) ∧
       (selTI l = false →
         (∀ u, readDesc l s = .ok none u → loadTaskLdt s = .error (.exc (.ts (selErr l))) u) ∧
         (∀ e u, readDesc l s = .error e u → loadTaskLdt s = .error e u) ∧
         (∀ (d : Desc) (u : State), readDesc l s = .ok (some d) u → loadTaskLdt s =
           if d.isSeg = false ∧ d.typ = 2 ∧ d.present = true then
             .ok () { u with ldtr := ⟨l, d.base, d.effLimit, true⟩ }
           else .error (.exc (.ts (selErr l))) u))) ∧
     (isNull c = true → loadTaskCS s = .error (.exc (.ts (selErr c))) s) ∧
     (isNull c = false →
       (∀ u, readDesc c s = .ok none u → loadTaskCS s = .error (.exc (.ts (selErr c))) u) ∧
       (∀ e u, readDesc c s = .error e u → loadTaskCS s = .error e u) ∧
       (∀ (d : Desc) (u : State), readDesc c s = .ok (some d) u →
         (d.isCode = false ∨ d.conforming = true ∧ s.cpl < d.dpl ∨
             d.conforming = false ∧ d.dpl ≠ s.cpl →
           loadTaskCS s = .error (.exc (.ts (selErr c))) u) ∧
         (d.isCode = true → (if d.conforming then d.dpl ≤ s.cpl else d.dpl = s.cpl) →
           (d.present = false → loadTaskCS s = .error (.exc (.np (selErr c))) u) ∧
           (d.present = true → d.big = false → loadTaskCS s = .error (.refuse .sixteenBitForm) u) ∧
           (d.present = true → d.big = true → loadTaskCS s =
             match setAccessed c d u with
             | .ok _ v => .ok () { v with
                 segs := { s.segs with cs := { cacheOf c d with sel := c.extractLsb' 2 14 ++ s.cpl } } }
             | .error e v => .error e v))))) ∧
  (∀ (s : State) (name : SegName),
     let k := s.segs.ss.sel
     let v := (s.segs.get name).sel
     (isNull k = true → loadTaskSS s = .error (.exc (.ts (selErr k))) s) ∧
     (isNull k = false →
       (∀ u, readDesc k s = .ok none u → loadTaskSS s = .error (.exc (.ts (selErr k))) u) ∧
       (∀ f u, readDesc k s = .error f u → loadTaskSS s = .error f u) ∧
       (∀ (e : Desc) (u : State), readDesc k s = .ok (some e) u →
         (selRpl k ≠ s.cpl ∨ e.writable = false ∨ e.dpl ≠ s.cpl →
           loadTaskSS s = .error (.exc (.ts (selErr k))) u) ∧
         (selRpl k = s.cpl → e.writable = true → e.dpl = s.cpl →
           (e.present = false → loadTaskSS s = .error (.exc (.sf (selErr k))) u) ∧
           (e.present = true → e.big = false → loadTaskSS s = .error (.refuse .sixteenBitForm) u) ∧
           (e.present = true → e.big = true → loadTaskSS s =
             match setAccessed k e u with
             | .ok _ w => .ok () (w.withSeg .ss (cacheOf k e))
             | .error f w => .error f w)))) ∧
     (isNull v = true → loadTaskData name s = .ok () s) ∧
     (isNull v = false →
       (∀ u, readDesc v s = .ok none u → loadTaskData name s = .error (.exc (.ts (selErr v))) u) ∧
       (∀ e u, readDesc v s = .error e u → loadTaskData name s = .error e u) ∧
       (∀ (f : Desc) (u : State), readDesc v s = .ok (some f) u →
         (f.isSeg = false ∨ f.isCode = true ∧ f.hi.getLsbD 9 = false ∨
             f.conforming = false ∧ (f.dpl < s.cpl ∨ f.dpl < selRpl v) →
           loadTaskData name s = .error (.exc (.ts (selErr v))) u) ∧
         (f.isData = true ∨ f.isCode = true ∧ f.hi.getLsbD 9 = true →
           f.conforming = true ∨ s.cpl ≤ f.dpl ∧ selRpl v ≤ f.dpl →
           (f.present = false → loadTaskData name s = .error (.exc (.np (selErr v))) u) ∧
           (f.present = true → loadTaskData name s =
             match setAccessed v f u with
             | .ok _ w => .ok () (w.withSeg name (cacheOf v f))
             | .error e w => .error e w))))) ∧
  (∀ (s t : State) (sel : Word) (d : Desc) (e : Stop), prepareAccessed sel d s = .error e t →
     setAccessed sel d s = .error e t ∧ s.StoppedTo t)
end

