-- ==== Sys2Proof/Laws/Exec.lean ====
section
/-! SUPPORT. How a piece of a meaning runs, and the rules that compose what its pieces do. `Post` is the
postcondition of a run; `Keeps R` says that a run leaves the state in relation `R` to where it began,
whether it answers or stops. -/

namespace Sys2Proof.Machine

open Sys2Proof

variable {α β : Type}

/-! ## Running the pieces -/

@[simp] theorem run_pure (a : α) (s : State) : (pure a : Exec α) s = .ok a s := rfl

@[simp] theorem run_raise (e : Exception) (s : State) : (raise e : Exec α) s = .error (.exc e) s := rfl

@[simp] theorem run_refuse (r : Refusal) (s : State) : (refuse r : Exec α) s = .error (.refuse r) s := rfl

@[simp] theorem run_getState (s : State) : getState s = .ok s s := rfl

@[simp] theorem run_update (f : State → State) (s : State) : update f s = .ok () (f s) := rfl

theorem run_bind (m : Exec α) (f : α → Exec β) (s : State) :
    (m >>= f) s = match m s with
      | .ok a t => f a t
      | .error e t => .error e t := by
  show EStateM.bind m f s = _
  unfold EStateM.bind
  cases m s <;> rfl

/-- A sequence goes on where its first piece answers. -/
theorem run_bind_ok {m : Exec α} {f : α → Exec β} {s t : State} {a : α} (h : m s = .ok a t) :
    (m >>= f) s = f a t := by rw [run_bind, h]

/-- A sequence stops where its first piece stops. -/
theorem run_bind_error {m : Exec α} {f : α → Exec β} {s t : State} {e : Stop}
    (h : m s = .error e t) : (m >>= f) s = .error e t := by rw [run_bind, h]

@[simp] theorem run_bind_pure (a : α) (f : α → Exec β) (s : State) : ((pure a : Exec α) >>= f) s = f a s :=
  rfl

@[simp] theorem run_bind_getState (f : State → Exec β) (s : State) : (getState >>= f) s = f s s := rfl

@[simp] theorem run_bind_update (g : State → State) (f : Unit → Exec β) (s : State) :
    (update g >>= f) s = f () (g s) := rfl

@[simp] theorem run_bind_raise (e : Exception) (f : α → Exec β) (s : State) :
    ((raise e : Exec α) >>= f) s = .error (.exc e) s := rfl

@[simp] theorem run_bind_refuse (r : Refusal) (f : α → Exec β) (s : State) :
    ((refuse r : Exec α) >>= f) s = .error (.refuse r) s := rfl

theorem run_ite (c : Prop) [Decidable c] (a b : Exec α) (s : State) :
    (if c then a else b) s = if c then a s else b s := by split <;> rfl

/-- What an answered sequence did: its first piece answered, and then the rest did. -/
theorem bind_eq_ok {m : Exec α} {f : α → Exec β} {s t : State} {b : β} (h : (m >>= f) s = .ok b t) :
    ∃ a u, m s = .ok a u ∧ f a u = .ok b t := by
  rw [run_bind] at h
  split at h
  · exact ⟨_, _, by assumption, h⟩
  · cases h

/-! ## Postconditions -/

/-- `Q` holds of the answer and the state if `m` answers from `s`, and `E` if it stops. -/
def Post (m : Exec α) (s : State) (Q : α → State → Prop) (E : Stop → State → Prop) : Prop :=
  match m s with
  | .ok a t => Q a t
  | .error e t => E e t

theorem Post.of_ok {m : Exec α} {s t : State} {a : α} {Q : α → State → Prop} {E : Stop → State → Prop}
    (h : Post m s Q E) (r : m s = .ok a t) : Q a t := by
  unfold Post at h; rw [r] at h; exact h

theorem Post.of_error {m : Exec α} {s t : State} {e : Stop} {Q : α → State → Prop}
    {E : Stop → State → Prop} (h : Post m s Q E) (r : m s = .error e t) : E e t := by
  unfold Post at h; rw [r] at h; exact h

theorem Post.mono {m : Exec α} {s : State} {Q Q' : α → State → Prop} {E E' : Stop → State → Prop}
    (h : Post m s Q E) (hq : ∀ a t, Q a t → Q' a t) (he : ∀ e t, E e t → E' e t) : Post m s Q' E' := by
  unfold Post at *
  split at h
  · exact hq _ _ h
  · exact he _ _ h

theorem post_pure {a : α} {s : State} {Q : α → State → Prop} {E : Stop → State → Prop} (h : Q a s) :
    Post (pure a) s Q E := h

theorem post_raise {e : Exception} {s : State} {Q : α → State → Prop} {E : Stop → State → Prop}
    (h : E (.exc e) s) : Post (raise e) s Q E := h

theorem post_refuse {r : Refusal} {s : State} {Q : α → State → Prop} {E : Stop → State → Prop}
    (h : E (.refuse r) s) : Post (refuse r) s Q E := h

theorem post_getState {s : State} {Q : State → State → Prop} {E : Stop → State → Prop} (h : Q s s) :
    Post getState s Q E := h

theorem post_update {f : State → State} {s : State} {Q : Unit → State → Prop} {E : Stop → State → Prop}
    (h : Q () (f s)) : Post (update f) s Q E := h

theorem post_bind {m : Exec α} {f : α → Exec β} {s : State} {Q : β → State → Prop}
    {E : Stop → State → Prop} (h : Post m s (fun a t => Post (f a) t Q E) E) : Post (m >>= f) s Q E := by
  unfold Post at *
  rw [run_bind]
  split at h <;> simp_all

/-- A sequence, from a known postcondition of its first piece. -/
theorem post_seq {m : Exec α} {f : α → Exec β} {s : State} {Q : α → State → Prop}
    {E : Stop → State → Prop} {Q' : β → State → Prop} {E' : Stop → State → Prop} (h : Post m s Q E)
    (hq : ∀ a t, Q a t → Post (f a) t Q' E') (he : ∀ e t, E e t → E' e t) : Post (m >>= f) s Q' E' :=
  post_bind (h.mono hq he)

theorem post_ite {c : Prop} [Decidable c] {a b : Exec α} {s : State} {Q : α → State → Prop}
    {E : Stop → State → Prop} (ha : c → Post a s Q E) (hb : ¬c → Post b s Q E) :
    Post (if c then a else b) s Q E := by
  split
  · exact ha ‹_›
  · exact hb ‹_›

/-! ## Relations that every piece keeps -/

/-- Wherever `m` leaves the state, `R` relates it to where `m` began. -/
structure Keeps (R : State → State → Prop) (m : Exec α) : Prop where
  post : ∀ s, Post m s (fun _ t => R s t) (fun _ t => R s t)

/-- The relation contains every state with itself and composes. -/
structure Composes (R : State → State → Prop) : Prop where
  refl : ∀ s, R s s
  trans : ∀ s t u, R s t → R t u → R s u

variable {R : State → State → Prop}

theorem keeps_pure (h : Composes R) (a : α) : Keeps R (pure a) := ⟨fun s => h.refl s⟩

theorem keeps_raise (h : Composes R) (e : Exception) : Keeps R (raise e : Exec α) := ⟨fun s => h.refl s⟩

theorem keeps_refuse (h : Composes R) (r : Refusal) : Keeps R (refuse r : Exec α) := ⟨fun s => h.refl s⟩

theorem keeps_getState (h : Composes R) : Keeps R getState := ⟨fun s => h.refl s⟩

theorem keeps_update {f : State → State} (h : ∀ s, R s (f s)) : Keeps R (update f) := ⟨h⟩

theorem keeps_bind (h : Composes R) {m : Exec α} {f : α → Exec β} (hm : Keeps R m)
    (hf : ∀ a, Keeps R (f a)) : Keeps R (m >>= f) := ⟨fun s =>
  post_seq (hm.post s)
    (fun a t ht => ((hf a).post t).mono (fun _ u hu => h.trans s t u ht hu)
      (fun _ u hu => h.trans s t u ht hu))
    (fun _ _ ht => ht)⟩

theorem keeps_ite {c : Prop} [Decidable c] {a b : Exec α} (ha : Keeps R a) (hb : Keeps R b) :
    Keeps R (if c then a else b) := by
  split <;> assumption

/-- What follows reading the state may depend on it. -/
theorem keeps_getState_bind (f : State → Exec β)
    (hf : ∀ s, Post (f s) s (fun _ t => R s t) (fun _ t => R s t)) : Keeps R (getState >>= f) := ⟨hf⟩

theorem Keeps.of_ok {m : Exec α} {s t : State} {a : α} (h : Keeps R m) (r : m s = .ok a t) : R s t :=
  (h.post s).of_ok r

theorem Keeps.of_error {m : Exec α} {s t : State} {e : Stop} (h : Keeps R m) (r : m s = .error e t) :
    R s t := (h.post s).of_error r

end Sys2Proof.Machine
end

