-- ==== Sys2Proof/Laws/State.lean ====
section
/-! SUPPORT. One lemma for each field and each named change of the state, of the register file and of the
segment registers, so that no proof unfolds a record update. -/

namespace Sys2Proof.Machine

open Sys2Proof

/-! ## State.withSeg -/

@[simp] theorem State.withSeg_regs (s : State) (n : SegName) (g : SegReg) :
    (s.withSeg n g).regs = s.regs := rfl

@[simp] theorem State.withSeg_eip (s : State) (n : SegName) (g : SegReg) :
    (s.withSeg n g).eip = s.eip := rfl

@[simp] theorem State.withSeg_nextEip (s : State) (n : SegName) (g : SegReg) :
    (s.withSeg n g).nextEip = s.nextEip := rfl

@[simp] theorem State.withSeg_eflags (s : State) (n : SegName) (g : SegReg) :
    (s.withSeg n g).eflags = s.eflags := rfl

@[simp] theorem State.withSeg_segs (s : State) (n : SegName) (g : SegReg) :
    (s.withSeg n g).segs = s.segs.set n g := rfl

@[simp] theorem State.withSeg_cpl (s : State) (n : SegName) (g : SegReg) :
    (s.withSeg n g).cpl = s.cpl := rfl

@[simp] theorem State.withSeg_gdtr (s : State) (n : SegName) (g : SegReg) :
    (s.withSeg n g).gdtr = s.gdtr := rfl

@[simp] theorem State.withSeg_idtr (s : State) (n : SegName) (g : SegReg) :
    (s.withSeg n g).idtr = s.idtr := rfl

@[simp] theorem State.withSeg_ldtr (s : State) (n : SegName) (g : SegReg) :
    (s.withSeg n g).ldtr = s.ldtr := rfl

@[simp] theorem State.withSeg_tr (s : State) (n : SegName) (g : SegReg) :
    (s.withSeg n g).tr = s.tr := rfl

@[simp] theorem State.withSeg_ctl (s : State) (n : SegName) (g : SegReg) :
    (s.withSeg n g).ctl = s.ctl := rfl

@[simp] theorem State.withSeg_mem (s : State) (n : SegName) (g : SegReg) :
    (s.withSeg n g).mem = s.mem := rfl

@[simp] theorem State.withSeg_activity (s : State) (n : SegName) (g : SegReg) :
    (s.withSeg n g).activity = s.activity := rfl

@[simp] theorem State.withSeg_debugTrap (s : State) (n : SegName) (g : SegReg) :
    (s.withSeg n g).debugTrap = s.debugTrap := rfl

@[simp] theorem State.withSeg_tablesUsed (s : State) (n : SegName) (g : SegReg) :
    (s.withSeg n g).tablesUsed = s.tablesUsed := rfl

@[simp] theorem State.withSeg_pastMemory (s : State) (n : SegName) (g : SegReg) :
    (s.withSeg n g).pastMemory = s.pastMemory := rfl

@[simp] theorem State.withSeg_walked (s : State) (n : SegName) (g : SegReg) :
    (s.withSeg n g).walked = s.walked := rfl

@[simp] theorem State.withSeg_storedAhead (s : State) (n : SegName) (g : SegReg) :
    (s.withSeg n g).storedAhead = s.storedAhead := rfl

@[simp] theorem State.withSeg_draws (s : State) (n : SegName) (g : SegReg) :
    (s.withSeg n g).draws = s.draws := rfl

@[simp] theorem State.withSeg_deliverExceptions (s : State) (n : SegName) (g : SegReg) :
    (s.withSeg n g).deliverExceptions = s.deliverExceptions := rfl

@[simp] theorem State.withSeg_memMap (s : State) (n : SegName) (g : SegReg) :
    (s.withSeg n g).memMap = s.memMap := rfl

/-! ## State.withCS -/

@[simp] theorem State.withCS_regs (s : State) (sel : Word) (d : Desc) (lvl : Level) :
    (s.withCS sel d lvl).regs = s.regs := rfl

@[simp] theorem State.withCS_eip (s : State) (sel : Word) (d : Desc) (lvl : Level) :
    (s.withCS sel d lvl).eip = s.eip := rfl

@[simp] theorem State.withCS_nextEip (s : State) (sel : Word) (d : Desc) (lvl : Level) :
    (s.withCS sel d lvl).nextEip = s.nextEip := rfl

@[simp] theorem State.withCS_eflags (s : State) (sel : Word) (d : Desc) (lvl : Level) :
    (s.withCS sel d lvl).eflags = s.eflags := rfl

@[simp] theorem State.withCS_segs (s : State) (sel : Word) (d : Desc) (lvl : Level) :
    (s.withCS sel d lvl).segs = { s.segs with cs := cacheOf (sel.extractLsb' 2 14 ++ lvl) d } := rfl

@[simp] theorem State.withCS_cpl (s : State) (sel : Word) (d : Desc) (lvl : Level) :
    (s.withCS sel d lvl).cpl = lvl := rfl

@[simp] theorem State.withCS_gdtr (s : State) (sel : Word) (d : Desc) (lvl : Level) :
    (s.withCS sel d lvl).gdtr = s.gdtr := rfl

@[simp] theorem State.withCS_idtr (s : State) (sel : Word) (d : Desc) (lvl : Level) :
    (s.withCS sel d lvl).idtr = s.idtr := rfl

@[simp] theorem State.withCS_ldtr (s : State) (sel : Word) (d : Desc) (lvl : Level) :
    (s.withCS sel d lvl).ldtr = s.ldtr := rfl

@[simp] theorem State.withCS_tr (s : State) (sel : Word) (d : Desc) (lvl : Level) :
    (s.withCS sel d lvl).tr = s.tr := rfl

@[simp] theorem State.withCS_ctl (s : State) (sel : Word) (d : Desc) (lvl : Level) :
    (s.withCS sel d lvl).ctl = s.ctl := rfl

@[simp] theorem State.withCS_mem (s : State) (sel : Word) (d : Desc) (lvl : Level) :
    (s.withCS sel d lvl).mem = s.mem := rfl

@[simp] theorem State.withCS_activity (s : State) (sel : Word) (d : Desc) (lvl : Level) :
    (s.withCS sel d lvl).activity = s.activity := rfl

@[simp] theorem State.withCS_debugTrap (s : State) (sel : Word) (d : Desc) (lvl : Level) :
    (s.withCS sel d lvl).debugTrap = s.debugTrap := rfl

@[simp] theorem State.withCS_tablesUsed (s : State) (sel : Word) (d : Desc) (lvl : Level) :
    (s.withCS sel d lvl).tablesUsed = s.tablesUsed := rfl

@[simp] theorem State.withCS_pastMemory (s : State) (sel : Word) (d : Desc) (lvl : Level) :
    (s.withCS sel d lvl).pastMemory = s.pastMemory := rfl

@[simp] theorem State.withCS_walked (s : State) (sel : Word) (d : Desc) (lvl : Level) :
    (s.withCS sel d lvl).walked = s.walked := rfl

@[simp] theorem State.withCS_storedAhead (s : State) (sel : Word) (d : Desc) (lvl : Level) :
    (s.withCS sel d lvl).storedAhead = s.storedAhead := rfl

@[simp] theorem State.withCS_draws (s : State) (sel : Word) (d : Desc) (lvl : Level) :
    (s.withCS sel d lvl).draws = s.draws := rfl

@[simp] theorem State.withCS_deliverExceptions (s : State) (sel : Word) (d : Desc) (lvl : Level) :
    (s.withCS sel d lvl).deliverExceptions = s.deliverExceptions := rfl

@[simp] theorem State.withCS_memMap (s : State) (sel : Word) (d : Desc) (lvl : Level) :
    (s.withCS sel d lvl).memMap = s.memMap := rfl

/-! ## State.discardPrefetch -/

@[simp] theorem State.discardPrefetch_regs (s : State) :
    s.discardPrefetch.regs = s.regs := rfl

@[simp] theorem State.discardPrefetch_eip (s : State) :
    s.discardPrefetch.eip = s.eip := rfl

@[simp] theorem State.discardPrefetch_nextEip (s : State) :
    s.discardPrefetch.nextEip = s.nextEip := rfl

@[simp] theorem State.discardPrefetch_eflags (s : State) :
    s.discardPrefetch.eflags = s.eflags := rfl

@[simp] theorem State.discardPrefetch_segs (s : State) :
    s.discardPrefetch.segs = s.segs := rfl

@[simp] theorem State.discardPrefetch_cpl (s : State) :
    s.discardPrefetch.cpl = s.cpl := rfl

@[simp] theorem State.discardPrefetch_gdtr (s : State) :
    s.discardPrefetch.gdtr = s.gdtr := rfl

@[simp] theorem State.discardPrefetch_idtr (s : State) :
    s.discardPrefetch.idtr = s.idtr := rfl

@[simp] theorem State.discardPrefetch_ldtr (s : State) :
    s.discardPrefetch.ldtr = s.ldtr := rfl

@[simp] theorem State.discardPrefetch_tr (s : State) :
    s.discardPrefetch.tr = s.tr := rfl

@[simp] theorem State.discardPrefetch_ctl (s : State) :
    s.discardPrefetch.ctl = s.ctl := rfl

@[simp] theorem State.discardPrefetch_mem (s : State) :
    s.discardPrefetch.mem = s.mem := rfl

@[simp] theorem State.discardPrefetch_activity (s : State) :
    s.discardPrefetch.activity = s.activity := rfl

@[simp] theorem State.discardPrefetch_debugTrap (s : State) :
    s.discardPrefetch.debugTrap = s.debugTrap := rfl

@[simp] theorem State.discardPrefetch_tablesUsed (s : State) :
    s.discardPrefetch.tablesUsed = s.tablesUsed := rfl

@[simp] theorem State.discardPrefetch_pastMemory (s : State) :
    s.discardPrefetch.pastMemory = s.pastMemory := rfl

@[simp] theorem State.discardPrefetch_walked (s : State) :
    s.discardPrefetch.walked = s.walked := rfl

@[simp] theorem State.discardPrefetch_storedAhead (s : State) :
    s.discardPrefetch.storedAhead = [] := rfl

@[simp] theorem State.discardPrefetch_draws (s : State) :
    s.discardPrefetch.draws = s.draws := rfl

@[simp] theorem State.discardPrefetch_deliverExceptions (s : State) :
    s.discardPrefetch.deliverExceptions = s.deliverExceptions := rfl

@[simp] theorem State.discardPrefetch_memMap (s : State) :
    s.discardPrefetch.memMap = s.memMap := rfl

/-! ## State.jumpTo -/

@[simp] theorem State.jumpTo_regs (s : State) (target : Dword) :
    (s.jumpTo target).regs = s.regs := rfl

@[simp] theorem State.jumpTo_eip (s : State) (target : Dword) :
    (s.jumpTo target).eip = target := rfl

@[simp] theorem State.jumpTo_nextEip (s : State) (target : Dword) :
    (s.jumpTo target).nextEip = s.nextEip := rfl

@[simp] theorem State.jumpTo_eflags (s : State) (target : Dword) :
    (s.jumpTo target).eflags = s.eflags := rfl

@[simp] theorem State.jumpTo_segs (s : State) (target : Dword) :
    (s.jumpTo target).segs = s.segs := rfl

@[simp] theorem State.jumpTo_cpl (s : State) (target : Dword) :
    (s.jumpTo target).cpl = s.cpl := rfl

@[simp] theorem State.jumpTo_gdtr (s : State) (target : Dword) :
    (s.jumpTo target).gdtr = s.gdtr := rfl

@[simp] theorem State.jumpTo_idtr (s : State) (target : Dword) :
    (s.jumpTo target).idtr = s.idtr := rfl

@[simp] theorem State.jumpTo_ldtr (s : State) (target : Dword) :
    (s.jumpTo target).ldtr = s.ldtr := rfl

@[simp] theorem State.jumpTo_tr (s : State) (target : Dword) :
    (s.jumpTo target).tr = s.tr := rfl

@[simp] theorem State.jumpTo_ctl (s : State) (target : Dword) :
    (s.jumpTo target).ctl = s.ctl := rfl

@[simp] theorem State.jumpTo_mem (s : State) (target : Dword) :
    (s.jumpTo target).mem = s.mem := rfl

@[simp] theorem State.jumpTo_activity (s : State) (target : Dword) :
    (s.jumpTo target).activity = s.activity := rfl

@[simp] theorem State.jumpTo_debugTrap (s : State) (target : Dword) :
    (s.jumpTo target).debugTrap = s.debugTrap := rfl

@[simp] theorem State.jumpTo_tablesUsed (s : State) (target : Dword) :
    (s.jumpTo target).tablesUsed = s.tablesUsed := rfl

@[simp] theorem State.jumpTo_pastMemory (s : State) (target : Dword) :
    (s.jumpTo target).pastMemory = s.pastMemory := rfl

@[simp] theorem State.jumpTo_walked (s : State) (target : Dword) :
    (s.jumpTo target).walked = s.walked := rfl

@[simp] theorem State.jumpTo_storedAhead (s : State) (target : Dword) :
    (s.jumpTo target).storedAhead = [] := rfl

@[simp] theorem State.jumpTo_draws (s : State) (target : Dword) :
    (s.jumpTo target).draws = s.draws := rfl

@[simp] theorem State.jumpTo_deliverExceptions (s : State) (target : Dword) :
    (s.jumpTo target).deliverExceptions = s.deliverExceptions := rfl

@[simp] theorem State.jumpTo_memMap (s : State) (target : Dword) :
    (s.jumpTo target).memMap = s.memMap := rfl

/-! ## State.withEsp -/

@[simp] theorem State.withEsp_regs (s : State) (v : Dword) :
    (s.withEsp v).regs = { s.regs with esp := v } := rfl

@[simp] theorem State.withEsp_eip (s : State) (v : Dword) :
    (s.withEsp v).eip = s.eip := rfl

@[simp] theorem State.withEsp_nextEip (s : State) (v : Dword) :
    (s.withEsp v).nextEip = s.nextEip := rfl

@[simp] theorem State.withEsp_eflags (s : State) (v : Dword) :
    (s.withEsp v).eflags = s.eflags := rfl

@[simp] theorem State.withEsp_segs (s : State) (v : Dword) :
    (s.withEsp v).segs = s.segs := rfl

@[simp] theorem State.withEsp_cpl (s : State) (v : Dword) :
    (s.withEsp v).cpl = s.cpl := rfl

@[simp] theorem State.withEsp_gdtr (s : State) (v : Dword) :
    (s.withEsp v).gdtr = s.gdtr := rfl

@[simp] theorem State.withEsp_idtr (s : State) (v : Dword) :
    (s.withEsp v).idtr = s.idtr := rfl

@[simp] theorem State.withEsp_ldtr (s : State) (v : Dword) :
    (s.withEsp v).ldtr = s.ldtr := rfl

@[simp] theorem State.withEsp_tr (s : State) (v : Dword) :
    (s.withEsp v).tr = s.tr := rfl

@[simp] theorem State.withEsp_ctl (s : State) (v : Dword) :
    (s.withEsp v).ctl = s.ctl := rfl

@[simp] theorem State.withEsp_mem (s : State) (v : Dword) :
    (s.withEsp v).mem = s.mem := rfl

@[simp] theorem State.withEsp_activity (s : State) (v : Dword) :
    (s.withEsp v).activity = s.activity := rfl

@[simp] theorem State.withEsp_debugTrap (s : State) (v : Dword) :
    (s.withEsp v).debugTrap = s.debugTrap := rfl

@[simp] theorem State.withEsp_tablesUsed (s : State) (v : Dword) :
    (s.withEsp v).tablesUsed = s.tablesUsed := rfl

@[simp] theorem State.withEsp_pastMemory (s : State) (v : Dword) :
    (s.withEsp v).pastMemory = s.pastMemory := rfl

@[simp] theorem State.withEsp_walked (s : State) (v : Dword) :
    (s.withEsp v).walked = s.walked := rfl

@[simp] theorem State.withEsp_storedAhead (s : State) (v : Dword) :
    (s.withEsp v).storedAhead = s.storedAhead := rfl

@[simp] theorem State.withEsp_draws (s : State) (v : Dword) :
    (s.withEsp v).draws = s.draws := rfl

@[simp] theorem State.withEsp_deliverExceptions (s : State) (v : Dword) :
    (s.withEsp v).deliverExceptions = s.deliverExceptions := rfl

@[simp] theorem State.withEsp_memMap (s : State) (v : Dword) :
    (s.withEsp v).memMap = s.memMap := rfl

/-! ## State.withStack -/

@[simp] theorem State.withStack_regs (s : State) (sel : Word) (d : Desc) (esp : Dword) :
    (s.withStack sel d esp).regs = { s.regs with esp := esp } := rfl

@[simp] theorem State.withStack_eip (s : State) (sel : Word) (d : Desc) (esp : Dword) :
    (s.withStack sel d esp).eip = s.eip := rfl

@[simp] theorem State.withStack_nextEip (s : State) (sel : Word) (d : Desc) (esp : Dword) :
    (s.withStack sel d esp).nextEip = s.nextEip := rfl

@[simp] theorem State.withStack_eflags (s : State) (sel : Word) (d : Desc) (esp : Dword) :
    (s.withStack sel d esp).eflags = s.eflags := rfl

@[simp] theorem State.withStack_segs (s : State) (sel : Word) (d : Desc) (esp : Dword) :
    (s.withStack sel d esp).segs = { s.segs with ss := cacheOf sel d } := rfl

@[simp] theorem State.withStack_cpl (s : State) (sel : Word) (d : Desc) (esp : Dword) :
    (s.withStack sel d esp).cpl = s.cpl := rfl

@[simp] theorem State.withStack_gdtr (s : State) (sel : Word) (d : Desc) (esp : Dword) :
    (s.withStack sel d esp).gdtr = s.gdtr := rfl

@[simp] theorem State.withStack_idtr (s : State) (sel : Word) (d : Desc) (esp : Dword) :
    (s.withStack sel d esp).idtr = s.idtr := rfl

@[simp] theorem State.withStack_ldtr (s : State) (sel : Word) (d : Desc) (esp : Dword) :
    (s.withStack sel d esp).ldtr = s.ldtr := rfl

@[simp] theorem State.withStack_tr (s : State) (sel : Word) (d : Desc) (esp : Dword) :
    (s.withStack sel d esp).tr = s.tr := rfl

@[simp] theorem State.withStack_ctl (s : State) (sel : Word) (d : Desc) (esp : Dword) :
    (s.withStack sel d esp).ctl = s.ctl := rfl

@[simp] theorem State.withStack_mem (s : State) (sel : Word) (d : Desc) (esp : Dword) :
    (s.withStack sel d esp).mem = s.mem := rfl

@[simp] theorem State.withStack_activity (s : State) (sel : Word) (d : Desc) (esp : Dword) :
    (s.withStack sel d esp).activity = s.activity := rfl

@[simp] theorem State.withStack_debugTrap (s : State) (sel : Word) (d : Desc) (esp : Dword) :
    (s.withStack sel d esp).debugTrap = s.debugTrap := rfl

@[simp] theorem State.withStack_tablesUsed (s : State) (sel : Word) (d : Desc) (esp : Dword) :
    (s.withStack sel d esp).tablesUsed = s.tablesUsed := rfl

@[simp] theorem State.withStack_pastMemory (s : State) (sel : Word) (d : Desc) (esp : Dword) :
    (s.withStack sel d esp).pastMemory = s.pastMemory := rfl

@[simp] theorem State.withStack_walked (s : State) (sel : Word) (d : Desc) (esp : Dword) :
    (s.withStack sel d esp).walked = s.walked := rfl

@[simp] theorem State.withStack_storedAhead (s : State) (sel : Word) (d : Desc) (esp : Dword) :
    (s.withStack sel d esp).storedAhead = s.storedAhead := rfl

@[simp] theorem State.withStack_draws (s : State) (sel : Word) (d : Desc) (esp : Dword) :
    (s.withStack sel d esp).draws = s.draws := rfl

@[simp] theorem State.withStack_deliverExceptions (s : State) (sel : Word) (d : Desc) (esp : Dword) :
    (s.withStack sel d esp).deliverExceptions = s.deliverExceptions := rfl

@[simp] theorem State.withStack_memMap (s : State) (sel : Word) (d : Desc) (esp : Dword) :
    (s.withStack sel d esp).memMap = s.memMap := rfl

/-! ## State.nullInaccessible -/

@[simp] theorem State.nullInaccessible_regs (s : State) (new : Level) :
    (s.nullInaccessible new).regs = s.regs := rfl

@[simp] theorem State.nullInaccessible_eip (s : State) (new : Level) :
    (s.nullInaccessible new).eip = s.eip := rfl

@[simp] theorem State.nullInaccessible_nextEip (s : State) (new : Level) :
    (s.nullInaccessible new).nextEip = s.nextEip := rfl

@[simp] theorem State.nullInaccessible_eflags (s : State) (new : Level) :
    (s.nullInaccessible new).eflags = s.eflags := rfl

@[simp] theorem State.nullInaccessible_cpl (s : State) (new : Level) :
    (s.nullInaccessible new).cpl = s.cpl := rfl

@[simp] theorem State.nullInaccessible_gdtr (s : State) (new : Level) :
    (s.nullInaccessible new).gdtr = s.gdtr := rfl

@[simp] theorem State.nullInaccessible_idtr (s : State) (new : Level) :
    (s.nullInaccessible new).idtr = s.idtr := rfl

@[simp] theorem State.nullInaccessible_ldtr (s : State) (new : Level) :
    (s.nullInaccessible new).ldtr = s.ldtr := rfl

@[simp] theorem State.nullInaccessible_tr (s : State) (new : Level) :
    (s.nullInaccessible new).tr = s.tr := rfl

@[simp] theorem State.nullInaccessible_ctl (s : State) (new : Level) :
    (s.nullInaccessible new).ctl = s.ctl := rfl

@[simp] theorem State.nullInaccessible_mem (s : State) (new : Level) :
    (s.nullInaccessible new).mem = s.mem := rfl

@[simp] theorem State.nullInaccessible_activity (s : State) (new : Level) :
    (s.nullInaccessible new).activity = s.activity := rfl

@[simp] theorem State.nullInaccessible_debugTrap (s : State) (new : Level) :
    (s.nullInaccessible new).debugTrap = s.debugTrap := rfl

@[simp] theorem State.nullInaccessible_tablesUsed (s : State) (new : Level) :
    (s.nullInaccessible new).tablesUsed = s.tablesUsed := rfl

@[simp] theorem State.nullInaccessible_pastMemory (s : State) (new : Level) :
    (s.nullInaccessible new).pastMemory = s.pastMemory := rfl

@[simp] theorem State.nullInaccessible_walked (s : State) (new : Level) :
    (s.nullInaccessible new).walked = s.walked := rfl

@[simp] theorem State.nullInaccessible_storedAhead (s : State) (new : Level) :
    (s.nullInaccessible new).storedAhead = s.storedAhead := rfl

@[simp] theorem State.nullInaccessible_draws (s : State) (new : Level) :
    (s.nullInaccessible new).draws = s.draws := rfl

@[simp] theorem State.nullInaccessible_deliverExceptions (s : State) (new : Level) :
    (s.nullInaccessible new).deliverExceptions = s.deliverExceptions := rfl

@[simp] theorem State.nullInaccessible_memMap (s : State) (new : Level) :
    (s.nullInaccessible new).memMap = s.memMap := rfl

/-! ## State.noteLookup -/

@[simp] theorem State.noteLookup_regs (s : State) (lin : Dword) (es : List Nat) :
    (s.noteLookup lin es).regs = s.regs := rfl

@[simp] theorem State.noteLookup_eip (s : State) (lin : Dword) (es : List Nat) :
    (s.noteLookup lin es).eip = s.eip := rfl

@[simp] theorem State.noteLookup_nextEip (s : State) (lin : Dword) (es : List Nat) :
    (s.noteLookup lin es).nextEip = s.nextEip := rfl

@[simp] theorem State.noteLookup_eflags (s : State) (lin : Dword) (es : List Nat) :
    (s.noteLookup lin es).eflags = s.eflags := rfl

@[simp] theorem State.noteLookup_segs (s : State) (lin : Dword) (es : List Nat) :
    (s.noteLookup lin es).segs = s.segs := rfl

@[simp] theorem State.noteLookup_cpl (s : State) (lin : Dword) (es : List Nat) :
    (s.noteLookup lin es).cpl = s.cpl := rfl

@[simp] theorem State.noteLookup_gdtr (s : State) (lin : Dword) (es : List Nat) :
    (s.noteLookup lin es).gdtr = s.gdtr := rfl

@[simp] theorem State.noteLookup_idtr (s : State) (lin : Dword) (es : List Nat) :
    (s.noteLookup lin es).idtr = s.idtr := rfl

@[simp] theorem State.noteLookup_ldtr (s : State) (lin : Dword) (es : List Nat) :
    (s.noteLookup lin es).ldtr = s.ldtr := rfl

@[simp] theorem State.noteLookup_tr (s : State) (lin : Dword) (es : List Nat) :
    (s.noteLookup lin es).tr = s.tr := rfl

@[simp] theorem State.noteLookup_ctl (s : State) (lin : Dword) (es : List Nat) :
    (s.noteLookup lin es).ctl = s.ctl := rfl

@[simp] theorem State.noteLookup_mem (s : State) (lin : Dword) (es : List Nat) :
    (s.noteLookup lin es).mem = s.mem := rfl

@[simp] theorem State.noteLookup_activity (s : State) (lin : Dword) (es : List Nat) :
    (s.noteLookup lin es).activity = s.activity := rfl

@[simp] theorem State.noteLookup_debugTrap (s : State) (lin : Dword) (es : List Nat) :
    (s.noteLookup lin es).debugTrap = s.debugTrap := rfl

@[simp] theorem State.noteLookup_tablesUsed (s : State) (lin : Dword) (es : List Nat) :
    (s.noteLookup lin es).tablesUsed = true := rfl

@[simp] theorem State.noteLookup_pastMemory (s : State) (lin : Dword) (es : List Nat) :
    (s.noteLookup lin es).pastMemory = s.pastMemory := rfl

@[simp] theorem State.noteLookup_walked (s : State) (lin : Dword) (es : List Nat) :
    (s.noteLookup lin es).walked = es.filter (fun p => !s.walked.contains p) ++ s.walked := rfl

@[simp] theorem State.noteLookup_storedAhead (s : State) (lin : Dword) (es : List Nat) :
    (s.noteLookup lin es).storedAhead = s.storedAhead := rfl

@[simp] theorem State.noteLookup_draws (s : State) (lin : Dword) (es : List Nat) :
    (s.noteLookup lin es).draws = if (oldLookups s lin).isEmpty then s.draws else s.draws + 1 := rfl

@[simp] theorem State.noteLookup_deliverExceptions (s : State) (lin : Dword) (es : List Nat) :
    (s.noteLookup lin es).deliverExceptions = s.deliverExceptions := rfl

@[simp] theorem State.noteLookup_memMap (s : State) (lin : Dword) (es : List Nat) :
    (s.noteLookup lin es).memMap = s.memMap := rfl

/-! ## State.noteRead -/

@[simp] theorem State.noteRead_regs (s : State) (ps : List Nat) :
    (s.noteRead ps).regs = s.regs := rfl

@[simp] theorem State.noteRead_eip (s : State) (ps : List Nat) :
    (s.noteRead ps).eip = s.eip := rfl

@[simp] theorem State.noteRead_nextEip (s : State) (ps : List Nat) :
    (s.noteRead ps).nextEip = s.nextEip := rfl

@[simp] theorem State.noteRead_eflags (s : State) (ps : List Nat) :
    (s.noteRead ps).eflags = s.eflags := rfl

@[simp] theorem State.noteRead_segs (s : State) (ps : List Nat) :
    (s.noteRead ps).segs = s.segs := rfl

@[simp] theorem State.noteRead_cpl (s : State) (ps : List Nat) :
    (s.noteRead ps).cpl = s.cpl := rfl

@[simp] theorem State.noteRead_gdtr (s : State) (ps : List Nat) :
    (s.noteRead ps).gdtr = s.gdtr := rfl

@[simp] theorem State.noteRead_idtr (s : State) (ps : List Nat) :
    (s.noteRead ps).idtr = s.idtr := rfl

@[simp] theorem State.noteRead_ldtr (s : State) (ps : List Nat) :
    (s.noteRead ps).ldtr = s.ldtr := rfl

@[simp] theorem State.noteRead_tr (s : State) (ps : List Nat) :
    (s.noteRead ps).tr = s.tr := rfl

@[simp] theorem State.noteRead_ctl (s : State) (ps : List Nat) :
    (s.noteRead ps).ctl = s.ctl := rfl

@[simp] theorem State.noteRead_mem (s : State) (ps : List Nat) :
    (s.noteRead ps).mem = s.mem := rfl

@[simp] theorem State.noteRead_activity (s : State) (ps : List Nat) :
    (s.noteRead ps).activity = s.activity := rfl

@[simp] theorem State.noteRead_debugTrap (s : State) (ps : List Nat) :
    (s.noteRead ps).debugTrap = s.debugTrap := rfl

@[simp] theorem State.noteRead_tablesUsed (s : State) (ps : List Nat) :
    (s.noteRead ps).tablesUsed = s.tablesUsed := rfl

@[simp] theorem State.noteRead_pastMemory (s : State) (ps : List Nat) :
    (s.noteRead ps).pastMemory = s.pastMemory := rfl

@[simp] theorem State.noteRead_walked (s : State) (ps : List Nat) :
    (s.noteRead ps).walked = s.walked := rfl

@[simp] theorem State.noteRead_storedAhead (s : State) (ps : List Nat) :
    (s.noteRead ps).storedAhead = s.storedAhead := rfl

@[simp] theorem State.noteRead_draws (s : State) (ps : List Nat) :
    (s.noteRead ps).draws = if ps.any s.walked.contains then s.draws + 1 else s.draws := rfl

@[simp] theorem State.noteRead_deliverExceptions (s : State) (ps : List Nat) :
    (s.noteRead ps).deliverExceptions = s.deliverExceptions := rfl

@[simp] theorem State.noteRead_memMap (s : State) (ps : List Nat) :
    (s.noteRead ps).memMap = s.memMap := rfl

/-! ## State.store -/

@[simp] theorem State.store_regs (s : State) (cells : List Host.Cell) :
    (s.store cells).regs = s.regs := rfl

@[simp] theorem State.store_eip (s : State) (cells : List Host.Cell) :
    (s.store cells).eip = s.eip := rfl

@[simp] theorem State.store_nextEip (s : State) (cells : List Host.Cell) :
    (s.store cells).nextEip = s.nextEip := rfl

@[simp] theorem State.store_eflags (s : State) (cells : List Host.Cell) :
    (s.store cells).eflags = s.eflags := rfl

@[simp] theorem State.store_segs (s : State) (cells : List Host.Cell) :
    (s.store cells).segs = s.segs := rfl

@[simp] theorem State.store_cpl (s : State) (cells : List Host.Cell) :
    (s.store cells).cpl = s.cpl := rfl

@[simp] theorem State.store_gdtr (s : State) (cells : List Host.Cell) :
    (s.store cells).gdtr = s.gdtr := rfl

@[simp] theorem State.store_idtr (s : State) (cells : List Host.Cell) :
    (s.store cells).idtr = s.idtr := rfl

@[simp] theorem State.store_ldtr (s : State) (cells : List Host.Cell) :
    (s.store cells).ldtr = s.ldtr := rfl

@[simp] theorem State.store_tr (s : State) (cells : List Host.Cell) :
    (s.store cells).tr = s.tr := rfl

@[simp] theorem State.store_ctl (s : State) (cells : List Host.Cell) :
    (s.store cells).ctl = s.ctl := rfl

@[simp] theorem State.store_mem (s : State) (cells : List Host.Cell) :
    (s.store cells).mem = s.mem.writeAll cells := rfl

@[simp] theorem State.store_activity (s : State) (cells : List Host.Cell) :
    (s.store cells).activity = s.activity := rfl

@[simp] theorem State.store_debugTrap (s : State) (cells : List Host.Cell) :
    (s.store cells).debugTrap = s.debugTrap := rfl

@[simp] theorem State.store_tablesUsed (s : State) (cells : List Host.Cell) :
    (s.store cells).tablesUsed = s.tablesUsed := rfl

@[simp] theorem State.store_pastMemory (s : State) (cells : List Host.Cell) :
    (s.store cells).pastMemory =
      if s.tablesUsed && !cells.isEmpty then s.mem :: s.pastMemory else s.pastMemory := rfl

@[simp] theorem State.store_walked (s : State) (cells : List Host.Cell) :
    (s.store cells).walked = s.walked := rfl

@[simp] theorem State.store_storedAhead (s : State) (cells : List Host.Cell) :
    (s.store cells).storedAhead = s.ahead cells ++ s.storedAhead := rfl

@[simp] theorem State.store_draws (s : State) (cells : List Host.Cell) :
    (s.store cells).draws = s.draws := rfl

@[simp] theorem State.store_deliverExceptions (s : State) (cells : List Host.Cell) :
    (s.store cells).deliverExceptions = s.deliverExceptions := rfl

@[simp] theorem State.store_memMap (s : State) (cells : List Host.Cell) :
    (s.store cells).memMap = s.memMap := rfl

/-! ## State.withTssImage -/

@[simp] theorem State.withTssImage_eip (s : State) (c : SwitchCause) (img : List Byte) :
    (s.withTssImage c img).eip = dwordAt img 32 := rfl

@[simp] theorem State.withTssImage_nextEip (s : State) (c : SwitchCause) (img : List Byte) :
    (s.withTssImage c img).nextEip = s.nextEip := rfl

@[simp] theorem State.withTssImage_eflags (s : State) (c : SwitchCause) (img : List Byte) :
    (s.withTssImage c img).eflags = incomingFlags c (dwordAt img 36) := rfl

@[simp] theorem State.withTssImage_cpl (s : State) (c : SwitchCause) (img : List Byte) :
    (s.withTssImage c img).cpl = selRpl (wordAt img 76) := rfl

@[simp] theorem State.withTssImage_gdtr (s : State) (c : SwitchCause) (img : List Byte) :
    (s.withTssImage c img).gdtr = s.gdtr := rfl

@[simp] theorem State.withTssImage_idtr (s : State) (c : SwitchCause) (img : List Byte) :
    (s.withTssImage c img).idtr = s.idtr := rfl

@[simp] theorem State.withTssImage_ldtr (s : State) (c : SwitchCause) (img : List Byte) :
    (s.withTssImage c img).ldtr = { s.ldtr with sel := wordAt img 96, valid := false } := rfl

@[simp] theorem State.withTssImage_tr (s : State) (c : SwitchCause) (img : List Byte) :
    (s.withTssImage c img).tr = s.tr := rfl

@[simp] theorem State.withTssImage_ctl (s : State) (c : SwitchCause) (img : List Byte) :
    (s.withTssImage c img).ctl =
      if s.paging then { s.ctl with cr3 := cr3Of (dwordAt img 28) } else s.ctl := rfl

@[simp] theorem State.withTssImage_mem (s : State) (c : SwitchCause) (img : List Byte) :
    (s.withTssImage c img).mem = s.mem := rfl

@[simp] theorem State.withTssImage_activity (s : State) (c : SwitchCause) (img : List Byte) :
    (s.withTssImage c img).activity = s.activity := rfl

@[simp] theorem State.withTssImage_debugTrap (s : State) (c : SwitchCause) (img : List Byte) :
    (s.withTssImage c img).debugTrap = s.debugTrap := rfl

@[simp] theorem State.withTssImage_tablesUsed (s : State) (c : SwitchCause) (img : List Byte) :
    (s.withTssImage c img).tablesUsed = if s.paging then false else s.tablesUsed := rfl

@[simp] theorem State.withTssImage_pastMemory (s : State) (c : SwitchCause) (img : List Byte) :
    (s.withTssImage c img).pastMemory = if s.paging then [] else s.pastMemory := rfl

@[simp] theorem State.withTssImage_walked (s : State) (c : SwitchCause) (img : List Byte) :
    (s.withTssImage c img).walked = s.walked := rfl

@[simp] theorem State.withTssImage_storedAhead (s : State) (c : SwitchCause) (img : List Byte) :
    (s.withTssImage c img).storedAhead = s.storedAhead := rfl

@[simp] theorem State.withTssImage_draws (s : State) (c : SwitchCause) (img : List Byte) :
    (s.withTssImage c img).draws = s.draws := rfl

@[simp] theorem State.withTssImage_deliverExceptions (s : State) (c : SwitchCause) (img : List Byte) :
    (s.withTssImage c img).deliverExceptions = s.deliverExceptions := rfl

@[simp] theorem State.withTssImage_memMap (s : State) (c : SwitchCause) (img : List Byte) :
    (s.withTssImage c img).memMap = s.memMap := rfl

@[simp] theorem State.withTssImage_segs_es (s : State) (c : SwitchCause) (img : List Byte) :
    (s.withTssImage c img).segs.es = s.segs.es.withNull (wordAt img 72) := rfl

@[simp] theorem State.withTssImage_segs_cs (s : State) (c : SwitchCause) (img : List Byte) :
    (s.withTssImage c img).segs.cs = s.segs.cs.withNull (wordAt img 76) := rfl

@[simp] theorem State.withTssImage_segs_ss (s : State) (c : SwitchCause) (img : List Byte) :
    (s.withTssImage c img).segs.ss = s.segs.ss.withNull (wordAt img 80) := rfl

@[simp] theorem State.withTssImage_segs_ds (s : State) (c : SwitchCause) (img : List Byte) :
    (s.withTssImage c img).segs.ds = s.segs.ds.withNull (wordAt img 84) := rfl

@[simp] theorem State.withTssImage_segs_fs (s : State) (c : SwitchCause) (img : List Byte) :
    (s.withTssImage c img).segs.fs = s.segs.fs.withNull (wordAt img 88) := rfl

@[simp] theorem State.withTssImage_segs_gs (s : State) (c : SwitchCause) (img : List Byte) :
    (s.withTssImage c img).segs.gs = s.segs.gs.withNull (wordAt img 92) := rfl

@[simp] theorem State.nullInaccessible_ds (s : State) (new : Level) :
    (s.nullInaccessible new).segs.ds = s.segs.ds.nullIfInaccessible new := rfl

@[simp] theorem State.nullInaccessible_es (s : State) (new : Level) :
    (s.nullInaccessible new).segs.es = s.segs.es.nullIfInaccessible new := rfl

@[simp] theorem State.nullInaccessible_fs (s : State) (new : Level) :
    (s.nullInaccessible new).segs.fs = s.segs.fs.nullIfInaccessible new := rfl

@[simp] theorem State.nullInaccessible_gs (s : State) (new : Level) :
    (s.nullInaccessible new).segs.gs = s.segs.gs.nullIfInaccessible new := rfl

@[simp] theorem State.nullInaccessible_cs (s : State) (new : Level) :
    (s.nullInaccessible new).segs.cs = s.segs.cs := rfl

@[simp] theorem State.nullInaccessible_ss (s : State) (new : Level) :
    (s.nullInaccessible new).segs.ss = s.segs.ss := rfl

/-! ## Numbered registers -/

@[simp] theorem Regs.get_set_same (x : Regs) (r : Reg) (v : Dword) : (x.set r v).get r = v := by
  cases r <;> rfl

@[simp] theorem Regs.get_set_other (x : Regs) {r q : Reg} (v : Dword) (h : q ≠ r) :
    (x.set r v).get q = x.get q := by
  cases r <;> cases q <;> first | rfl | exact absurd rfl h

/-- A 16-bit write keeps the upper half (R21). -/
theorem Regs.set16_upper (x : Regs) (r : Reg) (v : Word) :
    ((x.set16 r v).get r).extractLsb' 16 16 = (x.get r).extractLsb' 16 16 := by
  simp only [Regs.set16, Regs.get_set_same]
  exact BitVec.extractLsb'_append_eq_left

@[simp] theorem Regs.get16_set16_same (x : Regs) (r : Reg) (v : Word) : (x.set16 r v).get16 r = v := by
  simp only [Regs.set16, Regs.get16, Regs.get_set_same]
  exact BitVec.extractLsb'_append_eq_right

@[simp] theorem Regs.get_set16_other (x : Regs) {r q : Reg} (v : Word) (h : q ≠ r) :
    (x.set16 r v).get q = x.get q := by
  simp [Regs.set16, h]

@[simp] theorem SegFile.get_set_same (f : SegFile) (n : SegName) (g : SegReg) : (f.set n g).get n = g := by
  cases n <;> rfl

@[simp] theorem SegFile.get_set_other (f : SegFile) {n m : SegName} (g : SegReg) (h : m ≠ n) :
    (f.set n g).get m = f.get m := by
  cases n <;> cases m <;> first | rfl | exact absurd rfl h

@[simp] theorem SegReg.withNull_sel (g : SegReg) (sel : Word) : (g.withNull sel).sel = sel := rfl

@[simp] theorem SegReg.withNull_valid (g : SegReg) (sel : Word) : (g.withNull sel).valid = false := rfl

@[simp] theorem cacheOf_sel (sel : Word) (d : Desc) : (cacheOf sel d).sel = sel := rfl

@[simp] theorem cacheOf_valid (sel : Word) (d : Desc) : (cacheOf sel d).valid = true := rfl

@[simp] theorem cacheOf_base (sel : Word) (d : Desc) : (cacheOf sel d).base = d.base := rfl

@[simp] theorem cacheOf_limit (sel : Word) (d : Desc) : (cacheOf sel d).limit = d.effLimit := rfl

@[simp] theorem cacheOf_s (sel : Word) (d : Desc) : (cacheOf sel d).s = true := rfl

@[simp] theorem cacheOf_typ (sel : Word) (d : Desc) : (cacheOf sel d).typ = d.typ ||| 1 := rfl

@[simp] theorem cacheOf_db (sel : Word) (d : Desc) : (cacheOf sel d).db = d.big := rfl

@[simp] theorem cacheOf_dpl (sel : Word) (d : Desc) : (cacheOf sel d).dpl = d.dpl := rfl

/-! ## The access byte and the type (R72, R73) -/

/-- The cached type of a code segment is executable, and conforming and readable as its descriptor is. -/
theorem cacheOf_code (sel : Word) (d : Desc) (h : d.isSeg = true) :
    (cacheOf sel d).code = d.isCode ∧ (cacheOf sel d).conformingCode = d.conforming ∧
      (cacheOf sel d).canRead = d.readable ∧ (cacheOf sel d).canWrite = d.writable := by
  simp [SegReg.code, SegReg.conformingCode, SegReg.canRead, SegReg.canWrite, Desc.isCode, Desc.conforming,
    Desc.readable, Desc.writable, Desc.isData, h, Desc.typ, cacheOf]
  grind

/-! ## State.endRun -/

theorem State.endRun_of_empty {s : State} (h : s.storedAhead = []) (f : Fault) :
    s.endRun f = .fault f := by
  simp [State.endRun, h]

theorem State.endRun_refused {s : State} (h : s.storedAhead ≠ []) (f : Fault) :
    s.endRun f = .refused .staleCode := by
  simp [State.endRun, h]

/-- The end of a run is no next state. -/
theorem State.endRun_ne_next (s : State) (f : Fault) (t : State) : ¬s.endRun f = .next t := by
  unfold State.endRun
  split <;> simp

end Sys2Proof.Machine
end

