-- ==== Sys2Proof/Laws/Memory.lean ====
section
/-! SUPPORT. Physical memory: a read after a write, and the canonical form, which every operation keeps. -/

namespace Sys2Proof.Machine

open Sys2Proof

/-- Every address of the list is above `a`. -/
def Memory.above (m : Memory) (a : Nat) : Prop := ∀ c ∈ m, a < c.1

theorem Memory.wf_cons {c : Host.Cell} {m : Memory} :
    Memory.wf (c :: m) = true ↔ c.2 ≠ unlistedByte ∧ Memory.above m c.1 ∧ Memory.wf m = true := by
  simp [Memory.wf, Memory.above, and_assoc]

theorem Memory.read_of_above {m : Memory} {a : Nat} (h : Memory.above m a) : m.read a = unlistedByte := by
  induction m with
  | nil => rfl
  | cons c m ih =>
    have hc : a < c.1 := h c (by simp)
    have hm : Memory.above m a := fun d hd => h d (by simp [hd])
    simp [Memory.read, Nat.ne_of_gt hc, ih hm]

theorem Memory.above_mono {m : Memory} {a b : Nat} (h : Memory.above m b) (hab : a ≤ b) :
    Memory.above m a := fun c hc => Nat.lt_of_le_of_lt hab (h c hc)

theorem Memory.above_erase {m : Memory} {a b : Nat} (h : Memory.above m b) :
    Memory.above (m.erase a) b := by
  induction m with
  | nil => exact h
  | cons c m ih =>
    have hm : Memory.above m b := fun d hd => h d (by simp [hd])
    unfold Memory.erase
    split
    · exact hm
    · intro d hd
      rcases List.mem_cons.1 hd with rfl | hd
      · exact h d (by simp)
      · exact ih hm d hd

theorem Memory.above_insert {m : Memory} {a b : Nat} {v : Byte} (h : Memory.above m b) (hb : b < a) :
    Memory.above (m.insert a v) b := by
  induction m with
  | nil => intro d hd; simp [Memory.insert] at hd; simp [hd, hb]
  | cons c m ih =>
    have hm : Memory.above m b := fun d hd => h d (by simp [hd])
    unfold Memory.insert
    split
    · intro d hd
      rcases List.mem_cons.1 hd with rfl | hd
      · exact hb
      · exact h d hd
    · split
      · intro d hd
        rcases List.mem_cons.1 hd with rfl | hd
        · exact hb
        · exact hm d hd
      · intro d hd
        rcases List.mem_cons.1 hd with rfl | hd
        · exact h d (by simp)
        · exact ih hm d hd

theorem Memory.wf_erase {m : Memory} (a : Nat) (h : m.wf = true) : (m.erase a).wf = true := by
  induction m with
  | nil => exact h
  | cons c m ih =>
    obtain ⟨hc, hab, hm⟩ := Memory.wf_cons.1 h
    unfold Memory.erase
    split
    · exact hm
    · exact Memory.wf_cons.2 ⟨hc, Memory.above_erase hab, ih hm⟩

theorem Memory.wf_insert {m : Memory} (a : Nat) {v : Byte} (h : m.wf = true) (hv : v ≠ unlistedByte) :
    (m.insert a v).wf = true := by
  induction m with
  | nil => exact Memory.wf_cons.2 ⟨hv, by simp [Memory.above], rfl⟩
  | cons c m ih =>
    obtain ⟨hc, hab, hm⟩ := Memory.wf_cons.1 h
    unfold Memory.insert
    split
    · rename_i hlt
      refine Memory.wf_cons.2 ⟨hv, ?_, h⟩
      intro d hd
      rcases List.mem_cons.1 hd with rfl | hd
      · exact hlt
      · exact Nat.lt_trans hlt (hab d hd)
    · split
      · rename_i heq
        exact Memory.wf_cons.2 ⟨hv, heq ▸ hab, hm⟩
      · refine Memory.wf_cons.2 ⟨hc, Memory.above_insert hab ?_, ih hm⟩
        omega

/-- A write keeps the canonical form. -/
theorem Memory.wf_write {m : Memory} (a : Nat) (v : Byte) (h : m.wf = true) : (m.write a v).wf = true := by
  unfold Memory.write
  split
  · exact Memory.wf_erase a h
  · exact Memory.wf_insert a h ‹_›

theorem Memory.read_erase_other {m : Memory} {a b : Nat} (h : b ≠ a) : (m.erase a).read b = m.read b := by
  induction m with
  | nil => rfl
  | cons c m ih =>
    by_cases hc : c.1 = a
    · simp [Memory.erase, Memory.read, hc, Ne.symm h]
    · simp [Memory.erase, Memory.read, hc, ih]

theorem Memory.read_erase_same {m : Memory} {a : Nat} (h : m.wf = true) :
    (m.erase a).read a = unlistedByte := by
  induction m with
  | nil => rfl
  | cons c m ih =>
    obtain ⟨-, hab, hm⟩ := Memory.wf_cons.1 h
    by_cases hc : c.1 = a
    · simp [Memory.erase, hc, Memory.read_of_above (hc ▸ hab)]
    · simp [Memory.erase, Memory.read, hc, ih hm]

theorem Memory.read_insert_same {m : Memory} {a : Nat} {v : Byte} : (m.insert a v).read a = v := by
  induction m with
  | nil => simp [Memory.insert, Memory.read]
  | cons c m ih =>
    unfold Memory.insert
    split
    · simp [Memory.read]
    · split
      · simp [Memory.read]
      · simp [Memory.read, *]

theorem Memory.read_insert_other {m : Memory} {a b : Nat} {v : Byte} (h : b ≠ a) :
    (m.insert a v).read b = m.read b := by
  induction m with
  | nil => simp [Memory.insert, Memory.read, Ne.symm h]
  | cons c m ih =>
    unfold Memory.insert
    split
    · simp [Memory.read, Ne.symm h]
    · split
      · simp [Memory.read, Ne.symm h, *]
      · simp [Memory.read, ih]

/-- A read after a write to the same address gives the byte written. -/
theorem Memory.read_write_same {m : Memory} (a : Nat) (v : Byte) (h : m.wf = true) :
    (m.write a v).read a = v := by
  unfold Memory.write
  split
  · rename_i hv; rw [Memory.read_erase_same h, hv]
  · exact Memory.read_insert_same

/-- A write leaves every other address alone. -/
theorem Memory.read_write_other (m : Memory) {a b : Nat} (v : Byte) (h : b ≠ a) :
    (m.write a v).read b = m.read b := by
  unfold Memory.write
  split
  · exact Memory.read_erase_other h
  · exact Memory.read_insert_other h

/-- What a read after a write gives, at any address. -/
theorem Memory.read_write {m : Memory} (a b : Nat) (v : Byte) (h : m.wf = true) :
    (m.write a v).read b = if b = a then v else m.read b := by
  split
  · rename_i hb; rw [hb, Memory.read_write_same a v h]
  · exact Memory.read_write_other m v ‹_›

theorem Memory.read_empty (a : Nat) : Memory.read [] a = unlistedByte := rfl

/-! ## Runs of bytes -/

@[simp] theorem wordBytes_length (w : Word) : (wordBytes w).length = 2 := rfl

@[simp] theorem dwordBytes_length (d : Dword) : (dwordBytes d).length = 4 := rfl

@[simp] theorem flatMap_dwordBytes_length (vs : List Dword) :
    (vs.flatMap dwordBytes).length = 4 * vs.length := by
  induction vs with
  | nil => rfl
  | cons v vs ih => simp [List.flatMap_cons, ih]; omega

/-- Storing bytes keeps the canonical form. -/
theorem Memory.wf_writeAll {m : Memory} (cells : List Host.Cell) (h : m.wf = true) :
    (m.writeAll cells).wf = true := by
  induction cells generalizing m with
  | nil => exact h
  | cons c cells ih => exact ih (Memory.wf_write c.1 c.2 h)

/-- Storing bytes changes no byte at an address it does not store to. -/
theorem Memory.read_writeAll_other {m : Memory} (cells : List Host.Cell) {a : Nat}
    (h : a ∉ cells.map (·.1)) : (m.writeAll cells).read a = m.read a := by
  induction cells generalizing m with
  | nil => rfl
  | cons c cells ih =>
    simp only [List.map_cons, List.mem_cons, not_or] at h
    show ((m.write c.1 c.2).writeAll cells).read a = _
    rw [ih h.2, Memory.read_write_other _ _ h.1]

/-- Storing bytes at distinct addresses leaves each byte at its address. -/
theorem Memory.read_writeAll_same {m : Memory} (cells : List Host.Cell) (hwf : m.wf = true)
    (hd : (cells.map (·.1)).Nodup) {c : Host.Cell} (hc : c ∈ cells) :
    (m.writeAll cells).read c.1 = c.2 := by
  induction cells generalizing m with
  | nil => cases hc
  | cons e cells ih =>
    simp only [List.map_cons, List.nodup_cons] at hd
    show ((m.write e.1 e.2).writeAll cells).read c.1 = _
    rcases List.mem_cons.1 hc with rfl | hc
    · rw [Memory.read_writeAll_other cells hd.1, Memory.read_write_same _ _ hwf]
    · exact ih (Memory.wf_write e.1 e.2 hwf) hd.2 hc

@[simp] theorem State.ahead_nil (s : State) : s.ahead [] = [] := by
  simp [State.ahead]

/-- What a store notes: the bytes of the coming instruction stream that it changes (R112). -/
theorem State.mem_ahead {s : State} {cells : List Host.Cell} {lin : Dword} :
    lin ∈ s.ahead cells ↔
      (∃ k < 16, lin = s.nextCode + BitVec.ofNat 32 k) ∧ ∃ c ∈ cells, c.1 ∈ s.addrsOf lin := by
  simp only [State.ahead, List.mem_filter, List.mem_map, List.mem_range, List.any_eq_true,
    List.contains_iff_mem, eq_comm (a := lin)]

@[simp] theorem State.store_nil (s : State) : s.store [] = s := by
  simp [State.store, Memory.writeAll]

/-- Storing bytes keeps the canonical form. -/
theorem State.storeBytes_wf (s : State) (ps : List Nat) (bs : List Byte) (h : s.mem.wf = true) :
    (s.storeBytes ps bs).mem.wf = true := Memory.wf_writeAll _ h

/-- The addresses of a run of bytes are those it is put at. -/
theorem map_fst_zip_bytes {ps : List Nat} {bs : List Byte} (h : ps.length = bs.length) :
    (ps.zip bs).map (·.1) = ps := List.map_fst_zip (Nat.le_of_eq h)

/-- Storing bytes changes no byte at an address it does not store to. -/
theorem State.storeBytes_read_other (s : State) (ps : List Nat) (bs : List Byte) {a : Nat} (h : a ∉ ps) :
    (s.storeBytes ps bs).mem.read a = s.mem.read a := by
  refine Memory.read_writeAll_other _ fun hm => h ?_
  obtain ⟨c, hc, rfl⟩ := List.mem_map.1 hm
  exact (List.of_mem_zip (by simpa using hc)).1

/-! ## Byte order (R108) -/

@[simp] theorem wordAt_wordBytes (w : Word) : wordAt (wordBytes w) 0 = w := by
  simp only [wordAt, wordBytes, wordOf, List.getD_cons_zero, List.getD_cons_succ]
  apply BitVec.eq_of_getLsbD_eq
  intro i hi
  simp only [BitVec.getLsbD_append, BitVec.getLsbD_extractLsb']
  grind

@[simp] theorem dwordAt_dwordBytes (d : Dword) : dwordAt (dwordBytes d) 0 = d := by
  simp only [dwordAt, dwordBytes, dwordOf, List.getD_cons_zero, List.getD_cons_succ]
  apply BitVec.eq_of_getLsbD_eq
  intro i hi
  simp only [BitVec.getLsbD_append, BitVec.getLsbD_extractLsb']
  grind

end Sys2Proof.Machine
end

