-- ==== Sys2Proof/Laws/Access.lean ====
section
/-! SUPPORT. What the operations that only reach memory can do to the state: read bytes, store bytes, note the
translations used and the draws taken, and put a faulting address in CR2. `Accessed s t` says exactly that. -/

namespace Sys2Proof.Machine

open Sys2Proof

variable {R : State → State → Prop} {α β : Type}

/-- The relation allows the changes that an access to memory makes. -/
structure AllowsAccess (R : State → State → Prop) : Prop extends Composes R where
  noteLookup : ∀ s lin es, R s (s.noteLookup lin es)
  noteRead : ∀ s ps, R s (s.noteRead ps)
  store : ∀ s cells, R s (s.store cells)
  fault : ∀ (s : State) (lin : Dword), R s { s with ctl := { s.ctl with cr2 := lin } }

/-! ## Every operation that only reaches memory -/

theorem keeps_raisePF (h : AllowsAccess R) (lin : Dword) (p : Bool) (acc : Access) (user : Bool) :
    Keeps R (raisePF lin p acc user : Exec α) := ⟨fun s => h.fault s lin⟩

theorem keeps_pageCheck (h : AllowsAccess R) (acc : Access) (user : Bool) (lin : Dword) :
    Keeps R (pageCheck acc user lin) := by
  refine keeps_getState_bind _ fun s => ?_
  split
  · exact h.refl s
  · refine (keeps_bind h.toComposes (keeps_update fun s => h.noteLookup s _ _) fun _ => ?_).post s
    split
    · exact keeps_refuse h.toComposes _
    · exact keeps_raisePF h ..
    · exact keeps_ite (keeps_raisePF h ..) (keeps_ite (keeps_raisePF h ..) (keeps_pure h.toComposes _))

theorem keeps_pageCheckRange (h : AllowsAccess R) (acc : Access) (user : Bool) (lin : Dword) (n : Nat) :
    Keeps R (pageCheckRange acc user lin n) := by
  induction n generalizing lin with
  | zero => exact keeps_pure h.toComposes _
  | succ n ih =>
    refine keeps_bind h.toComposes (keeps_pageCheck h ..) fun p => ?_
    exact keeps_bind h.toComposes (ih _) fun ps => keeps_pure h.toComposes _

theorem keeps_requireMemory (h : Composes R) (ps : List Nat) : Keeps R (requireMemory ps) := by
  refine keeps_getState_bind _ fun s => ?_
  split
  all_goals exact h.refl s

theorem keeps_translateRange (h : AllowsAccess R) (acc : Access) (user : Bool) (lin : Dword) (n : Nat) :
    Keeps R (translateRange acc user lin n) :=
  keeps_bind h.toComposes (keeps_pageCheckRange h ..) fun _ =>
    keeps_bind h.toComposes (keeps_requireMemory h.toComposes _) fun _ => keeps_pure h.toComposes _

theorem keeps_readPhys (h : AllowsAccess R) (ps : List Nat) : Keeps R (readPhys ps) := by
  refine keeps_getState_bind _ fun s => ?_
  exact (keeps_bind h.toComposes (keeps_update fun s => h.noteRead s ps) fun _ =>
    keeps_pure h.toComposes _).post s

theorem keeps_readBytes (h : AllowsAccess R) (user : Bool) (lin : Dword) (n : Nat) :
    Keeps R (readBytes user lin n) :=
  keeps_bind h.toComposes (keeps_translateRange h ..) fun _ => keeps_readPhys h _

theorem keeps_prepareWrite (h : AllowsAccess R) (user : Bool) (lin : Dword) (bs : List Byte) :
    Keeps R (prepareWrite user lin bs) :=
  keeps_bind h.toComposes (keeps_translateRange h ..) fun _ => keeps_pure h.toComposes _

theorem keeps_writeBytes (h : AllowsAccess R) (user : Bool) (lin : Dword) (bs : List Byte) :
    Keeps R (writeBytes user lin bs) :=
  keeps_bind h.toComposes (keeps_prepareWrite h ..) fun _ => keeps_update fun s => h.store s _

theorem keeps_memRead (h : AllowsAccess R) (lin : Dword) (n : Nat) : Keeps R (memRead lin n) :=
  keeps_getState_bind _ fun s => (keeps_readBytes h s.userLevel lin n).post s

theorem keeps_memWrite (h : AllowsAccess R) (lin : Dword) (bs : List Byte) : Keeps R (memWrite lin bs) :=
  keeps_getState_bind _ fun s => (keeps_writeBytes h s.userLevel lin bs).post s

theorem keeps_sysRead (h : AllowsAccess R) (lin : Dword) (n : Nat) : Keeps R (sysRead lin n) :=
  keeps_readBytes h false lin n

theorem keeps_sysWrite (h : AllowsAccess R) (lin : Dword) (bs : List Byte) : Keeps R (sysWrite lin bs) :=
  keeps_writeBytes h false lin bs

theorem keeps_checkBytes (h : AllowsAccess R) (acc : Access) (user : Bool) (lin : Dword) (n : Nat) :
    Keeps R (checkBytes acc user lin n) :=
  keeps_bind h.toComposes (keeps_pageCheckRange h ..) fun _ => keeps_pure h.toComposes _

theorem keeps_segCheck (h : Composes R) (name : SegName) (off : Dword) (n : Nat) (wr : Bool) :
    Keeps R (segCheck name off n wr) := by
  refine keeps_getState_bind _ fun s => ?_
  dsimp only
  repeat' split
  all_goals exact h.refl s

theorem keeps_segRead (h : AllowsAccess R) (name : SegName) (off : Dword) (n : Nat) :
    Keeps R (segRead name off n) :=
  keeps_bind h.toComposes (keeps_segCheck h.toComposes ..) fun a => keeps_memRead h a n

theorem keeps_segWrite (h : AllowsAccess R) (name : SegName) (off : Dword) (bs : List Byte) :
    Keeps R (segWrite name off bs) :=
  keeps_bind h.toComposes (keeps_segCheck h.toComposes ..) fun a => keeps_memWrite h a bs

theorem keeps_segReadWord (h : AllowsAccess R) (name : SegName) (off : Dword) :
    Keeps R (segReadWord name off) :=
  keeps_bind h.toComposes (keeps_segRead h ..) fun _ => keeps_pure h.toComposes _

theorem keeps_segReadDword (h : AllowsAccess R) (name : SegName) (off : Dword) :
    Keeps R (segReadDword name off) :=
  keeps_bind h.toComposes (keeps_segRead h ..) fun _ => keeps_pure h.toComposes _

theorem keeps_readDesc (h : AllowsAccess R) (sel : Word) : Keeps R (readDesc sel) := by
  refine keeps_getState_bind _ fun s => ?_
  split
  · exact (keeps_bind h.toComposes (keeps_sysRead h ..) fun _ => keeps_pure h.toComposes _).post s
  · exact h.refl s

theorem keeps_readDescOr (h : AllowsAccess R) (sel : Word) (e : Exception) :
    Keeps R (readDescOr sel e) := by
  refine keeps_bind h.toComposes (keeps_readDesc h sel) fun d => ?_
  split
  · exact keeps_pure h.toComposes _
  · exact keeps_raise h.toComposes _

theorem keeps_prepareAccessed (h : AllowsAccess R) (sel : Word) (d : Desc) :
    Keeps R (prepareAccessed sel d) := by
  refine keeps_getState_bind _ fun s => ?_
  split
  · exact h.refl s
  · exact (keeps_prepareWrite h ..).post s

theorem keeps_setAccessed (h : AllowsAccess R) (sel : Word) (d : Desc) : Keeps R (setAccessed sel d) :=
  keeps_bind h.toComposes (keeps_prepareAccessed h ..) fun _ => keeps_update fun s => h.store s _

theorem keeps_preparePush (h : AllowsAccess R) (vs : List Dword) : Keeps R (preparePush vs) := by
  refine keeps_getState_bind _ fun s => ?_
  exact (keeps_bind h.toComposes (keeps_segCheck h.toComposes ..) fun _ => keeps_prepareWrite h ..).post s

theorem keeps_require32 (h : Composes R) (d : Desc) : Keeps R (require32 d) :=
  keeps_ite (keeps_pure h _) (keeps_refuse h _)

theorem keeps_nearTarget (h : Composes R) (target : Dword) : Keeps R (nearTarget target) := by
  refine keeps_getState_bind _ fun s => ?_
  split
  all_goals exact h.refl s

theorem keeps_privileged (h : Composes R) : Keeps R privileged := by
  refine keeps_getState_bind _ fun s => ?_
  split
  all_goals exact h.refl s

theorem keeps_readRM16 (h : AllowsAccess R) (x : RM) : Keeps R (readRM16 x) := by
  cases x with
  | reg r => exact keeps_getState_bind _ fun s => h.refl s
  | mem m => exact keeps_getState_bind _ fun s => (keeps_segReadWord h _ _).post s

theorem keeps_readRM32 (h : AllowsAccess R) (x : RM) : Keeps R (readRM32 x) := by
  cases x with
  | reg r => exact keeps_getState_bind _ fun s => h.refl s
  | mem m => exact keeps_getState_bind _ fun s => (keeps_segReadDword h _ _).post s

theorem keeps_checkWritableRM16 (h : AllowsAccess R) (x : RM) : Keeps R (checkWritableRM16 x) := by
  cases x with
  | reg r => exact keeps_pure h.toComposes _
  | mem m =>
    refine keeps_getState_bind _ fun s => ?_
    exact (keeps_bind h.toComposes (keeps_segCheck h.toComposes ..) fun a => keeps_checkBytes h ..).post s

theorem keeps_readFarPointer (h : AllowsAccess R) (x : RM) : Keeps R (readFarPointer x) := by
  cases x with
  | reg r => exact keeps_raise h.toComposes _
  | mem m =>
    refine keeps_getState_bind _ fun s => ?_
    exact (keeps_bind h.toComposes (keeps_segRead h ..) fun bs => keeps_pure h.toComposes _).post s

theorem keeps_readTableOperand (h : AllowsAccess R) (x : RM) : Keeps R (readTableOperand x) := by
  cases x with
  | reg r => exact keeps_raise h.toComposes _
  | mem m =>
    refine keeps_getState_bind _ fun s => ?_
    exact (keeps_bind h.toComposes (keeps_segReadWord h ..)
      fun _ => keeps_bind h.toComposes (keeps_segReadDword h ..) fun _ => keeps_pure h.toComposes _).post s

theorem keeps_accessByteAddrs (h : AllowsAccess R) (sel : Word) : Keeps R (accessByteAddrs sel) := by
  refine keeps_getState_bind _ fun s => ?_
  refine (keeps_bind h.toComposes (keeps_pageCheck h ..) fun _ => ?_).post s
  exact keeps_bind h.toComposes (keeps_pageCheck h ..) fun _ => keeps_pure h.toComposes _

theorem keeps_accessByteAddrsIf (h : AllowsAccess R) (c : Bool) (sel : Word) :
    Keeps R (accessByteAddrsIf c sel) :=
  keeps_ite (keeps_bind h.toComposes (keeps_accessByteAddrs h sel) fun _ => keeps_pure h.toComposes _)
    (keeps_pure h.toComposes _)

theorem keeps_changeAccessByte (h : AllowsAccess R) (f : Byte → Byte) (at_ : Nat × Nat) :
    Keeps R (changeAccessByte f at_) :=
  keeps_bind h.toComposes (keeps_readPhys h _) fun _ => keeps_update fun s => h.store s _

theorem keeps_changeAccessByteIf (h : AllowsAccess R) (f : Byte → Byte) (at_ : Option (Nat × Nat)) :
    Keeps R (changeAccessByteIf f at_) := by
  cases at_ with
  | none => exact keeps_pure h.toComposes _
  | some a => exact keeps_changeAccessByte h f a

theorem keeps_setBusy (h : AllowsAccess R) (sel : Word) : Keeps R (setBusy sel) :=
  keeps_bind h.toComposes (keeps_accessByteAddrs h sel) fun _ =>
    keeps_bind h.toComposes (keeps_requireMemory h.toComposes _) fun _ => keeps_changeAccessByte h ..

theorem keeps_incomingTss (h : AllowsAccess R) (c : SwitchCause) (tsel : Word) :
    Keeps R (incomingTss c tsel) := by
  refine keeps_getState_bind _ fun s => ?_
  split
  · exact h.refl s
  · split
    · exact h.refl s
    · refine (keeps_bind h.toComposes (keeps_sysRead h ..) fun bs => ?_).post s
      exact keeps_ite (keeps_raise h.toComposes _) <| keeps_ite (keeps_refuse h.toComposes _) <|
        keeps_ite (keeps_raise h.toComposes _) <| keeps_ite (keeps_raise h.toComposes _) <|
        keeps_ite (keeps_raise h.toComposes _) <| keeps_ite (keeps_raise h.toComposes _)
          (keeps_pure h.toComposes _)

theorem keeps_prepareSwitch (h : AllowsAccess R) (c : SwitchCause) (tsel : Word) (d : Desc) :
    Keeps R (prepareSwitch c tsel d) := by
  refine keeps_getState_bind _ fun s => ?_
  refine (keeps_bind h.toComposes (keeps_pageCheckRange h ..) fun _ => ?_).post s
  refine keeps_bind h.toComposes (keeps_pageCheckRange h ..) fun _ => ?_
  refine keeps_bind h.toComposes (keeps_pageCheckRange h ..) fun _ => ?_
  refine keeps_bind h.toComposes (keeps_accessByteAddrsIf h ..) fun _ => ?_
  refine keeps_bind h.toComposes (keeps_accessByteAddrsIf h ..) fun _ => ?_
  exact keeps_bind h.toComposes (keeps_requireMemory h.toComposes _) fun _ => keeps_pure h.toComposes _

theorem keeps_saveOutgoing (h : AllowsAccess R) (c : SwitchCause) (ret : Dword) (ps : List Nat) :
    Keeps R (saveOutgoing c ret ps) := keeps_update fun s => h.store s _

theorem keeps_innerStack (h : AllowsAccess R) (new : Level) : Keeps R (innerStack new) := by
  refine keeps_getState_bind _ fun s => ?_
  split
  · exact h.refl s
  · refine (keeps_bind h.toComposes (keeps_sysRead h ..) fun _ => ?_).post s
    refine keeps_bind h.toComposes (keeps_sysRead h ..) fun _ => ?_
    refine keeps_ite (keeps_raise h.toComposes _) ?_
    refine keeps_bind h.toComposes (keeps_readDescOr h ..) fun d => ?_
    exact keeps_ite (keeps_raise h.toComposes _) <| keeps_ite (keeps_raise h.toComposes _) <|
      keeps_ite (keeps_raise h.toComposes _) <| keeps_ite (keeps_raise h.toComposes _) <|
      keeps_ite (keeps_refuse h.toComposes _) (keeps_pure h.toComposes _)

theorem keeps_gateTarget (h : AllowsAccess R) (tsel : Word) : Keeps R (gateTarget tsel) := by
  refine keeps_ite (keeps_raise h.toComposes _) ?_
  refine keeps_bind h.toComposes (keeps_readDescOr h ..) fun t => ?_
  exact keeps_ite (keeps_raise h.toComposes _) (keeps_pure h.toComposes _)

theorem keeps_readParams (h : AllowsAccess R) (i n : Nat) : Keeps R (readParams i n) := by
  induction n generalizing i with
  | zero => exact keeps_pure h.toComposes _
  | succ n ih =>
    refine keeps_getState_bind _ fun s => ?_
    refine (keeps_bind h.toComposes (keeps_segReadDword h ..) fun _ => ?_).post s
    exact keeps_bind h.toComposes (ih _) fun _ => keeps_pure h.toComposes _

theorem keeps_callFrame (h : AllowsAccess R) (count : Nat) : Keeps R (callFrame count) :=
  keeps_bind h.toComposes (keeps_readParams h ..) fun _ => keeps_getState_bind _ fun s => h.refl s

theorem keeps_returnCS (h : AllowsAccess R) (rcs : Word) : Keeps R (returnCS rcs) := by
  refine keeps_getState_bind _ fun s => ?_
  split
  · exact h.refl s
  · split
    · exact h.refl s
    · refine (keeps_bind h.toComposes (keeps_readDescOr h ..) fun d => ?_).post s
      exact keeps_ite (keeps_raise h.toComposes _) <| keeps_ite (keeps_raise h.toComposes _) <|
        keeps_ite (keeps_raise h.toComposes _) <| keeps_ite (keeps_raise h.toComposes _)
          (keeps_pure h.toComposes _)

theorem keeps_returnSS (h : AllowsAccess R) (rss : Word) (new : Level) : Keeps R (returnSS rss new) := by
  refine keeps_ite (keeps_raise h.toComposes _) ?_
  refine keeps_bind h.toComposes (keeps_readDescOr h ..) fun d => ?_
  exact keeps_ite (keeps_raise h.toComposes _) <| keeps_ite (keeps_raise h.toComposes _) <|
    keeps_ite (keeps_raise h.toComposes _) <| keeps_ite (keeps_raise h.toComposes _) <|
    keeps_ite (keeps_refuse h.toComposes _) (keeps_pure h.toComposes _)

theorem keeps_idtGate (h : AllowsAccess R) (n : Nat) (sw : Bool) : Keeps R (idtGate n sw) := by
  refine keeps_getState_bind _ fun s => ?_
  split
  · exact h.refl s
  · refine (keeps_bind h.toComposes (keeps_sysRead h ..) fun bs => ?_).post s
    exact keeps_ite (keeps_raise h.toComposes _) <| keeps_ite (keeps_refuse h.toComposes _) <|
      keeps_ite (keeps_raise h.toComposes _) <| keeps_ite (keeps_raise h.toComposes _) <|
      keeps_ite (keeps_refuse h.toComposes _) (keeps_pure h.toComposes _)

theorem keeps_lookupDesc_of (h : AllowsAccess R) (sel : Word) :
    Keeps R (if isNull sel then pure none else readDesc sel) :=
  keeps_ite (keeps_pure h.toComposes _) (keeps_readDesc h sel)

/-! ## The change itself -/

/-- `t` is `s` but for memory, what accesses and stores note, the draws taken and CR2; the draws only go up;
and if the memory of `s` is in canonical form, so is that of `t`. -/
structure Accessed (s t : State) : Prop where
  eq : t = { s with
    mem := t.mem
    tablesUsed := t.tablesUsed
    pastMemory := t.pastMemory
    walked := t.walked
    storedAhead := t.storedAhead
    draws := t.draws
    ctl := { s.ctl with cr2 := t.ctl.cr2 } }
  draws : s.draws ≤ t.draws
  wf : s.mem.wf = true → t.mem.wf = true

theorem State.draws_le_noteLookup (s : State) (lin : Dword) (es : List Nat) :
    s.draws ≤ (s.noteLookup lin es).draws := by
  rw [State.noteLookup_draws]; split <;> omega

theorem State.draws_le_noteRead (s : State) (ps : List Nat) : s.draws ≤ (s.noteRead ps).draws := by
  rw [State.noteRead_draws]; split <;> omega

theorem accessed_refl (s : State) : Accessed s s := ⟨rfl, Nat.le_refl _, id⟩

theorem accessed_trans {s t u : State} (h : Accessed s t) (k : Accessed t u) : Accessed s u := by
  refine ⟨?_, Nat.le_trans h.draws k.draws, fun hs => k.wf (h.wf hs)⟩
  have h1 := h.eq
  have h2 := k.eq
  rw [h1] at h2
  exact h2

theorem allowsAccess_accessed : AllowsAccess Accessed where
  refl := accessed_refl
  trans := fun _ _ _ h k => accessed_trans h k
  noteLookup := fun s lin es => ⟨rfl, State.draws_le_noteLookup s lin es, id⟩
  noteRead := fun s ps => ⟨rfl, State.draws_le_noteRead s ps, id⟩
  store := fun _ cells => ⟨rfl, Nat.le_refl _, fun h => Memory.wf_writeAll cells h⟩
  fault := fun _ _ => ⟨rfl, Nat.le_refl _, id⟩

section Fields

variable {s t : State} (h : Accessed s t)
include h

theorem Accessed.regs : t.regs = s.regs := by rw [h.eq]
theorem Accessed.eip : t.eip = s.eip := by rw [h.eq]
theorem Accessed.nextEip : t.nextEip = s.nextEip := by rw [h.eq]
theorem Accessed.eflags : t.eflags = s.eflags := by rw [h.eq]
theorem Accessed.segs : t.segs = s.segs := by rw [h.eq]
theorem Accessed.cpl : t.cpl = s.cpl := by rw [h.eq]
theorem Accessed.gdtr : t.gdtr = s.gdtr := by rw [h.eq]
theorem Accessed.idtr : t.idtr = s.idtr := by rw [h.eq]
theorem Accessed.ldtr : t.ldtr = s.ldtr := by rw [h.eq]
theorem Accessed.tr : t.tr = s.tr := by rw [h.eq]
theorem Accessed.ctl : t.ctl = { s.ctl with cr2 := t.ctl.cr2 } := by rw [h.eq]
theorem Accessed.cr0 : t.ctl.cr0 = s.ctl.cr0 := by rw [h.eq]
theorem Accessed.cr3 : t.ctl.cr3 = s.ctl.cr3 := by rw [h.eq]
theorem Accessed.activity : t.activity = s.activity := by rw [h.eq]
theorem Accessed.debugTrap : t.debugTrap = s.debugTrap := by rw [h.eq]
theorem Accessed.deliverExceptions : t.deliverExceptions = s.deliverExceptions := by rw [h.eq]
theorem Accessed.memMap : t.memMap = s.memMap := by rw [h.eq]

end Fields

end Sys2Proof.Machine
end

