-- ==== Sys2Proof/Laws/Flags.lean ====
section
/-! SUPPORT. EFLAGS, CR0 and CR3 bit by bit: what every change of them leaves alone (R25, R33, R34). -/

namespace Sys2Proof.Machine

open Sys2Proof

theorem withBit_getLsbD (v : Dword) (n : Nat) (b : Bool) (i : Nat) (hn : n < 32) :
    (withBit v n b).getLsbD i = if i = n then b else v.getLsbD i := by
  unfold withBit
  by_cases hi : i < 32
  · cases b <;> by_cases h : i = n <;> simp [h, hi, hn]
  · have hne : i ≠ n := by omega
    have hz : v.getLsbD i = false := BitVec.getLsbD_of_ge v i (by omega)
    cases b <;> simp [hne, Ne.symm hne, hi, hz]

theorem withBit_same (v : Dword) (n : Nat) (b : Bool) (hn : n < 32) (h : v.getLsbD n = b) :
    withBit v n b = v := by
  apply BitVec.eq_of_getLsbD_eq
  intro i _
  rw [withBit_getLsbD _ _ _ _ hn]
  split <;> simp_all

theorem withBit_withBit (v : Dword) (n : Nat) (a b : Bool) (hn : n < 32) :
    withBit (withBit v n a) n b = withBit v n b := by
  apply BitVec.eq_of_getLsbD_eq
  intro i _
  simp only [withBit_getLsbD _ _ _ _ hn]
  split <;> rfl

/-- The bits of EFLAGS that hold a flag; every other one reads as R25 says. -/
def isFlagBit (i : Nat) : Bool :=
  [0, 2, 4, 6, 7, 8, 9, 10, 11, 12, 13, 14, 16, 17].contains i

theorem eflagsOf_getLsbD (v : Dword) (i : Nat) (hi : i < 32) :
    (eflagsOf v).getLsbD i = if isFlagBit i then v.getLsbD i else decide (i = 1) := by
  unfold eflagsOf
  have h := hi
  interval_cases i <;> simp [isFlagBit]

/-- A register image is what EFLAGS can hold when its other bits read as R25 says. -/
theorem eflagsOf_eq_iff (v : Dword) :
    eflagsOf v = v ↔ ∀ i, i < 32 → isFlagBit i = false → v.getLsbD i = decide (i = 1) := by
  constructor
  · intro h i hi hf
    rw [← h, eflagsOf_getLsbD v i hi, hf]
    rfl
  · intro h
    apply BitVec.eq_of_getLsbD_eq
    intro i hi
    rw [eflagsOf_getLsbD v i hi]
    split
    · rfl
    · exact (h i hi (by simpa using ‹¬isFlagBit i = true›)).symm

theorem eflagsOf_idem (v : Dword) : eflagsOf (eflagsOf v) = eflagsOf v := by
  rw [eflagsOf_eq_iff]
  intro i hi hf
  rw [eflagsOf_getLsbD v i hi, hf]
  rfl

/-- Setting a flag keeps the bits that hold none. -/
theorem eflagsOf_withBit {v : Dword} (n : Nat) (b : Bool) (hn : n < 32) (hf : isFlagBit n = true)
    (h : eflagsOf v = v) : eflagsOf (withBit v n b) = withBit v n b := by
  rw [eflagsOf_eq_iff] at *
  intro i hi hfi
  rw [withBit_getLsbD _ _ _ _ hn]
  split
  · subst_vars; simp_all
  · exact h i hi hfi

/-- EFLAGS as the spec allows it: R25's fixed bits, and VM = 0 (R391 P2). -/
def FlagsOK (v : Dword) : Prop := eflagsOf v = v ∧ v.getLsbD bitVM = false

theorem FlagsOK.withBit {v : Dword} (h : FlagsOK v) (n : Nat) (b : Bool) (hn : n < 32)
    (hf : isFlagBit n = true) (hv : n ≠ bitVM) : FlagsOK (withBit v n b) := by
  refine ⟨eflagsOf_withBit n b hn hf h.1, ?_⟩
  rw [withBit_getLsbD _ _ _ _ hn, if_neg (Ne.symm hv)]
  exact h.2

theorem FlagsOK.setZF {v : Dword} (h : FlagsOK v) (b : Bool) : FlagsOK (setZF v b) :=
  h.withBit _ b (by decide) (by decide) (by decide)

theorem FlagsOK.drawArithFlags {v : Dword} (h : FlagsOK v) (d : BitVec 6) :
    FlagsOK (drawArithFlags v d) := by
  unfold Machine.drawArithFlags
  repeat (refine FlagsOK.withBit ?_ _ _ (by decide) (by decide) (by decide))
  exact h

theorem FlagsOK.afterEntry {v : Dword} (h : FlagsOK v) (ig : Bool) : FlagsOK (flagsAfterEntry v ig) := by
  unfold flagsAfterEntry
  dsimp only
  split
  all_goals repeat (refine FlagsOK.withBit ?_ _ _ (by decide) (by decide) (by decide))
  all_goals exact h

theorem FlagsOK.afterIret {v : Dword} (h : FlagsOK v) (image : Dword) (cpl : Level) :
    FlagsOK (flagsAfterIret v image cpl) := by
  have ha : eflagsOf (eflagsOf image) = eflagsOf image := eflagsOf_idem image
  have hw : ∀ (w : Dword) (n : Nat) (b : Bool), n < 32 → isFlagBit n = true → eflagsOf w = w →
      eflagsOf (Machine.withBit w n b) = Machine.withBit w n b := fun w n b hn hf hw =>
    eflagsOf_withBit n b hn hf hw
  refine ⟨?_, ?_⟩
  · simp only [flagsAfterIret]
    refine hw _ _ _ (by decide) (by decide) ?_
    by_cases h1 : cpl = 0
    · by_cases h2 : cpl ≤ iopl v
      · rw [if_pos h2, if_pos h1]; exact ha
      · rw [if_neg h2, if_pos h1]; exact hw _ _ _ (by decide) (by decide) ha
    · have hb := hw _ 13 (v.getLsbD 13) (by decide) (by decide)
        (hw _ 12 (v.getLsbD 12) (by decide) (by decide) ha)
      by_cases h2 : cpl ≤ iopl v
      · rw [if_pos h2, if_neg h1]; exact hb
      · rw [if_neg h2, if_neg h1]; exact hw _ _ _ (by decide) (by decide) hb
  · simp only [flagsAfterIret]
    rw [withBit_getLsbD _ _ _ _ (by decide), if_pos rfl]
    exact h.2

theorem FlagsOK.incoming {image : Dword} (c : SwitchCause) (h : image.getLsbD bitVM = false) :
    FlagsOK (incomingFlags c image) := by
  have key : ∀ v : Dword, v.getLsbD bitVM = false → FlagsOK (eflagsOf v) := by
    intro v hv
    refine ⟨eflagsOf_idem v, ?_⟩
    rw [eflagsOf_getLsbD _ _ (by decide)]
    simpa [isFlagBit, bitVM] using hv
  unfold incomingFlags
  cases c
  all_goals first
    | exact key _ h
    | (refine key _ ?_; rw [withBit_getLsbD _ _ _ _ (by decide)]; simpa [bitVM, bitNT] using h)

/-! ## CR0 and CR3 -/

/-- The bits of CR0 that are not reserved (R33, R237). -/
def isCr0Bit (i : Nat) : Bool := [0, 1, 2, 3, 4, 31].contains i

theorem cr0Of_getLsbD (v : Dword) (i : Nat) (hi : i < 32) :
    (cr0Of v).getLsbD i = (isCr0Bit i && v.getLsbD i) := by
  unfold cr0Of
  have h := hi
  interval_cases i <;> simp [isCr0Bit]

/-- CR0 as the spec allows it: reserved bits 0 and PE = 1 (R237, R391 P1). -/
def Cr0OK (v : Dword) : Prop := cr0Of v = v ∧ v.getLsbD bitPE = true

theorem cr0Of_eq_iff (v : Dword) :
    cr0Of v = v ↔ ∀ i, i < 32 → isCr0Bit i = false → v.getLsbD i = false := by
  constructor
  · intro h i hi hf
    rw [← h, cr0Of_getLsbD v i hi, hf, Bool.false_and]
  · intro h
    apply BitVec.eq_of_getLsbD_eq
    intro i hi
    rw [cr0Of_getLsbD v i hi]
    by_cases hc : isCr0Bit i = true
    · rw [hc, Bool.true_and]
    · have hc' : isCr0Bit i = false := by simpa using hc
      rw [hc', h i hi hc', Bool.false_and]

theorem Cr0OK.withTS {v : Dword} (h : Cr0OK v) (b : Bool) : Cr0OK (withBit v bitTS b) := by
  refine ⟨?_, ?_⟩
  · rw [cr0Of_eq_iff]
    intro i hi hf
    rw [withBit_getLsbD _ _ _ _ (by decide)]
    split
    · subst_vars; simp [isCr0Bit, bitTS] at hf
    · exact (cr0Of_eq_iff v).1 h.1 i hi hf
  · rw [withBit_getLsbD _ _ _ _ (by decide)]
    simpa [bitTS, bitPE] using h.2

theorem Cr0OK.ofMov {v : Dword} (h : v.getLsbD bitPE = true) : Cr0OK (cr0Of v) := by
  refine ⟨?_, ?_⟩
  · rw [cr0Of_eq_iff]
    intro i hi hf
    rw [cr0Of_getLsbD v i hi, hf, Bool.false_and]
  · rw [cr0Of_getLsbD v _ (by decide)]
    simpa [isCr0Bit, bitPE] using h

/-- LMSW bit by bit: TS, EM and MP are copied, PE can only be set (R236). -/
theorem cr0AfterLmsw_getLsbD (c : Dword) (v : Word) (i : Nat) (hi : i < 32) :
    (cr0AfterLmsw c v).getLsbD i =
      if i = 0 then c.getLsbD 0 || v.getLsbD 0
      else if i < 4 then v.getLsbD i
      else c.getLsbD i := by
  unfold cr0AfterLmsw
  have h := hi
  interval_cases i <;> simp

theorem Cr0OK.afterLmsw {c : Dword} (h : Cr0OK c) (v : Word) : Cr0OK (cr0AfterLmsw c v) := by
  refine ⟨?_, ?_⟩
  · rw [cr0Of_eq_iff]
    intro i hi hf
    rw [cr0AfterLmsw_getLsbD _ _ _ hi]
    split
    · subst_vars; simp [isCr0Bit] at hf
    · split
      · exfalso; revert hf; interval_cases i <;> simp [isCr0Bit]
      · exact (cr0Of_eq_iff c).1 h.1 i hi hf
  · rw [cr0AfterLmsw_getLsbD _ _ _ (by decide)]
    have := h.2
    simp_all [bitPE]

theorem cr3Of_idem (v : Dword) : cr3Of (cr3Of v) = cr3Of v := by
  simp [cr3Of, BitVec.and_assoc]

end Sys2Proof.Machine
end

