-- ==== Sys2Proof/Laws/Kept.lean ====
section
/-! SUPPORT. What every shared operation keeps, whether it answers or stops: the parameters, the registers
that only privileged instructions write, and the forms of memory, EFLAGS, CR0 and CR3. -/

set_option linter.unusedTactic false
set_option linter.unreachableTactic false

namespace Sys2Proof.Machine

open Sys2Proof

variable {α β : Type}

/-- What no transfer, no load of a segment register and no task switch takes away from `s`. -/
structure Kept (s t : State) : Prop where
  memMap : t.memMap = s.memMap
  deliver : t.deliverExceptions = s.deliverExceptions
  draws : s.draws ≤ t.draws
  wf : s.mem.wf = true → t.mem.wf = true
  gdtr : t.gdtr = s.gdtr
  idtr : t.idtr = s.idtr
  debugRegs : (t.ctl.dr0, t.ctl.dr1, t.ctl.dr2, t.ctl.dr3, t.ctl.dr6, t.ctl.dr7) =
    (s.ctl.dr0, s.ctl.dr1, s.ctl.dr2, s.ctl.dr3, s.ctl.dr6, s.ctl.dr7)
  test : (t.ctl.tr6, t.ctl.tr7) = (s.ctl.tr6, s.ctl.tr7)
  cr0 : t.ctl.cr0 = s.ctl.cr0 ∨ t.ctl.cr0 = withBit s.ctl.cr0 bitTS true
  cr3 : cr3Of s.ctl.cr3 = s.ctl.cr3 → cr3Of t.ctl.cr3 = t.ctl.cr3
  flags : FlagsOK s.eflags → FlagsOK t.eflags

theorem kept_refl (s : State) : Kept s s :=
  ⟨rfl, rfl, Nat.le_refl _, id, rfl, rfl, rfl, rfl, .inl rfl, id, id⟩

theorem kept_trans {s t u : State} (h : Kept s t) (k : Kept t u) : Kept s u where
  memMap := k.memMap.trans h.memMap
  deliver := k.deliver.trans h.deliver
  draws := Nat.le_trans h.draws k.draws
  wf := fun x => k.wf (h.wf x)
  gdtr := k.gdtr.trans h.gdtr
  idtr := k.idtr.trans h.idtr
  debugRegs := k.debugRegs.trans h.debugRegs
  test := k.test.trans h.test
  cr0 := by
    rcases h.cr0 with h0 | h0 <;> rcases k.cr0 with k0 | k0 <;> rw [k0, h0]
    · exact .inl rfl
    · exact .inr rfl
    · exact .inr rfl
    · rw [withBit_withBit _ _ _ _ (by decide)]; exact .inr rfl
  cr3 := fun x => k.cr3 (h.cr3 x)
  flags := fun x => k.flags (h.flags x)

theorem composes_kept : Composes Kept := ⟨kept_refl, fun _ _ _ h k => kept_trans h k⟩

theorem allowsAccess_kept : AllowsAccess Kept where
  refl := kept_refl
  trans := fun _ _ _ h k => kept_trans h k
  noteLookup := fun s lin es =>
    ⟨rfl, rfl, State.draws_le_noteLookup s lin es, id, rfl, rfl, rfl, rfl, .inl rfl, id, id⟩
  noteRead := fun s ps =>
    ⟨rfl, rfl, State.draws_le_noteRead s ps, id, rfl, rfl, rfl, rfl, .inl rfl, id, id⟩
  store := fun _ cells =>
    ⟨rfl, rfl, Nat.le_refl _, fun h => Memory.wf_writeAll cells h, rfl, rfl, rfl, rfl, .inl rfl, id, id⟩
  fault := fun _ _ => ⟨rfl, rfl, Nat.le_refl _, id, rfl, rfl, rfl, rfl, .inl rfl, id, id⟩

/-- Bytes are stored, and then the general registers, EIP, the segment registers and the like change. -/
theorem kept_of_store (s : State) (cells : List Host.Cell) (x : Regs) (e n : Dword) (g : SegFile)
    (c : Level) (l : LdtReg) (r : TaskReg) (q : List Dword) :
    Kept s { s.store cells with
      regs := x, eip := e, nextEip := n, segs := g, cpl := c, ldtr := l, tr := r, storedAhead := q } :=
  ⟨rfl, rfl, Nat.le_refl _, fun h => Memory.wf_writeAll cells h, rfl, rfl, rfl, rfl, .inl rfl, id, id⟩

/-- A change of the general registers, EIP, the segment registers, CPL, LDTR, TR, what the prefetch
queue remembers, the activity and the pending debug trap keeps all that `Kept` says. -/
theorem kept_of_plain (s : State) (x : Regs) (e n : Dword) (g : SegFile) (c : Level) (l : LdtReg)
    (r : TaskReg) (q : List Dword) (a : Activity) (d : Bool) :
    Kept s { s with
      regs := x, eip := e, nextEip := n, segs := g, cpl := c, ldtr := l, tr := r, storedAhead := q,
      activity := a, debugTrap := d } :=
  ⟨rfl, rfl, Nat.le_refl _, id, rfl, rfl, rfl, rfl, .inl rfl, id, id⟩

theorem kept_update {f : State → State} (h : ∀ s, Kept s (f s)) : Keeps Kept (update f) := keeps_update h

theorem kept_pushAll (vs : List Dword) :
    Keeps Kept (pushAll vs) := by
  unfold pushAll
  repeat' first
    | with_reducible exact keeps_pure composes_kept _
    | with_reducible exact keeps_raise composes_kept _
    | with_reducible exact keeps_refuse composes_kept _
    | with_reducible exact keeps_getState composes_kept
    | with_reducible exact keeps_preparePush allowsAccess_kept ..
    | (with_reducible refine kept_update ?_); exact fun s => kept_of_store s _ _ _ _ _ _ _ _ _
    | with_reducible refine keeps_ite ?_ ?_
    | with_reducible refine keeps_bind composes_kept ?_ fun _ => ?_
    | split

theorem kept_loadDataSeg (name : SegName) (sel : Word) :
    Keeps Kept (loadDataSeg name sel) := by
  unfold loadDataSeg
  repeat' first
    | with_reducible exact keeps_pure composes_kept _
    | with_reducible exact keeps_raise composes_kept _
    | with_reducible exact keeps_refuse composes_kept _
    | with_reducible exact keeps_getState composes_kept
    | with_reducible exact keeps_readDescOr allowsAccess_kept ..
    | with_reducible exact keeps_setAccessed allowsAccess_kept ..
    | (with_reducible refine kept_update ?_); exact fun s => kept_of_plain s _ _ _ _ _ _ _ _ _ _
    | with_reducible refine keeps_ite ?_ ?_
    | with_reducible refine keeps_bind composes_kept ?_ fun _ => ?_
    | split

theorem kept_loadSS (sel : Word) :
    Keeps Kept (loadSS sel) := by
  unfold loadSS
  repeat' first
    | with_reducible exact keeps_pure composes_kept _
    | with_reducible exact keeps_raise composes_kept _
    | with_reducible exact keeps_refuse composes_kept _
    | with_reducible exact keeps_getState composes_kept
    | with_reducible exact keeps_readDescOr allowsAccess_kept ..
    | with_reducible exact keeps_setAccessed allowsAccess_kept ..
    | (with_reducible refine kept_update ?_); exact fun s => kept_of_plain s _ _ _ _ _ _ _ _ _ _
    | with_reducible refine keeps_ite ?_ ?_
    | with_reducible refine keeps_bind composes_kept ?_ fun _ => ?_
    | split

theorem kept_enterCode (sel : Word) (d : Desc) (target : Dword) (pushed : List Host.Cell) (esp : Dword) :
    Keeps Kept (enterCode sel d target pushed esp) := by
  unfold enterCode
  refine keeps_bind composes_kept (keeps_require32 composes_kept d) fun _ => ?_
  refine keeps_bind composes_kept (keeps_prepareAccessed allowsAccess_kept ..) fun _ => ?_
  exact kept_update fun s => kept_of_store s _ _ _ _ _ _ _ _ _

theorem kept_pushAndEnter (sel : Word) (d : Desc) (target : Dword) (vs : List Dword) :
    Keeps Kept (pushAndEnter sel d target vs) := by
  unfold pushAndEnter
  refine keeps_bind composes_kept (keeps_preparePush allowsAccess_kept vs) fun _ => ?_
  exact keeps_bind composes_kept (keeps_getState composes_kept) fun _ => kept_enterCode ..

theorem kept_advance  :
    Keeps Kept (advance) := by
  unfold advance
  repeat' first
    | with_reducible exact keeps_pure composes_kept _
    | with_reducible exact keeps_raise composes_kept _
    | with_reducible exact keeps_refuse composes_kept _
    | with_reducible exact keeps_getState composes_kept
    | (with_reducible refine kept_update ?_); exact fun s => kept_of_plain s _ _ _ _ _ _ _ _ _ _
    | with_reducible refine keeps_ite ?_ ?_
    | with_reducible refine keeps_bind composes_kept ?_ fun _ => ?_
    | split

theorem kept_setReg (r : Reg) (v : Dword) :
    Keeps Kept (setReg r v) := by
  unfold setReg
  repeat' first
    | with_reducible exact keeps_pure composes_kept _
    | with_reducible exact keeps_raise composes_kept _
    | with_reducible exact keeps_refuse composes_kept _
    | with_reducible exact keeps_getState composes_kept
    | (with_reducible refine kept_update ?_); exact fun s => kept_of_plain s _ _ _ _ _ _ _ _ _ _
    | with_reducible refine keeps_ite ?_ ?_
    | with_reducible refine keeps_bind composes_kept ?_ fun _ => ?_
    | split

theorem kept_setReg16 (r : Reg) (v : Word) :
    Keeps Kept (setReg16 r v) := by
  unfold setReg16
  repeat' first
    | with_reducible exact keeps_pure composes_kept _
    | with_reducible exact keeps_raise composes_kept _
    | with_reducible exact keeps_refuse composes_kept _
    | with_reducible exact keeps_getState composes_kept
    | (with_reducible refine kept_update ?_); exact fun s => kept_of_plain s _ _ _ _ _ _ _ _ _ _
    | with_reducible refine keeps_ite ?_ ?_
    | with_reducible refine keeps_bind composes_kept ?_ fun _ => ?_
    | split

theorem kept_writeRM16 (x : RM) (v : Word) :
    Keeps Kept (writeRM16 x v) := by
  unfold writeRM16
  repeat' first
    | with_reducible exact keeps_pure composes_kept _
    | with_reducible exact keeps_raise composes_kept _
    | with_reducible exact keeps_refuse composes_kept _
    | with_reducible exact keeps_getState composes_kept
    | with_reducible exact kept_setReg16 ..
    | with_reducible exact keeps_segWrite allowsAccess_kept ..
    | with_reducible refine keeps_ite ?_ ?_
    | with_reducible refine keeps_bind composes_kept ?_ fun _ => ?_
    | split

theorem kept_linkTasks (tsel : Word) (d : Desc) (pages : SwitchPages) :
    Keeps Kept (linkTasks tsel d pages) := by
  unfold linkTasks
  refine keeps_bind composes_kept (keeps_getState composes_kept) fun _ => ?_
  refine keeps_bind composes_kept (keeps_changeAccessByteIf allowsAccess_kept ..) fun _ => ?_
  refine keeps_bind composes_kept (keeps_changeAccessByteIf allowsAccess_kept ..) fun _ => ?_
  exact kept_update fun s =>
    ⟨rfl, rfl, Nat.le_refl _, fun h => Memory.wf_writeAll _ h, rfl, rfl, rfl, rfl, .inr rfl, id, id⟩

theorem kept_loadTaskLdt  :
    Keeps Kept (loadTaskLdt) := by
  unfold loadTaskLdt
  repeat' first
    | with_reducible exact keeps_pure composes_kept _
    | with_reducible exact keeps_raise composes_kept _
    | with_reducible exact keeps_refuse composes_kept _
    | with_reducible exact keeps_getState composes_kept
    | with_reducible exact keeps_readDescOr allowsAccess_kept ..
    | (with_reducible refine kept_update ?_); exact fun s => kept_of_plain s _ _ _ _ _ _ _ _ _ _
    | with_reducible refine keeps_ite ?_ ?_
    | with_reducible refine keeps_bind composes_kept ?_ fun _ => ?_
    | split

theorem kept_loadTaskCS  :
    Keeps Kept (loadTaskCS) := by
  unfold loadTaskCS
  repeat' first
    | with_reducible exact keeps_pure composes_kept _
    | with_reducible exact keeps_raise composes_kept _
    | with_reducible exact keeps_refuse composes_kept _
    | with_reducible exact keeps_getState composes_kept
    | with_reducible exact keeps_readDescOr allowsAccess_kept ..
    | with_reducible exact keeps_setAccessed allowsAccess_kept ..
    | with_reducible exact keeps_require32 composes_kept ..
    | (with_reducible refine kept_update ?_); exact fun s => kept_of_plain s _ _ _ _ _ _ _ _ _ _
    | with_reducible refine keeps_ite ?_ ?_
    | with_reducible refine keeps_bind composes_kept ?_ fun _ => ?_
    | split

theorem kept_loadTaskSS  :
    Keeps Kept (loadTaskSS) := by
  unfold loadTaskSS
  repeat' first
    | with_reducible exact keeps_pure composes_kept _
    | with_reducible exact keeps_raise composes_kept _
    | with_reducible exact keeps_refuse composes_kept _
    | with_reducible exact keeps_getState composes_kept
    | with_reducible exact keeps_readDescOr allowsAccess_kept ..
    | with_reducible exact keeps_setAccessed allowsAccess_kept ..
    | with_reducible exact keeps_require32 composes_kept ..
    | (with_reducible refine kept_update ?_); exact fun s => kept_of_plain s _ _ _ _ _ _ _ _ _ _
    | with_reducible refine keeps_ite ?_ ?_
    | with_reducible refine keeps_bind composes_kept ?_ fun _ => ?_
    | split

theorem kept_loadTaskData (name : SegName) :
    Keeps Kept (loadTaskData name) := by
  unfold loadTaskData
  repeat' first
    | with_reducible exact keeps_pure composes_kept _
    | with_reducible exact keeps_raise composes_kept _
    | with_reducible exact keeps_refuse composes_kept _
    | with_reducible exact keeps_getState composes_kept
    | with_reducible exact keeps_readDescOr allowsAccess_kept ..
    | with_reducible exact keeps_setAccessed allowsAccess_kept ..
    | (with_reducible refine kept_update ?_); exact fun s => kept_of_plain s _ _ _ _ _ _ _ _ _ _
    | with_reducible refine keeps_ite ?_ ?_
    | with_reducible refine keeps_bind composes_kept ?_ fun _ => ?_
    | split

theorem kept_loadTaskSegments  :
    Keeps Kept (loadTaskSegments) := by
  unfold loadTaskSegments
  repeat' first
    | with_reducible exact keeps_pure composes_kept _
    | with_reducible exact keeps_raise composes_kept _
    | with_reducible exact keeps_refuse composes_kept _
    | with_reducible exact keeps_getState composes_kept
    | with_reducible exact kept_loadTaskLdt
    | with_reducible exact kept_loadTaskCS
    | with_reducible exact kept_loadTaskSS
    | with_reducible exact kept_loadTaskData _
    | with_reducible refine keeps_ite ?_ ?_
    | with_reducible refine keeps_bind composes_kept ?_ fun _ => ?_
    | split

theorem kept_withTssImage (s : State) (c : SwitchCause) (img : List Byte)
    (h : (dwordAt img 36).getLsbD bitVM = false) : Kept s (s.withTssImage c img) where
  memMap := rfl
  deliver := rfl
  draws := Nat.le_refl _
  wf := id
  gdtr := rfl
  idtr := rfl
  debugRegs := by simp only [State.withTssImage_ctl]; split <;> rfl
  test := by simp only [State.withTssImage_ctl]; split <;> rfl
  cr0 := by simp only [State.withTssImage_ctl]; split <;> exact .inl rfl
  cr3 := fun k => by
    simp only [State.withTssImage_ctl]
    split
    · exact cr3Of_idem _
    · exact k
  flags := fun _ => FlagsOK.incoming c h

theorem kept_discardPrefetch : Keeps Kept (update (·.discardPrefetch)) :=
  kept_update fun s => kept_of_plain s _ _ _ _ _ _ _ _ _ _

/-- A transfer that is taken keeps what its operation and its state at a stop keep. -/
theorem kept_whileTaken {m : Exec Unit} (h : Keeps Kept m) : Keeps Kept (whileTaken m) := by
  refine ⟨fun s => ?_⟩
  have hs := h.post s
  unfold Post whileTaken at *
  cases hm : m s <;> rw [hm] at hs <;>
    exact kept_trans hs (kept_of_plain _ _ _ _ _ _ _ _ _ _ _)

theorem kept_validateTask : Keeps Kept validateTask := by
  unfold validateTask
  refine keeps_bind composes_kept kept_loadTaskSegments fun _ => ?_
  refine keeps_bind composes_kept (keeps_getState composes_kept) fun _ => ?_
  exact keeps_ite (keeps_pure composes_kept _) (keeps_raise composes_kept _)

theorem kept_loadIncoming (c : SwitchCause) (ps : List Nat) : Keeps Kept (loadIncoming c ps) := by
  unfold loadIncoming
  refine keeps_bind composes_kept (keeps_readPhys allowsAccess_kept ..) fun img => ?_
  split
  · exact keeps_refuse composes_kept _
  · refine keeps_bind composes_kept (kept_update fun s => kept_withTssImage s c img (by simp_all)) fun _ => ?_
    exact keeps_bind composes_kept (kept_whileTaken kept_validateTask) fun _ => keeps_pure composes_kept _

theorem kept_taskSwitch (c : SwitchCause) (tsel : Word) (ret : Dword) :
    Keeps Kept (taskSwitch c tsel ret) := by
  unfold taskSwitch
  repeat' first
    | with_reducible exact keeps_pure composes_kept _
    | with_reducible exact keeps_raise composes_kept _
    | with_reducible exact keeps_refuse composes_kept _
    | with_reducible exact keeps_getState composes_kept
    | with_reducible exact keeps_incomingTss allowsAccess_kept ..
    | with_reducible exact keeps_prepareSwitch allowsAccess_kept ..
    | with_reducible exact keeps_saveOutgoing allowsAccess_kept ..
    | with_reducible exact kept_linkTasks ..
    | with_reducible exact kept_loadIncoming ..
    | with_reducible refine keeps_ite ?_ ?_
    | with_reducible refine keeps_bind composes_kept ?_ fun _ => ?_
    | split

theorem kept_switchByInstruction (c : SwitchCause) (tsel : Word) :
    Keeps Kept (switchByInstruction c tsel) := by
  unfold switchByInstruction
  repeat' first
    | with_reducible exact keeps_pure composes_kept _
    | with_reducible exact keeps_raise composes_kept _
    | with_reducible exact keeps_refuse composes_kept _
    | with_reducible exact keeps_getState composes_kept
    | with_reducible exact kept_taskSwitch ..
    | with_reducible refine keeps_ite ?_ ?_
    | with_reducible refine keeps_bind composes_kept ?_ fun _ => ?_
    | split

theorem kept_innerTransfer (tsel : Word) (t : Desc) (target : Dword) (count : Nat)
    {frame : Exec (List Dword)} (hf : Keeps Kept frame) :
    Keeps Kept (innerTransfer tsel t target count frame) := by
  unfold innerTransfer
  refine keeps_bind composes_kept (keeps_innerStack allowsAccess_kept _) fun _ => ?_
  dsimp only
  refine keeps_ite (keeps_raise composes_kept _) (keeps_ite (keeps_raise composes_kept _) ?_)
  refine keeps_bind composes_kept hf fun _ => ?_
  refine keeps_bind composes_kept (keeps_prepareWrite allowsAccess_kept ..) fun _ => ?_
  refine keeps_bind composes_kept (keeps_require32 composes_kept _) fun _ => ?_
  refine keeps_bind composes_kept (keeps_prepareAccessed allowsAccess_kept ..) fun _ => ?_
  refine keeps_bind composes_kept (keeps_prepareAccessed allowsAccess_kept ..) fun _ => ?_
  exact kept_update fun s => kept_of_store s _ _ _ _ _ _ _ _ _

theorem kept_sameLevelTransfer (k : FarKind) (sel : Word) (d : Desc) (target : Dword) :
    Keeps Kept (sameLevelTransfer k sel d target) := by
  unfold sameLevelTransfer
  refine keeps_bind composes_kept (keeps_getState composes_kept) fun _ => ?_
  refine keeps_ite (keeps_raise composes_kept _) (keeps_ite (keeps_raise composes_kept _) ?_)
  cases k
  · exact kept_enterCode ..
  · exact kept_pushAndEnter ..

theorem kept_directTransfer (k : FarKind) (sel : Word) (off : Dword) (d : Desc) :
    Keeps Kept (directTransfer k sel off d) := by
  unfold directTransfer
  repeat' first
    | with_reducible exact keeps_pure composes_kept _
    | with_reducible exact keeps_raise composes_kept _
    | with_reducible exact keeps_refuse composes_kept _
    | with_reducible exact keeps_getState composes_kept
    | with_reducible exact kept_sameLevelTransfer ..
    | with_reducible refine keeps_ite ?_ ?_
    | with_reducible refine keeps_bind composes_kept ?_ fun _ => ?_
    | split

theorem kept_gateTransfer (k : FarKind) (sel : Word) (g : Desc) :
    Keeps Kept (gateTransfer k sel g) := by
  unfold gateTransfer
  repeat' first
    | with_reducible exact keeps_pure composes_kept _
    | with_reducible exact keeps_raise composes_kept _
    | with_reducible exact keeps_refuse composes_kept _
    | with_reducible exact keeps_getState composes_kept
    | with_reducible exact keeps_gateTarget allowsAccess_kept ..
    | with_reducible exact kept_sameLevelTransfer ..
    | with_reducible exact kept_innerTransfer _ _ _ _ (keeps_callFrame allowsAccess_kept _)
    | with_reducible refine keeps_ite ?_ ?_
    | with_reducible refine keeps_bind composes_kept ?_ fun _ => ?_
    | split

theorem kept_tssTransfer (k : FarKind) (sel : Word) (d : Desc) :
    Keeps Kept (tssTransfer k sel d) := by
  unfold tssTransfer
  repeat' first
    | with_reducible exact keeps_pure composes_kept _
    | with_reducible exact keeps_raise composes_kept _
    | with_reducible exact keeps_refuse composes_kept _
    | with_reducible exact keeps_getState composes_kept
    | with_reducible exact kept_switchByInstruction ..
    | with_reducible refine keeps_ite ?_ ?_
    | with_reducible refine keeps_bind composes_kept ?_ fun _ => ?_
    | split

theorem kept_taskGateTransfer (k : FarKind) (sel : Word) (g : Desc) :
    Keeps Kept (taskGateTransfer k sel g) := by
  unfold taskGateTransfer
  repeat' first
    | with_reducible exact keeps_pure composes_kept _
    | with_reducible exact keeps_raise composes_kept _
    | with_reducible exact keeps_refuse composes_kept _
    | with_reducible exact keeps_getState composes_kept
    | with_reducible exact kept_switchByInstruction ..
    | with_reducible refine keeps_ite ?_ ?_
    | with_reducible refine keeps_bind composes_kept ?_ fun _ => ?_
    | split

theorem kept_farTransfer (k : FarKind) (sel : Word) (off : Dword) :
    Keeps Kept (farTransfer k sel off) := by
  unfold farTransfer
  repeat' first
    | with_reducible exact keeps_pure composes_kept _
    | with_reducible exact keeps_raise composes_kept _
    | with_reducible exact keeps_refuse composes_kept _
    | with_reducible exact keeps_getState composes_kept
    | with_reducible exact keeps_readDescOr allowsAccess_kept ..
    | with_reducible exact kept_directTransfer ..
    | with_reducible exact kept_gateTransfer ..
    | with_reducible exact kept_tssTransfer ..
    | with_reducible exact kept_taskGateTransfer ..
    | with_reducible refine keeps_ite ?_ ?_
    | with_reducible refine keeps_bind composes_kept ?_ fun _ => ?_
    | split

theorem kept_returnSame (rcs : Word) (d : Desc) (reip esp : Dword) :
    Keeps Kept (returnSame rcs d reip esp) := by
  unfold returnSame
  repeat' first
    | with_reducible exact keeps_pure composes_kept _
    | with_reducible exact keeps_raise composes_kept _
    | with_reducible exact keeps_refuse composes_kept _
    | with_reducible exact keeps_getState composes_kept
    | with_reducible exact keeps_require32 composes_kept ..
    | with_reducible exact keeps_setAccessed allowsAccess_kept ..
    | (with_reducible refine kept_update ?_); exact fun s => kept_of_plain s _ _ _ _ _ _ _ _ _ _
    | with_reducible refine keeps_ite ?_ ?_
    | with_reducible refine keeps_bind composes_kept ?_ fun _ => ?_
    | split

theorem kept_returnOuter (rcs : Word) (d : Desc) (reip : Dword) (off : Nat) (n : Word) :
    Keeps Kept (returnOuter rcs d reip off n) := by
  unfold returnOuter
  repeat' first
    | with_reducible exact keeps_pure composes_kept _
    | with_reducible exact keeps_raise composes_kept _
    | with_reducible exact keeps_refuse composes_kept _
    | with_reducible exact keeps_getState composes_kept
    | with_reducible exact keeps_segReadDword allowsAccess_kept ..
    | with_reducible exact keeps_returnSS allowsAccess_kept ..
    | with_reducible exact keeps_require32 composes_kept ..
    | with_reducible exact keeps_prepareAccessed allowsAccess_kept ..
    | (with_reducible refine kept_update ?_); exact fun s => kept_of_store s _ _ _ _ _ _ _ _ _
    | with_reducible refine keeps_ite ?_ ?_
    | with_reducible refine keeps_bind composes_kept ?_ fun _ => ?_
    | split

theorem kept_farReturn (n : Word) :
    Keeps Kept (farReturn n) := by
  unfold farReturn
  repeat' first
    | with_reducible exact keeps_pure composes_kept _
    | with_reducible exact keeps_raise composes_kept _
    | with_reducible exact keeps_refuse composes_kept _
    | with_reducible exact keeps_getState composes_kept
    | with_reducible exact keeps_segReadDword allowsAccess_kept ..
    | with_reducible exact keeps_returnCS allowsAccess_kept ..
    | with_reducible exact kept_returnOuter ..
    | with_reducible exact kept_returnSame ..
    | with_reducible refine keeps_ite ?_ ?_
    | with_reducible refine keeps_bind composes_kept ?_ fun _ => ?_
    | split

theorem kept_interruptReturn  :
    Keeps Kept (interruptReturn) := by
  unfold interruptReturn
  dsimp only
  repeat' first
    | with_reducible exact keeps_pure composes_kept _
    | with_reducible exact keeps_raise composes_kept _
    | with_reducible exact keeps_refuse composes_kept _
    | with_reducible exact keeps_getState composes_kept
    | with_reducible exact keeps_segReadDword allowsAccess_kept ..
    | with_reducible exact keeps_returnCS allowsAccess_kept ..
    | with_reducible exact kept_returnOuter ..
    | with_reducible exact kept_returnSame ..
    | (with_reducible refine kept_update ?_); exact fun s => ⟨rfl, rfl, Nat.le_refl _, id, rfl, rfl, rfl, rfl, .inl rfl, id, fun h => h.afterIret _ _⟩
    | with_reducible refine keeps_ite ?_ ?_
    | with_reducible refine keeps_bind composes_kept ?_ fun _ => ?_
    | split

theorem kept_enterGate (g : Desc) (code : Option Dword) (ret : Dword) :
    Keeps Kept (enterGate g code ret) := by
  unfold enterGate
  dsimp only
  repeat' first
    | with_reducible exact keeps_pure composes_kept _
    | with_reducible exact keeps_raise composes_kept _
    | with_reducible exact keeps_refuse composes_kept _
    | with_reducible exact keeps_getState composes_kept
    | with_reducible exact keeps_gateTarget allowsAccess_kept ..
    | with_reducible exact kept_innerTransfer _ _ _ _ (keeps_pure composes_kept _)
    | with_reducible exact kept_pushAndEnter ..
    | (with_reducible refine kept_update ?_); exact fun s => ⟨rfl, rfl, Nat.le_refl _, id, rfl, rfl, rfl, rfl, .inl rfl, id, fun h => h.afterEntry _⟩
    | with_reducible refine keeps_ite ?_ ?_
    | with_reducible refine keeps_bind composes_kept ?_ fun _ => ?_
    | split

theorem kept_deliver (n : Nat) (code : Option Dword) (ret : Dword) (sw : Bool) :
    Keeps Kept (deliver n code ret sw) := by
  unfold deliver
  dsimp only
  repeat' first
    | with_reducible exact keeps_pure composes_kept _
    | with_reducible exact keeps_raise composes_kept _
    | with_reducible exact keeps_refuse composes_kept _
    | with_reducible exact keeps_getState composes_kept
    | with_reducible exact keeps_idtGate allowsAccess_kept ..
    | with_reducible exact kept_taskSwitch ..
    | with_reducible exact kept_pushAll _
    | with_reducible exact kept_enterGate ..
    | with_reducible exact kept_discardPrefetch
    | with_reducible refine keeps_ite ?_ ?_
    | with_reducible refine keeps_bind composes_kept ?_ fun _ => ?_
    | split

theorem kept_deliverException (e : Exception) :
    Keeps Kept (deliverException e) := by
  unfold deliverException
  repeat' first
    | with_reducible exact keeps_pure composes_kept _
    | with_reducible exact keeps_raise composes_kept _
    | with_reducible exact keeps_refuse composes_kept _
    | with_reducible exact keeps_getState composes_kept
    | with_reducible exact kept_deliver ..
    | (with_reducible refine kept_update ?_); exact fun s => kept_of_plain s _ _ _ _ _ _ _ _ _ _
    | with_reducible refine keeps_ite ?_ ?_
    | with_reducible refine keeps_bind composes_kept ?_ fun _ => ?_
    | split

/-- Taking an exception keeps what `Kept` says, whatever state it leads to. -/
theorem kept_takeException {e : Exception} {s t : State} (h : takeException e s = .next t) : Kept s t := by
  unfold takeException at h
  split at h
  · split at h
    · cases h; exact (kept_deliverException e).of_ok ‹_›
    · cases h
    · rename_i u hu
      have hk := (kept_deliverException e).of_error hu
      split at h
      · cases h; exact kept_trans hk ((kept_deliverException .df).of_ok ‹_›)
      · cases h
      · rename_i v hv
        cases h
        exact kept_trans hk (kept_trans ((kept_deliverException .df).of_error hv)
          (kept_of_plain v _ _ _ _ _ _ _ _ _ _))
  · exact absurd h (State.endRun_ne_next _ _ _)

/-- So does the end of a meaning that keeps it. -/
theorem kept_conclude {m : Exec Unit} (hm : Keeps Kept m) {s t : State} (h : conclude m s = .next t) :
    Kept s t := by
  unfold conclude at h
  split at h
  · cases h; exact hm.of_ok ‹_›
  · exact kept_trans (hm.of_error ‹_›) (kept_takeException h)
  · cases h

end Sys2Proof.Machine
end

