-- ==== Sys2Proof/Laws/Loads.lean ====
section
/-! SUPPORT. Everything the shared loads and transfers can do, said once for each: what held of the
descriptors and what the state became if the operation answers, and that only memory was reached if it
stops. -/

namespace Sys2Proof.Machine

open Sys2Proof

variable {α β : Type}

/-- An operation that only reaches memory does nothing else. -/
theorem accessed_post {m : Exec α} (h : Keeps Accessed m) {s u : State} (hu : Accessed s u) :
    Post m u (fun _ t => Accessed s t) (fun _ t => Accessed s t) :=
  (h.post u).mono (fun _ _ k => accessed_trans hu k) (fun _ _ k => accessed_trans hu k)

/-- The state is read and kept. -/
theorem post_getState_bind {f : State → Exec β} {s : State} {Q : β → State → Prop}
    {E : Stop → State → Prop} (h : Post (f s) s Q E) : Post (getState >>= f) s Q E := h

/-- One check of a list of checks: it stops where the state stood, or the rest goes on. -/
theorem post_check {c : Prop} [Decidable c] {x : Exec α} {m : Exec α} {s : State} {Q : α → State → Prop}
    {E : Stop → State → Prop} (hx : Post x s Q E) (hm : ¬c → Post m s Q E) :
    Post (if c then x else m) s Q E := post_ite (fun _ => hx) hm

theorem segCheck_eq_ok {name : SegName} {off : Dword} {n : Nat} {wr : Bool} {s t : State} {a : Dword}
    (h : segCheck name off n wr s = .ok a t) :
    t = s ∧ (s.segs.get name).valid = true ∧ a = (s.segs.get name).base + off ∧
      (if wr then (s.segs.get name).canWrite = true else (s.segs.get name).canRead = true) ∧
      limitOK (s.segs.get name) off.toNat n = true := by
  unfold segCheck at h
  rw [run_bind_getState] at h
  cases wr
  all_goals
    simp only [run_ite] at h
    repeat' split at h
    all_goals try cases h
  all_goals simp_all

/-- A write through a segment register needs it to hold a writable segment (R90). -/
theorem segWrite_post (name : SegName) (off : Dword) (bs : List Byte) (s : State) :
    Post (segWrite name off bs) s
      (fun _ t => Accessed s t ∧ (s.segs.get name).valid = true ∧ (s.segs.get name).canWrite = true)
      (fun _ t => Accessed s t) := by
  unfold segWrite
  refine post_bind ?_
  have hc := (keeps_segCheck allowsAccess_accessed.toComposes name off bs.length true).post s
  unfold Post at hc
  unfold Post
  split at hc
  · rename_i a u ha
    obtain ⟨rfl, hv, -, hw, -⟩ := segCheck_eq_ok ha
    exact (accessed_post (keeps_memWrite allowsAccess_accessed a bs) (accessed_refl _)).mono
      (fun _ t ht => ⟨ht, hv, hw⟩) (fun _ _ h => h)
  · exact hc

/-- The checks of a push need a valid SS that holds a writable segment (R90, R181). -/
theorem preparePush_post (vs : List Dword) (s : State) :
    Post (preparePush vs) s
      (fun _ t => Accessed s t ∧ s.segs.ss.valid = true ∧ s.segs.ss.canWrite = true)
      (fun _ t => Accessed s t) := by
  unfold preparePush
  refine post_getState_bind (post_bind ?_)
  have hc := (keeps_segCheck allowsAccess_accessed.toComposes .ss (s.regs.pushed vs.length)
    (4 * vs.length) true).post s
  unfold Post at hc
  unfold Post
  split at hc
  · rename_i a u ha
    obtain ⟨rfl, hv, -, hw, -⟩ := segCheck_eq_ok ha
    exact (accessed_post (keeps_prepareWrite allowsAccess_accessed ..) (accessed_refl _)).mono
      (fun _ t ht => ⟨ht, hv, hw⟩) (fun _ _ h => h)
  · exact hc

/-- A push needs a valid SS, and changes ESP and memory only (R93, R181). -/
theorem pushAll_post (vs : List Dword) (s : State) :
    Post (pushAll vs) s
      (fun _ t => s.segs.ss.valid = true ∧ ∃ u, Accessed s u ∧
        t = u.withEsp (s.regs.esp - BitVec.ofNat 32 (4 * vs.length)))
      (fun _ t => Accessed s t) := by
  unfold pushAll
  refine post_seq (preparePush_post vs s) (fun cells u hu => ?_) (fun _ _ h => h)
  refine post_update ⟨hu.2.1, u.store cells,
    accessed_trans hu.1 (allowsAccess_accessed.store u cells), ?_⟩
  unfold Regs.pushed
  rw [hu.1.regs]

/-- The descriptor of a data-segment register that was just loaded passed these checks (R164). -/
structure DataChecked (cpl : Level) (sel : Word) (d : Desc) : Prop where
  notNull : isNull sel = false
  isSeg : d.isSeg = true
  readable : d.readable = true
  privilege : d.conforming = true ∨ dataPrivOK cpl sel d = true
  present : d.present = true

/-- The readable segments are the data segments and the code segments that are not execute-only. -/
theorem Desc.readable_of {d : Desc} (hs : d.isSeg = true) (h : (d.isCode && !d.readable) = false) :
    d.readable = true := by
  revert h
  unfold Desc.readable Desc.isCode Desc.isData
  rw [hs]
  cases d.hi.getLsbD 11 <;> simp

theorem loadDataSeg_post (name : SegName) (sel : Word) (s : State) :
    Post (loadDataSeg name sel) s
      (fun _ t => ∃ u, Accessed s u ∧
        ((isNull sel = true ∧ t = u.withSeg name ((s.segs.get name).withNull sel)) ∨
          ∃ d, DataChecked s.cpl sel d ∧ t = u.withSeg name (cacheOf sel d)))
      (fun _ t => Accessed s t) := by
  unfold loadDataSeg
  refine post_ite (fun h => ?_) (fun hn => ?_)
  · exact post_update ⟨s, accessed_refl s, .inl ⟨h, rfl⟩⟩
  refine post_seq (accessed_post (keeps_readDescOr allowsAccess_accessed ..) (accessed_refl s))
    (fun d u hu => post_getState_bind ?_) (fun _ _ h => h)
  refine post_check (post_raise hu) fun h1 => ?_
  refine post_check (post_raise hu) fun h2 => ?_
  refine post_check (post_raise hu) fun h3 => ?_
  refine post_check (post_raise hu) fun h4 => ?_
  refine post_seq (accessed_post (keeps_setAccessed allowsAccess_accessed ..) hu) (fun _ v hv => ?_)
    (fun _ _ h => h)
  have hs : d.isSeg = true := by simpa using h1
  refine post_update ⟨v, hv, .inr ⟨d, ⟨by simpa using hn, hs, Desc.readable_of hs (by simpa using h2), ?_,
    by simpa using h4⟩, rfl⟩⟩
  rw [hu.cpl] at h3
  by_cases hc : d.conforming = true
  · exact .inl hc
  · exact .inr (by simpa [hc] using h3)

/-- The descriptor of an SS that was just loaded for level `lvl` passed these checks (R165). -/
structure StackChecked (lvl : Level) (sel : Word) (d : Desc) : Prop where
  notNull : isNull sel = false
  rpl : selRpl sel = lvl
  writable : d.writable = true
  dpl : d.dpl = lvl
  present : d.present = true
  big : d.big = true

theorem loadSS_post (sel : Word) (s : State) :
    Post (loadSS sel) s
      (fun _ t => ∃ u d, Accessed s u ∧ StackChecked s.cpl sel d ∧ t = u.withSeg .ss (cacheOf sel d))
      (fun _ t => Accessed s t) := by
  unfold loadSS
  refine post_check (post_raise (accessed_refl s)) fun h0 => ?_
  refine post_seq (accessed_post (keeps_readDescOr allowsAccess_accessed ..) (accessed_refl s))
    (fun d u hu => post_getState_bind ?_) (fun _ _ h => h)
  rw [hu.cpl]
  refine post_check (post_raise hu) fun h1 => ?_
  refine post_check (post_raise hu) fun h2 => ?_
  refine post_check (post_raise hu) fun h3 => ?_
  refine post_check (post_raise hu) fun h4 => ?_
  refine post_check (post_refuse hu) fun h5 => ?_
  refine post_seq (accessed_post (keeps_setAccessed allowsAccess_accessed ..) hu) (fun _ v hv => ?_)
    (fun _ _ h => h)
  exact post_update ⟨v, d, hv, ⟨by simpa using h0, by simpa using h1, by simpa using h2, by simpa using h3,
    by simpa using h4, by simpa using h5⟩, rfl⟩

theorem require32_post (d : Desc) (s : State) :
    Post (require32 d) s (fun _ t => t = s ∧ d.big = true) (fun _ t => t = s) :=
  post_ite (fun h => post_pure ⟨rfl, h⟩) (fun _ => post_refuse rfl)

/-- CS and ESP are loaded and control goes to the target, at the level as it was; the segment is a 32-bit
one (R172). -/
theorem enterCode_post (sel : Word) (d : Desc) (target : Dword) (pushed : List Host.Cell) (esp : Dword)
    (s : State) :
    Post (enterCode sel d target pushed esp) s
      (fun _ t => d.big = true ∧ ∃ u, Accessed s u ∧
        t = ((u.withEsp esp).withCS sel d s.cpl).jumpTo target)
      (fun _ t => Accessed s t) := by
  unfold enterCode
  refine post_seq (require32_post d s) (fun _ u hu => ?_) (fun _ t h => h ▸ accessed_refl s)
  obtain ⟨rfl, hb⟩ := hu
  refine post_seq (accessed_post (keeps_prepareAccessed allowsAccess_accessed sel d) (accessed_refl u))
    (fun mark v hv => ?_) (fun _ _ h => h)
  refine post_update ⟨hb, _, accessed_trans hv (allowsAccess_accessed.store v (pushed ++ mark)), ?_⟩
  rw [hv.cpl]

/-- A push and the entry that follows it: every stop leaves the registers as they were (R181, R352). -/
theorem pushAndEnter_post (sel : Word) (d : Desc) (target : Dword) (vs : List Dword) (s : State) :
    Post (pushAndEnter sel d target vs) s
      (fun _ t => d.big = true ∧ ∃ u esp, Accessed s u ∧
        t = ((u.withEsp esp).withCS sel d s.cpl).jumpTo target)
      (fun _ t => Accessed s t) := by
  unfold pushAndEnter
  refine post_seq (preparePush_post vs s) (fun cells u hu => ?_) (fun _ _ h => h)
  refine post_getState_bind ?_
  refine (enterCode_post sel d target cells (u.regs.pushed vs.length) u).mono (fun _ t ht => ?_)
    (fun _ _ h => accessed_trans hu.1 h)
  obtain ⟨hb, v, hv, rfl⟩ := ht
  exact ⟨hb, v, _, accessed_trans hu.1 hv, by rw [hu.1.cpl]⟩

/-- The stack of an inner level passed these checks (R204). -/
theorem innerStack_post (new : Level) (s : State) :
    Post (innerStack new) s (fun r t => Accessed s t ∧ StackChecked new r.2.1 r.2.2)
      (fun _ t => Accessed s t) := by
  unfold innerStack
  refine post_getState_bind ?_
  refine post_check (post_raise (accessed_refl _)) fun _ => ?_
  refine post_seq (accessed_post (keeps_sysRead allowsAccess_accessed ..) (accessed_refl _))
    (fun bs u hu => ?_) (fun _ _ h => h)
  refine post_seq (accessed_post (keeps_sysRead allowsAccess_accessed ..) hu) (fun cs v hv => ?_)
    (fun _ _ h => h)
  refine post_check (post_raise hv) fun h0 => ?_
  refine post_seq (accessed_post (keeps_readDescOr allowsAccess_accessed ..) hv) (fun d w hw => ?_)
    (fun _ _ h => h)
  refine post_check (post_raise hw) fun h1 => ?_
  refine post_check (post_raise hw) fun h2 => ?_
  refine post_check (post_raise hw) fun h3 => ?_
  refine post_check (post_raise hw) fun h4 => ?_
  refine post_check (post_refuse hw) fun h5 => ?_
  exact post_pure ⟨hw, ⟨by simpa using h0, by simpa using h1, by simpa using h2, by simpa using h3,
    by simpa using h4, by simpa using h5⟩⟩

/-- An inward transfer ends at the target, at the target's DPL, on a stack of that level (R204). -/
theorem innerTransfer_post (tsel : Word) (t : Desc) (target : Dword) (count : Nat)
    {frame : Exec (List Dword)} (hf : Keeps Accessed frame) (s : State) :
    Post (innerTransfer tsel t target count frame) s
      (fun _ w => t.big = true ∧ ∃ u sel d top, Accessed s u ∧ StackChecked t.dpl sel d ∧
        w = ((u.withCS tsel t t.dpl).withStack sel d top).jumpTo target)
      (fun _ w => Accessed s w) := by
  unfold innerTransfer
  refine post_seq (innerStack_post t.dpl s) (fun r u hu => ?_) (fun _ _ h => h)
  obtain ⟨nesp, nss, d⟩ := r
  dsimp only
  refine post_check (post_raise hu.1) fun _ => ?_
  refine post_check (post_raise hu.1) fun _ => ?_
  refine post_seq (accessed_post hf hu.1) (fun vs v hv => ?_) (fun _ _ h => h)
  refine post_seq (accessed_post (keeps_prepareWrite allowsAccess_accessed ..) hv) (fun _ v2 hv2 => ?_)
    (fun _ _ h => h)
  refine post_seq (require32_post t v2) (fun _ v3 h3 => ?_) (fun _ w h => h ▸ hv2)
  obtain ⟨rfl, hbig⟩ := h3
  refine post_seq (accessed_post (keeps_prepareAccessed allowsAccess_accessed ..) hv2)
    (fun _ v4 hv4 => ?_) (fun _ _ h => h)
  refine post_seq (accessed_post (keeps_prepareAccessed allowsAccess_accessed ..) hv4)
    (fun _ v5 hv5 => ?_) (fun _ _ h => h)
  exact post_update ⟨hbig, _, nss, d, _, accessed_trans hv5 (allowsAccess_accessed.store v5 _), hu.2, rfl⟩

/-- A far transfer at the same level: CS:EIP is the target, at the caller's level, and every stop leaves
the registers as they were (R190, R191, R352). -/
theorem sameLevelTransfer_post (kind : FarKind) (sel : Word) (d : Desc) (target : Dword) (s : State) :
    Post (sameLevelTransfer kind sel d target) s
      (fun _ w => d.big = true ∧ d.present = true ∧ ∃ u esp, Accessed s u ∧
        w = ((u.withEsp esp).withCS sel d s.cpl).jumpTo target)
      (fun _ w => Accessed s w) := by
  unfold sameLevelTransfer
  refine post_getState_bind ?_
  refine post_check (post_raise (accessed_refl s)) fun hp => ?_
  refine post_check (post_raise (accessed_refl s)) fun _ => ?_
  have hpres : d.present = true := by simpa using hp
  cases kind
  · refine (enterCode_post sel d target [] s.regs.esp s).mono (fun _ w hw => ?_) (fun _ _ h => h)
    obtain ⟨hb, u, hu, rfl⟩ := hw
    exact ⟨hb, hpres, u, _, hu, rfl⟩
  · refine (pushAndEnter_post sel d target s.farReturnPointer s).mono (fun _ w hw => ?_) (fun _ _ h => h)
    obtain ⟨hb, u, esp, hu, rfl⟩ := hw
    exact ⟨hb, hpres, u, esp, hu, rfl⟩

/-- The code segment a gate names is one (R200). -/
theorem gateTarget_post (tsel : Word) (s : State) :
    Post (gateTarget tsel) s (fun t u => Accessed s u ∧ isNull tsel = false ∧ t.isCode = true)
      (fun _ u => Accessed s u) := by
  unfold gateTarget
  refine post_check (post_raise (accessed_refl s)) fun h0 => ?_
  refine post_seq (accessed_post (keeps_readDescOr allowsAccess_accessed ..) (accessed_refl s))
    (fun t u hu => ?_) (fun _ _ h => h)
  refine post_check (post_raise hu) fun h1 => ?_
  exact post_pure ⟨hu, by simpa using h0, by simpa using h1⟩

/-- The return CS passed rows 3 to 8 of Table 6-3 (R213). -/
structure ReturnChecked (cpl : Level) (rcs : Word) (d : Desc) : Prop where
  notInward : ¬selRpl rcs < cpl
  notNull : isNull rcs = false
  isCode : d.isCode = true
  present : d.present = true
  privilege : if d.conforming then d.dpl ≤ selRpl rcs else d.dpl = selRpl rcs

theorem returnCS_post (rcs : Word) (s : State) :
    Post (returnCS rcs) s (fun d t => Accessed s t ∧ ReturnChecked s.cpl rcs d)
      (fun _ t => Accessed s t) := by
  unfold returnCS
  refine post_getState_bind ?_
  refine post_check (post_raise (accessed_refl s)) fun h0 => ?_
  refine post_check (post_raise (accessed_refl s)) fun h1 => ?_
  refine post_seq (accessed_post (keeps_readDescOr allowsAccess_accessed ..) (accessed_refl s))
    (fun d u hu => ?_) (fun _ _ h => h)
  refine post_check (post_raise hu) fun h2 => ?_
  refine post_check (post_raise hu) fun h3 => ?_
  refine post_check (post_raise hu) fun h4 => ?_
  refine post_check (post_raise hu) fun h5 => ?_
  refine post_pure ⟨hu, ⟨h0, by simpa using h1, by simpa using h2, by simpa using h3, ?_⟩⟩
  cases hc : d.conforming
  · simpa [hc] using h5
  · simpa [hc] using h4

theorem returnSS_post (rss : Word) (new : Level) (s : State) :
    Post (returnSS rss new) s (fun d t => Accessed s t ∧ StackChecked new rss d)
      (fun _ t => Accessed s t) := by
  unfold returnSS
  refine post_check (post_raise (accessed_refl s)) fun h0 => ?_
  refine post_seq (accessed_post (keeps_readDescOr allowsAccess_accessed ..) (accessed_refl s))
    (fun d u hu => ?_) (fun _ _ h => h)
  refine post_check (post_raise hu) fun h1 => ?_
  refine post_check (post_raise hu) fun h2 => ?_
  refine post_check (post_raise hu) fun h3 => ?_
  refine post_check (post_raise hu) fun h4 => ?_
  refine post_check (post_refuse hu) fun h5 => ?_
  have h3' : d.dpl = new := by simpa using h3
  have h4' : selRpl rss = d.dpl := by simpa using h4
  exact post_pure ⟨hu, ⟨by simpa using h0, h4'.trans h3', by simpa using h1, h3', by simpa using h2,
    by simpa using h5⟩⟩

/-- A return to the same level changes CS, ESP and EIP (R211). -/
theorem returnSame_post (rcs : Word) (d : Desc) (reip esp : Dword) (s : State) :
    Post (returnSame rcs d reip esp) s
      (fun _ w => d.big = true ∧ ∃ u x, Accessed s u ∧
        w = { u.withCS rcs d s.cpl with regs := x }.jumpTo reip)
      (fun _ w => Accessed s w) := by
  unfold returnSame
  refine post_getState_bind ?_
  refine post_check (post_raise (accessed_refl s)) fun _ => ?_
  refine post_seq (require32_post d s) (fun _ u hu => ?_) (fun _ w h => h ▸ accessed_refl s)
  obtain ⟨rfl, hb⟩ := hu
  refine post_seq (accessed_post (keeps_setAccessed allowsAccess_accessed ..) (accessed_refl u))
    (fun _ v hv => ?_) (fun _ _ h => h)
  exact post_update ⟨hb, v, _, hv, rfl⟩

/-- An interlevel return ends on the outer stack, with the data-segment registers that the outer level
may not use made null (R214, R216). -/
theorem returnOuter_post (rcs : Word) (d : Desc) (reip : Dword) (off : Nat) (n : Word) (s : State) :
    Post (returnOuter rcs d reip off n) s
      (fun _ w => d.big = true ∧ ∃ u sel sd esp, Accessed s u ∧ StackChecked (selRpl rcs) sel sd ∧
        w = (((u.withCS rcs d (selRpl rcs)).withStack sel sd esp).nullInaccessible (selRpl rcs)).jumpTo reip)
      (fun _ w => Accessed s w) := by
  unfold returnOuter
  refine post_getState_bind ?_
  refine post_check (post_raise (accessed_refl s)) fun _ => ?_
  refine post_seq (accessed_post (keeps_segReadDword allowsAccess_accessed ..) (accessed_refl s))
    (fun resp u hu => ?_) (fun _ _ h => h)
  refine post_seq (accessed_post (keeps_segReadDword allowsAccess_accessed ..) hu) (fun rssd v hv => ?_)
    (fun _ _ h => h)
  refine post_seq (returnSS_post (rssd.extractLsb' 0 16) (selRpl rcs) v) (fun sd v1 h1 => ?_)
    (fun _ _ h => accessed_trans hv h)
  have hv1 := accessed_trans hv h1.1
  refine post_check (post_raise hv1) fun _ => ?_
  refine post_seq (require32_post d v1) (fun _ v2 h2 => ?_) (fun _ w h => h ▸ hv1)
  obtain ⟨rfl, hb⟩ := h2
  refine post_seq (accessed_post (keeps_prepareAccessed allowsAccess_accessed ..) hv1)
    (fun _ v3 hv3 => ?_) (fun _ _ h => h)
  refine post_seq (accessed_post (keeps_prepareAccessed allowsAccess_accessed ..) hv3)
    (fun _ v4 hv4 => ?_) (fun _ _ h => h)
  exact post_update ⟨hb, _, _, sd, _, accessed_trans hv4 (allowsAccess_accessed.store v4 _), h1.2, rfl⟩

end Sys2Proof.Machine
end

