-- ==== Sys2Proof/Laws/Reads.lean ====
section
/-! SUPPORT. The operations that only read: where one answers, nothing but what accesses note has
changed (`ReadTo`); where one stops, CR2 may have changed as well (`StoppedTo`). One lemma per operation,
and what a write does in the terms of Safety.lean. -/

namespace Sys2Proof.Machine

open Sys2Proof

variable {α β : Type}

theorem State.ReadTo.refl (s : State) : s.ReadTo s := rfl

theorem State.ReadTo.trans {s t u : State} (h : s.ReadTo t) (k : t.ReadTo u) : s.ReadTo u := by
  unfold State.ReadTo at *
  rw [k, h]

theorem State.ReadTo.stopped {s t u : State} (h : s.ReadTo t) (k : t.StoppedTo u) : s.StoppedTo u := by
  unfold State.ReadTo at h
  unfold State.StoppedTo at *
  rw [h] at k
  exact k

theorem State.StoppedTo.refl (s : State) : s.StoppedTo s := rfl

theorem State.ReadTo.noteLookup (s : State) (lin : Dword) (es : List Nat) :
    s.ReadTo (s.noteLookup lin es) := rfl

theorem State.ReadTo.noteRead (s : State) (ps : List Nat) : s.ReadTo (s.noteRead ps) := rfl

section Fields

variable {s t : State} (h : s.ReadTo t)
include h

theorem State.ReadTo.regs : t.regs = s.regs := by rw [h]
theorem State.ReadTo.eip : t.eip = s.eip := by rw [h]
theorem State.ReadTo.nextEip : t.nextEip = s.nextEip := by rw [h]
theorem State.ReadTo.eflags : t.eflags = s.eflags := by rw [h]
theorem State.ReadTo.segs : t.segs = s.segs := by rw [h]
theorem State.ReadTo.cpl : t.cpl = s.cpl := by rw [h]
theorem State.ReadTo.gdtr : t.gdtr = s.gdtr := by rw [h]
theorem State.ReadTo.idtr : t.idtr = s.idtr := by rw [h]
theorem State.ReadTo.ldtr : t.ldtr = s.ldtr := by rw [h]
theorem State.ReadTo.tr : t.tr = s.tr := by rw [h]
theorem State.ReadTo.ctl : t.ctl = s.ctl := by rw [h]
theorem State.ReadTo.mem : t.mem = s.mem := by rw [h]
theorem State.ReadTo.pastMemory : t.pastMemory = s.pastMemory := by rw [h]
theorem State.ReadTo.storedAhead : t.storedAhead = s.storedAhead := by rw [h]
theorem State.ReadTo.memMap : t.memMap = s.memMap := by rw [h]
theorem State.ReadTo.deliverExceptions : t.deliverExceptions = s.deliverExceptions := by rw [h]
theorem State.ReadTo.userLevel : t.userLevel = s.userLevel := by rw [h]; rfl
theorem State.ReadTo.paging : t.paging = s.paging := by rw [h]; rfl

end Fields

/-- `t` is how a stop `e` leaves `s` where nothing was written: CR2 alone may differ, and only by the linear
address of the page fault that `e` is. -/
def State.StoppedBy (s : State) (e : Stop) (t : State) : Prop :=
  s.StoppedTo t ∧ (t.ctl.cr2 = s.ctl.cr2 ∨ ∃ c, e = .exc (.pf t.ctl.cr2 c))

theorem State.StoppedBy.refl (s : State) (e : Stop) : s.StoppedBy e s := ⟨rfl, .inl rfl⟩

theorem State.ReadTo.stoppedBy {s t u : State} {e : Stop} (h : s.ReadTo t) (k : t.StoppedBy e u) :
    s.StoppedBy e u := ⟨h.stopped k.1, h.ctl ▸ k.2⟩

/-- The operation only reads. -/
structure Reads (m : Exec α) : Prop where
  post : ∀ s, Post m s (fun _ t => s.ReadTo t) (fun e t => s.StoppedBy e t)

theorem Reads.of_ok {m : Exec α} {s t : State} {a : α} (h : Reads m) (r : m s = .ok a t) : s.ReadTo t :=
  (h.post s).of_ok r

theorem Reads.of_error {m : Exec α} {s t : State} {e : Stop} (h : Reads m) (r : m s = .error e t) :
    s.StoppedTo t := ((h.post s).of_error r).1

theorem Reads.stoppedBy {m : Exec α} {s t : State} {e : Stop} (h : Reads m) (r : m s = .error e t) :
    s.StoppedBy e t := (h.post s).of_error r

theorem reads_pure (a : α) : Reads (pure a) := ⟨fun _ => rfl⟩
theorem reads_raise (e : Exception) : Reads (raise e : Exec α) := ⟨fun s => .refl s _⟩
theorem reads_refuse (r : Refusal) : Reads (refuse r : Exec α) := ⟨fun s => .refl s _⟩

theorem reads_bind {m : Exec α} {f : α → Exec β} (hm : Reads m) (hf : ∀ a, Reads (f a)) :
    Reads (m >>= f) := ⟨fun s =>
  post_seq (hm.post s)
    (fun a t ht => ((hf a).post t).mono (fun _ _ hu => ht.trans hu) (fun _ _ hu => ht.stoppedBy hu))
    (fun _ _ ht => ht)⟩

theorem reads_getState_bind {f : State → Exec β} (hf : ∀ s, Reads (f s)) : Reads (getState >>= f) :=
  ⟨fun s => (hf s).post s⟩

theorem reads_ite {c : Prop} [Decidable c] {a b : Exec α} (ha : Reads a) (hb : Reads b) :
    Reads (if c then a else b) := by
  split <;> assumption

/-! ## Memory -/

theorem reads_raisePF (lin : Dword) (p : Bool) (acc : Access) (user : Bool) :
    Reads (raisePF lin p acc user : Exec α) := ⟨fun _ => ⟨rfl, .inr ⟨_, rfl⟩⟩⟩

theorem reads_pageCheck (acc : Access) (user : Bool) (lin : Dword) : Reads (pageCheck acc user lin) := by
  refine reads_getState_bind fun s => reads_ite (reads_pure _) ?_
  refine reads_bind ⟨fun s => State.ReadTo.noteLookup s _ _⟩ fun _ => ?_
  split
  · exact reads_refuse _
  · exact reads_raisePF ..
  · exact reads_ite (reads_raisePF ..) (reads_ite (reads_raisePF ..) (reads_pure _))

theorem reads_pageCheckRange (acc : Access) (user : Bool) (lin : Dword) (n : Nat) :
    Reads (pageCheckRange acc user lin n) := by
  induction n generalizing lin with
  | zero => exact reads_pure _
  | succ n ih =>
    exact reads_bind (reads_pageCheck ..) fun _ => reads_bind (ih _) fun _ => reads_pure _

theorem reads_requireMemory (ps : List Nat) : Reads (requireMemory ps) :=
  reads_getState_bind fun _ => reads_ite (reads_pure _) (reads_refuse _)

theorem reads_translateRange (acc : Access) (user : Bool) (lin : Dword) (n : Nat) :
    Reads (translateRange acc user lin n) :=
  reads_bind (reads_pageCheckRange ..) fun _ => reads_bind (reads_requireMemory _) fun _ => reads_pure _

theorem reads_readPhys (ps : List Nat) : Reads (readPhys ps) :=
  reads_getState_bind fun _ => reads_bind ⟨fun s => State.ReadTo.noteRead s _⟩ fun _ => reads_pure _

theorem reads_readBytes (user : Bool) (lin : Dword) (n : Nat) : Reads (readBytes user lin n) :=
  reads_bind (reads_translateRange ..) fun _ => reads_readPhys _

theorem reads_prepareWrite (user : Bool) (lin : Dword) (bs : List Byte) :
    Reads (prepareWrite user lin bs) := reads_bind (reads_translateRange ..) fun _ => reads_pure _

theorem reads_memRead (lin : Dword) (n : Nat) : Reads (memRead lin n) :=
  reads_getState_bind fun _ => reads_readBytes ..

theorem reads_sysRead (lin : Dword) (n : Nat) : Reads (sysRead lin n) := reads_readBytes ..

theorem reads_checkBytes (acc : Access) (user : Bool) (lin : Dword) (n : Nat) :
    Reads (checkBytes acc user lin n) := reads_bind (reads_pageCheckRange ..) fun _ => reads_pure _

theorem reads_segCheck (name : SegName) (off : Dword) (n : Nat) (wr : Bool) :
    Reads (segCheck name off n wr) := by
  refine reads_getState_bind fun s => ?_
  dsimp only
  exact reads_ite (reads_raise _) <| reads_ite (reads_raise _) <| reads_ite (reads_raise _) <|
    reads_ite (reads_raise _) <| reads_ite (reads_ite (reads_raise _) (reads_raise _)) (reads_pure _)

theorem reads_segRead (name : SegName) (off : Dword) (n : Nat) : Reads (segRead name off n) :=
  reads_bind (reads_segCheck ..) fun _ => reads_memRead ..

theorem reads_segReadWord (name : SegName) (off : Dword) : Reads (segReadWord name off) :=
  reads_bind (reads_segRead ..) fun _ => reads_pure _

theorem reads_segReadDword (name : SegName) (off : Dword) : Reads (segReadDword name off) :=
  reads_bind (reads_segRead ..) fun _ => reads_pure _

/-! ## Descriptors, checks and operands -/

theorem reads_readDesc (sel : Word) : Reads (readDesc sel) :=
  reads_getState_bind fun _ => reads_ite (reads_bind (reads_sysRead ..) fun _ => reads_pure _) (reads_pure _)

theorem reads_readDescOr (sel : Word) (e : Exception) : Reads (readDescOr sel e) := by
  refine reads_bind (reads_readDesc _) fun d => ?_
  split
  · exact reads_pure _
  · exact reads_raise _

theorem reads_lookupDesc (sel : Word) : Reads (lookupDesc sel) :=
  reads_ite (reads_pure _) (reads_readDesc _)

theorem reads_prepareAccessed (sel : Word) (d : Desc) : Reads (prepareAccessed sel d) :=
  reads_getState_bind fun _ => reads_ite (reads_pure _) (reads_prepareWrite ..)

theorem reads_preparePush (vs : List Dword) : Reads (preparePush vs) :=
  reads_getState_bind fun _ => reads_bind (reads_segCheck ..) fun _ => reads_prepareWrite ..

theorem reads_require32 (d : Desc) : Reads (require32 d) := reads_ite (reads_pure _) (reads_refuse _)

theorem reads_nearTarget (target : Dword) : Reads (nearTarget target) :=
  reads_getState_bind fun _ => reads_ite (reads_pure _) (reads_raise _)

theorem reads_privileged : Reads privileged :=
  reads_getState_bind fun _ => reads_ite (reads_pure _) (reads_raise _)

theorem reads_readRM16 (x : RM) : Reads (readRM16 x) := by
  cases x with
  | reg r => exact reads_getState_bind fun _ => reads_pure _
  | mem m => exact reads_getState_bind fun _ => reads_segReadWord ..

theorem reads_readRM32 (x : RM) : Reads (readRM32 x) := by
  cases x with
  | reg r => exact reads_getState_bind fun _ => reads_pure _
  | mem m => exact reads_getState_bind fun _ => reads_segReadDword ..

theorem reads_checkWritableRM16 (x : RM) : Reads (checkWritableRM16 x) := by
  cases x with
  | reg r => exact reads_pure _
  | mem m => exact reads_getState_bind fun _ => reads_bind (reads_segCheck ..) fun _ => reads_checkBytes ..

theorem reads_readFarPointer (x : RM) : Reads (readFarPointer x) := by
  cases x with
  | reg r => exact reads_raise _
  | mem m => exact reads_getState_bind fun _ => reads_bind (reads_segRead ..) fun _ => reads_pure _

theorem reads_readTableOperand (x : RM) : Reads (readTableOperand x) := by
  cases x with
  | reg r => exact reads_raise _
  | mem m =>
    exact reads_getState_bind fun _ => reads_bind (reads_segReadWord ..) fun _ =>
      reads_bind (reads_segReadDword ..) fun _ => reads_pure _

/-! ## Transfers -/

theorem reads_innerStack (new : Level) : Reads (innerStack new) := by
  refine reads_getState_bind fun s => reads_ite (reads_raise _) ?_
  refine reads_bind (reads_sysRead ..) fun _ => reads_bind (reads_sysRead ..) fun _ => ?_
  refine reads_ite (reads_raise _) (reads_bind (reads_readDescOr ..) fun d => ?_)
  exact reads_ite (reads_raise _) <| reads_ite (reads_raise _) <| reads_ite (reads_raise _) <|
    reads_ite (reads_raise _) <| reads_ite (reads_refuse _) (reads_pure _)

theorem reads_gateTarget (tsel : Word) : Reads (gateTarget tsel) :=
  reads_ite (reads_raise _) <| reads_bind (reads_readDescOr ..) fun _ =>
    reads_ite (reads_raise _) (reads_pure _)

theorem reads_readParams (i n : Nat) : Reads (readParams i n) := by
  induction n generalizing i with
  | zero => exact reads_pure _
  | succ n ih =>
    exact reads_getState_bind fun _ => reads_bind (reads_segReadDword ..) fun _ =>
      reads_bind (ih _) fun _ => reads_pure _

theorem reads_callFrame (count : Nat) : Reads (callFrame count) :=
  reads_bind (reads_readParams ..) fun _ => reads_getState_bind fun _ => reads_pure _

theorem reads_returnCS (rcs : Word) : Reads (returnCS rcs) := by
  refine reads_getState_bind fun s => reads_ite (reads_raise _) <| reads_ite (reads_raise _) <|
    reads_bind (reads_readDescOr ..) fun d => ?_
  exact reads_ite (reads_raise _) <| reads_ite (reads_raise _) <| reads_ite (reads_raise _) <|
    reads_ite (reads_raise _) (reads_pure _)

theorem reads_returnSS (rss : Word) (new : Level) : Reads (returnSS rss new) := by
  refine reads_ite (reads_raise _) <| reads_bind (reads_readDescOr ..) fun d => ?_
  exact reads_ite (reads_raise _) <| reads_ite (reads_raise _) <| reads_ite (reads_raise _) <|
    reads_ite (reads_raise _) <| reads_ite (reads_refuse _) (reads_pure _)

theorem reads_idtGate (n : Nat) (software : Bool) : Reads (idtGate n software) := by
  refine reads_getState_bind fun s => reads_ite (reads_raise _) <|
    reads_bind (reads_sysRead ..) fun bs => ?_
  exact reads_ite (reads_raise _) <| reads_ite (reads_refuse _) <| reads_ite (reads_raise _) <|
    reads_ite (reads_raise _) <| reads_ite (reads_refuse _) (reads_pure _)

theorem reads_incomingTss (cause : SwitchCause) (tsel : Word) : Reads (incomingTss cause tsel) := by
  refine reads_getState_bind fun s => reads_ite (reads_raise _) <| reads_ite (reads_raise _) <|
    reads_bind (reads_sysRead ..) fun bs => ?_
  exact reads_ite (reads_raise _) <| reads_ite (reads_refuse _) <| reads_ite (reads_raise _) <|
    reads_ite (reads_raise _) <| reads_ite (reads_raise _) <| reads_ite (reads_raise _) (reads_pure _)

theorem reads_accessByteAddrs (sel : Word) : Reads (accessByteAddrs sel) :=
  reads_getState_bind fun _ => reads_bind (reads_pageCheck ..) fun _ =>
    reads_bind (reads_pageCheck ..) fun _ => reads_pure _

theorem reads_accessByteAddrsIf (c : Bool) (sel : Word) : Reads (accessByteAddrsIf c sel) :=
  reads_ite (reads_bind (reads_accessByteAddrs _) fun _ => reads_pure _) (reads_pure _)

theorem reads_prepareSwitch (cause : SwitchCause) (tsel : Word) (d : Desc) :
    Reads (prepareSwitch cause tsel d) :=
  reads_getState_bind fun _ =>
    reads_bind (reads_pageCheckRange ..) fun _ => reads_bind (reads_pageCheckRange ..) fun _ =>
    reads_bind (reads_pageCheckRange ..) fun _ => reads_bind (reads_accessByteAddrsIf ..) fun _ =>
    reads_bind (reads_accessByteAddrsIf ..) fun _ => reads_bind (reads_requireMemory _) fun _ =>
    reads_pure _

/-! ## Fetching -/

theorem reads_fetchLimit (n : Nat) : Reads (fetchLimit n) :=
  reads_getState_bind fun _ => reads_ite (reads_raise _) (reads_ite (reads_raise _) (reads_pure _))

theorem reads_fetchBytes (k n : Nat) : Reads (fetchBytes k n) :=
  reads_getState_bind fun _ => reads_bind (reads_translateRange ..) fun _ =>
    reads_getState_bind fun _ => reads_ite (reads_refuse _) (reads_readPhys _)

theorem reads_fetchFrom (bytes : List Byte) (fuel : Nat) : Reads (fetchFrom bytes fuel) := by
  induction fuel generalizing bytes with
  | zero =>
    unfold fetchFrom
    split
    · exact reads_raise _
    · exact reads_pure _
  | succ n ih =>
    unfold fetchFrom
    split
    · exact reads_ite (reads_raise _) <| reads_bind (reads_fetchLimit _) fun _ =>
        reads_bind (reads_fetchBytes ..) fun _ => ih _
    · exact reads_pure _

theorem reads_fetch : Reads fetch := reads_fetchFrom _ _

end Sys2Proof.Machine
end

