-- ==== Sys2Proof/Laws/Stores.lean ====
section
/-! SUPPORT. What the operations that store do, in the terms of Safety.lean: `StoredTo s ps t` says that `t`
is `s` but for the bytes at `ps` and for what accesses and stores note. -/

namespace Sys2Proof.Machine

open Sys2Proof

theorem State.StoredTo.refl (s : State) : s.StoredTo [] s := ⟨rfl, fun _ _ => rfl⟩

theorem State.ReadTo.storedTo {s t : State} (h : s.ReadTo t) : s.StoredTo [] t := by
  refine ⟨?_, fun a _ => by rw [h.mem]⟩
  rw [h]

theorem State.StoredTo.trans {s t u : State} {ps qs : List Nat} (h : s.StoredTo ps t)
    (k : t.StoredTo qs u) : s.StoredTo (ps ++ qs) u := by
  refine ⟨?_, fun a ha => ?_⟩
  · have h1 := h.1
    have h2 := k.1
    rw [h1] at h2
    exact h2
  · rw [List.mem_append, not_or] at ha
    rw [k.2 a ha.2, h.2 a ha.1]

theorem State.StoredTo.after_read {s t u : State} {ps : List Nat} (h : s.ReadTo t)
    (k : t.StoredTo ps u) : s.StoredTo ps u := h.storedTo.trans k

theorem State.StoredTo.then_read {s t u : State} {ps : List Nat} (h : s.StoredTo ps t)
    (k : t.ReadTo u) : s.StoredTo ps u := by
  simpa using h.trans k.storedTo

theorem State.StoredTo.mono {s t : State} {ps qs : List Nat} (h : s.StoredTo ps t)
    (k : ∀ a ∈ ps, a ∈ qs) : s.StoredTo qs t := ⟨h.1, fun a ha => h.2 a fun hp => ha (k a hp)⟩

section Fields

variable {s t : State} {ps : List Nat} (h : s.StoredTo ps t)
include h

theorem State.StoredTo.regs : t.regs = s.regs := by rw [h.1]
theorem State.StoredTo.eip : t.eip = s.eip := by rw [h.1]
theorem State.StoredTo.nextEip : t.nextEip = s.nextEip := by rw [h.1]
theorem State.StoredTo.eflags : t.eflags = s.eflags := by rw [h.1]
theorem State.StoredTo.segs : t.segs = s.segs := by rw [h.1]
theorem State.StoredTo.cpl : t.cpl = s.cpl := by rw [h.1]
theorem State.StoredTo.gdtr : t.gdtr = s.gdtr := by rw [h.1]
theorem State.StoredTo.idtr : t.idtr = s.idtr := by rw [h.1]
theorem State.StoredTo.ldtr : t.ldtr = s.ldtr := by rw [h.1]
theorem State.StoredTo.tr : t.tr = s.tr := by rw [h.1]
theorem State.StoredTo.ctl : t.ctl = s.ctl := by rw [h.1]
theorem State.StoredTo.userLevel : t.userLevel = s.userLevel := by rw [h.1]; rfl
theorem State.StoredTo.paging : t.paging = s.paging := by rw [h.1]; rfl
theorem State.StoredTo.memMap : t.memMap = s.memMap := by rw [h.1]

end Fields

/-- `StoredTo` field by field. -/
theorem State.storedTo_iff (s t : State) (ps : List Nat) : s.StoredTo ps t ↔
    (t.regs = s.regs ∧ t.eip = s.eip ∧ t.nextEip = s.nextEip ∧ t.eflags = s.eflags ∧ t.segs = s.segs ∧
      t.cpl = s.cpl ∧ t.gdtr = s.gdtr ∧ t.idtr = s.idtr ∧ t.ldtr = s.ldtr ∧ t.tr = s.tr ∧
      t.ctl = s.ctl ∧ t.activity = s.activity ∧ t.debugTrap = s.debugTrap ∧
      t.deliverExceptions = s.deliverExceptions ∧ t.memMap = s.memMap) ∧
    ∀ a, a ∉ ps → t.mem.read a = s.mem.read a := by
  unfold State.StoredTo
  cases s
  cases t
  simp only [State.mk.injEq, true_and]

theorem State.storedTo_store (s : State) (cells : List Host.Cell) :
    s.StoredTo (cells.map (·.1)) (s.store cells) :=
  ⟨rfl, fun _ ha => Memory.read_writeAll_other cells ha⟩

theorem State.storedTo_storeBytes (s : State) (ps : List Nat) (bs : List Byte) :
    s.StoredTo ps (s.storeBytes ps bs) := ⟨rfl, fun _ ha => State.storeBytes_read_other s ps bs ha⟩

/-- The checks of a write give each byte its address. -/
theorem prepareWrite_ok {user : Bool} {lin : Dword} {bs : List Byte} {s u : State}
    {cells : List Host.Cell} (h : prepareWrite user lin bs s = .ok cells u) :
    ∃ ps, translateRange .write user lin bs.length s = .ok ps u ∧ cells = ps.zip bs := by
  obtain ⟨ps, v, h1, h2⟩ := bind_eq_ok h
  simp only [run_pure, EStateM.Result.ok.injEq] at h2
  obtain ⟨rfl, rfl⟩ := h2
  exact ⟨ps, h1, rfl⟩

theorem prepareWrite_of_translate {user : Bool} {lin : Dword} {bs : List Byte} {s u : State}
    {ps : List Nat} (h : translateRange .write user lin bs.length s = .ok ps u) :
    prepareWrite user lin bs s = .ok (ps.zip bs) u := by
  unfold prepareWrite
  rw [run_bind_ok h, run_pure]

/-- A write is the translation of every byte and then the stores. -/
theorem writeBytes_of_translate {user : Bool} {lin : Dword} {bs : List Byte} {s u : State}
    {ps : List Nat} (h : translateRange .write user lin bs.length s = .ok ps u) :
    writeBytes user lin bs s = .ok () (u.storeBytes ps bs) := by
  unfold writeBytes
  rw [run_bind_ok (prepareWrite_of_translate h), run_update]
  rfl

theorem writeBytes_ok {user : Bool} {lin : Dword} {bs : List Byte} {s t : State}
    (h : writeBytes user lin bs s = .ok () t) :
    ∃ ps u, translateRange .write user lin bs.length s = .ok ps u ∧ t = u.storeBytes ps bs := by
  obtain ⟨cells, u, h1, h2⟩ := bind_eq_ok h
  obtain ⟨ps, h3, rfl⟩ := prepareWrite_ok h1
  simp only [run_update, EStateM.Result.ok.injEq, true_and] at h2
  exact ⟨ps, u, h3, h2.symm⟩

theorem writeBytes_error {user : Bool} {lin : Dword} {bs : List Byte} {s t : State} {e : Stop}
    (h : writeBytes user lin bs s = .error e t) :
    translateRange .write user lin bs.length s = .error e t := by
  unfold writeBytes prepareWrite at h
  simp only [run_bind] at h
  split at h
  · cases h
  · rename_i h1
    split at h1
    · cases h1
    · rename_i h2
      cases h1
      cases h
      exact h2

theorem pageCheckRange_length {acc : Access} {user : Bool} {lin : Dword} {n : Nat} {s t : State}
    {ps : List Nat} (h : pageCheckRange acc user lin n s = .ok ps t) : ps.length = n := by
  induction n generalizing lin s ps with
  | zero =>
    simp only [pageCheckRange, run_pure, EStateM.Result.ok.injEq] at h
    simp [← h.1]
  | succ n ih =>
    obtain ⟨p, u, _, h2⟩ := bind_eq_ok h
    obtain ⟨qs, v, h3, h4⟩ := bind_eq_ok h2
    simp only [run_pure, EStateM.Result.ok.injEq] at h4
    obtain ⟨rfl, rfl⟩ := h4
    rw [List.length_cons, ih h3]

/-- As many physical addresses as bytes. -/
theorem translateRange_length {acc : Access} {user : Bool} {lin : Dword} {n : Nat} {s t : State}
    {ps : List Nat} (h : translateRange acc user lin n s = .ok ps t) : ps.length = n := by
  obtain ⟨qs, u, h, h'⟩ := bind_eq_ok h
  obtain ⟨_, v, -, h'⟩ := bind_eq_ok h'
  simp only [run_pure, EStateM.Result.ok.injEq] at h'
  rw [← h'.1]
  exact pageCheckRange_length h

/-- What `SetAccessed` stores, and where. -/
theorem setAccessed_storedTo {sel : Word} {d : Desc} {s t : State} (h : setAccessed sel d s = .ok () t) :
    s.StoredTo (accessedStores sel d s) t := by
  obtain ⟨cells, u, h1, h2⟩ := bind_eq_ok h
  simp only [run_update, EStateM.Result.ok.injEq, true_and] at h2
  subst h2
  have hs : accessedStores sel d s = cells.map (·.1) := by unfold accessedStores; rw [h1]
  rw [hs]
  exact State.StoredTo.after_read ((reads_prepareAccessed ..).of_ok h1) (State.storedTo_store u cells)

theorem preparePush_of_pushPrepared {s u : State} {vs : List Dword} {cells : List Host.Cell}
    (h : PushPrepared s vs cells u) : preparePush vs s = .ok cells u := by
  obtain ⟨lin, ps, h1, h2, rfl⟩ := h
  have hl : (vs.reverse.flatMap dwordBytes).length = 4 * vs.length := by
    rw [flatMap_dwordBytes_length, List.length_reverse]
  unfold preparePush
  rw [run_bind_getState]
  rw [show s.regs.pushed vs.length = s.regs.esp - BitVec.ofNat 32 (4 * vs.length) from rfl,
    run_bind_ok h1]
  exact prepareWrite_of_translate (by rw [hl]; exact h2)

theorem pushPrepared_readTo {s u : State} {vs : List Dword} {cells : List Host.Cell}
    (h : PushPrepared s vs cells u) : s.ReadTo u :=
  (reads_preparePush vs).of_ok (preparePush_of_pushPrepared h)

/-- What a push does. -/
theorem pushAll_of_pushedTo {s t : State} {vs : List Dword} {ps : List Nat} (h : PushedTo s vs ps t) :
    pushAll vs s = .ok () t := by
  obtain ⟨cells, u, h1, -, rfl⟩ := h
  unfold pushAll
  rw [run_bind_ok (preparePush_of_pushPrepared h1), run_update]
  simp only [State.withEsp, State.store_regs, Regs.pushed, (pushPrepared_readTo h1).regs]

theorem pushedTo_storedTo {s t : State} {vs : List Dword} {ps : List Nat} (h : PushedTo s vs ps t) :
    s.StoredTo ps { t with regs := s.regs } ∧
      t.regs = { s.regs with esp := s.regs.esp - BitVec.ofNat 32 (4 * vs.length) } := by
  obtain ⟨cells, u, h1, rfl, rfl⟩ := h
  have hr := pushPrepared_readTo h1
  refine ⟨?_, rfl⟩
  have hs := State.StoredTo.after_read hr (State.storedTo_store u cells)
  refine ⟨?_, hs.2⟩
  have h := hs.1
  generalize u.store cells = w at h
  rw [h]

end Sys2Proof.Machine
end

