-- ==== Sys2Proof/Laws/Ops.lean ====
section
/-! SUPPORT. How a meaning ends, and small facts about the shared operations that the proofs about
instructions cite. -/

namespace Sys2Proof.Machine

open Sys2Proof

theorem conclude_ok {m : Exec Unit} {s t : State} (h : m s = .ok () t) : conclude m s = .next t := by
  unfold conclude; rw [h]

theorem conclude_exc {m : Exec Unit} {s t : State} {e : Exception} (h : m s = .error (.exc e) t) :
    conclude m s = takeException e t := by
  unfold conclude; rw [h]

theorem conclude_refuse {m : Exec Unit} {s t : State} {r : Refusal} (h : m s = .error (.refuse r) t) :
    conclude m s = .refused r := by
  unfold conclude; rw [h]

@[simp] theorem run_advance (s : State) : advance s = .ok () { s with eip := s.nextEip } := rfl

@[simp] theorem run_setReg (r : Reg) (v : Dword) (s : State) :
    setReg r v s = .ok () { s with regs := s.regs.set r v } := rfl

@[simp] theorem run_setReg16 (r : Reg) (v : Word) (s : State) :
    setReg16 r v s = .ok () { s with regs := s.regs.set16 r v } := rfl

@[simp] theorem run_writeZF (b : Bool) (s : State) :
    writeZF b s = .ok () { s with eflags := setZF s.eflags b } := rfl

@[simp] theorem run_drawFlags (s : State) : drawFlags s =
    .ok () { s with eflags := drawArithFlags s.eflags (Config.movFlags s.draws) } := rfl

theorem privileged_ok {s : State} (h : s.cpl = 0) : privileged s = .ok () s := by
  unfold privileged
  rw [run_bind_getState, run_ite, if_pos h, run_pure]

theorem privileged_raises {s : State} (h : s.cpl ≠ 0) : privileged s = .error (.exc (.gp 0)) s := by
  unfold privileged
  rw [run_bind_getState, run_ite, if_neg h, run_raise]

theorem readDescOr_some {sel : Word} {e : Exception} {d : Desc} {s t : State}
    (h : readDesc sel s = .ok (some d) t) : readDescOr sel e s = .ok d t := by
  unfold readDescOr; rw [run_bind_ok h]; rfl

theorem readDescOr_none {sel : Word} {e : Exception} {s t : State} (h : readDesc sel s = .ok none t) :
    readDescOr sel e s = .error (.exc e) t := by
  unfold readDescOr; rw [run_bind_ok h]; rfl

theorem gateTarget_ok {tsel : Word} {d : Desc} {s t : State} (hn : isNull tsel = false)
    (h : readDesc tsel s = .ok (some d) t) (hc : d.isCode = true) : gateTarget tsel s = .ok d t := by
  unfold gateTarget
  simp only [hn, Bool.false_eq_true, if_false]
  rw [run_bind_ok (readDescOr_some h)]
  simp [hc]

theorem enterCode_of_entered {sel : Word} {d : Desc} {target : Dword} {pushed : List Host.Cell}
    {esp : Dword} {s t : State} {ps : List Nat} (h : EnteredCode sel d target pushed esp s ps t) :
    enterCode sel d target pushed esp s = .ok () t := by
  obtain ⟨mark, u, hb, ha, -, rfl⟩ := h
  have hr : require32 d s = .ok () s := by simp [require32, hb]
  unfold enterCode
  rw [run_bind_ok hr, run_bind_ok ha, run_update, ((reads_prepareAccessed ..).of_ok ha).cpl]

/-- The state after control entered a code segment at the current level. -/
theorem enteredCode_storedTo {sel : Word} {d : Desc} {target : Dword} {pushed : List Host.Cell}
    {esp : Dword} {s t : State} {ps : List Nat} (h : EnteredCode sel d target pushed esp s ps t) :
    s.StoredTo ps { t with segs := s.segs, eip := s.eip, regs := s.regs } ∧ t.cpl = s.cpl ∧
      t.eip = target ∧ t.regs = { s.regs with esp := esp } ∧ t.eflags = s.eflags ∧
      t.segs = { s.segs with cs := cacheOf (sel.extractLsb' 2 14 ++ s.cpl) d } := by
  obtain ⟨mark, u, hb, ha, rfl, rfl⟩ := h
  have hr := (reads_prepareAccessed ..).of_ok ha
  have hs := State.StoredTo.after_read hr (State.storedTo_store u (pushed ++ mark))
  refine ⟨⟨?_, hs.2⟩, rfl, rfl, ?_, hs.eflags, ?_⟩
  · have := hs.1
    simp only [State.withCS, State.jumpTo, State.discardPrefetch, State.withEsp]
    rw [this]
  · simp only [State.jumpTo_regs, State.withCS_regs, State.withEsp_regs, hs.regs]
  · simp only [State.jumpTo_segs, State.withCS_segs, State.withEsp_segs, hs.segs]

/-- Which fetches meet a stale byte (R112). -/
theorem State.anyStale_iff {s : State} {lin : Dword} {n : Nat} :
    s.anyStale lin n = true ↔ ∃ k < n, lin + BitVec.ofNat 32 k ∈ s.storedAhead := by
  simp only [State.anyStale, List.any_eq_true, List.mem_range, List.contains_iff_mem]

theorem whileTaken_ok {m : Exec Unit} {s t : State} (h : m s = .ok () t) :
    whileTaken m s = .ok () t.discardPrefetch := by
  simp only [whileTaken, h]

theorem whileTaken_error {m : Exec Unit} {s t : State} {e : Stop} (h : m s = .error e t) :
    whileTaken m s = .error e t.discardPrefetch := by
  simp only [whileTaken, h]

theorem requireMemory_ok {s : State} {ps : List Nat} (h : ∀ p ∈ ps, s.hasMemory p = true) :
    requireMemory ps s = .ok () s := by
  unfold requireMemory
  rw [run_bind_getState, run_ite, if_pos (List.all_eq_true.mpr h), run_pure]

theorem requireMemory_refuses {s : State} {ps : List Nat} {p : Nat} (hp : p ∈ ps)
    (h : s.hasMemory p = false) : requireMemory ps s = .error (.refuse .noMemory) s := by
  unfold requireMemory
  rw [run_bind_getState, run_ite, if_neg fun hall => by
    simp [List.all_eq_true.mp hall p hp] at h, run_refuse]

/-- `translateRange` gives addresses exactly where the page checks pass and there is memory at all of them:
all page checks come first (R103). -/
theorem translateRange_ok_iff {acc : Access} {user : Bool} {lin : Dword} {n : Nat} {s t : State}
    {ps : List Nat} : translateRange acc user lin n s = .ok ps t ↔
      pageCheckRange acc user lin n s = .ok ps t ∧ ∀ p ∈ ps, t.hasMemory p = true := by
  unfold translateRange
  constructor
  · intro h
    obtain ⟨qs, u, h1, h2⟩ := bind_eq_ok h
    by_cases hm : ∀ p ∈ qs, u.hasMemory p = true
    · rw [run_bind_ok (requireMemory_ok hm), run_pure] at h2
      cases h2
      exact ⟨h1, hm⟩
    · simp only [not_forall, Bool.not_eq_true] at hm
      obtain ⟨p, hp, hf⟩ := hm
      rw [run_bind_error (requireMemory_refuses hp hf)] at h2
      cases h2
  · rintro ⟨h1, h2⟩
    rw [run_bind_ok h1, run_bind_ok (requireMemory_ok h2), run_pure]

/-- The page checks of a range that pass are those of its first bytes, and then of the others. -/
theorem pageCheckRange_split {acc : Access} {user : Bool} {lin : Dword} {m n : Nat} {s t : State}
    {ps : List Nat} (h : pageCheckRange acc user lin (m + n) s = .ok ps t) :
    ∃ u, pageCheckRange acc user lin m s = .ok (ps.take m) u ∧
      pageCheckRange acc user (lin + BitVec.ofNat 32 m) n u = .ok (ps.drop m) t := by
  induction m generalizing lin s ps with
  | zero => exact ⟨s, rfl, by simpa using h⟩
  | succ m ih =>
    rw [Nat.succ_add] at h
    obtain ⟨p, u, h1, h2⟩ := bind_eq_ok h
    obtain ⟨qs, v, h3, h4⟩ := bind_eq_ok h2
    cases h4
    obtain ⟨w, h5, h6⟩ := ih h3
    refine ⟨w, ?_, ?_⟩
    · show (pageCheck acc user lin >>= _) s = _
      rw [run_bind_ok h1, run_bind_ok h5, run_pure]
      rfl
    · rw [List.drop_succ_cons, Nat.add_comm m 1, BitVec.ofNat_add, ← BitVec.add_assoc]
      exact h6

/-- An inward transfer whose stack is found and whose frame is read completes. -/
theorem innerTransfer_of_entered {csel : Word} {c : Desc} {target nesp : Dword} {nss : Word} {d : Desc}
    {count : Nat} {frame : Exec (List Dword)} {vs : List Dword} {s u v t : State} {ps : List Nat}
    (hi : innerStack c.dpl s = .ok (nesp, nss, d) u) (hf : frame u = .ok vs v)
    (hc : vs.length = count) (h : EnteredInner csel c target nesp nss d vs v ps t) :
    innerTransfer csel c target count frame s = .ok () t := by
  subst hc
  obtain ⟨qs, m1, m2, u1, v1, w1, h1, h2, h3, h4, h5, h6, -, rfl⟩ := h
  have hl : (vs.reverse.flatMap dwordBytes).length = 4 * vs.length := by
    rw [flatMap_dwordBytes_length, List.length_reverse]
  have hr : require32 c u1 = .ok () u1 := by simp [require32, h3]
  have hw := prepareWrite_of_translate (bs := vs.reverse.flatMap dwordBytes) (by rw [hl]; exact h4)
  unfold innerTransfer
  rw [run_bind_ok hi]
  simp only [h1, h2, Bool.not_true, Bool.false_eq_true, if_false]
  rw [run_bind_ok hf, run_bind_ok hw, run_bind_ok hr, run_bind_ok h5, run_bind_ok h6, run_update]

theorem enteredInner_storedTo {csel : Word} {c : Desc} {target nesp : Dword} {nss : Word} {d : Desc}
    {vs : List Dword} {s t : State} {ps : List Nat}
    (h : EnteredInner csel c target nesp nss d vs s ps t) :
    s.StoredTo ps
        { t with segs := { t.segs with cs := s.segs.cs, ss := s.segs.ss }
                 regs := s.regs, eip := s.eip, cpl := s.cpl } ∧
      t.cpl = c.dpl ∧ t.eip = target ∧ t.segs.ss = cacheOf nss d ∧
      t.segs.cs = cacheOf (csel.extractLsb' 2 14 ++ c.dpl) c ∧ t.eflags = s.eflags ∧
      t.regs = { s.regs with esp := nesp - BitVec.ofNat 32 (4 * vs.length) } := by
  obtain ⟨qs, m1, m2, u1, v1, w1, h1, h2, h3, h4, h5, h6, rfl, rfl⟩ := h
  have hl : qs.length = (vs.reverse.flatMap dwordBytes).length := by
    rw [translateRange_length h4, flatMap_dwordBytes_length, List.length_reverse]
  have k1 := (reads_translateRange ..).of_ok h4
  have k2 := (reads_prepareAccessed ..).of_ok h5
  have k3 := (reads_prepareAccessed ..).of_ok h6
  have k := State.StoredTo.after_read ((k1.trans k2).trans k3)
    (State.storedTo_store w1 (m1 ++ qs.zip (vs.reverse.flatMap dwordBytes) ++ m2))
  rw [List.map_append, List.map_append, map_fst_zip_bytes hl] at k
  refine ⟨⟨?_, k.2⟩, rfl, rfl, rfl, rfl, k.eflags, ?_⟩
  · have := k.1
    simp only [State.withCS, State.withStack, State.jumpTo, State.discardPrefetch]
    rw [this]
  · simp only [State.withCS, State.withStack, State.jumpTo, State.discardPrefetch]
    rw [k.regs]

end Sys2Proof.Machine
end

