-- ==== Sys2Proof/Laws/PerInstr.lean ====
section
/-! SUPPORT. Facts stated of every instruction, one lemma per constructor of Instr. -/

namespace Sys2Proof.Laws

open Sys2Proof

theorem dwordBytes_length (d : Dword) : (dwordBytes d).length = 4 := rfl

theorem encodeOverride_length (x : RM) : (encodeOverride x).length ≤ 1 := by
  cases x with
  | reg r => exact Nat.zero_le _
  | mem m =>
    simp only [encodeOverride]
    split <;> simp

theorem encodeMem_length (reg : BitVec 3) (m : MemOperand) :
    0 < (encodeMem reg m).length ∧ (encodeMem reg m).length ≤ 6 := by
  unfold encodeMem
  split
  · simp [dwordBytes_length]
  · simp [dwordBytes_length]
  · split <;> simp [dwordBytes_length]
  · simp [dwordBytes_length]

theorem encodeRM_length (reg : BitVec 3) (x : RM) :
    0 < (encodeRM reg x).length ∧ (encodeRM reg x).length ≤ 6 := by
  cases x with
  | reg r => exact ⟨Nat.succ_pos _, by simp [encodeRM]⟩
  | mem m => exact encodeMem_length reg m

theorem encodeWithRM_length (opcode : List Byte) (reg : BitVec 3) (x : RM) (h : opcode.length ≤ 2) :
    0 < (encodeWithRM opcode reg x).length ∧ (encodeWithRM opcode reg x).length ≤ maxInstrLen := by
  have h1 := encodeOverride_length x
  have h2 := encodeRM_length reg x
  simp only [encodeWithRM, List.length_append, maxInstrLen]
  omega

namespace EncodeLength

/-- The encoding of the instruction is not empty, and is no longer than an instruction may be (R142). -/
def Statement (i : Instr) : Prop := 0 < (encode i).length ∧ (encode i).length ≤ maxInstrLen

theorem movSreg (sreg : BitVec 3) (src : RM) : Statement (.movSreg sreg src) :=
  encodeWithRM_length _ _ _ (by decide)

theorem jmpRel8 (rel : Byte) : Statement (.jmpRel8 rel) :=
  ⟨Nat.succ_pos _, Nat.le_of_ble_eq_true rfl⟩

theorem jmpRel32 (rel : Dword) : Statement (.jmpRel32 rel) :=
  ⟨Nat.succ_pos _, Nat.le_of_ble_eq_true rfl⟩

theorem jmpRm (target : RM) : Statement (.jmpRm target) :=
  encodeWithRM_length _ _ _ (by decide)

theorem jmpFar (sel : Word) (off : Dword) : Statement (.jmpFar sel off) :=
  ⟨Nat.succ_pos _, Nat.le_of_ble_eq_true rfl⟩

theorem jmpFarMem (ptr : RM) : Statement (.jmpFarMem ptr) :=
  encodeWithRM_length _ _ _ (by decide)

theorem callRel32 (rel : Dword) : Statement (.callRel32 rel) :=
  ⟨Nat.succ_pos _, Nat.le_of_ble_eq_true rfl⟩

theorem callRm (target : RM) : Statement (.callRm target) :=
  encodeWithRM_length _ _ _ (by decide)

theorem callFar (sel : Word) (off : Dword) : Statement (.callFar sel off) :=
  ⟨Nat.succ_pos _, Nat.le_of_ble_eq_true rfl⟩

theorem callFarMem (ptr : RM) : Statement (.callFarMem ptr) :=
  encodeWithRM_length _ _ _ (by decide)

theorem ret : Statement .ret :=
  ⟨Nat.succ_pos _, Nat.le_of_ble_eq_true rfl⟩

theorem retImm (n : Word) : Statement (.retImm n) :=
  ⟨Nat.succ_pos _, Nat.le_of_ble_eq_true rfl⟩

theorem retf : Statement .retf :=
  ⟨Nat.succ_pos _, Nat.le_of_ble_eq_true rfl⟩

theorem retfImm (n : Word) : Statement (.retfImm n) :=
  ⟨Nat.succ_pos _, Nat.le_of_ble_eq_true rfl⟩

theorem int (vector : Byte) : Statement (.int vector) :=
  ⟨Nat.succ_pos _, Nat.le_of_ble_eq_true rfl⟩

theorem iret : Statement .iret :=
  ⟨Nat.succ_pos _, Nat.le_of_ble_eq_true rfl⟩

theorem clts : Statement .clts :=
  ⟨Nat.succ_pos _, Nat.le_of_ble_eq_true rfl⟩

theorem hlt : Statement .hlt :=
  ⟨Nat.succ_pos _, Nat.le_of_ble_eq_true rfl⟩

theorem lgdt (src : RM) : Statement (.lgdt src) :=
  encodeWithRM_length _ _ _ (by decide)

theorem lidt (src : RM) : Statement (.lidt src) :=
  encodeWithRM_length _ _ _ (by decide)

theorem lldt (src : RM) : Statement (.lldt src) :=
  encodeWithRM_length _ _ _ (by decide)

theorem lmsw (src : RM) : Statement (.lmsw src) :=
  encodeWithRM_length _ _ _ (by decide)

theorem ltr (src : RM) : Statement (.ltr src) :=
  encodeWithRM_length _ _ _ (by decide)

theorem str (dst : RM) : Statement (.str dst) :=
  encodeWithRM_length _ _ _ (by decide)

theorem movFromCr (dst : Reg) (n : BitVec 3) : Statement (.movFromCr dst n) :=
  ⟨Nat.succ_pos _, Nat.le_of_ble_eq_true rfl⟩

theorem movToCr (n : BitVec 3) (src : Reg) : Statement (.movToCr n src) :=
  ⟨Nat.succ_pos _, Nat.le_of_ble_eq_true rfl⟩

theorem movFromDr (dst : Reg) (n : BitVec 3) : Statement (.movFromDr dst n) :=
  ⟨Nat.succ_pos _, Nat.le_of_ble_eq_true rfl⟩

theorem movToDr (n : BitVec 3) (src : Reg) : Statement (.movToDr n src) :=
  ⟨Nat.succ_pos _, Nat.le_of_ble_eq_true rfl⟩

theorem movFromTr (dst : Reg) (n : BitVec 3) : Statement (.movFromTr dst n) :=
  ⟨Nat.succ_pos _, Nat.le_of_ble_eq_true rfl⟩

theorem movToTr (n : BitVec 3) (src : Reg) : Statement (.movToTr n src) :=
  ⟨Nat.succ_pos _, Nat.le_of_ble_eq_true rfl⟩

theorem arpl (dst : RM) (src : Reg) : Statement (.arpl dst src) :=
  encodeWithRM_length _ _ _ (by decide)

theorem lar (dst : Reg) (src : RM) : Statement (.lar dst src) :=
  encodeWithRM_length _ _ _ (by decide)

theorem lsl (dst : Reg) (src : RM) : Statement (.lsl dst src) :=
  encodeWithRM_length _ _ _ (by decide)

theorem verr (src : RM) : Statement (.verr src) :=
  encodeWithRM_length _ _ _ (by decide)

theorem verw (src : RM) : Statement (.verw src) :=
  encodeWithRM_length _ _ _ (by decide)

end EncodeLength

end Sys2Proof.Laws
end

