-- ==== Sys2Proof/Tests/Slice0.lean ====
section
/-! SUPPORT. Tests. Every expected value is the spec's: the encodings of R142 to R146, and the vectors and
the environment ENV of spec/95_test_vectors.md, whose numbers (V40-3, V41-4, ...) the docstrings give.
After them, for each statement with hypotheses, the witnesses that meet them. -/

namespace Sys2Proof.Tests

open Sys2Proof Sys2Proof.Machine

set_option Elab.async false

/-! ## The environment ENV of spec/95_test_vectors.md part 2 -/

/-- Memory cells of bytes from an address on. -/
def cells (a : Nat) : List Byte → Memory
  | [] => []
  | b :: bs => if b = 0 then cells (a + 1) bs else (a, b) :: cells (a + 1) bs

/-- Bytes put into memory. -/
def put (m : Memory) (a : Nat) : List Byte → Memory
  | [] => m
  | b :: bs => put (m.write a b) (a + 1) bs

/-- The GDT of ENV, the bytes of its table. -/
def gdtBytes : List Byte :=
  [0x00, 0x00, 0x00, 0x00, 0x00, 0x00, 0x00, 0x00,
   0xFF, 0xFF, 0x00, 0x00, 0x00, 0x9A, 0xCF, 0x00,
   0xFF, 0xFF, 0x00, 0x00, 0x00, 0x92, 0xCF, 0x00,
   0xFF, 0xFF, 0x00, 0x00, 0x00, 0xFB, 0xCF, 0x00,
   0xFF, 0xFF, 0x00, 0x00, 0x00, 0xF3, 0xCF, 0x00,
   0x17, 0x00, 0x00, 0x30, 0x00, 0x82, 0x00, 0x00,
   0xFF, 0xFF, 0x00, 0x00, 0x00, 0x9E, 0x40, 0x00,
   0x00, 0x01, 0x08, 0x00, 0x02, 0xEC, 0x00, 0x00,
   0x67, 0x00, 0x00, 0x00, 0x01, 0x8B, 0x00, 0x00,
   0x67, 0x00, 0x00, 0x10, 0x01, 0x89, 0x00, 0x00,
   0x00, 0x00, 0x48, 0x00, 0x00, 0xE5, 0x00, 0x00,
   0xFF, 0xFF, 0x00, 0x00, 0x00, 0xF0, 0xCF, 0x00,
   0xFF, 0xFF, 0x00, 0x00, 0x00, 0x98, 0xCF, 0x00,
   0xFF, 0x0F, 0x00, 0x00, 0x00, 0xF6, 0x40, 0x00,
   0xFF, 0xFF, 0x00, 0x00, 0x00, 0x72, 0xCF, 0x00,
   0x00, 0x02, 0x08, 0x00, 0x00, 0xEC, 0x00, 0x00]

/-- The GDT at 00001000H, TSS A at 00010000H and TSS B at 00011000H. -/
def envMem : Memory :=
  cells 0x1000 gdtBytes ++
    [(0x10005, 0x80), (0x10008, 0x10), (0x11021, 0x06), (0x11024, 0x02), (0x11039, 0x90),
     (0x11048, 0x10), (0x1104C, 0x08), (0x11050, 0x10), (0x11054, 0x10)]

/-- A flat code segment of a level, as `Cache` gives it for entries 1 and 3. -/
def flatCode (sel : Word) (dpl : Level) : SegReg := SegReg.mk sel true 0 0xFFFFFFFF true 0xB true dpl

/-- A flat data segment of a level, as `Cache` gives it for entries 2 and 4. -/
def flatData (sel : Word) (dpl : Level) : SegReg := SegReg.mk sel true 0 0xFFFFFFFF true 0x3 true dpl

/-- The user state U3, EIP = 00020000H; exceptions end the run, so that they can be seen. -/
def user : State :=
  { State.reset with
    regs := { State.reset.regs with esp := 0x00030000 }
    eip := 0x00020000
    nextEip := 0x00020000
    segs :=
      { State.reset.segs with
        cs := flatCode 0x001B 3, ss := flatData 0x0023 3, ds := flatData 0x0023 3, es := flatData 0x0023 3 }
    cpl := 3
    gdtr := TableReg.mk 0x00001000 0x007F
    tr := TaskReg.mk 0x0040 0x00010000 0x00000067
    ctl := { State.reset.ctl with cr0 := 0x00000011 }
    mem := envMem
    deliverExceptions := false }

/-- The kernel state K0, EIP = 00000400H, entries 1 and 2 of the GDT accessed. -/
def kernel : State :=
  { user with
    regs := { State.reset.regs with esp := 0x00008000 }
    eip := 0x00000400
    nextEip := 0x00000400
    segs :=
      { State.reset.segs with
        cs := flatCode 0x0008 0, ss := flatData 0x0010 0, ds := flatData 0x0010 0, es := flatData 0x0010 0 }
    cpl := 0
    mem := (envMem.write 0x100D 0x9B).write 0x1015 0x93 }

/-- The state with a value in EAX. -/
def eax (s : State) (v : Dword) : State := { s with regs := { s.regs with eax := v } }

/-- The state with a value in EBX. -/
def ebx (s : State) (v : Dword) : State := { s with regs := { s.regs with ebx := v } }

/-- The state with a value in ESP. -/
def esp (s : State) (v : Dword) : State := { s with regs := { s.regs with esp := v } }

/-- The state with bytes in memory. -/
def withBytes (s : State) (a : Nat) (bs : List Byte) : State := { s with mem := put s.mem a bs }

/-- One step, with the bytes of an instruction at CS:EIP. -/
def run (s : State) (bs : List Byte) : Host.Outcome State Fault Refusal :=
  step (withBytes s (s.segs.cs.base + s.eip).toNat bs)

/-- What a next state shows. -/
def shows {α : Type} (o : Host.Outcome State Fault Refusal) (f : State → α) : Option α :=
  match o with
  | .next t => some (f t)
  | _ => none

/-- The exception a run ends in. -/
def raised (o : Host.Outcome State Fault Refusal) : Option Exception :=
  match o with
  | .fault (.exception e _) => some e
  | _ => none

/-- The refusal a run ends in. -/
def refusal (o : Host.Outcome State Fault Refusal) : Option Refusal :=
  match o with
  | .refused r => some r
  | _ => none

/-- The doubleword of memory at an address. -/
def dword (s : State) (a : Nat) : Dword := s.mem.dword a

/-! ## Well-formedness -/

/-- ESP is no index (R144). -/
theorem test_wf_index : (Instr.jmpRm (.mem ⟨.ds, none, some (.esp, 0), 0⟩)).wf = false := by decide

/-- ESP is a base (R144). -/
theorem test_wf_base : (Instr.jmpRm (.mem ⟨.ss, some .esp, some (.eax, 3), 0⟩)).wf = true := by decide

/-! ## Decoding: words written out from R142 to R146 -/

theorem test_decode_movSreg : decode [0x8E, 0xD8] = .instr (.movSreg 3 (.reg .eax)) 2 := by decide

/-- EB, E9, FF /4, EA, FF /5; disp8 and SIB with scale 4 (R144). -/
theorem test_decode_jumps :
    decode [0xEB, 0xFE] = .instr (.jmpRel8 0xFE) 2 ∧
    decode [0xE9, 0xFB, 0x0F, 0x00, 0x00] = .instr (.jmpRel32 0x00000FFB) 5 ∧
    decode [0xFF, 0x64, 0x8B, 0x10] =
      .instr (.jmpRm (.mem ⟨.ds, some .ebx, some (.ecx, 2), 0x10⟩)) 4 ∧
    decode [0xEA, 0x00, 0x10, 0x02, 0x00, 0x1B, 0x00] = .instr (.jmpFar 0x001B 0x00021000) 7 ∧
    decode [0xFF, 0x2D, 0x00, 0x20, 0x00, 0x00] =
      .instr (.jmpFarMem (.mem ⟨.ds, none, none, 0x2000⟩)) 6 := by decide

/-- E8, FF /2, 9A, FF /3 with FS override. -/
theorem test_decode_calls :
    decode [0xE8, 0x00, 0x00, 0x00, 0x80] = .instr (.callRel32 0x80000000) 5 ∧
    decode [0xFF, 0xD0] = .instr (.callRm (.reg .eax)) 2 ∧
    decode [0x9A, 0x40, 0x00, 0x00, 0x00, 0x33, 0x00] = .instr (.callFar 0x0033 0x00000040) 7 ∧
    decode [0x64, 0xFF, 0x5D, 0xF8] =
      .instr (.callFarMem (.mem ⟨.fs, some .ebp, none, 0xFFFFFFF8⟩)) 4 := by decide

theorem test_decode_returns :
    decode [0xC3] = .instr .ret 1 ∧ decode [0xC2, 0x08, 0x00] = .instr (.retImm 8) 3 ∧
    decode [0xCB] = .instr .retf 1 ∧ decode [0xCA, 0x04, 0x01] = .instr (.retfImm 0x0104) 3 ∧
    decode [0xCD, 0x31] = .instr (.int 0x31) 2 ∧ decode [0xCF] = .instr .iret 1 := by decide

theorem test_decode_system :
    decode [0x0F, 0x06] = .instr .clts 2 ∧ decode [0xF4] = .instr .hlt 1 ∧
    decode [0x0F, 0x01, 0x10] = .instr (.lgdt (.mem ⟨.ds, some .eax, none, 0⟩)) 3 ∧
    decode [0x0F, 0x01, 0x18] = .instr (.lidt (.mem ⟨.ds, some .eax, none, 0⟩)) 3 ∧
    decode [0x0F, 0x00, 0xD0] = .instr (.lldt (.reg .eax)) 3 ∧
    decode [0x0F, 0x01, 0xF0] = .instr (.lmsw (.reg .eax)) 3 ∧
    decode [0x0F, 0x00, 0xD8] = .instr (.ltr (.reg .eax)) 3 ∧
    decode [0x0F, 0x00, 0x0B] = .instr (.str (.mem ⟨.ds, some .ebx, none, 0⟩)) 3 := by decide

theorem test_decode_special :
    decode [0x0F, 0x20, 0xC0] = .instr (.movFromCr .eax 0) 3 ∧
    decode [0x0F, 0x22, 0xDA] = .instr (.movToCr 3 .edx) 3 ∧
    decode [0x0F, 0x21, 0xF9] = .instr (.movFromDr .ecx 7) 3 ∧
    decode [0x0F, 0x23, 0xC3] = .instr (.movToDr 0 .ebx) 3 ∧
    decode [0x0F, 0x24, 0xC0] = .instr (.movFromTr .eax 0) 3 ∧
    decode [0x0F, 0x26, 0xF0] = .instr (.movToTr 6 .eax) 3 := by decide

theorem test_decode_pointers :
    decode [0x63, 0x4C, 0x24, 0x08] = .instr (.arpl (.mem ⟨.ss, some .esp, none, 8⟩) .ecx) 4 ∧
    decode [0x0F, 0x02, 0xD8] = .instr (.lar .ebx (.reg .eax)) 3 ∧
    decode [0x0F, 0x03, 0xF8] = .instr (.lsl .edi (.reg .eax)) 3 ∧
    decode [0x0F, 0x00, 0xE6] = .instr (.verr (.reg .esi)) 3 ∧
    decode [0x0F, 0x00, 0x6C, 0x24, 0x08] = .instr (.verw (.mem ⟨.ss, some .esp, none, 8⟩)) 5 := by
  decide

/-- R147, R148: the prefix bytes and the encodings that are no row; R142: the bytes still missing. -/
theorem test_decode_refused :
    decode [0xF0, 0x0F, 0x06] = .ud ∧ decode [0x0F, 0x00, 0xF0] = .ud ∧
    decode [0x66, 0xCF] = .refused .operandSizePrefix ∧ decode [0x90] = .refused .noRow ∧
    decode [0x0F, 0x01] = .needMore 1 ∧ decode [0xE9] = .needMore 4 ∧
    decode [0x9A, 0x00] = .needMore 5 := by decide

/-- The opcode table's word of `LMSW AX`, 0F 01 F0, bit 0 the lowest bit of the first byte. -/
theorem test_decode_table_word : decodeTableWord 24 0xF0010F = some (.lmsw (.reg .eax)) := by decide

/-- From reset, the step fetches the word that withFetchWord places: HLT (R243). -/
theorem test_fetch_word : shows (step (State.reset.withFetchWord 8 0xF4)) (fun t => (t.eip, t.activity)) =
    some (0x0000FFF1, .halted) := by decide +kernel

/-! ## One step of each instruction (spec/95_test_vectors.md part 2) -/

/-- V40-15: conforming readable code, with the accessed bit set. -/
theorem test_movSreg : shows (run (eax user 0x33) [0x8E, 0xD8])
    (fun t => (t.segs.ds.sel, t.segs.ds.typ, t.segs.ds.dpl, t.mem.read 0x1035, t.eip)) =
    some (0x0033, 0xF, 0, 0x9F, 0x00020002) := by decide +kernel

/-- V40-2, V40-10, V40-12, V40-22. -/
theorem test_movSreg_traps : raised (run (eax user 0x13) [0x8E, 0xD8]) = some (.gp 0x0010) ∧
    raised (run (eax kernel 0x23) [0x8E, 0xD0]) = some (.gp 0x0020) ∧
    raised (run (eax user 0x73) [0x8E, 0xD0]) = some (.sf 0x0070) ∧
    raised (run (eax user 0x23) [0x8E, 0xC8]) = some .ud := by decide +kernel

/-- V41-1. -/
theorem test_jmpRel8 : shows (run user [0xEB, 0xFE]) (·.eip) = some 0x00020000 := by decide +kernel

/-- V41-2. -/
theorem test_jmpRel32 : shows (run user [0xE9, 0xFB, 0x0F, 0x00, 0x00]) (·.eip) = some 0x00021000 := by
  decide +kernel

/-- V41-3. -/
theorem test_jmpRel32_limit :
    raised (run { user with
      segs := { user.segs with cs := SegReg.mk 0x0033 true 0 0xFFFF true 0xF true 0 }, eip := 0x0000FFF0 }
      [0xE9, 0x0B, 0x00, 0x00, 0x00]) = some (.gp 0) := by decide +kernel

/-- V41-8. -/
theorem test_jmpRm : shows (run (eax user 0x00021234) [0xFF, 0xE0]) (·.eip) = some 0x00021234 := by
  decide +kernel

/-- V41-11: the RPL is replaced by CPL. -/
theorem test_jmpFar : shows (run user [0xEA, 0x00, 0x10, 0x02, 0x00, 0x18, 0x00])
    (fun t => (t.segs.cs.sel, t.cpl, t.eip)) = some (0x001B, 3, 0x00021000) := by decide +kernel

/-- V41-23 (program P5): a JMP through a gate to a more privileged level. -/
theorem test_jmpFar_gate : raised (run user [0xEA, 0x00, 0x00, 0x00, 0x00, 0x3B, 0x00]) =
    some (.gp 0x0008) := by decide +kernel

/-- V41-15 through a pointer in memory at 00025000H: conforming code. -/
theorem test_jmpFarMem :
    shows (run (withBytes (eax user 0x25000) 0x25000 [0x40, 0x00, 0x00, 0x00, 0x33, 0x00]) [0xFF, 0x28])
      (fun t => (t.segs.cs.sel, t.segs.cs.dpl, t.cpl, t.eip)) = some (0x0033, 0, 3, 0x00000040) := by
  decide +kernel

/-- V41-4. -/
theorem test_callRel32 : shows (run user [0xE8, 0xFB, 0x0F, 0x00, 0x00])
    (fun t => (dword t 0x2FFFC, t.regs.esp, t.eip)) = some (0x00020005, 0x0002FFFC, 0x00021000) := by
  decide +kernel

/-- V41-5. -/
theorem test_callRel32_stack : raised (run (esp user 2) [0xE8, 0xFB, 0x0F, 0x00, 0x00]) =
    some (.sf 0) := by decide +kernel

/-- V41-9. -/
theorem test_callRm : shows (run (eax user 0x00021234) [0xFF, 0xD0])
    (fun t => (dword t 0x2FFFC, t.regs.esp, t.eip)) = some (0x00020002, 0x0002FFFC, 0x00021234) := by
  decide +kernel

/-- V41-21. -/
theorem test_callFar : shows (run user [0x9A, 0x40, 0x00, 0x00, 0x00, 0x33, 0x00])
    (fun t => (dword t 0x2FFFC, dword t 0x2FFF8, t.regs.esp, t.segs.cs.sel, t.cpl, t.eip)) =
    some (0x0000001B, 0x00020007, 0x0002FFF8, 0x0033, 3, 0x00000040) := by decide +kernel

/-- Program P1, step 1: the frame on the inner stack, the parameters copied. -/
theorem test_callFar_inner :
    shows (run (withBytes (esp user 0x0002FFF8) 0x2FFF8 [0x10, 0, 0, 0, 0xAA, 0x0A, 0, 0])
        [0x9A, 0x00, 0x00, 0x00, 0x00, 0x3B, 0x00])
      (fun t => ([0x7FFC, 0x7FF8, 0x7FF4, 0x7FF0, 0x7FEC, 0x7FE8].map (dword t),
        t.mem.read 0x100D, t.mem.read 0x1015, t.segs.cs.sel, t.segs.ss.sel, t.cpl, t.regs.esp, t.eip)) =
    some ([0x00000023, 0x0002FFF8, 0x00000AAA, 0x00000010, 0x0000001B, 0x00020007],
      0x9B, 0x93, 0x0008, 0x0010, 0, 0x00007FE8, 0x00000100) := by decide +kernel

/-- V41-25 through a pointer in memory: a call gate at the same level. -/
theorem test_callFarMem :
    shows (run (withBytes (eax kernel 0x25000) 0x25000 [0x00, 0x00, 0x00, 0x00, 0x3B, 0x00]) [0xFF, 0x18])
      (fun t => (dword t 0x7FFC, dword t 0x7FF8, t.regs.esp, t.cpl, t.eip)) =
    some (0x00000008, 0x00000402, 0x00007FF8, 0, 0x00000100) := by decide +kernel

/-- The stack of V41-6. -/
def returning : State := withBytes (esp user 0x0002FFFC) 0x2FFFC [0x05, 0x00, 0x02, 0x00]

/-- V41-6. -/
theorem test_ret : shows (run returning [0xC3]) (fun t => (t.eip, t.regs.esp)) =
    some (0x00020005, 0x00030000) := by decide +kernel

/-- V41-7. -/
theorem test_retImm : shows (run returning [0xC2, 0x08, 0x00]) (fun t => (t.eip, t.regs.esp)) =
    some (0x00020005, 0x00030008) := by decide +kernel

/-- The kernel state with a frame (EIP, CS, ESP, SS) at ESP = 00007FE8H, DS = ES = 0010H, and FS caching
the conforming entry 6. -/
def framed (eip cs sp ss : Dword) : State :=
  withBytes
    { esp kernel 0x00007FE8 with
      segs := { kernel.segs with fs := SegReg.mk 0x0030 true 0 0xFFFF true 0xF true 0 } }
    0x7FE8 ([eip, cs, sp, ss].flatMap dwordBytes)

/-- V41-T16. -/
theorem test_retf : shows (run (framed 0x20007 0x1B 0x30000 0x23) [0xCB])
    (fun t => ([t.segs.cs, t.segs.ss, t.segs.ds, t.segs.es, t.segs.fs, t.segs.gs].map fun g =>
      (g.sel, g.valid), t.cpl, t.eip, t.regs.esp)) =
    some ([(0x001B, true), (0x0023, true), (0, false), (0, false), (0x0030, true), (0, false)],
      3, 0x00020007, 0x00030000) := by decide +kernel

/-- V41-T5, T6 and T12 to T15. -/
theorem test_retf_traps :
    [run (framed 0 0x83 0 0) [0xCB], run (framed 0 0x23 0 0) [0xCB],
      run (framed 0x20007 0x1B 0x30000 0x5B) [0xCB], run (framed 0x20007 0x1B 0x30000 0x73) [0xCB],
      run (framed 0x20007 0x1B 0x30000 0x10) [0xCB], run (framed 0x20007 0x1B 0x30000 0x20) [0xCB]].map
        raised =
    [some (.gp 0x0080), some (.gp 0x0020), some (.gp 0x0058), some (.sf 0x0070), some (.gp 0x0010),
      some (.gp 0x0020)] := by decide +kernel

/-- V41-T17. -/
theorem test_retfImm : shows (run (framed 0x100 0x08 0 0) [0xCA, 0x04, 0x00])
    (fun t => (t.segs.cs.sel, t.eip, t.regs.esp)) = some (0x0008, 0x00000100, 0x00007FF4) := by
  decide +kernel

/-- V41-T9. -/
theorem test_retfImm_stack :
    raised (run (withBytes (esp kernel 0xFFFFFFF0) 0xFFFFFFF0 ([0x20007, 0x1B].flatMap dwordBytes))
      [0xCA, 0x08, 0x00]) = some (.sf 0) := by decide +kernel

/-- The kernel state with the task gate of V44-15 as entry 30H of the IDT. -/
def gated : State :=
  withBytes { kernel with idtr := TableReg.mk 0x00004000 0x07FF } 0x4180 [0, 0, 0x48, 0, 0, 0xE5, 0, 0]

/-- V44-15, with the effects of V44-2. -/
theorem test_int : shows (run gated [0xCD, 0x30])
    (fun t => (t.tr.sel, t.eflags, t.eip, t.mem.read 0x1045, t.mem.read 0x104D, t.mem.read 0x11000,
      dword t 0x10020)) =
    some (0x0048, 0x00004002, 0x00000600, 0x8B, 0x8B, 0x40, 0x00000402) := by decide +kernel

/-- V44-16. -/
theorem test_int_limit : raised (run { gated with idtr := TableReg.mk 0x00004000 0x017F } [0xCD, 0x30]) =
    some (.gp 0x0182) := by decide +kernel

/-- The nested task B of program P3, step 3: entry 9 busy, its back link task A, whose image is that of
step 1. -/
def nested : State :=
  withBytes
    (withBytes
      (withBytes { kernel with eflags := 0x00004002, tr := TaskReg.mk 0x0048 0x00011000 0x67 } 0x104D [0x8B])
      0x11000 [0x40])
    0x10020
    (([0x507, 2, 0x11111111, 0x22222222, 0x33333333, 0x44444444, 0x8000, 0x55555555, 0x66666666,
      0x77777777, 0x10, 0x08, 0x10, 0x10] : List Dword).flatMap dwordBytes)

/-- Program P3, step 3 (V44-3). -/
theorem test_iret_task : shows (run nested [0xCF])
    (fun t => (t.tr.sel, t.eflags, t.eip, t.regs.edi, t.regs.esp, t.ctl.cr0, t.mem.read 0x104D,
      dword t 0x11020, dword t 0x11024)) =
    some (0x0040, 0x00000002, 0x00000507, 0x77777777, 0x00008000, 0x00000019, 0x89, 0x00000401,
      0x00000002) := by decide +kernel

/-- IRET to the same level (R358): EIP, CS and EFLAGS from the stack, ESP + 12. -/
theorem test_iret : shows (run (framed 0x100 0x08 0x00003202 0) [0xCF])
    (fun t => (t.segs.cs.sel, t.eip, t.eflags, t.regs.esp)) =
    some (0x0008, 0x00000100, 0x00003202, 0x00007FF4) := by decide +kernel

/-- V42-1. -/
theorem test_clts : shows (run { kernel with ctl := { kernel.ctl with cr0 := 0x00000019 } } [0x0F, 0x06])
    (·.ctl.cr0) = some 0x00000011 := by decide +kernel

/-- V42-2. -/
theorem test_hlt : shows (run kernel [0xF4]) (fun t => (t.eip, t.activity)) =
    some (0x00000401, .halted) := by decide +kernel

/-- The note after V42-18: HLT at CPL 3. -/
theorem test_hlt_user : raised (run user [0xF4]) = some (.gp 0) := by decide +kernel

/-- V42-3. -/
theorem test_lgdt :
    shows (run (withBytes (eax kernel 0x2000) 0x2000 [0x7F, 0, 0, 0x10, 0, 0]) [0x0F, 0x01, 0x10])
      (·.gdtr) = some ⟨0x00001000, 0x007F⟩ := by decide +kernel

/-- V42-5. -/
theorem test_lgdt_register : raised (run kernel [0x0F, 0x01, 0xD0]) = some .ud := by decide +kernel

/-- V42-4. -/
theorem test_lidt :
    shows (run (withBytes (eax kernel 0x2000) 0x2000 [0xFF, 0x07, 0, 0x40, 0, 0]) [0x0F, 0x01, 0x18])
      (·.idtr) = some ⟨0x00004000, 0x07FF⟩ := by decide +kernel

/-- V42-6. -/
theorem test_lldt : shows (run (eax kernel 0x28) [0x0F, 0x00, 0xD0]) (·.ldtr) =
    some ⟨0x0028, 0x00003000, 0x00000017, true⟩ := by decide +kernel

/-- V42-8, V42-9. -/
theorem test_lldt_traps : raised (run (eax kernel 0x10) [0x0F, 0x00, 0xD0]) = some (.gp 0x0010) ∧
    raised (run (eax kernel 0x2C) [0x0F, 0x00, 0xD0]) = some (.gp 0x002C) := by decide +kernel

/-- V42-10. -/
theorem test_lmsw : shows (run (eax kernel 8) [0x0F, 0x01, 0xF0]) (·.ctl.cr0) = some 0x00000019 := by
  decide +kernel

/-- V44-L1. -/
theorem test_ltr : shows (run (eax kernel 0x48) [0x0F, 0x00, 0xD8])
    (fun t => (t.tr, t.mem.read 0x104D, t.eip)) =
    some (⟨0x0048, 0x00011000, 0x67⟩, 0x8B, 0x00000403) := by decide +kernel

/-- V44-L2, V44-L5. -/
theorem test_ltr_traps : raised (run (eax kernel 0x40) [0x0F, 0x00, 0xD8]) = some (.gp 0x0040) ∧
    raised (run (eax kernel 0x4C) [0x0F, 0x00, 0xD8]) = some (.gp 0x004C) := by decide +kernel

/-- V44-L7. -/
theorem test_str : shows (run (eax user 0xFFFF0000) [0x0F, 0x00, 0xC8]) (·.regs.eax) =
    some 0xFFFF0040 := by decide +kernel

/-- V44-L8. -/
theorem test_str_memory : shows (run (ebx user 0x25000) [0x0F, 0x00, 0x0B]) (fun t => dword t 0x25000) =
    some 0x00000040 := by decide +kernel

/-- V42-12. -/
theorem test_movFromCr : shows (run kernel [0x0F, 0x20, 0xC0]) (·.regs.eax) = some 0x00000011 := by
  decide +kernel

/-- V42-11. -/
theorem test_movToCr : shows (run (eax kernel 0x5ABC) [0x0F, 0x22, 0xD8]) (·.ctl.cr3) =
    some 0x00005000 := by decide +kernel

/-- V42-13, V42-14. -/
theorem test_movToCr_stops :
    refusal (run (eax kernel 0x10) [0x0F, 0x22, 0xC0]) = some .leavesProtectedMode ∧
    raised (run kernel [0x0F, 0x22, 0xC8]) = some .ud ∧
    raised (run user [0x0F, 0x22, 0xC8]) = some (.gp 0) := by decide +kernel

/-- V42-15, read back. -/
theorem test_movFromDr : shows (run { kernel with ctl := { kernel.ctl with dr0 := 0x00001000 } }
    [0x0F, 0x21, 0xC3]) (·.regs.ebx) = some 0x00001000 := by decide +kernel

/-- V42-15. -/
theorem test_movToDr : shows (run (ebx kernel 0x1000) [0x0F, 0x23, 0xC3])
    (fun t => (t.ctl.dr0, t.ctl.dr7)) = some (0x00001000, 0) := by decide +kernel

/-- V42-16. -/
theorem test_movToDr_none : refusal (run kernel [0x0F, 0x23, 0xE0]) = some .noSuchDebugRegister := by
  decide +kernel

/-- V42-18. -/
theorem test_movFromTr : raised (run kernel [0x0F, 0x24, 0xC0]) = some .ud := by decide +kernel

/-- V42-17. -/
theorem test_movToTr : shows (run (eax kernel 0x12345678) [0x0F, 0x26, 0xF0])
    (fun t => (t.ctl.tr6, t.ctl.tr7)) = some (0x12345678, 0) := by decide +kernel

/-- V43-A1, with the upper half kept; ZF is bit 6. -/
theorem test_arpl : shows (run (ebx (eax user 0xABCD0010) 0x1B) [0x63, 0xD8])
    (fun t => (t.regs.eax, t.eflags)) = some (0xABCD0013, 0x00000042) := by decide +kernel

/-- V43-A2. -/
theorem test_arpl_kept : shows (run (ebx (eax user 0x13) 0x08) [0x63, 0xD8])
    (fun t => (t.regs.eax, t.eflags)) = some (0x00000013, 0x00000002) := by decide +kernel

/-- V43-R1, for each draw, and its ZF. -/
theorem test_lar : (∀ u : BitVec 4, larResult ⟨0x0000FFFF, 0x00CFF300⟩ u = 0x00C0F300 ||| u.zeroExtend 32 <<< 16) ∧
    shows (run (eax user 0x23) [0x0F, 0x02, 0xD8]) (·.eflags) = some 0x00000042 := by decide +kernel

/-- V43-R2, V43-R12. -/
theorem test_lar_hidden :
    shows (run (ebx (eax user 0x13) 7) [0x0F, 0x02, 0xD8]) (fun t => (t.regs.ebx, t.eflags)) =
      some (7, 0x00000002) ∧
    shows (run (ebx (eax kernel 0x13) 7) [0x0F, 0x02, 0xD8]) (fun t => (t.regs.ebx, t.eflags)) =
      some (7, 0x00000002) := by decide +kernel

/-- V43-L: page granularity, byte granularity, an LDT, and a call gate that has no limit. -/
theorem test_lsl :
    [run (eax user 0x23) [0x0F, 0x03, 0xD8], run (eax user 0x6B) [0x0F, 0x03, 0xD8],
      run (eax kernel 0x28) [0x0F, 0x03, 0xD8], run (eax user 0x3B) [0x0F, 0x03, 0xD8]].map
        (fun o => shows o (fun t => (t.regs.ebx, t.eflags))) =
    [some (0xFFFFFFFF, 0x42), some (0x00000FFF, 0x42), some (0x00000017, 0x42), some (0, 0x02)] := by
  decide +kernel

/-- The VERR column, EFLAGS with ZF: read-only data, conforming code, hidden data. -/
theorem test_verr :
    [run (eax user 0x5B) [0x0F, 0x00, 0xE0], run (eax user 0x33) [0x0F, 0x00, 0xE0],
      run (eax user 0x13) [0x0F, 0x00, 0xE0]].map (fun o => shows o (·.eflags)) =
    [some 0x42, some 0x42, some 0x02] := by decide +kernel

/-- The VERW column: read-only data, writable data. -/
theorem test_verw :
    [run (eax user 0x5B) [0x0F, 0x00, 0xE8], run (eax user 0x23) [0x0F, 0x00, 0xE8]].map
      (fun o => shows o (·.eflags)) = [some 0x02, some 0x42] := by decide +kernel

/-- V44-1. -/
theorem test_task_switch : shows (run kernel [0xEA, 0, 0, 0, 0, 0x48, 0])
    (fun t => (t.mem.read 0x1045, t.mem.read 0x104D, t.eflags, t.mem.read 0x11000, t.tr.sel, t.ctl.cr0,
      dword t 0x10020, t.eip)) =
    some (0x89, 0x8B, 0x00000002, 0, 0x0048, 0x00000019, 0x00000407, 0x00000600) := by decide +kernel

/-- V44-12, V44-13: the exceptions of the incoming task. -/
theorem test_task_switch_traps :
    raised (run (withBytes kernel 0x11064 [1]) [0xEA, 0, 0, 0, 0, 0x48, 0]) = some .db ∧
    raised (run (withBytes kernel 0x1104C [0x1B]) [0xEA, 0, 0, 0, 0, 0x48, 0]) = some (.ts 0x0010) := by
  decide +kernel

/-- V20-13, V20-16, V20-17: writes through CS, the null selector, the stack limit. -/
theorem test_segment_checks :
    raised (run user [0x2E, 0x0F, 0x00, 0x08]) = some (.gp 0) ∧
    raised (run user [0x64, 0xFF, 0x20]) = some (.gp 0) ∧
    raised (run (eax user 0xFFFFFFFE) [0x36, 0xFF, 0x20]) = some (.sf 0) ∧
    raised (run (eax user 0xFFFFFFFE) [0xFF, 0x20]) = some (.gp 0) := by decide +kernel

/-- The user state of program P4, with paging. -/
def paged : State :=
  withBytes
    (withBytes
      (withBytes
        (withBytes { user with ctl := { user.ctl with cr0 := 0x80000011, cr3 := 0x00100000 } }
          0x100000 [0x07, 0x10, 0x10])
        0x101000 [0, 0, 0, 0, 0x03, 0x10])
      0x101080 [0x05, 0x00, 0x02])
    0x101100 [0x05, 0x00, 0x04, 0x00, 0x07, 0x10, 0x04]

/-- Program P4, steps 1 and 2. -/
theorem test_page_protection :
    shows (run { paged with regs := { paged.regs with ecx := 0x41000 } } [0x0F, 0x00, 0x09])
      (fun t => (dword t 0x41000, t.eip)) = some (0x00000040, 0x00020003) ∧
    raised (run (ebx paged 0x40000) [0x0F, 0x00, 0x0B]) = some (.pf 0x00040000 7) := by decide +kernel

/-- R92, R105: the limit of the five bytes of an E9 comes before the page of its second byte. -/
theorem test_fetch_order :
    raised (run { paged with
      eip := 0x20FFF, segs := { paged.segs with cs := { paged.segs.cs with limit := 0x21000 } } } [0xE9]) =
      some (.gp 0) ∧
    raised (run { paged with eip := 0x20FFF } [0xE9]) = some (.pf 0x21000 4) := by decide +kernel

/-- Before LTR (R393; assumption log entry 43): R300 saves the outgoing state where TR.base says, and R204
compares TR.limit. -/
theorem test_before_ltr :
    shows (run { kernel with tr := State.reset.tr } [0xEA, 0, 0, 0, 0, 0x48, 0])
      (fun t => (t.tr.sel, dword t 0x20, t.eip)) = some (0x0048, 0x00000407, 0x00000600) ∧
    raised (run { user with tr := State.reset.tr } [0x9A, 0, 0, 0, 0, 0x3B, 0]) = some (.ts 0) := by
  decide +kernel

/-- The paged state with no memory in the frame of page 41H. -/
def holed : State := { paged with memMap := [Region.mk 0 0x41000, Region.mk 0x42000 0xFFFBE000] }

/-- R103: every byte's page is checked before the bytes are read; R62. -/
theorem test_page_before_memory :
    refusal (exec (.verr (.mem ⟨.ds, some .eax, none, 0⟩)) (eax holed 0x41000)) = some .noMemory ∧
    raised (exec (.verr (.mem ⟨.ds, some .eax, none, 0⟩)) (eax holed 0x41FFF)) = some (.pf 0x42000 4) := by
  decide +kernel

/-! ## Witnesses: for each statement with hypotheses, states and operands that meet them, clause by clause -/

variable {α : Type}

/-- The value an operation answers, or `d`. -/
def valueOf (r : EStateM.Result Stop State α) (d : α) : α :=
  match r with
  | .ok a _ => a
  | .error _ _ => d

/-- The state an operation leaves. -/
def endOf (r : EStateM.Result Stop State α) : State :=
  match r with
  | .ok _ t => t
  | .error _ t => t

/-- The state an outcome leaves, or `d`. -/
def nextOf (o : Host.Outcome State Fault Refusal) (d : State) : State :=
  match o with
  | .next t => t
  | .fault (.exception _ t) => t
  | _ => d

/-- The operation answers `a` and leaves `t`. -/
def answers [DecidableEq α] (r : EStateM.Result Stop State α) (a : α) (t : State) : Bool :=
  match r with
  | .ok b u => decide (b = a) && decide (u = t)
  | .error _ _ => false

/-- The operation stops with `e` and leaves `t`. -/
def stopsWith (r : EStateM.Result Stop State α) (e : Stop) (t : State) : Bool :=
  match r with
  | .ok _ _ => false
  | .error f u => decide (f = e) && decide (u = t)

/-- The operation answers. -/
def isOk (r : EStateM.Result Stop State α) : Bool :=
  match r with
  | .ok _ _ => true
  | .error _ _ => false

theorem ok_at [DecidableEq α] {r : EStateM.Result Stop State α} {a : α} {t : State}
    (h : answers r a t = true) : r = .ok a t := by
  cases r <;> simp_all [answers]

theorem stop_at {r : EStateM.Result Stop State α} {e : Stop} {t : State} (h : stopsWith r e t = true) :
    r = .error e t := by
  cases r <;> simp_all [stopsWith]

theorem ok_end {r : EStateM.Result Stop State α} (d : α) (h : isOk r = true) :
    r = .ok (valueOf r d) (endOf r) := by
  cases r <;> simp_all [isOk, valueOf, endOf]

theorem ok_val [DecidableEq α] {r : EStateM.Result Stop State α} {a : α}
    (h : answers r a (endOf r) = true) : r = .ok a (endOf r) := ok_at h

theorem ok_unit {r : EStateM.Result Stop State Unit} (h : isOk r = true) : r = .ok () (endOf r) :=
  ok_end () h

theorem next_end {o : Host.Outcome State Fault Refusal} (d : State) (h : shows o (fun _ => ()) = some ()) :
    o = .next (nextOf o d) := by
  cases o <;> simp_all [shows, nextOf]

theorem fault_end {o : Host.Outcome State Fault Refusal} {e : Exception} (d : State)
    (h : raised o = some e) : o = .fault (.exception e (nextOf o d)) := by
  unfold raised at h
  split at h <;> simp_all [nextOf]

theorem flat_of {s : State} (hp : s.paging = false) (hm : s.memMap = State.reset.memMap) : s.Flat := by
  refine ⟨hp, fun lin => ?_⟩
  have := lin.isLt
  simp only [State.hasMemory, hm, State.reset, Config.physBits, List.any_cons, List.any_nil,
    Bool.or_false, Bool.and_eq_true, decide_eq_true_eq]
  exact ⟨decide_eq_true this, Nat.zero_le _, by omega⟩

/-! ### Encoding, the step, the invariants -/

theorem witness_DecodeEncode :
    (Instr.movSreg 7 (.mem ⟨.gs, some .esp, some (.edi, 3), 0xFFFFFFFF⟩)).wf = true ∧
    (Instr.jmpRm (.mem ⟨.ds, none, some (.ebp, 0), 0x80000000⟩)).wf = true := by decide

theorem witness_DecodeUsesItsOwnBytes :
    decode [0x65, 0x8E, 0x18, 0x90] = .instr (.movSreg 3 (.mem ⟨.gs, some .eax, none, 0⟩)) 3 := by decide

theorem witness_PrefixesAndReservedEncodings :
    (Instr.lgdt (.mem ⟨.fs, some .ebx, none, 0⟩)).wf = true ∧
    ((7 : BitVec 3) = 6 ∨ (7 : BitVec 3) = 7) ∧ ((5 : BitVec 3) = 5 ∨ (5 : BitVec 3) = 7) ∧
    ((4 : BitVec 3) = 0 ∨ (4 : BitVec 3) = 1 ∨ (4 : BitVec 3) = 4) ∧
    ((6 : BitVec 3) = 0 ∨ (6 : BitVec 3) = 1 ∨ (6 : BitVec 3) = 6) := by decide

/-- The kernel state at a HLT. -/
def halting : State := withBytes kernel 0x400 [0xF4]

theorem witness_StepRunsDecoded :
    halting.activity = .running ∧ outsideModes halting = none ∧ halting.debugTrap = false ∧
    fetch { halting with draws := halting.draws + 1 } =
      .ok (.instr .hlt 1) { halting with draws := halting.draws + 1 } :=
  ⟨rfl, by decide, rfl, ok_at (by decide +kernel)⟩

/-- The longest instruction, 14 prefix bytes and HLT. -/
def longest : State := withBytes kernel 0x400 (List.replicate 14 0x26 ++ [0xF4])

theorem not_stale {s : State} (h : s.storedAhead = []) (lin : Dword) (n : Nat) :
    ¬∃ k, k < n ∧ lin + BitVec.ofNat 32 k ∈ s.storedAhead := by
  simp [h]

theorem witness_FetchReadsCode_instr :
    longest.segs.cs.valid = true ∧
    translateRange .fetch longest.userLevel (longest.segs.cs.base + longest.eip) 15 longest =
      .ok (List.range' 0x400 15) longest ∧
    (∀ p ∈ List.range' 0x400 15, p ∉ longest.walked) ∧
    (¬∃ k, k < 15 ∧ longest.segs.cs.base + longest.eip + BitVec.ofNat 32 k ∈ longest.storedAhead) ∧
    15 ≤ maxInstrLen ∧ limitOK longest.segs.cs longest.eip.toNat 15 = true ∧
    decode ((List.range' 0x400 15).map longest.mem.read) = .instr .hlt 15 :=
  ⟨rfl, ok_at (by decide +kernel), by decide +kernel, not_stale rfl _ _, by decide, by decide +kernel,
    by decide +kernel⟩

/-- Fifteen prefix bytes. -/
def tooLong : State := withBytes kernel 0x400 (List.replicate 15 0x26)

theorem witness_FetchReadsCode_needMore :
    translateRange .fetch tooLong.userLevel (tooLong.segs.cs.base + tooLong.eip) 15 tooLong =
      .ok (List.range' 0x400 15) tooLong ∧
    limitOK tooLong.segs.cs tooLong.eip.toNat 15 = true ∧
    15 = maxInstrLen ∧ decode ((List.range' 0x400 15).map tooLong.mem.read) = .needMore 1 :=
  ⟨ok_at (by decide +kernel), by decide +kernel, rfl, by decide +kernel⟩

/-- An E9 whose last two bytes lie above the limit of CS. -/
def cutOff : State :=
  withBytes { kernel with segs := { kernel.segs with cs := { kernel.segs.cs with limit := 0x402 } } } 0x400
    [0xE9]

theorem witness_FetchReadsCode_limit :
    cutOff.segs.cs.valid = true ∧
    translateRange .fetch cutOff.userLevel (cutOff.segs.cs.base + cutOff.eip) 1 cutOff =
      .ok [0x400] cutOff ∧
    (∀ p ∈ [0x400], p ∉ cutOff.walked) ∧
    (¬∃ k, k < 1 ∧ cutOff.segs.cs.base + cutOff.eip + BitVec.ofNat 32 k ∈ cutOff.storedAhead) ∧
    1 < maxInstrLen ∧
    decode ([0x400].map cutOff.mem.read) = .needMore 4 ∧
    limitOK cutOff.segs.cs cutOff.eip.toNat (min (1 + 4) maxInstrLen) = false :=
  ⟨rfl, ok_at (by decide +kernel), by decide +kernel, not_stale rfl _ _, by decide, by decide +kernel,
    by decide +kernel⟩

/-- A HLT that an instruction before it stored. -/
def freshCode : State := { halting with storedAhead := [0x400] }

theorem witness_FetchReadsCode_stale :
    freshCode.segs.cs.valid = true ∧
    translateRange .fetch freshCode.userLevel (freshCode.segs.cs.base + freshCode.eip) 1 freshCode =
      .ok [0x400] freshCode ∧
    (∀ p ∈ [0x400], p ∉ freshCode.walked) ∧
    (∃ k, k < 1 ∧ freshCode.segs.cs.base + freshCode.eip + BitVec.ofNat 32 k ∈ freshCode.storedAhead) ∧
    1 ≤ maxInstrLen ∧ limitOK freshCode.segs.cs freshCode.eip.toNat 1 = true ∧
    decode ([0x400].map freshCode.mem.read) = .instr .hlt 1 :=
  ⟨rfl, ok_at (by decide +kernel), by decide +kernel, ⟨0, by decide, by decide⟩, by decide,
    by decide +kernel, by decide +kernel⟩

/-- R112: a store 3 bytes beyond the next instruction is noted, one 16 bytes beyond it is not, and a jump
discards what is noted. STR [40AH] at 00000400H is 7 bytes long. -/
theorem test_stored_ahead :
    shows (run kernel [0x0F, 0x00, 0x0D, 0x0A, 0x04, 0, 0]) (·.storedAhead) = some [0x40A, 0x40B] ∧
    shows (run kernel [0x0F, 0x00, 0x0D, 0x17, 0x04, 0, 0]) (·.storedAhead) = some [] ∧
    shows (run { kernel with storedAhead := [0x40A] } [0xEB, 0x10]) (·.storedAhead) = some [] := by
  decide +kernel

/-- R112: such a run is refused where it ends with no taken transfer. -/
theorem test_stored_ahead_ends :
    refusal (step { kernel with activity := .halted, storedAhead := [0x40A] }) = some .staleCode ∧
    refusal (run { kernel with storedAhead := [0x40A] } [0xF0, 0xF4]) = some .staleCode := by decide +kernel

theorem witness_StepRunsNoInstruction_modes :
    ({ kernel with activity := .halted } : State).activity = .halted ∧
    ({ kernel with activity := .shutdown } : State).activity = .shutdown ∧
    outsideModes { kernel with ctl := { kernel.ctl with cr0 := 0 } } = some .realAddressMode ∧
    outsideModes { kernel with debugTrap := true } = none ∧
    ({ kernel with segs := { kernel.segs with cs := SegReg.null } } : State).segs.cs.valid = false := by
  decide

/-- The kernel state with EIP just above the limit of CS. -/
def pastLimit : State :=
  { kernel with segs := { kernel.segs with cs := { kernel.segs.cs with limit := 0x3FF } } }

theorem witness_StepRunsNoInstruction_fetch :
    (outsideModes pastLimit = none ∧ pastLimit.segs.cs.expandDown = false ∧
      pastLimit.segs.cs.limit.toNat < pastLimit.eip.toNat ∧
      fetch pastLimit = .error (.exc (.gp 0)) pastLimit) ∧
    fetch { kernel with memMap := [] } = .error (.refuse .noMemory) { kernel with memMap := [] } ∧
    fetch (withBytes kernel 0x400 [0xF0, 0xF4]) = .ok .ud (withBytes kernel 0x400 [0xF0, 0xF4]) ∧
    fetch (withBytes kernel 0x400 [0x90]) = .ok (.refused .noRow) (withBytes kernel 0x400 [0x90]) :=
  ⟨⟨by decide, by decide, by decide, stop_at (by decide +kernel)⟩, stop_at (by decide +kernel),
    ok_at (by decide +kernel), ok_at (by decide +kernel)⟩

/-- The user state about to call the inner level through the gate, entry 7 (program P1, step 1). -/
def calling : State := withBytes user 0x20000 [0x9A, 0, 0, 0, 0, 0x3B, 0]

theorem guarded_user : user.Guarded where
  level := by decide
  code := fun _ => ⟨by decide, by decide, by decide, by decide⟩
  stack := fun _ => ⟨by decide, by decide, by decide, by decide, by decide⟩
  data := by
    intro n _ _ h
    cases n <;> first
      | exact absurd h (by decide)
      | exact ⟨by decide, by decide, by decide⟩
  null := by intro n; cases n <;> decide

theorem step_calling : step calling = .next (nextOf (step calling) user) := next_end _ (by decide +kernel)

theorem witness_StepKeepsMemoryForm : calling.mem.wf = true ∧ ∃ t, step calling = .next t :=
  ⟨by decide +kernel, _, step_calling⟩

theorem witness_StepKeepsControlState : calling.ControlOK ∧ ∃ t, step calling = .next t :=
  ⟨⟨by decide, by decide, by decide, by decide, by decide⟩, _, step_calling⟩

theorem witness_StepKeepsProtection :
    calling.Guarded ∧ calling.Seated ∧ calling.taskNamed = true ∧
    ∃ t, step calling = .next t ∧ t.activity ≠ .shutdown :=
  ⟨⟨guarded_user.level, guarded_user.code, guarded_user.stack, guarded_user.data, guarded_user.null⟩,
    ⟨rfl, rfl⟩, by decide, _, step_calling, by decide +kernel⟩

/-- P7 of R391 holds of the kernel state, and P10 of the nested task of program P3. -/
theorem witness_taskOK : kernel.TaskOK ∧ nested.LinkOK :=
  ⟨⟨by decide, by decide, by decide, _, _, ok_end [] (by decide +kernel), by decide +kernel,
      by decide +kernel, by decide +kernel, by decide +kernel, by decide +kernel⟩,
    fun _ => ⟨_, _, ok_end [] (by decide +kernel), by decide +kernel, by decide +kernel,
      by decide +kernel⟩⟩

theorem witness_UserKeepsSystemRegisters : calling.cpl ≠ 0 ∧ ∃ t, step calling = .next t :=
  ⟨by decide, _, step_calling⟩

/-- The kernel state with the T-bit of TSS B set (V44-12). -/
def trapping : State := withBytes kernel 0x11064 [1]

/-- A page fault, and the exceptions of an incoming task: its T-bit and its stack segment. -/
theorem witness_ExceptionsArePrecise :
    user.deliverExceptions = false ∧
    (∃ t, exec (.jmpFar 0x0008 0) user = .fault (.exception (.gp 0x0008) t)) ∧
    (∃ t, exec (.str (.mem ⟨.ds, some .ebx, none, 0⟩)) (ebx paged 0x40000) =
      .fault (.exception (.pf 0x00040000 7) t)) ∧
    trapping.deliverExceptions = false ∧
    (∃ t, exec (.jmpFar 0x0048 0) trapping = .fault (.exception .db t)) ∧
    ∃ t, exec (.callFar 0x0048 0) (withBytes kernel 0x11050 [0x1B]) =
      .fault (.exception (.ts 0x0018) t) :=
  ⟨rfl, ⟨_, fault_end user (by decide +kernel)⟩, ⟨_, fault_end user (by decide +kernel)⟩, rfl,
    ⟨_, fault_end user (by decide +kernel)⟩, ⟨_, fault_end user (by decide +kernel)⟩⟩

/-! ### Memory, segments and pages -/

/-- The expand-down segment that entry 13 describes. -/
def expandingDown : SegReg := SegReg.mk 0x006B true 0 0x0FFF true 0x7 true 3

theorem witness_LimitsOfSegments :
    0 < 1 ∧ (flatData 0x0023 3).expandDown = false ∧ expandingDown.expandDown = true ∧
    (Desc.mk 0xFFFFFFFF 0x000F0000).hi.getLsbD 23 = false ∧
    (Desc.mk 0xFFFFFFFF 0x008F0000).hi.getLsbD 23 = true := by decide

/-- The user state with DS caching a segment of a type. -/
def dsOf (typ : BitVec 4) : State :=
  { user with segs := { user.segs with ds := { user.segs.ds with typ := typ } } }

theorem witness_SegmentCheck :
    (user.segs.get .fs).valid = false ∧
    ((user.segs.get .cs).valid = true ∧ (user.segs.get .cs).typ.getLsbD 3 = true) ∧
    ((dsOf 1).segs.get .ds).typ.getLsbD 3 = false ∧ ((dsOf 1).segs.get .ds).typ.getLsbD 1 = false ∧
    ((dsOf 9).segs.get .ds).typ.getLsbD 3 = true ∧ ((dsOf 9).segs.get .ds).typ.getLsbD 1 = false ∧
    ((user.segs.get .ss).typ.getLsbD 3 = false ∧ (user.segs.get .ss).typ.getLsbD 1 = true) ∧
    segCheck .ss 0xFFFFFFFC 4 false user = .ok 0xFFFFFFFC user ∧
    segCheck .ss 0xFFFFFFFD 4 false user = .error (.exc (.sf 0)) user ∧
    segCheck .ss 0xFFFFFFFC (dwordBytes 7).length true user = .ok 0xFFFFFFFC user ∧
    segCheck .cs 0 (dwordBytes 7).length true user = .error (.exc (.gp 0)) user :=
  ⟨rfl, ⟨rfl, by decide⟩, by decide, by decide, by decide, by decide, ⟨by decide, by decide⟩,
    ok_at (by decide +kernel), stop_at (by decide +kernel), ok_at (by decide +kernel),
    stop_at (by decide +kernel)⟩

theorem witness_PageTranslation :
    user.paging = false ∧ paged.paging = true ∧
    oldLookups paged 0xFFFFFFFF = [] ∧ oldLookups paged 0 = [] ∧ oldLookups paged 0x41FFF = [] ∧
    paged.hasDword (pdeAddr paged 0xFFFFFFFF) = true ∧
    (paged.mem.dword (pdeAddr paged 0xFFFFFFFF)).getLsbD 0 = false ∧
    paged.hasDword (pdeAddr paged 0) = true ∧ paged.hasDword (pdeAddr paged 0x41FFF) = true ∧
    (paged.mem.dword (pdeAddr paged 0)).getLsbD 0 = true ∧
    (paged.mem.dword (pdeAddr paged 0x41FFF)).getLsbD 0 = true ∧
    paged.hasDword (pteAddr (paged.mem.dword (pdeAddr paged 0)) 0) = true ∧
    paged.hasDword (pteAddr (paged.mem.dword (pdeAddr paged 0x41FFF)) 0x41FFF) = true ∧
    (paged.mem.dword (pteAddr (paged.mem.dword (pdeAddr paged 0)) 0)).getLsbD 0 = false ∧
    (paged.mem.dword (pteAddr (paged.mem.dword (pdeAddr paged 0x41FFF)) 0x41FFF)).getLsbD 0 = true := by
  refine ⟨by decide, by decide, rfl, rfl, rfl, ?_, ?_, ?_, ?_, ?_, ?_, ?_, ?_, ?_, ?_⟩ <;> decide +kernel

/-- The paged state whose tables were in use when the entry of page 41H was changed to frame 42H. -/
def remapped : State :=
  { withBytes paged 0x101104 [0x07, 0x20, 0x04] with tablesUsed := true, pastMemory := [paged.mem] }

/-- Whichever translation the draw takes, the access is made (R113). -/
theorem witness_PageTranslation_old :
    remapped.paging = true ∧ oldLookups remapped 0x41000 ≠ [] ∧
    remapped.tablesUsed = true ∧ [(0x101104, (7 : Byte))] ≠ [] ∧
    ∃ p u, pageCheck .read true 0x41000 remapped = .ok p u := by
  have h : oldLookups remapped 0x41000 =
      [.mapped (Translation.mk 0x41 true true) [0x100000, 0x101104]] := by decide +kernel
  have hw : walk remapped 0x41000 = .mapped (Translation.mk 0x42 true true) [0x100000, 0x101104] := by
    decide +kernel
  have hl : ∃ f, lookup remapped 0x41000 = .mapped (Translation.mk f true true) [0x100000, 0x101104] := by
    rw [lookup, h]
    rcases Nat.mod_two_eq_zero_or_one (Config.staleChoice remapped.draws) with hd | hd
    · exact ⟨0x41, by simp [hd]⟩
    · exact ⟨0x42, by simpa [hd] using hw⟩
  have hp : remapped.paging = true := by decide
  obtain ⟨f, hl⟩ := hl
  have hc : pageCheck .read true 0x41000 remapped =
      .ok ((Translation.mk f true true).phys 0x41000) (remapped.noteLookup 0x41000 [0x100000, 0x101104]) := by
    simp only [pageCheck, run_bind_getState, run_ite, hp, hl]
    rfl
  exact ⟨hp, by rw [h]; decide, rfl, by decide, _, _, hc⟩

theorem witness_PagePrivilege :
    paged.paging = true ∧ translateRange .write true 0x41000 1 paged = .ok [0x41000] (endOf
      (translateRange .write true 0x41000 1 paged)) ∧
    (∃ t entries, lookup paged 0x41FFF = .mapped t entries ∧
      paged.hasMemory (t.phys 0x41FFF) = true ∧ t.user = true ∧ t.writable = true) ∧
    (∃ t entries, lookup paged 0x1000 = .mapped t entries ∧ t.user = false) ∧
    (∃ t entries, lookup paged 0x40000 = .mapped t entries ∧ t.user = true ∧ t.writable = false) :=
  ⟨by decide, ok_end [] (by decide +kernel),
    ⟨⟨0x41, true, true⟩, [0x100000, 0x101104], by decide +kernel, by decide +kernel, rfl, rfl⟩,
    ⟨⟨0x01, false, true⟩, [0x100000, 0x101004], by decide +kernel, rfl⟩,
    ⟨⟨0x40, true, false⟩, [0x100000, 0x101100], by decide +kernel, rfl, rfl⟩⟩

/-- The paged state after a walk used the doubleword at 00041FFCH as a page-table entry. -/
def walkedThere : State := { paged with walked := List.range' 0x41FFC 4 }

theorem witness_ReadsBytes :
    translateRange .read true 0x41FFC 4 paged =
      .ok (List.range' 0x41FFC 4) (endOf (translateRange .read true 0x41FFC 4 paged)) ∧
    translateRange .read true 0x41FFC 4 walkedThere =
      .ok (List.range' 0x41FFC 4) (endOf (translateRange .read true 0x41FFC 4 walkedThere)) ∧
    (∃ p ∈ List.range' 0x41FFC 4, p ∈ (endOf (translateRange .read true 0x41FFC 4 walkedThere)).walked) ∧
    kernel.Flat ∧ kernel.walked = [] :=
  ⟨ok_end [] (by decide +kernel), ok_end [] (by decide +kernel), by decide +kernel,
    flat_of (by decide) rfl, rfl⟩

/-- Byte 0 where there is no memory, byte 1 on a page that is not present; and byte 0 alone. -/
theorem witness_ReadsBytes_order :
    (∃ v, pageCheckRange .read true 0x41FFF 2 holed = .error (.exc (.pf 0x42000 4)) v) ∧
    (∃ v, pageCheckRange .read true 0x41FFF 1 holed = .ok [0x41FFF] v) ∧
    ∃ p ∈ [0x41FFF], holed.hasMemory p = false :=
  ⟨⟨endOf (pageCheckRange .read true 0x41FFF 2 holed), stop_at (by decide +kernel)⟩,
    ⟨_, ok_val (by decide +kernel)⟩, 0x41FFF, by decide, by decide +kernel⟩

/-- The state with paging as in program P4 and a GDT on a page that is not present. -/
def lost (s : State) : State :=
  { s with ctl := paged.ctl, mem := paged.mem, gdtr := TableReg.mk 0x00000000 0x007F }

theorem stop_end {r : EStateM.Result Stop State α} {e : Stop} (h : stopsWith r e (endOf r) = true) :
    ∃ t, r = .error e t := ⟨_, stop_at h⟩

/-- A descriptor in such a GDT is neither read nor written. -/
theorem witness_lostGdt :
    (∃ t, readDesc 0x0048 (lost kernel) = .error (.exc (.pf 0x00000048 0)) t) ∧
    (∃ t, prepareAccessed 0x0008 ⟨0x0000FFFF, 0x00CF9A00⟩ (lost kernel) =
      .error (.exc (.pf 0x0000000D 2)) t) ∧
    (Desc.mk 0x0000FFFF 0x00CF9A00).big = true ∧
    ∃ t, accessByteAddrs 0x0048 (lost kernel) = .error (.exc (.pf 0x0000004D 0)) t :=
  ⟨stop_end (by decide +kernel), stop_end (by decide +kernel), by decide, stop_end (by decide +kernel)⟩

theorem witness_WritesBytes :
    kernel.mem.wf = true ∧
    translateRange .write false 0xFFFFFFFE [(1 : Byte), 2, 3].length kernel =
      .ok [0xFFFFFFFE, 0xFFFFFFFF, 0] kernel ∧
    paged.mem.wf = true ∧
    translateRange .write true 0x40FFF [(1 : Byte), 2].length paged =
      .error (.exc (.pf 0x40FFF 7)) (endOf (translateRange .write true 0x40FFF [(1 : Byte), 2].length paged)) ∧
    kernel.Flat ∧ [(1 : Byte), 2, 3].length ≤ 2 ^ 32 := by
  refine ⟨by decide +kernel, ok_at (by decide +kernel), by decide +kernel, stop_at (by decide +kernel),
    flat_of (by decide) rfl, by decide⟩

/-- The kernel state with an LDT of one entry, a copy of entry 4. -/
def withLdt : State :=
  withBytes { kernel with ldtr := LdtReg.mk 0x0028 0x00003000 0x00000007 true } 0x3000
    [0xFF, 0xFF, 0, 0, 0, 0xF3, 0xCF, 0]

theorem witness_DescriptorTables :
    (selTI 0x0080 = false ∧ kernel.gdtr.limit.toNat < ((0x0080 : Word).toNat / 8) * 8 + 7) ∧
    (selTI 0x0004 = true ∧ kernel.ldtr.valid = false) ∧
    (selTI 0x000F = true ∧ withLdt.ldtr.limit.toNat < ((0x000F : Word).toNat / 8) * 8 + 7) ∧
    (selTI 0x007B = false ∧ ((0x007B : Word).toNat / 8) * 8 + 7 ≤ kernel.gdtr.limit.toNat ∧
      sysRead (kernel.gdtr.base + BitVec.ofNat 32 (((0x007B : Word).toNat / 8) * 8)) 8 kernel =
        .ok [0, 2, 8, 0, 0, 0xEC, 0, 0] kernel) ∧
    (selTI 0x0007 = true ∧ withLdt.ldtr.valid = true ∧
      ((0x0007 : Word).toNat / 8) * 8 + 7 ≤ withLdt.ldtr.limit.toNat ∧
      sysRead (withLdt.ldtr.base + BitVec.ofNat 32 (((0x0007 : Word).toNat / 8) * 8)) 8 withLdt =
        .ok [0xFF, 0xFF, 0, 0, 0, 0xF3, 0xCF, 0] withLdt) ∧
    kernel.mem.wf = true ∧ (Desc.mk 0x0000FFFF 0x00CFF300).accessed = true ∧
    (Desc.mk 0x0000FFFF 0x00409E00).accessed = false ∧
    translateRange .write false (kernel.tableBase 0x0033 + BitVec.ofNat 32 (selOffset 0x0033) + 5) 1 kernel =
      .ok [0x1035] kernel ∧
    ∃ t, setAccessed 0x0033 ⟨0x0000FFFF, 0x00409E00⟩ kernel = .ok () t :=
  ⟨by decide, by decide, by decide, ⟨by decide, by decide, ok_at (by decide +kernel)⟩,
    ⟨by decide, rfl, by decide, ok_at (by decide +kernel)⟩, by decide +kernel, by decide, by decide,
    ok_at (by decide +kernel), ⟨_, ok_unit (by decide +kernel)⟩⟩

/-- The stores of a push at physical addresses. -/
def pushCells (vs : List Dword) (ps : List Nat) : List Host.Cell := ps.zip (vs.reverse.flatMap dwordBytes)

/-- The state after a push. -/
def pushed (s : State) (vs : List Dword) (ps : List Nat) : State :=
  { s.store (pushCells vs ps) with
    regs := { s.regs with esp := s.regs.esp - BitVec.ofNat 32 (4 * vs.length) } }

theorem prepared_at {s : State} {vs : List Dword} {ps : List Nat} (lin : Dword)
    (h1 : answers (segCheck .ss (s.regs.esp - BitVec.ofNat 32 (4 * vs.length)) (4 * vs.length) true s)
      lin s = true)
    (h2 : answers (translateRange .write s.userLevel lin (4 * vs.length) s) ps s = true) :
    PushPrepared s vs (pushCells vs ps) s := ⟨lin, ps, ok_at h1, ok_at h2, rfl⟩

theorem pushed_at {s : State} {vs : List Dword} {ps : List Nat} (lin : Dword)
    (h1 : answers (segCheck .ss (s.regs.esp - BitVec.ofNat 32 (4 * vs.length)) (4 * vs.length) true s)
      lin s = true)
    (h2 : answers (translateRange .write s.userLevel lin (4 * vs.length) s) ps s = true)
    (h3 : ps.length = 4 * vs.length) : PushedTo s vs ps (pushed s vs ps) := by
  refine ⟨_, s, prepared_at lin h1 h2, ?_, rfl⟩
  rw [pushCells, List.map_fst_zip]
  simp [h3, List.length_flatMap, dwordBytes, Nat.mul_comm]

theorem witness_PushAll :
    kernel.mem.wf = true ∧
    PushedTo kernel [7, 8] (List.range' 0x7FF8 8) (pushed kernel [7, 8] (List.range' 0x7FF8 8)) ∧
    (List.range' 0x7FF8 8).Nodup ∧ [(7 : Dword), 8].reverse[1]? = some 7 ∧
    pushAll [7] (esp kernel 2) = .error (.exc (.sf 0)) (esp kernel 2) ∧
    (esp kernel 2).segs.ss.valid = true ∧ (esp kernel 2).segs.ss.typ.getLsbD 3 = false ∧
    (esp kernel 2).segs.ss.typ.getLsbD 1 = true ∧
    limitOK (esp kernel 2).segs.ss ((esp kernel 2).regs.esp - BitVec.ofNat 32 (4 * [(7 : Dword)].length)).toNat
      (4 * [(7 : Dword)].length) = false :=
  ⟨by decide +kernel, pushed_at 0x7FF8 (by decide +kernel) (by decide +kernel) rfl, by decide, by decide,
    stop_at (by decide +kernel), rfl, by decide, by decide, by decide⟩

theorem witness_FlagUpdates : 31 < 32 ∧ 31 ∉ [0, 2, 4, 6, 7, 11] := by decide

/-! ### Loading segment registers, near transfers -/

theorem witness_MovToSegmentRegister_null :
    segOfBits 5 = some .gs ∧ readRM16 (.reg .eax) (eax user 3) = .ok 3 (eax user 3) ∧
    isNull 0x0003 = true := ⟨rfl, rfl, rfl⟩

theorem witness_MovToSegmentRegister_data :
    segOfBits 3 = some .ds ∧ readRM16 (.reg .eax) (eax user 0x33) = .ok 0x33 (eax user 0x33) ∧
    isNull 0x0033 = false ∧
    readDesc 0x0033 (eax user 0x33) = .ok (some ⟨0x0000FFFF, 0x00409E00⟩) (eax user 0x33) ∧
    (Desc.mk 0x0000FFFF 0x00409E00).isCode = true ∧ (Desc.mk 0x0000FFFF 0x00409E00).hi.getLsbD 9 = true ∧
    (Desc.mk 0x0000FFFF 0x00409E00).conforming = true ∧ (Desc.mk 0x0000FFFF 0x00409E00).present = true ∧
    (∃ w, setAccessed 0x0033 ⟨0x0000FFFF, 0x00409E00⟩ (eax user 0x33) = .ok () w) ∧
    readDesc 0x0023 (eax user 0x23) = .ok (some ⟨0x0000FFFF, 0x00CFF300⟩) (eax user 0x23) ∧
    (Desc.mk 0x0000FFFF 0x00CFF300).isData = true ∧ user.cpl ≤ (Desc.mk 0x0000FFFF 0x00CFF300).dpl ∧
    selRpl 0x0023 ≤ (Desc.mk 0x0000FFFF 0x00CFF300).dpl :=
  ⟨rfl, rfl, rfl, ok_at (by decide +kernel), by decide, by decide, by decide, by decide,
    ⟨_, ok_unit (by decide +kernel)⟩, ok_at (by decide +kernel), by decide, by decide, by decide⟩

theorem witness_MovToSegmentRegister_stack :
    readRM16 (.reg .eax) (eax user 0x23) = .ok 0x23 (eax user 0x23) ∧ isNull 0x0023 = false ∧
    readDesc 0x0023 (eax user 0x23) = .ok (some ⟨0x0000FFFF, 0x00CFF300⟩) (eax user 0x23) ∧
    selRpl 0x0023 = (eax user 0x23).cpl ∧ (Desc.mk 0x0000FFFF 0x00CFF300).writable = true ∧
    (Desc.mk 0x0000FFFF 0x00CFF300).dpl = (eax user 0x23).cpl ∧
    (Desc.mk 0x0000FFFF 0x00CFF300).present = true ∧ (Desc.mk 0x0000FFFF 0x00CFF300).big = true ∧
    setAccessed 0x0023 ⟨0x0000FFFF, 0x00CFF300⟩ (eax user 0x23) = .ok () (eax user 0x23) :=
  ⟨rfl, rfl, ok_at (by decide +kernel), by decide, by decide, by decide, by decide, by decide,
    ok_at (by decide +kernel)⟩

/-- The kernel state with entry 2 of the GDT a 16-bit stack. -/
def smallStack : State := eax (withBytes kernel 0x1016 [0x8F]) 0x10

theorem witness_MovToSegmentTraps :
    readRM16 (.mem ⟨.fs, some .eax, none, 0⟩) user = .error (.exc (.gp 0)) user ∧
    isNull 0x0003 = true ∧ isNull 0x0080 = false ∧ isNull 0x0040 = false ∧ isNull 0x0060 = false ∧
    isNull 0x0013 = false ∧ isNull 0x0073 = false ∧
    readRM16 (.reg .eax) (eax kernel 0x80) = .ok 0x80 (eax kernel 0x80) ∧
    readDesc 0x0080 kernel = .ok none kernel ∧
    readDesc 0x0040 kernel = .ok (some ⟨0x00000067, 0x00008B01⟩) kernel ∧
    (Desc.mk 0x00000067 0x00008B01).isSeg = false ∧
    readDesc 0x0060 kernel = .ok (some ⟨0x0000FFFF, 0x00CF9800⟩) kernel ∧
    (Desc.mk 0x0000FFFF 0x00CF9800).isCode = true ∧ (Desc.mk 0x0000FFFF 0x00CF9800).hi.getLsbD 9 = false ∧
    readDesc 0x0013 user = .ok (some ⟨0x0000FFFF, 0x00CF9200⟩) user ∧
    (Desc.mk 0x0000FFFF 0x00CF9200).conforming = false ∧ (Desc.mk 0x0000FFFF 0x00CF9200).dpl < user.cpl ∧
    readDesc 0x0073 user = .ok (some ⟨0x0000FFFF, 0x00CF7200⟩) user ∧
    (Desc.mk 0x0000FFFF 0x00CF7200).isData = true ∧ user.cpl ≤ (Desc.mk 0x0000FFFF 0x00CF7200).dpl ∧
    (Desc.mk 0x0000FFFF 0x00CF7200).present = false :=
  ⟨stop_at (by decide +kernel), by decide, by decide, by decide, by decide, by decide, by decide, rfl,
    ok_at (by decide +kernel), ok_at (by decide +kernel),
    by decide, ok_at (by decide +kernel), by decide, by decide, ok_at (by decide +kernel), by decide,
    by decide, ok_at (by decide +kernel), by decide, by decide, by decide⟩

theorem witness_MovToSegmentTraps_stack :
    selRpl 0x0023 ≠ kernel.cpl ∧ readDesc 0x0023 kernel = .ok (some ⟨0x0000FFFF, 0x00CFF300⟩) kernel ∧
    selRpl 0x0073 = user.cpl ∧ (Desc.mk 0x0000FFFF 0x00CF7200).writable = true ∧
    (Desc.mk 0x0000FFFF 0x00CF7200).dpl = user.cpl ∧ (Desc.mk 0x0000FFFF 0x00CF7200).present = false ∧
    readDesc 0x0010 smallStack = .ok (some ⟨0x0000FFFF, 0x008F9300⟩) smallStack ∧
    selRpl 0x0010 = smallStack.cpl ∧ (Desc.mk 0x0000FFFF 0x008F9300).writable = true ∧
    (Desc.mk 0x0000FFFF 0x008F9300).dpl = smallStack.cpl ∧
    (Desc.mk 0x0000FFFF 0x008F9300).present = true ∧ (Desc.mk 0x0000FFFF 0x008F9300).big = false :=
  ⟨by decide, ok_at (by decide +kernel), by decide, by decide, by decide, by decide,
    ok_at (by decide +kernel), by decide, by decide, by decide, by decide, by decide⟩

theorem witness_MovToSegmentTraps_page :
    readRM16 (.reg .eax) (eax (lost kernel) 0x10) = .ok 0x10 (eax (lost kernel) 0x10) ∧ isNull 0x0010 = false ∧
    ∃ v, readDesc 0x0010 (eax (lost kernel) 0x10) = .error (.exc (.pf 0x10 0)) v :=
  ⟨rfl, by decide, stop_end (by decide +kernel)⟩

/-- What is loaded where every check passes. -/
theorem witness_MovToSegmentTraps_loads :
    (readDesc 0x0023 user = .ok (some ⟨0x0000FFFF, 0x00CFF300⟩) user ∧ segOfBits 0 = some .es ∧
      (Desc.mk 0x0000FFFF 0x00CFF300).isData = true ∧ user.cpl ≤ (Desc.mk 0x0000FFFF 0x00CFF300).dpl ∧
      selRpl 0x0023 ≤ (Desc.mk 0x0000FFFF 0x00CFF300).dpl) ∧
    (Desc.mk 0x0000FFFF 0x00CFF300).present = true ∧ selRpl 0x0023 = user.cpl ∧
    (Desc.mk 0x0000FFFF 0x00CFF300).writable = true ∧ (Desc.mk 0x0000FFFF 0x00CFF300).dpl = user.cpl ∧
    (Desc.mk 0x0000FFFF 0x00CFF300).big = true :=
  ⟨⟨ok_at (by decide +kernel), rfl, by decide, by decide, by decide⟩, by decide, by decide, by decide,
    by decide, by decide⟩

/-- A pointer of 6 bytes at 00025000H, that EAX addresses. -/
def pointing (s : State) (off : Dword) (sel : Word) : State :=
  withBytes (eax s 0x25000) 0x25000 (dwordBytes off ++ wordBytes sel)

theorem witness_NearJumps :
    segReadDword .ds (effectiveOffset (pointing user 0x21234 0).regs ⟨.ds, some .eax, none, 0⟩)
      (pointing user 0x21234 0) = .ok 0x21234 (pointing user 0x21234 0) ∧
    segReadDword .fs (effectiveOffset user.regs ⟨.fs, some .eax, none, 0⟩) user =
      .error (.exc (.gp 0)) user :=
  ⟨ok_at (by decide +kernel), stop_at (by decide +kernel)⟩

theorem witness_NearCalls :
    readRM32 (.reg .eax) (eax user 0x21234) = .ok 0x21234 (eax user 0x21234) ∧
    (0x21234 : Dword).toNat ≤ (eax user 0x21234).segs.cs.limit.toNat ∧
    PushedTo (eax user 0x21234) [0x20000] (List.range' 0x2FFFC 4)
      (pushed (eax user 0x21234) [0x20000] (List.range' 0x2FFFC 4)) ∧
    pastLimit.segs.cs.limit.toNat < (0x400 : Dword).toNat ∧
    pushAll [0x20000] (esp user 2) = .error (.exc (.sf 0)) (esp user 2) :=
  ⟨rfl, by decide, pushed_at 0x2FFFC (by decide +kernel) (by decide +kernel) rfl, by decide,
    stop_at (by decide +kernel)⟩

/-- A fault of reading an operand: the null selector of FS. -/
theorem witness_operand_faults :
    readRM32 (.mem ⟨.fs, some .eax, none, 0⟩) user = .error (.exc (.gp 0)) user ∧
    readRM16 (.mem ⟨.fs, some .eax, none, 0⟩) user = .error (.exc (.gp 0)) user ∧
    checkWritableRM16 (.mem ⟨.cs, some .eax, none, 0⟩) user = .error (.exc (.gp 0)) user :=
  ⟨stop_at (by decide +kernel), stop_at (by decide +kernel), stop_at (by decide +kernel)⟩

theorem witness_NearReturns :
    segReadDword .ss returning.regs.esp returning = .ok 0x00020005 returning ∧
    segReadDword .ss (esp user 0xFFFFFFFE).regs.esp (esp user 0xFFFFFFFE) =
      .error (.exc (.sf 0)) (esp user 0xFFFFFFFE) :=
  ⟨ok_at (by decide +kernel), stop_at (by decide +kernel)⟩

/-! ### Far transfers -/

theorem entered_at {s : State} {sel : Word} {d : Desc} {target : Dword} {pushed : List Host.Cell}
    {esp : Dword} (hb : d.big = true) (ha : d.accessed = true) :
    ∃ t, EnteredCode sel d target pushed esp s (pushed.map Prod.fst) t := by
  refine ⟨_, [], s, hb, ?_, by simp, rfl⟩
  simp only [prepareAccessed, ha]; rfl

theorem witness_FarTransferToCode_jmp :
    FarOperand .jmp (.jmpFar 0x0018 0x00021000) user 0x0018 0x00021000 user ∧ isNull 0x0018 = false ∧
    readDesc 0x0018 user = .ok (some ⟨0x0000FFFF, 0x00CFFB00⟩) user ∧
    (Desc.mk 0x0000FFFF 0x00CFFB00).isCode = true ∧ (Desc.mk 0x0000FFFF 0x00CFFB00).conforming = false ∧
    selRpl 0x0018 ≤ user.cpl ∧ (Desc.mk 0x0000FFFF 0x00CFFB00).dpl = user.cpl ∧
    (Desc.mk 0x0000FFFF 0x00CFFB00).present = true ∧
    (0x00021000 : Dword).toNat ≤ (Desc.mk 0x0000FFFF 0x00CFFB00).effLimit.toNat ∧
    ∃ ps t, EnteredCode 0x0018 ⟨0x0000FFFF, 0x00CFFB00⟩ 0x00021000 [] user.regs.esp user ps t :=
  ⟨.inl ⟨rfl, rfl⟩, by decide, ok_at (by decide +kernel), by decide, by decide, by decide, by decide,
    by decide, by decide, _, entered_at (by decide) (by decide)⟩

/-- The user state with a far pointer to the last byte of the conforming segment of entry 6, accessed. -/
def callingConforming : State := withBytes (pointing user 0xFFFF 0x33) 0x1035 [0x9F]

theorem witness_FarTransferToCode_call :
    FarOperand .call (.callFarMem (.mem ⟨.ds, some .eax, none, 0⟩)) callingConforming 0x0033 0x0000FFFF
      callingConforming ∧
    readDesc 0x0033 callingConforming = .ok (some ⟨0x0000FFFF, 0x00409F00⟩) callingConforming ∧
    (Desc.mk 0x0000FFFF 0x00409F00).isCode = true ∧ (Desc.mk 0x0000FFFF 0x00409F00).conforming = true ∧
    (Desc.mk 0x0000FFFF 0x00409F00).dpl ≤ callingConforming.cpl ∧
    (Desc.mk 0x0000FFFF 0x00409F00).present = true ∧
    (0x0000FFFF : Dword).toNat ≤ (Desc.mk 0x0000FFFF 0x00409F00).effLimit.toNat ∧
    callingConforming.mem.wf = true ∧
    ∃ cells ps t, PushPrepared callingConforming
        [callingConforming.segs.cs.sel.zeroExtend 32, callingConforming.nextEip] cells callingConforming ∧
      EnteredCode 0x0033 ⟨0x0000FFFF, 0x00409F00⟩ 0x0000FFFF cells (callingConforming.regs.esp - 8)
        callingConforming ps t ∧ ps.Nodup :=
  have ⟨t, ht⟩ := entered_at (sel := 0x0033) (d := ⟨0x0000FFFF, 0x00409F00⟩) (target := 0x0000FFFF)
    (pushed := pushCells [callingConforming.segs.cs.sel.zeroExtend 32, callingConforming.nextEip]
      (List.range' 0x2FFF8 8)) (esp := callingConforming.regs.esp - 8) (s := callingConforming)
    (by decide) (by decide)
  ⟨.inr ⟨_, rfl, ok_at (by decide +kernel)⟩, ok_at (by decide +kernel), by decide, by decide, by decide,
    by decide, by decide, by decide +kernel, _, _, t,
    prepared_at 0x2FFF8 (by decide +kernel) (by decide +kernel), ht, by decide +kernel⟩

/-- The call gate of entry 7. -/
def gate7 : Desc := Desc.mk 0x00080100 0x0000EC02

/-- The code segment of entry 1, accessed. -/
def code1 : Desc := Desc.mk 0x0000FFFF 0x00CF9B00

/-- The operand of a far transfer through the gate of entry 7 to the code segment `d` of entry 1; the
reads leave the states `w` and `v`. -/
theorem gateReads_at {s w v : State} {d : Desc} {kind : FarKind} {i : Instr}
    (hi : FarOperand kind i s 0x003B 5 s) (h1 : answers (readDesc 0x003B s) (some gate7) w = true)
    (h2 : answers (readDesc 0x0008 w) (some d) v = true) (hc : s.cpl ≤ gate7.dpl) (hd : d.isCode = true) :
    GateOperand kind i s gate7 0x0008 0x00000100 d v :=
  ⟨0x003B, 5, s, w, hi, by decide, ok_at h1, by decide, by decide, hc, by decide, by decide, by decide,
    by decide, by decide, ok_at h2, hd⟩

/-- `gateReads_at` where the reads leave the state as it was. -/
theorem gate_at {s : State} {d : Desc} {kind : FarKind} {i : Instr}
    (hi : FarOperand kind i s 0x003B 5 s) (h1 : answers (readDesc 0x003B s) (some gate7) s = true)
    (h2 : answers (readDesc 0x0008 s) (some d) s = true) (hc : s.cpl ≤ gate7.dpl) (hd : d.isCode = true) :
    GateOperand kind i s gate7 0x0008 0x00000100 d s := gateReads_at hi h1 h2 hc hd

theorem witness_CallGateAtSameLevel :
    GateOperand .call (.callFar 0x003B 5) kernel gate7 0x0008 0x00000100 code1 kernel ∧
    GateOperand .jmp (.jmpFar 0x003B 5) kernel gate7 0x0008 0x00000100 code1 kernel ∧
    code1.conforming = false ∧ code1.dpl = kernel.cpl ∧ code1.present = true ∧
    (0x00000100 : Dword).toNat ≤ code1.effLimit.toNat ∧
    (∃ ps t, EnteredCode 0x0008 code1 0x00000100 [] kernel.regs.esp kernel ps t) ∧
    ∃ cells ps t, PushPrepared kernel [kernel.segs.cs.sel.zeroExtend 32, kernel.nextEip] cells kernel ∧
      EnteredCode 0x0008 code1 0x00000100 cells (kernel.regs.esp - 8) kernel ps t :=
  ⟨gate_at (.inl ⟨rfl, rfl⟩) (by decide +kernel) (by decide +kernel) (by decide) (by decide),
    gate_at (.inl ⟨rfl, rfl⟩) (by decide +kernel) (by decide +kernel) (by decide) (by decide), by decide,
    by decide, by decide, by decide, ⟨_, entered_at (by decide) (by decide)⟩, _, _,
    (entered_at (by decide) (by decide)).imp fun _ h =>
      ⟨prepared_at (ps := List.range' 0x7FF8 8) 0x7FF8 (by decide +kernel) (by decide +kernel), h⟩⟩

/-- The user state of program P1 with entries 1 and 2 of the GDT accessed. -/
def userP1 : State :=
  withBytes { esp user 0x0002FFF8 with mem := kernel.mem } 0x2FFF8 [0x10, 0, 0, 0, 0xAA, 0x0A, 0, 0]

/-- The frame of program P1, step 1, in the order of the pushes. -/
def frameP1 : List Dword :=
  [userP1.segs.ss.sel.zeroExtend 32, userP1.regs.esp] ++ [(0x10 : Dword), 0xAAA].reverse ++
    [userP1.segs.cs.sel.zeroExtend 32, userP1.nextEip]

/-- The data segment of entry 2, accessed. -/
def data2 : Desc := Desc.mk 0x0000FFFF 0x00CF9300

theorem innerStack_userP1 : innerStack 0 userP1 = .ok (0x00008000, 0x0010, data2) userP1 :=
  ok_at (by decide +kernel)

theorem enteredInner_at {s : State} {csel : Word} {c : Desc} {target nesp : Dword} {nss : Word} {d : Desc}
    {vs : List Dword} {qs : List Nat} (ha : c.accessed = true) (hd : d.accessed = true)
    (hl : limitOK (cacheOf nss d) (nesp - BitVec.ofNat 32 (4 * vs.length)).toNat (4 * vs.length) = true)
    (ht : targetOK c.effLimit target = true) (hb : c.big = true)
    (hq : answers (translateRange .write false (d.base + (nesp - BitVec.ofNat 32 (4 * vs.length)))
      (4 * vs.length) s) qs s = true) :
    ∃ ps t, EnteredInner csel c target nesp nss d vs s ps t := by
  have hs : ∀ sel (e : Desc) (x : State), e.accessed = true → prepareAccessed sel e x = .ok [] x := by
    intro sel e x h; simp only [prepareAccessed, h]; rfl
  exact ⟨_, _, qs, [], [], s, s, s, hl, ht, hb, ok_at hq, hs _ _ _ hd, hs _ _ _ ha, rfl, rfl⟩

theorem witness_CallGateToInnerLevel :
    GateOperand .call (.callFar 0x003B 5) userP1 gate7 0x0008 0x00000100 code1 userP1 ∧
    code1.conforming = false ∧ code1.dpl < userP1.cpl ∧ code1.present = true ∧
    innerStack code1.dpl userP1 = .ok (0x00008000, 0x0010, data2) userP1 ∧
    limitOK (cacheOf 0x0010 data2) ((0x00008000 : Dword) - BitVec.ofNat 32 24).toNat 24 = true ∧
    (0x00000100 : Dword).toNat ≤ code1.effLimit.toNat ∧
    readParams 0 2 userP1 = .ok [0x10, 0xAAA] userP1 ∧ [(0x10 : Dword), 0xAAA][1]? = some 0xAAA ∧
    ∃ ps t, EnteredInner 0x0008 code1 0x00000100 0x00008000 0x0010 data2 frameP1 userP1 ps t :=
  ⟨gate_at (.inl ⟨rfl, rfl⟩) (by decide +kernel) (by decide +kernel) (by decide) (by decide), by decide,
    by decide, by decide, innerStack_userP1, by decide, by decide, ok_at (by decide +kernel), rfl,
    enteredInner_at (qs := List.range' 0x7FE8 24) (by decide) (by decide) (by decide +kernel)
      (by decide +kernel) (by decide) (by decide +kernel)⟩

/-- The user state with SS0 of TSS A. -/
def ss0 (b0 b1 : Byte) : State := withBytes userP1 0x10008 [b0, b1]

/-- The user state whose stack of level 0 is entry 2 with B = 0, of the bytes at 00001014H. -/
def stack2 (access flags : Byte) : State := withBytes userP1 0x1015 [access, flags]

/-- The user state with a code segment of entry 1 of 256 bytes, and with a 16-bit one. -/
def code1Of (b0 b1 flags : Byte) : State :=
  withBytes (withBytes userP1 0x1008 [b0, b1]) 0x100E [flags]

/-- The user state with paging: the GDT, TSS A and the caller's stack are there, the stack of level 0 is
not. -/
def pagedP1 : State :=
  withBytes
    (withBytes
      (withBytes
        (withBytes { userP1 with ctl := { user.ctl with cr0 := 0x80000011, cr3 := 0x00100000 } }
          0x100000 [0x07, 0x10, 0x10])
        0x101004 [0x03, 0x10])
      0x101040 [0x03, 0x00, 0x01])
    0x1010BC [0x07, 0xF0, 0x02]

/-- The states of the call in `pagedP1`: after the reads of the gate, of the code segment, of the stack
and of the parameters. -/
def pagedReads : State × State × State × State :=
  let w := endOf (readDesc 0x003B pagedP1)
  let v := endOf (readDesc 0x0008 w)
  let x := endOf (innerStack 0 v)
  (w, v, x, endOf (readParams 0 2 x))

theorem witness_CallGateToInnerLevel_traps :
    (GateOperand .call (.callFar 0x003B 5) (ss0 0 0) gate7 0x0008 0x00000100 code1 (ss0 0 0) ∧
      innerStack 0 (ss0 0 0) = .error (.exc (.gp 0)) (ss0 0 0)) ∧
    innerStack 0 (stack2 0x93 0x8F) = .error (.refuse .sixteenBitForm) (stack2 0x93 0x8F) ∧
    (innerStack 0 (withBytes userP1 0x10004 [8, 0, 0, 0]) =
        .ok (8, 0x0010, data2) (withBytes userP1 0x10004 [8, 0, 0, 0]) ∧
      limitOK (cacheOf 0x0010 data2) ((8 : Dword) - BitVec.ofNat 32 24).toNat 24 = false) ∧
    (GateOperand .call (.callFar 0x003B 5) (code1Of 0xFF 0 0x40) gate7 0x0008 0x00000100
        ⟨0x000000FF, 0x00409B00⟩ (code1Of 0xFF 0 0x40) ∧
      (Desc.mk 0x000000FF 0x00409B00).effLimit.toNat < (0x00000100 : Dword).toNat) ∧
    readParams 0 2 (esp userP1 0xFFFFFFF9) = .error (.exc (.sf 0)) (esp userP1 0xFFFFFFF9) ∧
    (GateOperand .call (.callFar 0x003B 5) (code1Of 0xFF 0xFF 0x8F) gate7 0x0008 0x00000100
        ⟨0x0000FFFF, 0x008F9B00⟩ (code1Of 0xFF 0xFF 0x8F) ∧
      prepareWrite false (data2.base + 0x00007FE8) (frameP1.reverse.flatMap dwordBytes)
          (code1Of 0xFF 0xFF 0x8F) =
        .ok (pushCells frameP1 (List.range' 0x7FE8 24)) (code1Of 0xFF 0xFF 0x8F) ∧
      (Desc.mk 0x0000FFFF 0x008F9B00).big = false) ∧
    prepareWrite false (data2.base + 0x00007FE8) (frameP1.reverse.flatMap dwordBytes) userP1 =
      .ok (pushCells frameP1 (List.range' 0x7FE8 24)) userP1 ∧ code1.big = true :=
  ⟨⟨gate_at (.inl ⟨rfl, rfl⟩) (by decide +kernel) (by decide +kernel) (by decide) (by decide),
      stop_at (by decide +kernel)⟩, stop_at (by decide +kernel), ⟨ok_at (by decide +kernel), by decide⟩,
    ⟨gate_at (.inl ⟨rfl, rfl⟩) (by decide +kernel) (by decide +kernel) (by decide) (by decide), by decide⟩,
    stop_at (by decide +kernel),
    ⟨gate_at (.inl ⟨rfl, rfl⟩) (by decide +kernel) (by decide +kernel) (by decide) (by decide),
      ok_at (by decide +kernel), by decide⟩, ok_at (by decide +kernel), by decide⟩

theorem witness_CallGateToInnerLevel_page :
    GateOperand .call (.callFar 0x003B 5) pagedP1 gate7 0x0008 0x00000100 code1 pagedReads.2.1 ∧
    innerStack 0 pagedReads.2.1 = .ok (0x00008000, 0x0010, data2) pagedReads.2.2.1 ∧
    readParams 0 2 pagedReads.2.2.1 = .ok [0x10, 0xAAA] pagedReads.2.2.2 ∧
    ∃ z, prepareWrite false (data2.base + 0x00007FE8) (frameP1.reverse.flatMap dwordBytes) pagedReads.2.2.2 =
      .error (.exc (.pf 0x00007FE8 2)) z :=
  ⟨gateReads_at (w := pagedReads.1) (.inl ⟨rfl, rfl⟩) (by decide +kernel) (by decide +kernel) (by decide)
      (by decide),
    ok_at (by decide +kernel), ok_at (by decide +kernel),
    endOf (prepareWrite false (data2.base + 0x00007FE8) (frameP1.reverse.flatMap dwordBytes)
      pagedReads.2.2.2), stop_at (by decide +kernel)⟩

theorem witness_InnerStackSelection :
    ({ userP1 with tr := { userP1.tr with limit := 0x0A } } : State).tr.limit.toNat < 8 * (0 : Level).toNat + 11 ∧
    8 * (2 : Level).toNat + 11 ≤ userP1.tr.limit.toNat ∧
    (∀ s ∈ [userP1, ss0 0 0, ss0 0x80 0, ss0 0x13 0, ss0 0x08 0, ss0 0x20 0, stack2 0x13 0xCF, stack2 0x93 0x8F],
      isOk (sysRead (s.tr.base + BitVec.ofNat 32 4) 4 s) = true ∧
      isOk (sysRead (s.tr.base + BitVec.ofNat 32 8) 2 s) = true) ∧
    readDesc 0x0080 (ss0 0x80 0) = .ok none (ss0 0x80 0) ∧
    (selRpl 0x0013 ≠ 0 ∧ readDesc 0x0013 (ss0 0x13 0) = .ok (some data2) (ss0 0x13 0)) ∧
    (selRpl 0x0020 = 0 ∧ readDesc 0x0020 (ss0 0x20 0) = .ok (some ⟨0x0000FFFF, 0x00CFF300⟩) (ss0 0x20 0) ∧
      (Desc.mk 0x0000FFFF 0x00CFF300).writable = true ∧ (Desc.mk 0x0000FFFF 0x00CFF300).dpl ≠ 0) ∧
    (readDesc 0x0010 (stack2 0x13 0xCF) = .ok (some ⟨0x0000FFFF, 0x00CF1300⟩) (stack2 0x13 0xCF) ∧
      (Desc.mk 0x0000FFFF 0x00CF1300).writable = true ∧ (Desc.mk 0x0000FFFF 0x00CF1300).present = false) ∧
    (readDesc 0x0010 (stack2 0x93 0x8F) = .ok (some ⟨0x0000FFFF, 0x008F9300⟩) (stack2 0x93 0x8F) ∧
      (Desc.mk 0x0000FFFF 0x008F9300).big = false) ∧
    selRpl 0x0010 = 0 ∧ data2.writable = true ∧ data2.dpl = 0 ∧ data2.present = true ∧ data2.big = true :=
  ⟨by decide, by decide, by decide +kernel, ok_at (by decide +kernel),
    ⟨by decide, ok_at (by decide +kernel)⟩, ⟨by decide, ok_at (by decide +kernel), by decide, by decide⟩,
    ⟨ok_at (by decide +kernel), by decide, by decide⟩, ⟨ok_at (by decide +kernel), by decide⟩,
    by decide, by decide, by decide, by decide, by decide⟩

/-- A TSS whose ESP0 is the last doubleword of a page, the next one not being present. -/
theorem witness_InnerStackSelection_page_ss :
    let s : State := { pagedP1 with tr := TaskReg.mk 0x0040 0x00010FF8 0x67 }
    8 * (0 : Level).toNat + 11 ≤ s.tr.limit.toNat ∧
    ∃ u v, sysRead (s.tr.base + BitVec.ofNat 32 (4 + 8 * (0 : Level).toNat)) 4 s = .ok [0, 0, 0, 0] u ∧
      sysRead (s.tr.base + BitVec.ofNat 32 (8 + 8 * (0 : Level).toNat)) 2 u =
        .error (.exc (.pf 0x00011000 0)) v :=
  ⟨by decide, _, _, ok_val (by decide +kernel), (stop_end (by decide +kernel)).choose_spec⟩

/-- The TSS, and the GDT, on a page that is not present. -/
theorem witness_InnerStackSelection_page :
    let s : State := { pagedP1 with tr := TaskReg.mk 0x0040 0 0x67 }
    let t : State := { pagedP1 with gdtr := TableReg.mk 0 0x7F }
    (8 * (0 : Level).toNat + 11 ≤ s.tr.limit.toNat ∧
      ∃ u, sysRead (s.tr.base + BitVec.ofNat 32 (4 + 8 * (0 : Level).toNat)) 4 s =
        .error (.exc (.pf 4 0)) u) ∧
    ∃ u v w, sysRead (t.tr.base + BitVec.ofNat 32 (4 + 8 * (0 : Level).toNat)) 4 t = .ok [0, 0x80, 0, 0] u ∧
      sysRead (t.tr.base + BitVec.ofNat 32 (8 + 8 * (0 : Level).toNat)) 2 u = .ok [0x10, 0] v ∧
      readDesc 0x0010 v = .error (.exc (.pf 0x10 0)) w :=
  ⟨⟨by decide, stop_end (by decide +kernel)⟩, _, _, _, ok_val (by decide +kernel),
    ok_val (by decide +kernel), (stop_end (by decide +kernel)).choose_spec⟩

/-- A busy TSS, and an image with VM = 1. -/
theorem witness_FarTransferToTask_stops :
    FarOperand .jmp (.jmpFar 0x0040 7) kernel 0x0040 7 kernel ∧
    readDesc 0x0040 kernel = .ok (some ⟨0x00000067, 0x00008B01⟩) kernel ∧
    (Desc.mk 0x00000067 0x00008B01).typ = 0xB ∧
    (∃ t, taskSwitch FarKind.jmp.cause 0x0040 kernel.nextEip kernel = .error (.exc (.gp 0x0040)) t) ∧
    ∃ t, taskSwitch FarKind.jmp.cause 0x0048 kernel.nextEip (withBytes kernel 0x11026 [2]) =
      .error (.refuse .virtual8086Mode) t :=
  ⟨.inl ⟨rfl, rfl⟩, ok_at (by decide +kernel), by decide, stop_end (by decide +kernel),
    stop_end (by decide +kernel)⟩

theorem witness_FarTransferToTask :
    FarOperand .jmp (.jmpFar 0x0048 7) kernel 0x0048 7 kernel ∧
    readDesc 0x0048 kernel = .ok (some ⟨0x10000067, 0x00008901⟩) kernel ∧
    (Desc.mk 0x10000067 0x00008901).isSeg = false ∧ (Desc.mk 0x10000067 0x00008901).typ = 9 ∧
    selTI 0x0048 = false ∧ kernel.cpl ≤ (Desc.mk 0x10000067 0x00008901).dpl ∧
    selRpl 0x0048 ≤ (Desc.mk 0x10000067 0x00008901).dpl ∧
    (∃ t, taskSwitch FarKind.jmp.cause 0x0048 kernel.nextEip kernel = .ok false t) ∧
    (∃ t, taskSwitch FarKind.call.cause 0x0048 trapping.nextEip trapping = .ok true t) ∧
    FarOperand .call (.callFar 0x0053 7) user 0x0053 7 user ∧
    readDesc 0x0053 user = .ok (some ⟨0x00480000, 0x0000E500⟩) user ∧
    (Desc.mk 0x00480000 0x0000E500).isSeg = false ∧ (Desc.mk 0x00480000 0x0000E500).typ = 5 ∧
    (Desc.mk 0x00480000 0x0000E500).present = true ∧ user.cpl ≤ (Desc.mk 0x00480000 0x0000E500).dpl ∧
    (∃ t, taskSwitch FarKind.call.cause 0x0048 user.nextEip user = .ok false t) :=
  ⟨.inl ⟨rfl, rfl⟩, ok_at (by decide +kernel), by decide, by decide, by decide, by decide, by decide,
    ⟨_, ok_val (by decide +kernel)⟩, ⟨_, ok_val (by decide +kernel)⟩, .inl ⟨rfl, rfl⟩,
    ok_at (by decide +kernel), by decide, by decide, by decide, by decide, ⟨_, ok_val (by decide +kernel)⟩⟩

/-- The user state with a descriptor of S = 0 as entry 15 of the GDT: the access byte and the selector of
a gate. -/
def entry15 (access : Byte) (sel : Word) : State :=
  withBytes user 0x107A (wordBytes sel ++ [0x00, access])

theorem witness_FarTransferTraps_operand :
    FarOperand .jmp (.jmpFar 0x0003 0) user 0x0003 0 user ∧ isNull 0x0003 = true ∧
    isNull 0x007B = false ∧ readDesc 0x0080 user = .ok none user ∧
    readDesc 0x0023 user = .ok (some ⟨0x0000FFFF, 0x00CFF300⟩) user ∧
    (Desc.mk 0x0000FFFF 0x00CFF300).isData = true ∧
    readDesc 0x007B (entry15 0xEF 8) = .ok (some ⟨0x00080200, 0x0000EF00⟩) (entry15 0xEF 8) ∧
    (Desc.mk 0x00080200 0x0000EF00).isSeg = false ∧
    (Desc.mk 0x00080200 0x0000EF00).typ.toNat ∈ [0, 2, 6, 7, 8, 0xA, 0xD, 0xE, 0xF] ∧
    readDesc 0x007B (entry15 0xE4 8) = .ok (some ⟨0x00080200, 0x0000E400⟩) (entry15 0xE4 8) ∧
    (Desc.mk 0x00080200 0x0000E400).typ.toNat ∈ [1, 3, 4] ∧
    readDesc 0x0048 user = .ok (some ⟨0x10000067, 0x00008901⟩) user ∧
    (Desc.mk 0x10000067 0x00008901).typ.toNat ∈ [5, 9, 0xB, 0xC] ∧
    (Desc.mk 0x10000067 0x00008901).dpl < user.cpl ∧
    readDesc 0x007B (entry15 0x6C 8) = .ok (some ⟨0x00080200, 0x00006C00⟩) (entry15 0x6C 8) ∧
    (Desc.mk 0x00080200 0x00006C00).typ.toNat ∈ [5, 0xC] ∧ user.cpl ≤ (Desc.mk 0x00080200 0x00006C00).dpl ∧
    selRpl 0x007B ≤ (Desc.mk 0x00080200 0x00006C00).dpl ∧ (Desc.mk 0x00080200 0x00006C00).present = false :=
  ⟨.inl ⟨rfl, rfl⟩, by decide, by decide, ok_at (by decide +kernel), ok_at (by decide +kernel), by decide,
    ok_at (by decide +kernel), by decide, by decide, ok_at (by decide +kernel), by decide,
    ok_at (by decide +kernel), by decide, by decide, ok_at (by decide +kernel), by decide, by decide,
    by decide, by decide⟩

/-- The state with a TSS descriptor in an LDT. -/
def tssInLdt : State :=
  withBytes { kernel with ldtr := LdtReg.mk 0x0028 0x00003000 0x00000007 true } 0x3000
    [0x67, 0, 0, 0x10, 1, 0x89, 0, 0]

/-- The state at level 1 (its CS is a copy of that of level 3). -/
def levelOne : State := { user with cpl := 1 }

theorem witness_FarTransferTraps_code :
    (readDesc 0x0004 tssInLdt = .ok (some ⟨0x10000067, 0x00008901⟩) tssInLdt ∧ selTI 0x0004 = true) ∧
    (readDesc 0x001B levelOne = .ok (some ⟨0x0000FFFF, 0x00CFFB00⟩) levelOne ∧
      (Desc.mk 0x0000FFFF 0x00CFFB00).isCode = true ∧
      (Desc.mk 0x0000FFFF 0x00CFFB00).conforming = false ∧ levelOne.cpl < selRpl 0x001B) ∧
    (readDesc 0x001B (withBytes levelOne 0x101D [0xFF]) =
        .ok (some ⟨0x0000FFFF, 0x00CFFF00⟩) (withBytes levelOne 0x101D [0xFF]) ∧
      (Desc.mk 0x0000FFFF 0x00CFFF00).conforming = true ∧
      levelOne.cpl < (Desc.mk 0x0000FFFF 0x00CFFF00).dpl) ∧
    (readDesc 0x001B (withBytes user 0x101D [0x7B]) =
        .ok (some ⟨0x0000FFFF, 0x00CF7B00⟩) (withBytes user 0x101D [0x7B]) ∧
      selRpl 0x001B ≤ user.cpl ∧ (Desc.mk 0x0000FFFF 0x00CF7B00).dpl = user.cpl ∧
      (Desc.mk 0x0000FFFF 0x00CF7B00).present = false) ∧
    (readDesc 0x0033 user = .ok (some ⟨0x0000FFFF, 0x00409E00⟩) user ∧
      (Desc.mk 0x0000FFFF 0x00409E00).present = true ∧
      (Desc.mk 0x0000FFFF 0x00409E00).effLimit.toNat < (0x00010000 : Dword).toNat) :=
  ⟨⟨ok_at (by decide +kernel), by decide⟩,
    ⟨ok_at (by decide +kernel), by decide, by decide, by decide⟩,
    ⟨ok_at (by decide +kernel), by decide, by decide⟩,
    ⟨ok_at (by decide +kernel), by decide, by decide, by decide⟩,
    ok_at (by decide +kernel), by decide, by decide⟩

theorem witness_FarTransferTraps_gate :
    FarOperand .jmp (.jmpFar 0x007B 0) user 0x007B 0 user ∧
    readDesc 0x007B (entry15 0xEC 3) = .ok (some ⟨0x00030200, 0x0000EC00⟩) (entry15 0xEC 3) ∧
    (Desc.mk 0x00030200 0x0000EC00).isSeg = false ∧ (Desc.mk 0x00030200 0x0000EC00).typ = 0xC ∧
    user.cpl ≤ (Desc.mk 0x00030200 0x0000EC00).dpl ∧ selRpl 0x007B ≤ (Desc.mk 0x00030200 0x0000EC00).dpl ∧
    (Desc.mk 0x00030200 0x0000EC00).present = true ∧
    isNull ((Desc.mk 0x00030200 0x0000EC00).lo.extractLsb' 16 16) = true ∧
    isNull ((Desc.mk 0x00800200 0x0000EC00).lo.extractLsb' 16 16) = false ∧
    readDesc 0x0080 (entry15 0xEC 0x80) = .ok none (entry15 0xEC 0x80) ∧
    readDesc 0x0010 (entry15 0xEC 0x10) = .ok (some ⟨0x0000FFFF, 0x00CF9200⟩) (entry15 0xEC 0x10) ∧
    (Desc.mk 0x0000FFFF 0x00CF9200).isCode = false ∧
    readDesc 0x0018 (withBytes levelOne 0x107A [0x18]) =
      .ok (some ⟨0x0000FFFF, 0x00CFFB00⟩) (withBytes levelOne 0x107A [0x18]) ∧
    levelOne.cpl < (Desc.mk 0x0000FFFF 0x00CFFB00).dpl ∧
    readDesc 0x0008 user = .ok (some ⟨0x0000FFFF, 0x00CF9A00⟩) user ∧
    (Desc.mk 0x0000FFFF 0x00CF9A00).conforming = false ∧ (Desc.mk 0x0000FFFF 0x00CF9A00).dpl ≠ user.cpl ∧
    readDesc 0x0008 (withBytes user 0x100D [0x1A]) =
      .ok (some ⟨0x0000FFFF, 0x00CF1A00⟩) (withBytes user 0x100D [0x1A]) ∧
    (Desc.mk 0x0000FFFF 0x00CF1A00).dpl ≤ user.cpl ∧ (Desc.mk 0x0000FFFF 0x00CF1A00).present = false :=
  ⟨.inl ⟨rfl, rfl⟩, ok_at (by decide +kernel), by decide, by decide, by decide, by decide, by decide,
    by decide, by decide, ok_at (by decide +kernel), ok_at (by decide +kernel), by decide,
    ok_at (by decide +kernel), by decide, ok_at (by decide +kernel), by decide, by decide,
    ok_at (by decide +kernel), by decide, by decide⟩

/-- The state with paging whose LDT lies on a page that is not present, with a gate to it as entry 15. -/
def gateToLost : State :=
  withBytes { pagedP1 with ldtr := LdtReg.mk 0x0028 0 0xFF true } 0x107A [4, 0, 0, 0xEC]

/-- A page fault of reading the descriptor that the operand, or the gate, selects. -/
theorem witness_FarTransferTraps_page :
    (FarOperand .jmp (.jmpFar 0x0048 0) (lost kernel) 0x0048 0 (lost kernel) ∧
      ∃ v, readDesc 0x0048 (lost kernel) = .error (.exc (.pf 0x48 0)) v) ∧
    ∃ v w, readDesc 0x007B gateToLost = .ok (some ⟨0x00040200, 0x0000EC00⟩) v ∧
      isNull ((Desc.mk 0x00040200 0x0000EC00).lo.extractLsb' 16 16) = false ∧
      readDesc ((Desc.mk 0x00040200 0x0000EC00).lo.extractLsb' 16 16) v = .error (.exc (.pf 0 0)) w :=
  ⟨⟨.inl ⟨rfl, rfl⟩, stop_end (by decide +kernel)⟩, _, _, ok_val (by decide +kernel), by decide,
    (stop_end (by decide +kernel)).choose_spec⟩

/-- The operand in memory: read through DS, and the exception of the null selector of FS. -/
theorem witness_FarTransferTraps_pointer :
    segRead .ds (effectiveOffset callingConforming.regs ⟨.ds, some .eax, none, 0⟩) 6 callingConforming =
      .ok [0xFF, 0xFF, 0, 0, 0x33, 0] callingConforming ∧
    segRead .fs (effectiveOffset user.regs ⟨.fs, some .eax, none, 0⟩) 6 user =
      .error (.exc (.gp 0)) user :=
  ⟨ok_at (by decide +kernel), stop_at (by decide +kernel)⟩

/-- A far transfer to the conforming code segment of entry 6, whose descriptor is `d`. -/
theorem sameLevel_at {s : State} {kind : FarKind} {i : Instr} {off : Dword} {d : Desc}
    (hi : FarOperand kind i s 0x0033 off s) (h : answers (readDesc 0x0033 s) (some d) s = true)
    (hc : d.isCode = true) (hd : d.conforming = true) (hl : d.dpl ≤ s.cpl) :
    SameLevelOperand kind i s 0x0033 off d s :=
  .inl ⟨s, hi, by decide, ok_at h, hc, by rw [if_pos hd]; exact hl⟩

/-- The user state with other bytes 5 and 6 of entry 6: not present, 16-bit. -/
def entry6 (access flags : Byte) : State := withBytes user 0x1035 [access, flags]

theorem witness_FarTransferTraps_sameLevel :
    (SameLevelOperand .jmp (.jmpFar 0x0033 0) (entry6 0x1E 0x40) 0x0033 0 ⟨0x0000FFFF, 0x00401E00⟩
        (entry6 0x1E 0x40) ∧ (Desc.mk 0x0000FFFF 0x00401E00).present = false) ∧
    (SameLevelOperand .call (.callFar 0x0033 0x10000) user 0x0033 0x10000 ⟨0x0000FFFF, 0x00409E00⟩ user ∧
      (Desc.mk 0x0000FFFF 0x00409E00).present = true ∧
      (Desc.mk 0x0000FFFF 0x00409E00).effLimit.toNat < (0x10000 : Dword).toNat) ∧
    (SameLevelOperand .jmp (.jmpFar 0x0033 0xFFFF) (entry6 0x9E 0x00) 0x0033 0xFFFF
        ⟨0x0000FFFF, 0x00009E00⟩ (entry6 0x9E 0x00) ∧
      (0xFFFF : Dword).toNat ≤ (Desc.mk 0x0000FFFF 0x00009E00).effLimit.toNat ∧
      (Desc.mk 0x0000FFFF 0x00009E00).big = false) ∧
    (SameLevelOperand .call (.callFar 0x0033 0) (entry6 0x9E 0x00) 0x0033 0 ⟨0x0000FFFF, 0x00009E00⟩
        (entry6 0x9E 0x00) ∧
      ∃ cells, PushPrepared (entry6 0x9E 0x00) [(entry6 0x9E 0x00).segs.cs.sel.zeroExtend 32,
        (entry6 0x9E 0x00).nextEip] cells (entry6 0x9E 0x00)) ∧
    (SameLevelOperand .call (.callFar 0x0033 0) (esp user 7) 0x0033 0 ⟨0x0000FFFF, 0x00409E00⟩ (esp user 7) ∧
      preparePush [(esp user 7).segs.cs.sel.zeroExtend 32, (esp user 7).nextEip] (esp user 7) =
        .error (.exc (.sf 0)) (esp user 7) ∧
      (esp user 7).segs.ss.valid = true ∧ (esp user 7).segs.ss.typ.getLsbD 3 = false ∧
      (esp user 7).segs.ss.typ.getLsbD 1 = true ∧
      limitOK (esp user 7).segs.ss ((esp user 7).regs.esp - 8).toNat 8 = false) ∧
    SameLevelOperand .jmp (.jmpFar 0x003B 5) kernel 0x0008 0x00000100 code1 kernel :=
  ⟨⟨sameLevel_at (.inl ⟨rfl, rfl⟩) (by decide +kernel) (by decide) (by decide) (by decide), by decide⟩,
    ⟨sameLevel_at (.inl ⟨rfl, rfl⟩) (by decide +kernel) (by decide) (by decide) (by decide), by decide,
      by decide⟩,
    ⟨sameLevel_at (.inl ⟨rfl, rfl⟩) (by decide +kernel) (by decide) (by decide) (by decide), by decide,
      by decide⟩,
    ⟨sameLevel_at (.inl ⟨rfl, rfl⟩) (by decide +kernel) (by decide) (by decide) (by decide), _,
      prepared_at (ps := List.range' 0x2FFF8 8) 0x2FFF8 (by decide +kernel) (by decide +kernel)⟩,
    ⟨sameLevel_at (.inl ⟨rfl, rfl⟩) (by decide +kernel) (by decide) (by decide) (by decide),
      stop_at (by decide +kernel), rfl, by decide, by decide, by decide⟩,
    .inr ⟨⟨gate7, gate_at (.inl ⟨rfl, rfl⟩) (by decide +kernel) (by decide +kernel) (by decide) (by decide)⟩,
      by decide⟩⟩

/-! ### Returns -/

/-- The code segment of entry 3. -/
def code3 : Desc := Desc.mk 0x0000FFFF 0x00CFFB00

/-- The data segment of entry 4. -/
def data4 : Desc := Desc.mk 0x0000FFFF 0x00CFF300

theorem witness_FarReturnSameLevel :
    let s := framed 0x100 0x0008 0 0
    limitOK s.segs.ss s.regs.esp.toNat 8 = true ∧ segReadDword .ss s.regs.esp s = .ok 0x100 s ∧
    segReadDword .ss (s.regs.esp + 4) s = .ok 0x0008 s ∧ selRpl 0x0008 = s.cpl ∧ isNull 0x0008 = false ∧
    readDesc 0x0008 s = .ok (some code1) s ∧ code1.isCode = true ∧ code1.present = true ∧
    code1.conforming = false ∧ code1.dpl = selRpl 0x0008 ∧ (0x100 : Dword).toNat ≤ code1.effLimit.toNat ∧
    code1.big = true ∧ setAccessed 0x0008 code1 s = .ok () s :=
  ⟨by decide, ok_at (by decide +kernel), ok_at (by decide +kernel), by decide, by decide,
    ok_at (by decide +kernel), by decide, by decide, by decide, by decide, by decide, by decide,
    ok_at (by decide +kernel)⟩

/-- The frame of V41-T18. -/
def outerFrame : State := framed 0x20007 0x001B 0xFFFFFFFC 0x0023

theorem witness_FarReturnToOuterLevel :
    let s := outerFrame
    limitOK s.segs.ss s.regs.esp.toNat 8 = true ∧ segReadDword .ss s.regs.esp s = .ok 0x20007 s ∧
    segReadDword .ss (s.regs.esp + 4) s = .ok 0x001B s ∧ s.cpl < selRpl 0x001B ∧ isNull 0x001B = false ∧
    readDesc 0x001B s = .ok (some code3) s ∧ code3.isCode = true ∧ code3.present = true ∧
    code3.conforming = false ∧ code3.dpl = selRpl 0x001B ∧
    limitOK s.segs.ss (s.regs.esp.toNat + (0 : Word).toNat + 8) 8 = true ∧
    segReadDword .ss (s.regs.esp + (0 : Word).zeroExtend 32 + 8) s = .ok 0xFFFFFFFC s ∧
    segReadDword .ss (s.regs.esp + (0 : Word).zeroExtend 32 + 12) s = .ok 0x0023 s ∧
    isNull 0x0023 = false ∧ readDesc 0x0023 s = .ok (some data4) s ∧ data4.writable = true ∧
    data4.present = true ∧ data4.dpl = selRpl 0x001B ∧ selRpl 0x0023 = selRpl 0x001B ∧ data4.big = true ∧
    (0x20007 : Dword).toNat ≤ code3.effLimit.toNat ∧ code3.big = true ∧
    prepareAccessed 0x001B code3 s = .ok [] s ∧ prepareAccessed 0x0023 data4 s = .ok [] s :=
  ⟨by decide, ok_at (by decide +kernel), ok_at (by decide +kernel), by decide, by decide,
    ok_at (by decide +kernel), by decide, by decide, by decide, by decide, by decide,
    ok_at (by decide +kernel), ok_at (by decide +kernel), by decide, ok_at (by decide +kernel), by decide,
    by decide, by decide, by decide, by decide, by decide, by decide, ok_at (by decide +kernel),
    ok_at (by decide +kernel)⟩

theorem witness_NullIfInaccessible :
    ((flatData 0x0010 2).valid = true ∧ (flatData 0x0010 2).dpl < (3 : Level) ∧
      ¬((flatData 0x0010 2).typ.getLsbD 3 = true ∧ (flatData 0x0010 2).typ.getLsbD 2 = true)) ∧
    (3 : Level) ≤ (flatData 0x0023 3).dpl ∧
    ((flatData 0x0023 3).nullIfInaccessible 3).valid = true := by decide

/-- A user stack with a return frame. -/
def userFrame (cs : Dword) : State :=
  withBytes (esp user 0x2FFF8) 0x2FFF8 ([(0 : Dword), cs].flatMap dwordBytes)

/-- The frame of a far return. -/
theorem farFrame_at {s : State} {i : Instr} {n : Word} {reip csword : Dword}
    (hi : i = .retf ∧ n = 0 ∨ i = .retfImm n) (hl : limitOK s.segs.ss s.regs.esp.toNat 8 = true)
    (h1 : answers (segReadDword .ss s.regs.esp s) reip s = true)
    (h2 : answers (segReadDword .ss (s.regs.esp + 4) s) csword s = true) :
    ReturnFrame i s 8 n reip csword 0 s :=
  ⟨.inl ⟨rfl, hi⟩, hl, s, s, ok_at h1, ok_at h2, by simp⟩

/-- The frame of IRET. -/
theorem iretFrame_at {s : State} {reip csword image : Dword} (hn : s.eflags.getLsbD bitNT = false)
    (hl : limitOK s.segs.ss s.regs.esp.toNat 12 = true)
    (h1 : answers (segReadDword .ss s.regs.esp s) reip s = true)
    (h2 : answers (segReadDword .ss (s.regs.esp + 4) s) csword s = true)
    (h3 : answers (segReadDword .ss (s.regs.esp + 8) s) image s = true) :
    ReturnFrame .iret s 12 0 reip csword image s :=
  ⟨.inr ⟨rfl, rfl, rfl, hn⟩, hl, s, s, ok_at h1, ok_at h2, by simpa using ok_at h3⟩

theorem witness_ReturnChecks_code :
    (Returns (.retfImm 4) (esp kernel 0xFFFFFFFC) 8 4 ∧
      limitOK (esp kernel 0xFFFFFFFC).segs.ss (esp kernel 0xFFFFFFFC).regs.esp.toNat 8 = false) ∧
    (Returns .iret (esp kernel 0xFFFFFFF5) 12 0 ∧
      limitOK (esp kernel 0xFFFFFFF5).segs.ss (esp kernel 0xFFFFFFF5).regs.esp.toNat 12 = false) ∧
    (ReturnFrame .retf (userFrame 8) 8 0 0 8 0 (userFrame 8) ∧ selRpl 0x0008 < (userFrame 8).cpl) ∧
    (ReturnFrame .retf (framed 0 3 0 0) 8 0 0 3 0 (framed 0 3 0 0) ∧ kernel.cpl ≤ selRpl 0x0003 ∧
      isNull 0x0003 = true) ∧
    (isNull 0x0083 = false ∧ readDesc 0x0083 (framed 0 0x83 0 0) = .ok none (framed 0 0x83 0 0)) ∧
    (readDesc 0x0023 (framed 0 0x23 0 0) = .ok (some data4) (framed 0 0x23 0 0) ∧ data4.isCode = false) ∧
    (readDesc 0x001B (withBytes (framed 0 0x1B 0 0) 0x101D [0x7B]) =
        .ok (some ⟨0x0000FFFF, 0x00CF7B00⟩) (withBytes (framed 0 0x1B 0 0) 0x101D [0x7B]) ∧
      (Desc.mk 0x0000FFFF 0x00CF7B00).isCode = true ∧ (Desc.mk 0x0000FFFF 0x00CF7B00).present = false) ∧
    (readDesc 0x0031 (withBytes (framed 0 0x31 0 0) 0x1035 [0xDF]) =
        .ok (some ⟨0x0000FFFF, 0x0040DF00⟩) (withBytes (framed 0 0x31 0 0) 0x1035 [0xDF]) ∧
      (Desc.mk 0x0000FFFF 0x0040DF00).conforming = true ∧
      selRpl 0x0031 < (Desc.mk 0x0000FFFF 0x0040DF00).dpl) ∧
    (readDesc 0x000B (framed 0 0x0B 0 0) = .ok (some code1) (framed 0 0x0B 0 0) ∧
      code1.conforming = false ∧ code1.dpl ≠ selRpl 0x000B) :=
  ⟨⟨.inl ⟨rfl, .inr rfl⟩, by decide⟩, ⟨.inr ⟨rfl, rfl, rfl, by decide⟩, by decide⟩,
    ⟨farFrame_at (.inl ⟨rfl, rfl⟩) (by decide) (by decide +kernel) (by decide +kernel), by decide⟩,
    ⟨farFrame_at (.inl ⟨rfl, rfl⟩) (by decide) (by decide +kernel) (by decide +kernel), by decide, by decide⟩,
    ⟨by decide, ok_at (by decide +kernel)⟩, ⟨ok_at (by decide +kernel), by decide⟩,
    ⟨ok_at (by decide +kernel), by decide, by decide⟩, ⟨ok_at (by decide +kernel), by decide, by decide⟩,
    ok_at (by decide +kernel), by decide, by decide⟩

/-- The kernel state with a far return pointer at the last 16 bytes of the stack. -/
def lastFrame : State := withBytes (esp kernel 0xFFFFFFF0) 0xFFFFFFF0 ([0x20007, 0x1B].flatMap dwordBytes)

/-- VM = 1 at CPL 0; the limit of the return CS, and a 16-bit one; the second row 9 frame. -/
theorem witness_ReturnChecks_frame :
    (ReturnFrame .iret (framed 0x100 0x08 0x20002 0) 12 0 0x100 0x08 0x20002 (framed 0x100 0x08 0x20002 0) ∧
      (framed 0x100 0x08 0x20002 0).cpl = 0 ∧ (0x20002 : Dword).getLsbD bitVM = true ∧
      readDesc 0x0008 (framed 0x100 0x08 0x20002 0) = .ok (some code1) (framed 0x100 0x08 0x20002 0) ∧
      code1.dpl = selRpl 0x0008) ∧
    (ReturnFrame .iret (framed 0x10000 0x30 2 0) 12 0 0x10000 0x30 2 (framed 0x10000 0x30 2 0) ∧
      ¬((framed 0x10000 0x30 2 0).cpl = 0 ∧ (2 : Dword).getLsbD bitVM = true) ∧
      (framed 0x10000 0x30 2 0).cpl = selRpl 0x0030 ∧
      readDesc 0x0030 (framed 0x10000 0x30 2 0) =
        .ok (some ⟨0x0000FFFF, 0x00409E00⟩) (framed 0x10000 0x30 2 0) ∧
      (Desc.mk 0x0000FFFF 0x00409E00).dpl ≤ selRpl 0x0030 ∧
      (Desc.mk 0x0000FFFF 0x00409E00).effLimit.toNat < (0x10000 : Dword).toNat) ∧
    (readDesc 0x0008 (withBytes (framed 0x100 0x08 0 0) 0x100E [0x8F]) =
        .ok (some ⟨0x0000FFFF, 0x008F9B00⟩) (withBytes (framed 0x100 0x08 0 0) 0x100E [0x8F]) ∧
      (0x100 : Dword).toNat ≤ (Desc.mk 0x0000FFFF 0x008F9B00).effLimit.toNat ∧
      (Desc.mk 0x0000FFFF 0x008F9B00).big = false) ∧
    (ReturnFrame (.retfImm 8) lastFrame 8 8 0x20007 0x1B 0 lastFrame ∧ lastFrame.cpl < selRpl 0x001B ∧
      code3.dpl = selRpl 0x001B ∧ readDesc 0x001B lastFrame = .ok (some code3) lastFrame ∧
      limitOK lastFrame.segs.ss (lastFrame.regs.esp.toNat + 8 + (8 : Word).toNat) 8 = false) :=
  ⟨⟨iretFrame_at (by decide) (by decide) (by decide +kernel) (by decide +kernel) (by decide +kernel), rfl,
      by decide, ok_at (by decide +kernel), by decide⟩,
    ⟨iretFrame_at (by decide) (by decide) (by decide +kernel) (by decide +kernel) (by decide +kernel),
      by decide, by decide, ok_at (by decide +kernel), by decide, by decide⟩,
    ⟨ok_at (by decide +kernel), by decide, by decide⟩,
    farFrame_at (.inr rfl) (by decide) (by decide +kernel) (by decide +kernel), by decide, by decide,
    ok_at (by decide +kernel), by decide⟩

/-- The kernel state with the frame of IRET as the last 12 bytes of the stack. -/
def lastIret : State := withBytes (esp kernel 0xFFFFFFF4) 0xFFFFFFF4 ([0x20007, 0x1B, 2].flatMap dwordBytes)

/-- Row 9 for IRET (R292; assumption log entry 23). -/
theorem witness_ReturnChecks_iret :
    ReturnFrame .iret lastIret 12 0 0x20007 0x1B 2 lastIret ∧ lastIret.cpl < selRpl 0x001B ∧
    ¬(lastIret.cpl = 0 ∧ (2 : Dword).getLsbD bitVM = true) ∧
    readDesc 0x001B lastIret = .ok (some code3) lastIret ∧ code3.isCode = true ∧ code3.present = true ∧
    code3.conforming = false ∧ code3.dpl = selRpl 0x001B ∧
    limitOK lastIret.segs.ss (lastIret.regs.esp.toNat + 12 + (0 : Word).toNat) 8 = false :=
  ⟨iretFrame_at (by decide) (by decide) (by decide +kernel) (by decide +kernel) (by decide +kernel),
    by decide, by decide, ok_at (by decide +kernel), by decide, by decide, by decide, by decide, by decide⟩

/-- A frame of RETF to level 3 with a stack selector, and other bytes 5 and 6 of entry 3 and byte 6 of
entry 4. -/
def outerOf (rss : Dword) (b3 b4 : Byte) : State :=
  withBytes (withBytes (framed 0x20007 0x1B 0x30000 rss) 0x101E [b3]) 0x1026 [b4]

/-- Rows 10 to 15 by the instruction: each outcome of the check of the return SS, and what follows it. -/
theorem witness_ReturnChecks_outer :
    (∀ s ∈ [outerOf 0x5B 0xCF 0xCF, outerOf 0x23 0xCF 0x8F, outerOf 0x23 0x40 0xCF, outerOf 0x23 0x8F 0xCF],
      limitOK s.segs.ss (s.regs.esp.toNat + 8 + (0 : Word).toNat) 8 = true ∧
      answers (segReadDword .ss (s.regs.esp + BitVec.ofNat 32 (8 + (0 : Word).toNat)) s) 0x30000 s = true) ∧
    (segReadDword .ss ((outerOf 0x5B 0xCF 0xCF).regs.esp + BitVec.ofNat 32 (8 + (0 : Word).toNat + 4))
        (outerOf 0x5B 0xCF 0xCF) = .ok 0x5B (outerOf 0x5B 0xCF 0xCF) ∧
      returnSS 0x005B 3 (outerOf 0x5B 0xCF 0xCF) = .error (.exc (.gp 0x0058)) (outerOf 0x5B 0xCF 0xCF)) ∧
    returnSS 0x0023 3 (outerOf 0x23 0xCF 0x8F) =
      .error (.refuse .sixteenBitForm) (outerOf 0x23 0xCF 0x8F) ∧
    (readDesc 0x001B (outerOf 0x23 0x40 0xCF) =
        .ok (some ⟨0x0000FFFF, 0x0040FB00⟩) (outerOf 0x23 0x40 0xCF) ∧
      returnSS 0x0023 3 (outerOf 0x23 0x40 0xCF) = .ok data4 (outerOf 0x23 0x40 0xCF) ∧
      (Desc.mk 0x0000FFFF 0x0040FB00).effLimit.toNat < (0x20007 : Dword).toNat) ∧
    (readDesc 0x001B (outerOf 0x23 0x8F 0xCF) =
        .ok (some ⟨0x0000FFFF, 0x008FFB00⟩) (outerOf 0x23 0x8F 0xCF) ∧
      returnSS 0x0023 3 (outerOf 0x23 0x8F 0xCF) = .ok data4 (outerOf 0x23 0x8F 0xCF) ∧
      (0x20007 : Dword).toNat ≤ (Desc.mk 0x0000FFFF 0x008FFB00).effLimit.toNat ∧
      (Desc.mk 0x0000FFFF 0x008FFB00).big = false) ∧
    ReturnFrame .retf (outerOf 0x23 0x8F 0xCF) 8 0 0x20007 0x1B 0 (outerOf 0x23 0x8F 0xCF) :=
  ⟨by decide +kernel, ⟨ok_at (by decide +kernel), stop_at (by decide +kernel)⟩, stop_at (by decide +kernel),
    ⟨ok_at (by decide +kernel), ok_at (by decide +kernel), by decide⟩,
    ⟨ok_at (by decide +kernel), ok_at (by decide +kernel), by decide, by decide⟩,
    farFrame_at (.inl ⟨rfl, rfl⟩) (by decide) (by decide +kernel) (by decide +kernel)⟩

theorem witness_ReturnChecks_stack :
    isNull 0x0000 = true ∧ (isNull 0x0083 = false ∧ readDesc 0x0083 kernel = .ok none kernel) ∧
    (readDesc 0x005B kernel = .ok (some ⟨0x0000FFFF, 0x00CFF000⟩) kernel ∧
      (Desc.mk 0x0000FFFF 0x00CFF000).writable = false) ∧
    (readDesc 0x0073 kernel = .ok (some ⟨0x0000FFFF, 0x00CF7200⟩) kernel ∧
      (Desc.mk 0x0000FFFF 0x00CF7200).writable = true ∧ (Desc.mk 0x0000FFFF 0x00CF7200).present = false) ∧
    (readDesc 0x0010 kernel = .ok (some data2) kernel ∧ data2.dpl ≠ 3) ∧
    (readDesc 0x0020 kernel = .ok (some data4) kernel ∧ selRpl 0x0020 ≠ data4.dpl) ∧
    readDesc 0x0023 kernel = .ok (some data4) kernel ∧ data4.writable = true ∧ data4.present = true ∧
    data4.dpl = 3 ∧ selRpl 0x0023 = data4.dpl :=
  ⟨by decide, ⟨by decide, ok_at (by decide +kernel)⟩, ⟨ok_at (by decide +kernel), by decide⟩,
    ⟨ok_at (by decide +kernel), by decide, by decide⟩, ⟨ok_at (by decide +kernel), by decide⟩,
    ⟨ok_at (by decide +kernel), by decide⟩, ok_at (by decide +kernel), by decide, by decide, by decide,
    by decide⟩

/-- The kernel state with the page tables of `paged`, ESP and bytes at 00041FF4H. -/
def pagedFrame (sp : Dword) (vs : List Dword) : State :=
  withBytes { esp kernel sp with ctl := paged.ctl, mem := paged.mem } 0x41FF4 (vs.flatMap dwordBytes)

/-- The first, second and third doubleword of a frame on a page that is not present. -/
theorem witness_ReturnChecks_reads :
    Returns .iret (pagedFrame 0x42000 []) 12 0 ∧
    limitOK (pagedFrame 0x42000 []).segs.ss (pagedFrame 0x42000 []).regs.esp.toNat 12 = true ∧
    (∃ u, segReadDword .ss 0x42000 (pagedFrame 0x42000 []) = .error (.exc (.pf 0x42000 0)) u) ∧
    (∃ u v, segReadDword .ss 0x41FFC (pagedFrame 0x41FFC []) = .ok 0 u ∧
      segReadDword .ss 0x42000 u = .error (.exc (.pf 0x42000 0)) v) ∧
    ∃ u v w, segReadDword .ss 0x41FF8 (pagedFrame 0x41FF8 []) = .ok 0 u ∧
      segReadDword .ss 0x41FFC u = .ok 0 v ∧ segReadDword .ss 0x42000 v = .error (.exc (.pf 0x42000 0)) w :=
  ⟨.inr ⟨rfl, rfl, rfl, by decide⟩, by decide, stop_end (by decide +kernel),
    ⟨_, _, ok_val (by decide +kernel), (stop_end (by decide +kernel)).choose_spec⟩,
    _, _, _, ok_val (by decide +kernel), ok_val (by decide +kernel), (stop_end (by decide +kernel)).choose_spec⟩

/-- A return CS and a return SS whose descriptors lie on a page that is not present. -/
theorem witness_ReturnChecks_descriptor :
    (∃ v w, ReturnFrame .retf { pagedFrame 0x41FF4 [0, 8] with gdtr := TableReg.mk 0 0x7F } 8 0 0 8 0 v ∧
      isNull 0x0008 = false ∧ readDesc 0x0008 v = .error (.exc (.pf 8 0)) w) ∧
    ∃ v, readDesc 0x0023 (lost kernel) = .error (.exc (.pf 0x20 0)) v :=
  ⟨⟨_, _, ⟨.inl ⟨rfl, .inl ⟨rfl, rfl⟩⟩, by decide, _, _, ok_val (by decide +kernel), ok_val (by decide +kernel),
      rfl, rfl⟩, by decide, (stop_end (by decide +kernel)).choose_spec⟩, stop_end (by decide +kernel)⟩

/-- An outer ESP, and an outer SS, on a page that is not present. -/
theorem witness_ReturnChecks_outerReads :
    (∃ v w x, ReturnFrame .retf (pagedFrame 0x41FF8 [0, 0x20007, 0x1B]) 8 0 0x20007 0x1B 0 v ∧
      readDesc 0x001B v = .ok (some code3) w ∧
      segReadDword .ss (0x41FF8 + BitVec.ofNat 32 (8 + (0 : Word).toNat)) w = .error (.exc (.pf 0x42000 0)) x) ∧
    ∃ v w x y, ReturnFrame .retf (pagedFrame 0x41FF4 [0x20007, 0x1B, 0x30000]) 8 0 0x20007 0x1B 0 v ∧
      readDesc 0x001B v = .ok (some code3) w ∧
      segReadDword .ss (0x41FF4 + BitVec.ofNat 32 (8 + (0 : Word).toNat)) w = .ok 0x30000 x ∧
      segReadDword .ss (0x41FF4 + BitVec.ofNat 32 (8 + (0 : Word).toNat + 4)) x = .error (.exc (.pf 0x42000 0)) y :=
  ⟨⟨_, _, _, ⟨.inl ⟨rfl, .inl ⟨rfl, rfl⟩⟩, by decide, _, _, ok_val (by decide +kernel),
      ok_val (by decide +kernel), rfl, rfl⟩, ok_val (by decide +kernel),
      (stop_end (by decide +kernel)).choose_spec⟩,
    _, _, _, _, ⟨.inl ⟨rfl, .inl ⟨rfl, rfl⟩⟩, by decide, _, _, ok_val (by decide +kernel),
      ok_val (by decide +kernel), rfl, rfl⟩, ok_val (by decide +kernel), ok_val (by decide +kernel),
    (stop_end (by decide +kernel)).choose_spec⟩

/-- The accessed bits where every check passes, at the same level and to an outer one. -/
theorem witness_ReturnChecks_accessed :
    (ReturnFrame .retf (framed 0x100 8 0 0) 8 0 0x100 8 0 (framed 0x100 8 0 0) ∧
      readDesc 0x0008 (framed 0x100 8 0 0) = .ok (some code1) (framed 0x100 8 0 0) ∧
      code1.isCode = true ∧ code1.present = true ∧ code1.dpl = selRpl 0x0008 ∧
      (0x100 : Dword).toNat ≤ code1.effLimit.toNat ∧ code1.big = true) ∧
    (ReturnFrame .retf (outerOf 0x23 0xCF 0xCF) 8 0 0x20007 0x1B 0 (outerOf 0x23 0xCF 0xCF) ∧
      readDesc 0x001B (outerOf 0x23 0xCF 0xCF) = .ok (some code3) (outerOf 0x23 0xCF 0xCF) ∧
      returnSS 0x0023 3 (outerOf 0x23 0xCF 0xCF) = .ok data4 (outerOf 0x23 0xCF 0xCF) ∧
      (0x20007 : Dword).toNat ≤ code3.effLimit.toNat ∧ code3.big = true) :=
  ⟨⟨farFrame_at (.inl ⟨rfl, rfl⟩) (by decide) (by decide +kernel) (by decide +kernel), ok_at (by decide +kernel),
      by decide, by decide, by decide, by decide, by decide⟩,
    farFrame_at (.inl ⟨rfl, rfl⟩) (by decide) (by decide +kernel) (by decide +kernel), ok_at (by decide +kernel),
    ok_at (by decide +kernel), by decide, by decide⟩

theorem witness_ReturnsGoOutward :
    outerFrame.deliverExceptions = false ∧ (∃ t, exec .retf outerFrame = .next t) ∧
    (∃ t, exec (.retfImm 4) (framed 0x100 0x0008 0 0) = .next t) ∧
    outerFrame.eflags.getLsbD bitNT = false ∧ ∃ t, exec .iret (framed 0x100 0x0008 2 0) = .next t :=
  ⟨rfl, ⟨_, next_end user (by decide +kernel)⟩, ⟨_, next_end user (by decide +kernel)⟩, by decide,
    ⟨_, next_end user (by decide +kernel)⟩⟩

/-- A frame of IRET to level 3. -/
def iretFrame : State :=
  withBytes (esp kernel 0x7FE8) 0x7FE8
    ([(0x20007 : Dword), 0x1B, 0x202, 0x30000, 0x23].flatMap dwordBytes)

theorem witness_InterruptReturn_same :
    let s := framed 0x100 0x0008 0x3202 0
    s.eflags.getLsbD bitNT = false ∧ limitOK s.segs.ss s.regs.esp.toNat 12 = true ∧
    segReadDword .ss s.regs.esp s = .ok 0x100 s ∧ segReadDword .ss (s.regs.esp + 4) s = .ok 0x0008 s ∧
    segReadDword .ss (s.regs.esp + 8) s = .ok 0x3202 s ∧ isNull 0x0008 = false ∧
    readDesc 0x0008 s = .ok (some code1) s ∧ code1.isCode = true ∧ code1.present = true ∧
    code1.dpl = selRpl 0x0008 ∧ code1.big = true ∧
    ¬(s.cpl = 0 ∧ (0x3202 : Dword).getLsbD bitVM = true) ∧ (0x100 : Dword).toNat ≤ code1.effLimit.toNat ∧
    selRpl 0x0008 = s.cpl ∧ setAccessed 0x0008 code1 s = .ok () s :=
  ⟨by decide, by decide, ok_at (by decide +kernel), ok_at (by decide +kernel), ok_at (by decide +kernel),
    by decide, ok_at (by decide +kernel), by decide, by decide, by decide, by decide, by decide, by decide,
    by decide, ok_at (by decide +kernel)⟩

theorem witness_InterruptReturn_outer :
    let s := iretFrame
    s.eflags.getLsbD bitNT = false ∧ limitOK s.segs.ss s.regs.esp.toNat 12 = true ∧
    segReadDword .ss s.regs.esp s = .ok 0x20007 s ∧ segReadDword .ss (s.regs.esp + 4) s = .ok 0x001B s ∧
    segReadDword .ss (s.regs.esp + 8) s = .ok 0x202 s ∧
    readDesc 0x001B s = .ok (some code3) s ∧ code3.dpl = selRpl 0x001B ∧
    (0x20007 : Dword).toNat ≤ code3.effLimit.toNat ∧ s.cpl < selRpl 0x001B ∧
    limitOK s.segs.ss (s.regs.esp.toNat + 12) 8 = true ∧
    segReadDword .ss (s.regs.esp + 12) s = .ok 0x30000 s ∧
    segReadDword .ss (s.regs.esp + 16) s = .ok 0x0023 s ∧ isNull 0x0023 = false ∧
    readDesc 0x0023 s = .ok (some data4) s ∧ data4.writable = true ∧ data4.present = true ∧
    data4.dpl = selRpl 0x001B ∧ selRpl 0x0023 = selRpl 0x001B ∧ data4.big = true ∧
    prepareAccessed 0x001B code3 s = .ok [] s ∧ prepareAccessed 0x0023 data4 s = .ok [] s :=
  ⟨by decide, by decide, ok_at (by decide +kernel), ok_at (by decide +kernel), ok_at (by decide +kernel),
    ok_at (by decide +kernel), by decide, by decide, by decide, by decide, ok_at (by decide +kernel),
    ok_at (by decide +kernel), by decide, ok_at (by decide +kernel), by decide, by decide, by decide,
    by decide, by decide, ok_at (by decide +kernel), ok_at (by decide +kernel)⟩

/-! ### INT, exceptions, IRET between tasks -/

/-- A state with an IDT at 00004000H and a gate as its entry 30H: offset 100H, a selector, an access byte. -/
def withGate (s : State) (sel : Word) (access : Byte) : State :=
  withBytes { s with idtr := TableReg.mk 0x00004000 0x0187 } 0x4180
    ([0x00, 0x01] ++ wordBytes sel ++ [0x00, access, 0, 0])

/-- A trap or interrupt gate of DPL 3 to the code segment of entry 1. -/
def trapGate : Desc := Desc.mk 0x00080100 0x0000EE00

theorem witness_InterruptGateChecks :
    0x30 < 256 ∧ kernel.idtr.limit.toNat < 8 * 0x80 + 7 ∧
    8 * 0x30 + 7 ≤ (withGate kernel 8 0xEE).idtr.limit.toNat ∧
    sysRead ((withGate kernel 8 0xEC).idtr.base + BitVec.ofNat 32 (8 * 0x30)) 8 (withGate kernel 8 0xEC) =
      .ok [0, 1, 8, 0, 0, 0xEC, 0, 0] (withGate kernel 8 0xEC) ∧
    (Desc.mk 0x00080100 0x0000EC00).typ.toNat ∉ [5, 6, 7, 0xE, 0xF] ∧
    sysRead ((withGate user 8 0x8E).idtr.base + BitVec.ofNat 32 (8 * 0x30)) 8 (withGate user 8 0x8E) =
      .ok [0, 1, 8, 0, 0, 0x8E, 0, 0] (withGate user 8 0x8E) ∧
    (Desc.mk 0x00080100 0x00008E00).isSeg = false ∧
    (Desc.mk 0x00080100 0x00008E00).typ.toNat ∈ [5, 6, 7, 0xE, 0xF] ∧
    (Desc.mk 0x00080100 0x00008E00).dpl < user.cpl ∧
    sysRead ((withGate kernel 8 0x6E).idtr.base + BitVec.ofNat 32 (8 * 0x30)) 8 (withGate kernel 8 0x6E) =
      .ok [0, 1, 8, 0, 0, 0x6E, 0, 0] (withGate kernel 8 0x6E) ∧
    (Desc.mk 0x00080100 0x00006E00).present = false ∧ kernel.cpl ≤ trapGate.dpl ∧
    trapGate.present = true ∧ ¬(trapGate.typ.toNat = 6 ∨ trapGate.typ.toNat = 7) ∧
    (sysRead ((withGate kernel 8 0x87).idtr.base + BitVec.ofNat 32 (8 * 0x30)) 8 (withGate kernel 8 0x87) =
        .ok [0, 1, 8, 0, 0, 0x87, 0, 0] (withGate kernel 8 0x87) ∧
      (Desc.mk 0x00080100 0x00008700).typ.toNat = 7 ∧ (Desc.mk 0x00080100 0x00008700).present = true ∧
      kernel.cpl ≤ (Desc.mk 0x00080100 0x00008700).dpl) :=
  ⟨by decide, by decide, by decide, ok_at (by decide +kernel), by decide, ok_at (by decide +kernel), by decide,
    by decide, by decide, ok_at (by decide +kernel), by decide, by decide, by decide, by decide,
    ok_at (by decide +kernel), by decide, by decide, by decide⟩

/-- R357: an absent 80286 gate is refused for an exception; R293: for INT it is not present. -/
theorem test_idtGate_order :
    stopsWith (idtGate 0x30 false (withGate kernel 8 0x06)) (.refuse .sixteenBitForm)
      (withGate kernel 8 0x06) = true ∧
    stopsWith (idtGate 0x30 true (withGate kernel 8 0x06)) (.exc (.np 0x0182)) (withGate kernel 8 0x06)
      = true := by decide +kernel

theorem witness_GateEntry_same :
    let s := withGate kernel 8 0xEE
    idtGate 0x30 true s = .ok trapGate s ∧ trapGate.typ.toNat ≠ 5 ∧ isNull trapGate.gateSelector = false ∧
    readDesc trapGate.gateSelector s = .ok (some code1) s ∧ code1.isCode = true ∧ code1.present = true ∧
    code1.conforming = false ∧ code1.dpl = s.cpl ∧ trapGate.gateOffset.toNat ≤ code1.effLimit.toNat ∧
    (∃ cells, PushPrepared s ([s.eflags, s.segs.cs.sel.zeroExtend 32, 0x400] ++ (some (0 : Dword)).toList)
        cells s ∧
      ∃ ps t, EnteredCode trapGate.gateSelector code1 trapGate.gateOffset cells
        (s.regs.esp - BitVec.ofNat 32 (4 * 4)) s ps t) :=
  ⟨ok_at (by decide +kernel), by decide, by decide, ok_at (by decide +kernel), by decide, by decide,
    by decide, by decide, by decide, _,
    prepared_at (ps := List.range' 0x7FF0 16) 0x7FF0 (by decide +kernel) (by decide +kernel),
    _, entered_at (by decide) (by decide)⟩

theorem witness_GateEntry_inner :
    let s := withGate userP1 8 0xEE
    idtGate 0x30 true s = .ok trapGate s ∧ readDesc trapGate.gateSelector s = .ok (some code1) s ∧
    code1.dpl < s.cpl ∧ innerStack code1.dpl s = .ok (0x00008000, 0x0010, data2) s ∧
    (∃ ps t, EnteredInner trapGate.gateSelector code1 trapGate.gateOffset 0x00008000 0x0010 data2
      ([s.segs.ss.sel.zeroExtend 32, s.regs.esp] ++
        ([s.eflags, s.segs.cs.sel.zeroExtend 32, 0x20002] ++ (none : Option Dword).toList)) s ps t) :=
  ⟨ok_at (by decide +kernel), ok_at (by decide +kernel), by decide, ok_at (by decide +kernel),
    enteredInner_at (qs := List.range' 0x7FEC 20) (by decide) (by decide) (by decide +kernel)
      (by decide +kernel) (by decide) (by decide +kernel)⟩

/-- A trap or interrupt gate of DPL 3 to a selector, offset 100H. -/
def gateTo (sel : Word) : Desc := Desc.mk (sel ++ (0x0100 : Word)) 0x0000EE00

theorem witness_GateEntry_traps :
    idtGate 0xFF true (withGate kernel 8 0xEE) = .error (.exc (.gp 0x07FA)) (withGate kernel 8 0xEE) ∧
    idtGate 0x30 true (withGate kernel 0 0xEE) = .ok (gateTo 0) (withGate kernel 0 0xEE) ∧
    idtGate 0x30 true (withGate kernel 0x80 0xEE) = .ok (gateTo 0x80) (withGate kernel 0x80 0xEE) ∧
    idtGate 0x30 true (withGate kernel 0x10 0xEE) = .ok (gateTo 0x10) (withGate kernel 0x10 0xEE) ∧
    idtGate 0x30 true (withGate kernel 0x18 0xEE) = .ok (gateTo 0x18) (withGate kernel 0x18 0xEE) :=
  ⟨stop_at (by decide +kernel), ok_at (by decide +kernel), ok_at (by decide +kernel),
    ok_at (by decide +kernel), ok_at (by decide +kernel)⟩

theorem witness_GateEntry_traps_gate :
    (gateTo 0).typ.toNat ≠ 5 ∧ (gateTo 0).gateSelector = 0 ∧
    (gateTo 0x80).typ.toNat ≠ 5 ∧ (gateTo 0x80).gateSelector = 0x80 ∧
    (gateTo 0x10).typ.toNat ≠ 5 ∧ (gateTo 0x10).gateSelector = 0x10 ∧
    (gateTo 0x18).typ.toNat ≠ 5 ∧ (gateTo 0x18).gateSelector = 0x18 := by
  decide

theorem witness_GateEntry_traps_selector :
    isNull 0x0000 = true ∧ readDesc 0x0080 (withGate kernel 0x80 0xEE) = .ok none (withGate kernel 0x80 0xEE) ∧
    (readDesc 0x0010 (withGate kernel 0x10 0xEE) = .ok (some data2) (withGate kernel 0x10 0xEE) ∧
      data2.isCode = false) ∧
    (readDesc 0x0018 (withGate kernel 0x18 0xEE) = .ok (some code3) (withGate kernel 0x18 0xEE) ∧
      kernel.cpl < code3.dpl) :=
  ⟨by decide, ok_at (by decide +kernel), ⟨ok_at (by decide +kernel), by decide⟩,
    ⟨ok_at (by decide +kernel), by decide⟩⟩

theorem witness_GateEntry_traps_absent :
    let s := withGate (withBytes kernel 0x100D [0x1B]) 8 0xEE
    idtGate 0x30 true s = .ok trapGate s ∧ readDesc 0x0008 s = .ok (some ⟨0x0000FFFF, 0x00CF1B00⟩) s ∧
    (Desc.mk 0x0000FFFF 0x00CF1B00).isCode = true ∧ (Desc.mk 0x0000FFFF 0x00CF1B00).dpl ≤ s.cpl ∧
    (Desc.mk 0x0000FFFF 0x00CF1B00).present = false :=
  ⟨ok_at (by decide +kernel), ok_at (by decide +kernel), by decide, by decide, by decide⟩

/-- The kernel state with a code segment of entry 1 of 256 bytes, and with a 16-bit one. -/
def handlerOf (b0 b1 flags : Byte) : State :=
  withGate (withBytes (withBytes kernel 0x1008 [b0, b1]) 0x100E [flags]) 8 0xEE

theorem witness_GateEntry_traps_same :
    (idtGate 0x30 true (handlerOf 0xFF 0 0x40) = .ok trapGate (handlerOf 0xFF 0 0x40) ∧
      readDesc 0x0008 (handlerOf 0xFF 0 0x40) = .ok (some ⟨0x000000FF, 0x00409B00⟩) (handlerOf 0xFF 0 0x40) ∧
      (Desc.mk 0x000000FF 0x00409B00).dpl = kernel.cpl ∧
      (Desc.mk 0x000000FF 0x00409B00).effLimit.toNat < trapGate.gateOffset.toNat) ∧
    (let s := withGate (esp kernel 7) 8 0xEE;
      idtGate 0x30 true s = .ok trapGate s ∧ readDesc 0x0008 s = .ok (some code1) s ∧
      preparePush ([s.eflags, s.segs.cs.sel.zeroExtend 32, 0] ++ (none : Option Dword).toList) s =
        .error (.exc (.sf 0)) s) ∧
    (let s := handlerOf 0xFF 0xFF 0x8F;
      readDesc 0x0008 s = .ok (some ⟨0x0000FFFF, 0x008F9B00⟩) s ∧
      (∃ cells, preparePush ([s.eflags, s.segs.cs.sel.zeroExtend 32, 0] ++ (none : Option Dword).toList) s =
        .ok cells s) ∧
      trapGate.gateOffset.toNat ≤ (Desc.mk 0x0000FFFF 0x008F9B00).effLimit.toNat ∧
      (Desc.mk 0x0000FFFF 0x008F9B00).big = false) :=
  ⟨⟨ok_at (by decide +kernel), ok_at (by decide +kernel), by decide, by decide⟩,
    ⟨ok_at (by decide +kernel), ok_at (by decide +kernel), stop_at (by decide +kernel)⟩,
    ok_at (by decide +kernel),
    ⟨pushCells [(handlerOf 0xFF 0xFF 0x8F).eflags, 8, 0] (List.range' 0x7FF4 12), ok_at (by decide +kernel)⟩,
    by decide, by decide⟩

/-- What INT 30H pushes on the inner stack in `userP1`, in ascending order. -/
def intFrame : List Byte :=
  (([userP1.eflags, userP1.segs.cs.sel.zeroExtend 32, 0x20002] ++ (none : Option Dword).toList).reverse ++
    [userP1.regs.esp, userP1.segs.ss.sel.zeroExtend 32]).flatMap dwordBytes

theorem witness_GateEntry_traps_inner :
    (let s := withGate (ss0 0 0) 8 0xEE;
      idtGate 0x30 true s = .ok trapGate s ∧ readDesc 0x0008 s = .ok (some code1) s ∧ code1.dpl < s.cpl ∧
      innerStack 0 s = .error (.exc (.gp 0)) s) ∧
    (let s := withGate (withBytes userP1 0x10004 [19, 0, 0, 0]) 8 0xEE;
      innerStack 0 s = .ok (19, 0x0010, data2) s ∧
      limitOK (cacheOf 0x0010 data2) ((19 : Dword) - BitVec.ofNat 32 20).toNat 20 = false) ∧
    (let s := withGate (code1Of 0xFF 0 0x40) 8 0xEE;
      readDesc 0x0008 s = .ok (some ⟨0x000000FF, 0x00409B00⟩) s ∧
      innerStack 0 s = .ok (0x00008000, 0x0010, data2) s ∧
      limitOK (cacheOf 0x0010 data2) ((0x00008000 : Dword) - BitVec.ofNat 32 20).toNat 20 = true ∧
      (Desc.mk 0x000000FF 0x00409B00).effLimit.toNat < trapGate.gateOffset.toNat) ∧
    (let s := withGate (code1Of 0xFF 0xFF 0x8F) 8 0xEE;
      readDesc 0x0008 s = .ok (some ⟨0x0000FFFF, 0x008F9B00⟩) s ∧
      innerStack 0 s = .ok (0x00008000, 0x0010, data2) s ∧
      (∃ cells, prepareWrite false (data2.base + 0x00007FEC) intFrame s = .ok cells s) ∧
      (Desc.mk 0x0000FFFF 0x008F9B00).big = false) :=
  ⟨⟨ok_at (by decide +kernel), ok_at (by decide +kernel), by decide, stop_at (by decide +kernel)⟩,
    ⟨ok_at (by decide +kernel), by decide⟩,
    ⟨ok_at (by decide +kernel), ok_at (by decide +kernel), by decide, by decide⟩,
    ok_at (by decide +kernel), ok_at (by decide +kernel),
    ⟨(List.range' 0x7FEC 20).zip intFrame, ok_at (by decide +kernel)⟩, by decide⟩

/-- The paged states with the IDT there: an LDT that is not, and a stack of level 0 that is not. -/
def pagedGate (sel : Word) : State :=
  withGate (withBytes { pagedP1 with ldtr := LdtReg.mk 0x0028 0 0xFF true } 0x101010 [0x03, 0x40]) sel 0xEE

theorem witness_GateEntry_traps_page :
    (∃ u v, idtGate 0x30 true (pagedGate 4) = .ok (gateTo 4) u ∧
      readDesc (gateTo 4).gateSelector u = .error (.exc (.pf 0 0)) v) ∧
    ∃ u v w x, idtGate 0x30 true (pagedGate 8) = .ok (gateTo 8) u ∧
      readDesc (gateTo 8).gateSelector u = .ok (some code1) v ∧
      innerStack code1.dpl v = .ok (0x00008000, 0x0010, data2) w ∧
      prepareWrite false (data2.base + 0x00007FEC) intFrame w = .error (.exc (.pf 0x00007FEC 2)) x :=
  ⟨⟨_, _, ok_val (by decide +kernel), (stop_end (by decide +kernel)).choose_spec⟩, _, _, _, _,
    ok_val (by decide +kernel), ok_val (by decide +kernel), ok_val (by decide +kernel),
    (stop_end (by decide +kernel)).choose_spec⟩

/-- Entry that reaches the writes of the accessed bits, at the same level and at an inner one. -/
theorem witness_GateEntry_accessed :
    (let s := withGate kernel 8 0xEE;
      (∃ cells, preparePush ([s.eflags, s.segs.cs.sel.zeroExtend 32, 0] ++ (none : Option Dword).toList) s =
        .ok cells s) ∧ code1.dpl = s.cpl ∧ trapGate.gateOffset.toNat ≤ code1.effLimit.toNat ∧
      code1.big = true) ∧
    let s := withGate userP1 8 0xEE;
    innerStack 0 s = .ok (0x00008000, 0x0010, data2) s ∧
    (∃ cells, prepareWrite false (data2.base + 0x00007FEC) intFrame s = .ok cells s) ∧ code1.big = true :=
  ⟨⟨⟨pushCells [(withGate kernel 8 0xEE).eflags, 8, 0] (List.range' 0x7FF4 12), ok_at (by decide +kernel)⟩,
      by decide, by decide, by decide⟩,
    ok_at (by decide +kernel), ⟨(List.range' 0x7FEC 20).zip intFrame, ok_at (by decide +kernel)⟩, by decide⟩

/-- The task gate of V44-15. -/
def taskGate : Desc := Desc.mk 0x00480000 0x0000E500

theorem witness_InterruptAndTaskGate_gate :
    idtGate 0x30 true gated = .ok taskGate gated ∧ taskGate.typ.toNat = 5 ∧
    ∃ v, taskSwitch .int (taskGate.lo.extractLsb' 16 16) 0x402 gated = .ok false v ∧
      PushedTo v [0] (List.range' 0x8FFC 4) (pushed v [0] (List.range' 0x8FFC 4)) :=
  ⟨ok_at (by decide +kernel), by decide, _, ok_val (by decide +kernel),
    pushed_at 0x8FFC (by decide +kernel) (by decide +kernel) rfl⟩

/-- A handler task whose ESP is 2, one that is busy, and one whose image has VM = 1; an 80286 gate. -/
theorem witness_InterruptAndTaskGate_stops :
    (∃ v t, taskSwitch .int (taskGate.lo.extractLsb' 16 16) 0x402 (withBytes gated 0x11038 [2, 0]) =
        .ok false v ∧ pushAll [0] v = .error (.exc (.sf 0)) t) ∧
    (idtGate 0x30 true (withBytes gated 0x104D [0x8B]) = .ok taskGate (withBytes gated 0x104D [0x8B]) ∧
      ∃ v, taskSwitch .int (taskGate.lo.extractLsb' 16 16) 0x402 (withBytes gated 0x104D [0x8B]) =
        .error (.exc (.gp 0x0048)) v) ∧
    ∃ t, deliver (0x30 : Byte).toNat none kernel.nextEip true (withGate kernel 8 0x87) =
      .error (.refuse .sixteenBitForm) t :=
  ⟨⟨_, _, ok_val (by decide +kernel), (stop_end (by decide +kernel)).choose_spec⟩,
    ⟨ok_at (by decide +kernel), stop_end (by decide +kernel)⟩, stop_end (by decide +kernel)⟩

/-- The task B of program P3 with paging and its TSS not there. -/
def unlinked : State := { paged with eflags := 0x00004002, tr := TaskReg.mk 0x0048 0x00011000 0x67 }

theorem witness_InterruptAndTaskGate_int :
    (∃ t, deliver (0x30 : Byte).toNat none gated.nextEip true gated = .ok false t) ∧
    (∃ t, deliver (0x30 : Byte).toNat none gated.nextEip true (withBytes gated 0x11064 [1]) = .ok true t) ∧
    deliver (0xFF : Byte).toNat none kernel.nextEip true (withGate kernel 8 0xEE) =
      .error (.exc (.gp 0x07FA)) (withGate kernel 8 0xEE) :=
  ⟨⟨_, ok_val (by decide +kernel)⟩, ⟨_, ok_val (by decide +kernel)⟩, stop_at (by decide +kernel)⟩

/-- A state that delivers exceptions, with one gate as the entry of the IDT for a vector. -/
def delivering (vector : Nat) : State :=
  withBytes { kernel with idtr := TableReg.mk 0x00004000 0x07FF, deliverExceptions := true }
    (0x4000 + 8 * vector) [0, 1, 8, 0, 0, 0x8E, 0, 0]

theorem witness_TakingAnException :
    kernel.deliverExceptions = false ∧ (delivering 13).deliverExceptions = true ∧
    (∃ trap t, deliver (Exception.gp 0).vector (Exception.gp 0).errorCode (delivering 13).eip false
      (delivering 13) = .ok trap t) ∧
    deliver (Exception.gp 0).vector (Exception.gp 0).errorCode (delivering 8).eip false (delivering 8) =
      .error (.exc (.gp 0x6A)) (delivering 8) ∧
    (∃ trap t, deliver 8 (some 0) (delivering 8).eip false (delivering 8) = .ok trap t) ∧
    deliver (Exception.gp 0).vector (Exception.gp 0).errorCode (delivering 6).eip false (delivering 6) =
      .error (.exc (.gp 0x6A)) (delivering 6) ∧
    deliver 8 (some 0) (delivering 6).eip false (delivering 6) =
      .error (.exc (.gp 0x42)) (delivering 6) :=
  ⟨rfl, rfl, ⟨_, _, ok_end true (by decide +kernel)⟩, stop_at (by decide +kernel),
    ⟨_, _, ok_end true (by decide +kernel)⟩, stop_at (by decide +kernel), stop_at (by decide +kernel)⟩

theorem witness_InterruptReturnToTask :
    nested.eflags.getLsbD bitNT = true ∧
    sysRead nested.tr.base 2 nested = .ok [0x40, 0] nested ∧
    (∃ t, taskSwitch .iret (wordAt [0x40, 0] 0) nested.nextEip nested = .ok false t) ∧
    (∃ t, taskSwitch .iret (wordAt [0x40, 0] 0) nested.nextEip (withBytes nested 0x10064 [1]) = .ok true t) ∧
    (sysRead nested.tr.base 2 (withBytes nested 0x11000 [0]) = .ok [0, 0] (withBytes nested 0x11000 [0]) ∧
      taskSwitch .iret (wordAt [0, 0] 0) nested.nextEip (withBytes nested 0x11000 [0]) =
        .error (.exc (.ts 0)) (withBytes nested 0x11000 [0])) ∧
    (∃ t, taskSwitch .iret (wordAt [0x40, 0] 0) nested.nextEip (withBytes nested 0x10026 [2]) =
      .error (.refuse .virtual8086Mode) t) ∧
    unlinked.eflags.getLsbD bitNT = true ∧
    ∃ u, sysRead unlinked.tr.base 2 unlinked = .error (.exc (.pf 0x00011000 0)) u :=
  ⟨by decide, ok_at (by decide +kernel), ⟨_, ok_val (by decide +kernel)⟩,
    ⟨_, ok_val (by decide +kernel)⟩, ⟨ok_at (by decide +kernel), stop_at (by decide +kernel)⟩,
    stop_end (by decide +kernel), by decide, endOf (sysRead unlinked.tr.base 2 unlinked), stop_at (by decide +kernel)⟩

/-! ### The instructions reserved for the operating system -/

theorem witness_PrivilegedInstructions : levelOne.cpl ≠ 0 ∧ user.cpl ≠ 0 := by decide

theorem witness_MachineStatusWord :
    kernel.cpl = 0 ∧ readRM16 (.reg .eax) (eax kernel 8) = .ok 8 (eax kernel 8) ∧
    readRM16 (.mem ⟨.fs, some .eax, none, 0⟩) kernel = .error (.exc (.gp 0)) kernel :=
  ⟨rfl, rfl, stop_at (by decide +kernel)⟩

theorem witness_LoadTableRegisters :
    let s := pointing kernel 0x1000007F 0
    s.cpl = 0 ∧ segReadWord .ds (effectiveOffset s.regs ⟨.ds, some .eax, none, 0⟩) s = .ok 0x007F s ∧
    segReadDword .ds (effectiveOffset s.regs ⟨.ds, some .eax, none, 0⟩ + 2) s = .ok 0x00001000 s :=
  ⟨rfl, ok_at (by decide +kernel), ok_at (by decide +kernel)⟩

/-- The null selector of FS; a segment that ends within the base. -/
theorem witness_LoadTableRegisters_traps :
    segReadWord .fs (effectiveOffset kernel.regs ⟨.fs, some .eax, none, 0⟩) kernel =
      .error (.exc (.gp 0)) kernel ∧
    let s := { pointing kernel 0x1000007F 0 with
      segs := { kernel.segs with ds := { kernel.segs.ds with limit := 0x25004 } } }
    segReadWord .ds (effectiveOffset s.regs ⟨.ds, some .eax, none, 0⟩) s = .ok 0x007F s ∧
    segReadDword .ds (effectiveOffset s.regs ⟨.ds, some .eax, none, 0⟩ + 2) s = .error (.exc (.gp 0)) s :=
  ⟨stop_at (by decide +kernel), ok_at (by decide +kernel), stop_at (by decide +kernel)⟩

/-- An operand through FS; a descriptor on a page that is not present. -/
theorem witness_LoadLdtAndTaskRegisters_traps :
    readRM16 (.mem ⟨.fs, some .eax, none, 0⟩) kernel = .error (.exc (.gp 0)) kernel ∧
    (lost (eax kernel 0x48)).cpl = 0 ∧
    readRM16 (.reg .eax) (lost (eax kernel 0x48)) = .ok 0x48 (lost (eax kernel 0x48)) ∧
    ∃ v, readDesc 0x0048 (lost (eax kernel 0x48)) = .error (.exc (.pf 0x48 0)) v :=
  ⟨stop_at (by decide +kernel), rfl, rfl, stop_end (by decide +kernel)⟩

theorem witness_LoadLdtAndTaskRegisters_ldt :
    readRM16 (.reg .eax) (eax kernel 0x28) = .ok 0x28 (eax kernel 0x28) ∧ isNull 0x0000 = true ∧
    (isNull 0x002C = false ∧ selTI 0x002C = true) ∧ isNull 0x0028 = false ∧ selTI 0x0028 = false ∧
    readDesc 0x0080 kernel = .ok none kernel ∧
    (readDesc 0x0010 kernel = .ok (some data2) kernel ∧ data2.isSeg = true) ∧
    (readDesc 0x0028 (eax kernel 0x28) = .ok (some ⟨0x30000017, 0x00008200⟩) (eax kernel 0x28) ∧
      (Desc.mk 0x30000017 0x00008200).isSeg = false ∧ (Desc.mk 0x30000017 0x00008200).typ = 2 ∧
      (Desc.mk 0x30000017 0x00008200).present = true) ∧
    readDesc 0x0028 (withBytes kernel 0x102D [0x02]) =
      .ok (some ⟨0x30000017, 0x00000200⟩) (withBytes kernel 0x102D [0x02]) ∧
    (Desc.mk 0x30000017 0x00000200).present = false :=
  ⟨rfl, by decide, by decide, by decide, by decide, ok_at (by decide +kernel),
    ⟨ok_at (by decide +kernel), by decide⟩, ⟨ok_at (by decide +kernel), by decide, by decide, by decide⟩,
    ok_at (by decide +kernel), by decide⟩

/-- The kernel state with the access byte of entry 9, TSS B. -/
def tssB (access : Byte) : State := withBytes (eax kernel 0x48) 0x104D [access]

theorem witness_LoadLdtAndTaskRegisters_task :
    (tssB 0x89).cpl = 0 ∧ readRM16 (.reg .eax) (tssB 0x89) = .ok 0x48 (tssB 0x89) ∧ isNull 0x0048 = false ∧
    selTI 0x0048 = false ∧
    (readDesc 0x0048 (tssB 0x8B) = .ok (some ⟨0x10000067, 0x00008B01⟩) (tssB 0x8B) ∧
      (Desc.mk 0x10000067 0x00008B01).typ ≠ 1 ∧ (Desc.mk 0x10000067 0x00008B01).typ ≠ 9) ∧
    (readDesc 0x0048 (tssB 0x81) = .ok (some ⟨0x10000067, 0x00008101⟩) (tssB 0x81) ∧
      (Desc.mk 0x10000067 0x00008101).isSeg = false ∧ (Desc.mk 0x10000067 0x00008101).typ = 1) ∧
    (readDesc 0x0048 (tssB 0x09) = .ok (some ⟨0x10000067, 0x00000901⟩) (tssB 0x09) ∧
      (Desc.mk 0x10000067 0x00000901).typ = 9 ∧ (Desc.mk 0x10000067 0x00000901).present = false) ∧
    readDesc 0x0048 (tssB 0x89) = .ok (some ⟨0x10000067, 0x00008901⟩) (tssB 0x89) ∧
    (Desc.mk 0x10000067 0x00008901).isSeg = false ∧ (Desc.mk 0x10000067 0x00008901).typ = 9 ∧
    (Desc.mk 0x10000067 0x00008901).present = true ∧
    AccessByteAt (tssB 0x89) 0x0048 (0x104D, 0x104D) (tssB 0x89) ∧ (tssB 0x89).hasMemory 0x104D = true :=
  ⟨rfl, rfl, by decide, by decide, ⟨ok_at (by decide +kernel), by decide, by decide⟩,
    ⟨ok_at (by decide +kernel), by decide, by decide⟩, ⟨ok_at (by decide +kernel), by decide, by decide⟩,
    ok_at (by decide +kernel), by decide, by decide, by decide,
    ⟨tssB 0x89, ok_at (by decide +kernel), ok_at (by decide +kernel)⟩, by decide +kernel⟩

theorem witness_MoveControlRegisters : kernel.cpl = 0 ∧ (kernel.regs.get .eax).getLsbD 0 = false := by decide

theorem witness_MoveDebugAndTestRegisters :
    kernel.cpl = 0 ∧ ((4 : BitVec 3) = 4 ∨ (4 : BitVec 3) = 5) ∧ ((7 : BitVec 3) ≠ 4 ∧ (7 : BitVec 3) ≠ 5) ∧
    ((5 : BitVec 3) ≠ 6 ∧ (5 : BitVec 3) ≠ 7) ∧ (6 : BitVec 3) = 6 ∧ (7 : BitVec 3) = 7 := by decide

theorem witness_StoreTaskRegister :
    segCheck .ds (effectiveOffset (ebx user 0x25000).regs ⟨.ds, some .ebx, none, 0⟩) 2 true (ebx user 0x25000) =
      .ok 0x25000 (ebx user 0x25000) ∧
    translateRange .write (ebx user 0x25000).userLevel 0x25000 2 (ebx user 0x25000) =
      .ok [0x25000, 0x25001] (ebx user 0x25000) ∧
    segWrite .cs (effectiveOffset user.regs ⟨.cs, some .ebx, none, 0⟩) (wordBytes user.tr.sel) user =
      .error (.exc (.gp 0)) user :=
  ⟨ok_at (by decide +kernel), ok_at (by decide +kernel), stop_at (by decide +kernel)⟩

/-! ### Pointer validation -/

theorem witness_AdjustRpl :
    (selRpl ((eax user 0x10).regs.get16 .eax) < selRpl ((ebx user 0x1B).regs.get16 .ebx) ∧
      selRpl ((eax user 8).regs.get16 .ebx) ≤ selRpl ((eax user 8).regs.get16 .eax)) ∧
    let s := pointing (ebx user 0x1B) 0x10 0
    checkWritableRM16 (.mem ⟨.ds, some .eax, none, 0⟩) s = .ok () s ∧
    segReadWord .ds (effectiveOffset s.regs ⟨.ds, some .eax, none, 0⟩) s = .ok 0x0010 s ∧
    selRpl 0x0010 < selRpl (s.regs.get16 .ebx) ∧
    segCheck .ds (effectiveOffset s.regs ⟨.ds, some .eax, none, 0⟩) 2 true s = .ok 0x25000 s ∧
    translateRange .write s.userLevel 0x25000 2 s = .ok [0x25000, 0x25001] s ∧
    selRpl (s.regs.get16 .eax) ≤ selRpl 0x0010 :=
  ⟨⟨by decide, by decide⟩, ok_at (by decide +kernel), ok_at (by decide +kernel), by decide,
    ok_at (by decide +kernel), ok_at (by decide +kernel), by decide⟩

theorem witness_LoadRightsAndLimit :
    readRM16 (.reg .eax) (eax user 0x33) = .ok 0x33 (eax user 0x33) ∧ isNull 0x0003 = true ∧
    (isNull 0x0083 = false ∧ readDesc 0x0083 user = .ok none user) ∧
    (readDesc 0x0033 (eax user 0x33) = .ok (some ⟨0x0000FFFF, 0x00409E00⟩) (eax user 0x33) ∧
      (Desc.mk 0x0000FFFF 0x00409E00).isSeg = true ∧ (Desc.mk 0x0000FFFF 0x00409E00).conforming = true) ∧
    (readDesc 0x003B user = .ok (some gate7) user ∧ gate7.typ.toNat ∉ [0, 8, 0xA, 0xD] ∧
      user.cpl ≤ gate7.dpl ∧ selRpl 0x003B ≤ gate7.dpl ∧ gate7.typ.toNat ∉ [1, 2, 3, 9, 0xB]) ∧
    (readDesc 0x0013 user = .ok (some ⟨0x0000FFFF, 0x00CF9200⟩) user ∧
      (Desc.mk 0x0000FFFF 0x00CF9200).conforming = false ∧
      (Desc.mk 0x0000FFFF 0x00CF9200).dpl < user.cpl) ∧
    (readDesc 0x007B (entry15 0xED 8) = .ok (some ⟨0x00080200, 0x0000ED00⟩) (entry15 0xED 8) ∧
      (Desc.mk 0x00080200 0x0000ED00).isSeg = false ∧
      (Desc.mk 0x00080200 0x0000ED00).typ.toNat ∈ [0, 8, 0xA, 0xD]) ∧
    readDesc 0x0028 kernel = .ok (some ⟨0x30000017, 0x00008200⟩) kernel ∧
    (Desc.mk 0x30000017 0x00008200).typ.toNat ∈ [1, 2, 3, 9, 0xB] ∧
    kernel.cpl ≤ (Desc.mk 0x30000017 0x00008200).dpl :=
  ⟨rfl, by decide, ⟨by decide, ok_at (by decide +kernel)⟩, ⟨ok_at (by decide +kernel), by decide, by decide⟩,
    ⟨ok_at (by decide +kernel), by decide, by decide, by decide, by decide⟩,
    ⟨ok_at (by decide +kernel), by decide, by decide⟩, ⟨ok_at (by decide +kernel), by decide, by decide⟩,
    ok_at (by decide +kernel), by decide, by decide⟩

theorem witness_LoadRightsAndLimit_page :
    readRM16 (.reg .eax) (eax (lost kernel) 0x23) = .ok 0x23 (eax (lost kernel) 0x23) ∧ isNull 0x0023 = false ∧
    ∃ v, readDesc 0x0023 (eax (lost kernel) 0x23) = .error (.exc (.pf 0x20 0)) v :=
  ⟨rfl, by decide, stop_end (by decide +kernel)⟩

theorem witness_VerifyAccess :
    readRM16 (.reg .eax) (eax user 0x23) = .ok 0x23 (eax user 0x23) ∧ isNull 0x0003 = true ∧
    (isNull 0x0083 = false ∧ readDesc 0x0083 user = .ok none user) ∧ isNull 0x0023 = false ∧
    readDesc 0x0023 (eax user 0x23) = .ok (some data4) (eax user 0x23) :=
  ⟨rfl, by decide, ⟨by decide, ok_at (by decide +kernel)⟩, by decide, ok_at (by decide +kernel)⟩

/-! ### The task switch -/

/-- TSS B, available. -/
def tssDesc : Desc := Desc.mk 0x10000067 0x00008901

/-- The operation stops with an exception. -/
def raisedBy (r : EStateM.Result Stop State α) : Bool :=
  match r with
  | .error (.exc _) _ => true
  | _ => false

/-- The paged state whose TR names a TSS at a linear address that is not present. -/
def unmappedTss : State := { paged with tr := { paged.tr with base := 0 } }

theorem witness_TaskSwitchChecks :
    isNull 0x0003 = true ∧ selTI 0x004C = true ∧ kernel.gdtr.limit.toNat < selOffset 0x0080 + 7 ∧
    isNull 0x0048 = false ∧ selTI 0x0048 = false ∧ selOffset 0x0078 + 7 ≤ kernel.gdtr.limit.toNat ∧
    selOffset 0x0048 + 7 ≤ kernel.gdtr.limit.toNat ∧
    sysRead (kernel.descAddr 0x0048) 8 kernel = .ok [0x67, 0, 0, 0x10, 1, 0x89, 0, 0] kernel ∧
    Desc.mk (dwordAt [0x67, 0, 0, 0x10, 1, 0x89, 0, 0] 0) (dwordAt [0x67, 0, 0, 0x10, 1, 0x89, 0, 0] 4) =
      tssDesc ∧
    (tssDesc.isSeg = false ∧ tssDesc.typ.toNat = 9 ∧ tssDesc.present = true ∧ 103 ≤ tssDesc.effLimit.toNat) ∧
    (isOk (sysRead (kernel.descAddr 0x0010) 8 kernel) = true ∧ data2.isSeg = true) ∧
    (isOk (sysRead ((tssB 0x83).descAddr 0x0048) 8 (tssB 0x83)) = true ∧
      (Desc.mk 0x10000067 0x00008301).typ.toNat = 3) ∧
    (isOk (sysRead (kernel.descAddr 0x0040) 8 kernel) = true ∧
      (Desc.mk 0x00000067 0x00008B01).typ.toNat = 0xB) ∧
    (isOk (sysRead ((tssB 0x09).descAddr 0x0048) 8 (tssB 0x09)) = true ∧
      (Desc.mk 0x10000067 0x00000901).present = false) ∧
    (isOk (sysRead (kernel.descAddr 0x0048) 8 (withBytes kernel 0x1048 [0x66])) = true ∧
      (Desc.mk 0x10000066 0x00008901).effLimit.toNat < 103) ∧
    raisedBy (sysRead ((lost kernel).descAddr 0x0048) 8 (lost kernel)) = true ∧
    isOk (sysRead (unmappedTss.descAddr 0x0048) 8 unmappedTss) = true ∧
    raisedBy (pageCheckRange .write false (unmappedTss.tr.base + 32) 62
      (endOf (sysRead (unmappedTss.descAddr 0x0048) 8 unmappedTss))) = true ∧
    raisedBy (prepareSwitch .jmp 0x0048 tssDesc
      (endOf (sysRead (unmappedTss.descAddr 0x0048) 8 unmappedTss))) = true := by
  refine ⟨by decide, by decide, by decide, by decide, by decide, by decide, by decide, ok_at (by decide +kernel),
    by decide, by decide, ⟨by decide +kernel, by decide⟩, ⟨by decide +kernel, by decide⟩,
    ⟨by decide +kernel, by decide⟩, ⟨by decide +kernel, by decide⟩, ⟨by decide +kernel, by decide⟩,
    by decide +kernel, by decide +kernel, by decide +kernel, by decide +kernel⟩

/-- Where the bytes of a switch by JMP from TSS A to TSS B lie. -/
def pagesB : SwitchPages :=
  SwitchPages.mk (List.range' 0x10020 62) (List.range' 0x11000 104) [] (some (0x1045, 0x1045))
    (some (0x104D, 0x104D))

theorem prepared_kernel : SwitchPrepared kernel .jmp 0x0048 tssDesc pagesB kernel := by
  refine ⟨by decide +kernel, kernel, kernel, kernel, kernel, ok_at (by decide +kernel), ok_at (by decide +kernel),
    ok_at (by decide +kernel), ?_, ?_⟩
  · rw [if_pos (by decide)]
    exact ⟨_, rfl, kernel, ok_at (by decide +kernel), ok_at (by decide +kernel)⟩
  · rw [if_neg (by decide)]
    exact ⟨_, rfl, kernel, ok_at (by decide +kernel), ok_at (by decide +kernel)⟩

/-- The states of a switch from the kernel state to TSS B: after step 3, and after step 4. -/
def saved : State := endOf (saveOutgoing .jmp 0x407 pagesB.saved kernel)

/-- See `saved`. -/
def linked : State := endOf (linkTasks 0x0048 tssDesc pagesB saved)

/-- The image of TSS B. -/
def imageB : List Byte := valueOf (readPhys pagesB.image linked) []

theorem witness_TaskSwitchCompletes :
    incomingTss .jmp 0x0048 kernel = .ok tssDesc kernel ∧
    SwitchPrepared kernel .jmp 0x0048 tssDesc pagesB kernel ∧
    saveOutgoing .jmp 0x407 pagesB.saved kernel = .ok () saved ∧
    linkTasks 0x0048 tssDesc pagesB saved = .ok () linked ∧
    readPhys pagesB.image linked = .ok imageB linked ∧ (dwordAt imageB 36).getLsbD bitVM = false ∧
    (∃ t, loadTaskSegments (linked.withTssImage .jmp imageB) = .ok () t) ∧
    loadTaskSegments (linked.withTssImage .jmp (List.replicate 104 0)) =
      .error (.exc (.ts 0)) (linked.withTssImage .jmp (List.replicate 104 0)) ∧
    (dwordAt (List.replicate 104 0x02) 36).getLsbD bitVM = true :=
  ⟨ok_at (by decide +kernel), prepared_kernel, ok_unit (by decide +kernel),
    ok_unit (by decide +kernel), ok_at (by decide +kernel), by decide +kernel,
    ⟨_, ok_unit (by decide +kernel)⟩, stop_at (by decide +kernel), by decide⟩

theorem witness_OutgoingTaskSaved :
    kernel.Flat ∧ kernel.mem.wf = true ∧
    [(0 : Dword), 1, 2, 3, 4, 5, 6, 7, 8, 9][9]? = some 9 ∧ [(0 : Word), 1, 2, 3, 4, 5][5]? = some 5 :=
  ⟨flat_of (by decide) rfl, by decide +kernel, rfl, rfl⟩

theorem witness_TaskLinking :
    kernel.Flat ∧ kernel.mem.wf = true ∧ kernel.walked = [] ∧
    [(kernel.gdtAccessAddr kernel.tr.sel).toNat, (kernel.gdtAccessAddr 0x0048).toNat, tssDesc.base.toNat,
      (tssDesc.base + 1).toNat].Nodup :=
  ⟨flat_of (by decide) rfl, by decide +kernel, rfl, by decide⟩

theorem witness_IncomingImageLoaded : 31 < 32 ∧ 31 ≠ 14 ∧ paged.paging = true ∧ kernel.paging = false := by
  decide

/-- The kernel state with a selector in LDTR, CS and SS, not valid yet, as a task switch leaves them. -/
def incoming (l c k : Word) : State :=
  { kernel with
    ldtr := { kernel.ldtr with sel := l }
    segs := { kernel.segs with cs := kernel.segs.cs.withNull c, ss := kernel.segs.ss.withNull k } }

theorem witness_IncomingSegmentsValidated_ldt :
    isNull (incoming 0 0 0).ldtr.sel = true ∧
    (isNull (incoming 0x2C 0 0).ldtr.sel = false ∧ selTI (incoming 0x2C 0 0).ldtr.sel = true) ∧
    selTI (incoming 0x80 0 0).ldtr.sel = false ∧
    readDesc (incoming 0x80 0 0).ldtr.sel (incoming 0x80 0 0) = .ok none (incoming 0x80 0 0) ∧
    readDesc (incoming 0x28 0 0).ldtr.sel (incoming 0x28 0 0) =
      .ok (some ⟨0x30000017, 0x00008200⟩) (incoming 0x28 0 0) :=
  ⟨by decide, by decide, by decide, ok_at (by decide +kernel), ok_at (by decide +kernel)⟩

theorem witness_IncomingSegmentsValidated_code :
    isNull (incoming 0 0 0).segs.cs.sel = true ∧ isNull (incoming 0 0x80 0).segs.cs.sel = false ∧
    readDesc 0x0080 (incoming 0 0x80 0) = .ok none (incoming 0 0x80 0) ∧
    (readDesc 0x0010 (incoming 0 0x10 0) = .ok (some data2) (incoming 0 0x10 0) ∧ data2.isCode = false) ∧
    (readDesc 0x0018 (incoming 0 0x18 0) = .ok (some code3) (incoming 0 0x18 0) ∧
      code3.conforming = false ∧ code3.dpl ≠ (incoming 0 0x18 0).cpl) ∧
    (readDesc 0x0008 (withBytes (incoming 0 0x08 0) 0x100D [0x1B]) =
        .ok (some ⟨0x0000FFFF, 0x00CF1B00⟩) (withBytes (incoming 0 0x08 0) 0x100D [0x1B]) ∧
      (Desc.mk 0x0000FFFF 0x00CF1B00).isCode = true ∧ (Desc.mk 0x0000FFFF 0x00CF1B00).dpl = kernel.cpl ∧
      (Desc.mk 0x0000FFFF 0x00CF1B00).present = false) ∧
    (readDesc 0x0008 (incoming 0 0x08 0) = .ok (some code1) (incoming 0 0x08 0) ∧ code1.present = true ∧
      code1.big = true ∧ setAccessed 0x0008 code1 (incoming 0 0x08 0) = .ok () (incoming 0 0x08 0)) :=
  ⟨by decide, by decide, ok_at (by decide +kernel), ⟨ok_at (by decide +kernel), by decide⟩,
    ⟨ok_at (by decide +kernel), by decide, by decide⟩,
    ⟨ok_at (by decide +kernel), by decide, by decide, by decide⟩,
    ok_at (by decide +kernel), by decide, by decide, ok_at (by decide +kernel)⟩

theorem witness_IncomingSegmentsValidated_stack :
    isNull (incoming 0 0 3).segs.ss.sel = true ∧ isNull (incoming 0 0 0x80).segs.ss.sel = false ∧
    readDesc 0x0080 (incoming 0 0 0x80) = .ok none (incoming 0 0 0x80) ∧
    (readDesc 0x0013 (incoming 0 0 0x13) = .ok (some data2) (incoming 0 0 0x13) ∧
      selRpl 0x0013 ≠ (incoming 0 0 0x13).cpl) ∧
    (readDesc 0x0010 (withBytes (incoming 0 0 0x10) 0x1015 [0x13]) =
        .ok (some ⟨0x0000FFFF, 0x00CF1300⟩) (withBytes (incoming 0 0 0x10) 0x1015 [0x13]) ∧
      selRpl 0x0010 = kernel.cpl ∧ (Desc.mk 0x0000FFFF 0x00CF1300).writable = true ∧
      (Desc.mk 0x0000FFFF 0x00CF1300).dpl = kernel.cpl ∧
      (Desc.mk 0x0000FFFF 0x00CF1300).present = false) ∧
    (readDesc 0x0010 (incoming 0 0 0x10) = .ok (some data2) (incoming 0 0 0x10) ∧ data2.writable = true ∧
      data2.dpl = kernel.cpl ∧ data2.present = true ∧ data2.big = true ∧
      setAccessed 0x0010 data2 (incoming 0 0 0x10) = .ok () (incoming 0 0 0x10)) :=
  ⟨by decide, by decide, ok_at (by decide +kernel), ⟨ok_at (by decide +kernel), by decide⟩,
    ⟨ok_at (by decide +kernel), by decide, by decide, by decide, by decide⟩,
    ok_at (by decide +kernel), by decide, by decide, by decide, by decide, ok_at (by decide +kernel)⟩

/-- The user state with a selector in GS, not valid yet. -/
def incomingData (v : Word) : State :=
  { user with segs := { user.segs with gs := user.segs.gs.withNull v } }

theorem witness_IncomingSegmentsValidated_data :
    isNull ((incomingData 3).segs.get .gs).sel = true ∧ isNull ((incomingData 0x80).segs.get .gs).sel = false ∧
    readDesc 0x0080 (incomingData 0x80) = .ok none (incomingData 0x80) ∧
    (readDesc 0x003B (incomingData 0x3B) = .ok (some gate7) (incomingData 0x3B) ∧ gate7.isSeg = false) ∧
    (readDesc 0x0013 (incomingData 0x13) = .ok (some ⟨0x0000FFFF, 0x00CF9200⟩) (incomingData 0x13) ∧
      (Desc.mk 0x0000FFFF 0x00CF9200).conforming = false ∧ (Desc.mk 0x0000FFFF 0x00CF9200).dpl < user.cpl) ∧
    (readDesc 0x0073 (incomingData 0x73) = .ok (some ⟨0x0000FFFF, 0x00CF7200⟩) (incomingData 0x73) ∧
      (Desc.mk 0x0000FFFF 0x00CF7200).isData = true ∧ user.cpl ≤ (Desc.mk 0x0000FFFF 0x00CF7200).dpl ∧
      selRpl 0x0073 ≤ (Desc.mk 0x0000FFFF 0x00CF7200).dpl ∧ (Desc.mk 0x0000FFFF 0x00CF7200).present = false) ∧
    (readDesc 0x0023 (incomingData 0x23) = .ok (some data4) (incomingData 0x23) ∧ data4.isData = true ∧
      data4.present = true ∧ setAccessed 0x0023 data4 (incomingData 0x23) = .ok () (incomingData 0x23)) :=
  ⟨by decide, by decide, ok_at (by decide +kernel), ⟨ok_at (by decide +kernel), by decide⟩,
    ⟨ok_at (by decide +kernel), by decide, by decide⟩,
    ⟨ok_at (by decide +kernel), by decide, by decide, by decide, by decide⟩,
    ok_at (by decide +kernel), by decide, by decide, ok_at (by decide +kernel)⟩

/-- A GDT on a page that is not present; 16-bit segments. -/
theorem witness_IncomingSegmentsValidated_stops :
    (∃ u, readDesc (lost (incoming 0x28 0 0)).ldtr.sel (lost (incoming 0x28 0 0)) =
      .error (.exc (.pf 0x28 0)) u) ∧
    (∃ u, readDesc (lost (incoming 0 8 0)).segs.cs.sel (lost (incoming 0 8 0)) =
      .error (.exc (.pf 8 0)) u) ∧
    (∃ u, readDesc (lost (incoming 0 0 0x10)).segs.ss.sel (lost (incoming 0 0 0x10)) =
      .error (.exc (.pf 0x10 0)) u) ∧
    (∃ u, readDesc ((lost (incomingData 0x23)).segs.get .gs).sel (lost (incomingData 0x23)) =
      .error (.exc (.pf 0x20 0)) u) ∧
    (readDesc 0x0008 (withBytes (incoming 0 8 0) 0x100E [0x8F]) =
        .ok (some ⟨0x0000FFFF, 0x008F9B00⟩) (withBytes (incoming 0 8 0) 0x100E [0x8F]) ∧
      (Desc.mk 0x0000FFFF 0x008F9B00).isCode = true ∧ (Desc.mk 0x0000FFFF 0x008F9B00).dpl = kernel.cpl ∧
      (Desc.mk 0x0000FFFF 0x008F9B00).present = true ∧ (Desc.mk 0x0000FFFF 0x008F9B00).big = false) ∧
    (readDesc 0x0010 (withBytes (incoming 0 0 0x10) 0x1016 [0x8F]) =
        .ok (some ⟨0x0000FFFF, 0x008F9300⟩) (withBytes (incoming 0 0 0x10) 0x1016 [0x8F]) ∧
      (Desc.mk 0x0000FFFF 0x008F9300).writable = true ∧ (Desc.mk 0x0000FFFF 0x008F9300).dpl = kernel.cpl ∧
      (Desc.mk 0x0000FFFF 0x008F9300).present = true ∧ (Desc.mk 0x0000FFFF 0x008F9300).big = false) :=
  ⟨stop_end (by decide +kernel), stop_end (by decide +kernel), stop_end (by decide +kernel),
    stop_end (by decide +kernel),
    ⟨ok_at (by decide +kernel), by decide, by decide, by decide, by decide⟩,
    ok_at (by decide +kernel), by decide, by decide, by decide, by decide⟩

end Sys2Proof.Tests
end

/-! Exceptions are precise (R4, R352). A meaning is cut where it first writes: before the cut it only reads
(`Reads`), after it nothing stops (`Answers`), so that a stop finds the registers and memory as they were.
The one operation that stops after its writes is the task switch, in its step 5: `SwitchRaises` says of it
what the statement asks for. `Precise` is the property that composes, one lemma for each operation. -/

namespace Sys2Proof.Machine

open Sys2Proof

variable {α β : Type}

/-! ## How a sequence and a meaning stop -/

/-- A sequence that stopped did so in its first piece, or its first piece answered and then the rest did. -/
theorem bind_eq_error {m : Exec α} {f : α → Exec β} {s t : State} {e : Stop}
    (h : (m >>= f) s = .error e t) : m s = .error e t ∨ ∃ a u, m s = .ok a u ∧ f a u = .error e t := by
  rw [run_bind] at h
  split at h
  · exact .inr ⟨_, _, by assumption, h⟩
  · cases h; exact .inl (by assumption)

/-- Taking an exception ends the run only with that exception, in the state it was raised in (R355). -/
theorem takeException_eq_exception {e x : Exception} {s t : State}
    (h : takeException e s = .fault (.exception x t)) : e = x ∧ s = t := by
  unfold takeException at h
  split at h
  · split at h
    · cases h
    · cases h
    · split at h <;> cases h
  · unfold State.endRun at h
    split at h
    · cases h; exact ⟨rfl, rfl⟩
    · cases h

/-- A meaning that ends the run with an exception raised it (R355). -/
theorem conclude_eq_exception {m : Exec Unit} {s t : State} {x : Exception}
    (h : conclude m s = .fault (.exception x t)) : m s = .error (.exc x) t := by
  unfold conclude at h
  split at h
  · cases h
  · obtain ⟨rfl, rfl⟩ := takeException_eq_exception h
    assumption
  · cases h

/-! ## Operations that never stop -/

/-- The operation answers from every state. -/
structure Answers (m : Exec α) : Prop where
  ne_error : ∀ s e t, m s ≠ .error e t

theorem Answers.post {m : Exec α} (h : Answers m) (s : State) :
    Post m s (fun _ _ => True) (fun _ _ => False) := by
  unfold Post
  split
  · trivial
  · exact h.ne_error _ _ _ ‹_›

theorem answers_pure (a : α) : Answers (pure a : Exec α) := ⟨fun _ _ _ h => by cases h⟩

theorem answers_update (f : State → State) : Answers (update f) := ⟨fun _ _ _ h => by cases h⟩

theorem answers_bind {m : Exec α} {f : α → Exec β} (hm : Answers m) (hf : ∀ a, Answers (f a)) :
    Answers (m >>= f) := ⟨fun _ _ _ h => by
  obtain h | ⟨a, u, -, h⟩ := bind_eq_error h
  · exact hm.ne_error _ _ _ h
  · exact (hf a).ne_error _ _ _ h⟩

theorem answers_getState_bind {f : State → Exec β} (hf : ∀ s, Answers (f s)) : Answers (getState >>= f) :=
  ⟨fun s => (hf s).ne_error s⟩

theorem answers_readPhys (ps : List Nat) : Answers (readPhys ps) :=
  answers_getState_bind fun _ => answers_bind (answers_update _) fun _ => answers_pure _

theorem answers_changeAccessByte (f : Byte → Byte) (at_ : Nat × Nat) : Answers (changeAccessByte f at_) :=
  answers_bind (answers_readPhys _) fun _ => answers_update _

theorem answers_changeAccessByteIf (f : Byte → Byte) (at_ : Option (Nat × Nat)) :
    Answers (changeAccessByteIf f at_) := by
  cases at_ with
  | none => exact answers_pure _
  | some a => exact answers_changeAccessByte f a

theorem answers_ite {c : Prop} [Decidable c] {a b : Exec α} (ha : Answers a) (hb : Answers b) :
    Answers (if c then a else b) := by
  split <;> assumption

theorem answers_advance : Answers advance := answers_update _

theorem answers_update_advance (f : State → State) : Answers (update f >>= fun _ => advance) :=
  answers_bind (answers_update _) fun _ => answers_advance

theorem answers_drawFlags_advance : Answers (drawFlags >>= fun _ => advance) := answers_update_advance _

theorem answers_update_drawFlags_advance (f : State → State) :
    Answers (update f >>= fun _ => drawFlags >>= fun _ => advance) :=
  answers_bind (answers_update _) fun _ => answers_drawFlags_advance

/-! ## The task switch after its checks -/

/-- Steps 3 to 5 of a task switch, what it does once its checks have passed (R299 to R303). -/
def commitSwitch (cause : SwitchCause) (tsel : Word) (retEip : Dword) (d : Desc) (pages : SwitchPages) :
    Exec Bool := do
  saveOutgoing cause retEip pages.saved
  linkTasks tsel d pages
  loadIncoming cause pages.image

/-- A task switch is its checks and then `commitSwitch` (R300). -/
theorem taskSwitch_eq_commitSwitch (cause : SwitchCause) (tsel : Word) (retEip : Dword) :
    taskSwitch cause tsel retEip = (do
      let d ← incomingTss cause tsel
      let pages ← prepareSwitch cause tsel d
      commitSwitch cause tsel retEip d pages) := rfl

/-- Step 4 sets TS and does not stop (R302). -/
theorem linkTasks_post_ts (tsel : Word) (d : Desc) (pages : SwitchPages) (s : State) :
    Post (linkTasks tsel d pages) s (fun _ t => t.ctl.cr0.getLsbD bitTS = true) (fun _ _ => False) := by
  unfold linkTasks
  refine post_getState_bind ?_
  refine post_seq ((answers_changeAccessByteIf ..).post s) (fun _ u _ => ?_) (fun _ _ h => h)
  refine post_seq ((answers_changeAccessByteIf ..).post u) (fun _ v _ => ?_) (fun _ _ h => h)
  refine post_update ?_
  rw [withBit_getLsbD _ _ _ _ (by decide), if_pos rfl]

/-- What keeps the system registers keeps TS where it is set. -/
theorem Kept.ts {s t : State} (h : Kept s t) (hs : s.ctl.cr0.getLsbD bitTS = true) :
    t.ctl.cr0.getLsbD bitTS = true := by
  obtain h | h := h.cr0
  · rw [h, hs]
  · rw [h, withBit_getLsbD _ _ _ _ (by decide), if_pos rfl]

/-- However a task switch ends after its checks, TS is set (R302, R304). -/
theorem commitSwitch_post_ts (cause : SwitchCause) (tsel : Word) (retEip : Dword) (d : Desc)
    (pages : SwitchPages) (s : State) :
    Post (commitSwitch cause tsel retEip d pages) s (fun _ t => t.ctl.cr0.getLsbD bitTS = true)
      (fun _ t => t.ctl.cr0.getLsbD bitTS = true) := by
  unfold commitSwitch
  refine post_seq ((answers_update _).post s) (fun _ u _ => ?_) (fun _ _ h => h.elim)
  refine post_seq (linkTasks_post_ts tsel d pages u) (fun _ v hv => ?_) (fun _ _ h => h.elim)
  exact ((kept_loadIncoming ..).post v).mono (fun _ _ h => h.ts hv) (fun _ _ h => h.ts hv)

theorem whileTaken_discarded {m : Exec Unit} {s t : State} (h : whileTaken m s = .ok () t) :
    t.discardPrefetch = t := by
  unfold whileTaken at h
  split at h <;> cases h
  rfl

/-- Step 5 leaves nothing prefetched (R112). -/
theorem loadIncoming_discarded {cause : SwitchCause} {ps : List Nat} {s t : State} {trap : Bool}
    (h : loadIncoming cause ps s = .ok trap t) : t.discardPrefetch = t := by
  obtain ⟨img, u, -, h⟩ := bind_eq_ok h
  split at h
  · cases h
  · obtain ⟨_, v, -, h⟩ := bind_eq_ok h
    obtain ⟨_, w, hw, hp⟩ := bind_eq_ok h
    obtain ⟨-, rfl⟩ := (EStateM.Result.ok.injEq ..).mp hp
    exact whileTaken_discarded hw

theorem taskSwitch_discarded {cause : SwitchCause} {tsel : Word} {retEip : Dword} {s t : State}
    {trap : Bool} (h : taskSwitch cause tsel retEip s = .ok trap t) : t.discardPrefetch = t := by
  obtain ⟨d, u, -, h⟩ := bind_eq_ok h
  obtain ⟨pages, v, -, h⟩ := bind_eq_ok h
  obtain ⟨_, w, -, h⟩ := bind_eq_ok h
  obtain ⟨_, x, -, h⟩ := bind_eq_ok h
  exact loadIncoming_discarded h

/-- Discarding the prefetched bytes after a task switch changes nothing (R112). -/
theorem taskSwitch_bind_discardPrefetch (cause : SwitchCause) (tsel : Word) (retEip : Dword) :
    (do
      let trap ← taskSwitch cause tsel retEip
      update (·.discardPrefetch)
      pure trap) = taskSwitch cause tsel retEip := by
  funext s
  rw [run_bind]
  split
  · next trap t h => rw [run_bind_update, run_pure, taskSwitch_discarded h, h]
  · next h => exact h.symm

/-! ## Precise stops -/

/-- From `s`, after reads, a task switch passed its checks, and `x` is the exception it raised in step 5 or
the one its T-bit asks for; `t` is the state then (R304, R305). -/
def SwitchRaises (cause : SwitchCause) (retEip : Dword) (s : State) (x : Exception) (t : State) : Prop :=
  ∃ tsel u d v pages w, s.ReadTo u ∧ incomingTss cause tsel u = .ok d v ∧
    prepareSwitch cause tsel d v = .ok pages w ∧ t.ctl.cr0.getLsbD bitTS = true ∧
    (taskSwitch cause tsel retEip u = .error (.exc x) t ∨
      taskSwitch cause tsel retEip u = .ok true t ∧ x = .db)

/-- The exception `x`, raised in the state `t`, found nothing written since `s`, or it is that of a task
switch by one of the causes `C`. -/
def PreciseAt (C : SwitchCause → Prop) (retEip : Dword) (s : State) (x : Exception) (t : State) : Prop :=
  s.StoppedBy (.exc x) t ∨ ∃ cause, C cause ∧ SwitchRaises cause retEip s x t

/-- Every exception of the operation is precise, where `retEip` is the offset of the next instruction. -/
structure Precise (C : SwitchCause → Prop) (retEip : Dword) (m : Exec α) : Prop where
  stop : ∀ s x t, s.nextEip = retEip → m s = .error (.exc x) t → PreciseAt C retEip s x t

/-- `Precise`, and so is the debug exception that the answer asks for (R305). -/
structure PreciseTrap (C : SwitchCause → Prop) (retEip : Dword) (m : Exec Bool) : Prop extends
    Precise C retEip m where
  trap : ∀ s t, s.nextEip = retEip → m s = .ok true t → PreciseAt C retEip s .db t

variable {C : SwitchCause → Prop} {ret : Dword}

theorem PreciseAt.after_read {s t u : State} {x : Exception} (h : s.ReadTo t)
    (k : PreciseAt C ret t x u) : PreciseAt C ret s x u := by
  obtain k | ⟨cause, hc, tsel, v, d, w, pages, y, hv, hrest⟩ := k
  · exact .inl (h.stoppedBy k)
  · exact .inr ⟨cause, hc, tsel, v, d, w, pages, y, h.trans hv, hrest⟩

/-- An operation that only reads is precise. -/
theorem Reads.precise {m : Exec α} (h : Reads m) : Precise C ret m :=
  ⟨fun _ _ _ _ r => .inl (h.stoppedBy r)⟩

/-- So is one that does not stop, whatever it writes. -/
theorem Answers.precise {m : Exec α} (h : Answers m) : Precise C ret m :=
  ⟨fun _ _ _ _ r => (h.ne_error _ _ _ r).elim⟩

theorem precise_raise (e : Exception) : Precise C ret (raise e : Exec α) := (reads_raise e).precise

theorem precise_refuse (r : Refusal) : Precise C ret (refuse r : Exec α) := (reads_refuse r).precise

theorem precise_update (f : State → State) : Precise C ret (update f) := (answers_update f).precise

/-- Before the first write: what follows operations that only read may stop. -/
theorem precise_reads_bind {m : Exec α} {f : α → Exec β} (hm : Reads m)
    (hf : ∀ a, Precise C ret (f a)) : Precise C ret (m >>= f) := ⟨fun s x t hs h => by
  obtain h | ⟨a, u, hu, h⟩ := bind_eq_error h
  · exact .inl (hm.stoppedBy h)
  · have hr := hm.of_ok hu
    exact ((hf a).stop u x t (hr.nextEip.trans hs) h).after_read hr⟩

/-- After the first write: what follows may not stop. -/
theorem precise_bind_answers {m : Exec α} {f : α → Exec β} (hm : Precise C ret m)
    (hf : ∀ a, Answers (f a)) : Precise C ret (m >>= f) := ⟨fun s x t hs h => by
  obtain h | ⟨a, u, -, h⟩ := bind_eq_error h
  · exact hm.stop s x t hs h
  · exact ((hf a).ne_error _ _ _ h).elim⟩

theorem precise_getState_bind {f : State → Exec β} (hf : ∀ s, s.nextEip = ret → Precise C ret (f s)) :
    Precise C ret (getState >>= f) := ⟨fun s x t hs h => (hf s hs).stop s x t hs h⟩

theorem precise_ite {c : Prop} [Decidable c] {a b : Exec α} (ha : Precise C ret a)
    (hb : Precise C ret b) : Precise C ret (if c then a else b) := by
  split <;> assumption

theorem precise_raise_bind (e : Exception) (f : α → Exec β) : Precise C ret (raise e >>= f) :=
  ⟨fun _ _ _ _ h => by cases h; exact .inl (.refl _ _)⟩

theorem precise_refuse_bind (r : Refusal) (f : α → Exec β) : Precise C ret (refuse r >>= f) :=
  ⟨fun _ _ _ _ h => by cases h⟩

/-! ## Stores and loads -/

theorem precise_writeBytes (user : Bool) (lin : Dword) (bs : List Byte) :
    Precise C ret (writeBytes user lin bs) :=
  precise_reads_bind (reads_prepareWrite ..) fun _ => precise_update _

theorem precise_segWrite (name : SegName) (off : Dword) (bs : List Byte) :
    Precise C ret (segWrite name off bs) :=
  precise_reads_bind (reads_segCheck ..) fun _ =>
    precise_getState_bind fun _ _ => precise_writeBytes ..

theorem precise_writeRM16 (x : RM) (v : Word) : Precise C ret (writeRM16 x v) := by
  cases x with
  | reg r => exact precise_update _
  | mem m => exact precise_getState_bind fun _ _ => precise_segWrite ..

theorem precise_pushAll (vs : List Dword) : Precise C ret (pushAll vs) :=
  precise_reads_bind (reads_preparePush vs) fun _ => precise_update _

theorem precise_setAccessed (sel : Word) (d : Desc) : Precise C ret (setAccessed sel d) :=
  precise_reads_bind (reads_prepareAccessed ..) fun _ => precise_update _

theorem precise_setBusy (sel : Word) : Precise C ret (setBusy sel) :=
  precise_reads_bind (reads_accessByteAddrs _) fun _ =>
    precise_reads_bind (reads_requireMemory _) fun _ => (answers_changeAccessByte ..).precise

theorem precise_loadDataSeg (name : SegName) (sel : Word) : Precise C ret (loadDataSeg name sel) := by
  refine precise_ite (precise_update _) <| precise_reads_bind (reads_readDescOr ..) fun d =>
    precise_getState_bind fun s _ => ?_
  refine precise_ite (precise_raise _) <| precise_ite (precise_raise _) <|
    precise_ite (precise_raise _) <| precise_ite (precise_raise _) ?_
  exact precise_bind_answers (precise_setAccessed ..) fun _ => answers_update _

theorem precise_loadSS (sel : Word) : Precise C ret (loadSS sel) := by
  refine precise_ite (precise_raise _) <| precise_reads_bind (reads_readDescOr ..) fun d =>
    precise_getState_bind fun s _ => ?_
  refine precise_ite (precise_raise _) <| precise_ite (precise_raise _) <|
    precise_ite (precise_raise _) <| precise_ite (precise_raise _) <| precise_ite (precise_refuse _) ?_
  exact precise_bind_answers (precise_setAccessed ..) fun _ => answers_update _

/-- A control register is written, or there is none of that number (R237). -/
theorem precise_writeCr (n : BitVec 3) (v : Dword) : Precise C ret (writeCr n v) := by
  unfold writeCr
  split
  · exact precise_ite (precise_update _) (precise_refuse _)
  · exact precise_update _
  · exact precise_update _
  · exact precise_raise _

/-! ## Transfers -/

theorem precise_nearJump (target : Dword) : Precise C ret (nearJump target) :=
  precise_reads_bind (reads_nearTarget _) fun _ => precise_update _

theorem precise_nearCall (target : Dword) : Precise C ret (nearCall target) :=
  precise_reads_bind (reads_nearTarget _) fun _ => precise_getState_bind fun _ _ =>
    precise_bind_answers (precise_pushAll _) fun _ => answers_update _

theorem precise_nearReturn (n : Word) : Precise C ret (nearReturn n) :=
  precise_getState_bind fun _ _ => precise_reads_bind (reads_segReadDword ..) fun _ =>
    precise_reads_bind (reads_nearTarget _) fun _ => precise_update _

theorem precise_enterCode (sel : Word) (d : Desc) (target : Dword) (pushed : List Host.Cell)
    (esp : Dword) : Precise C ret (enterCode sel d target pushed esp) :=
  precise_reads_bind (reads_require32 _) fun _ =>
    precise_reads_bind (reads_prepareAccessed ..) fun _ => precise_update _

theorem precise_pushAndEnter (sel : Word) (d : Desc) (target : Dword) (vs : List Dword) :
    Precise C ret (pushAndEnter sel d target vs) :=
  precise_reads_bind (reads_preparePush _) fun _ => precise_getState_bind fun _ _ => precise_enterCode ..

/-- Every check of an inward transfer comes before its stores (R352; assumption log entry 37). -/
theorem precise_innerTransfer (tsel : Word) (t : Desc) (target : Dword) (count : Nat)
    {frame : Exec (List Dword)} (hf : Reads frame) :
    Precise C ret (innerTransfer tsel t target count frame) := by
  refine precise_reads_bind (reads_innerStack _) fun ⟨nesp, nss, d⟩ => ?_
  refine precise_ite (precise_raise _) <| precise_ite (precise_raise _) <|
    precise_reads_bind hf fun vs => ?_
  exact precise_reads_bind (reads_prepareWrite ..) fun _ => precise_reads_bind (reads_require32 _) fun _ =>
    precise_reads_bind (reads_prepareAccessed ..) fun _ =>
    precise_reads_bind (reads_prepareAccessed ..) fun _ => precise_update _

theorem precise_sameLevelTransfer (kind : FarKind) (sel : Word) (d : Desc) (target : Dword) :
    Precise C ret (sameLevelTransfer kind sel d target) := by
  refine precise_getState_bind fun s _ => precise_ite (precise_raise _) <|
    precise_ite (precise_raise _) ?_
  cases kind with
  | jmp => exact precise_enterCode ..
  | call => exact precise_pushAndEnter ..

theorem precise_directTransfer (kind : FarKind) (sel : Word) (off : Dword) (d : Desc) :
    Precise C ret (directTransfer kind sel off d) :=
  precise_getState_bind fun _ _ => precise_ite (precise_raise _) <| precise_ite (precise_raise _) <|
    precise_ite (precise_raise _) (precise_sameLevelTransfer ..)

theorem precise_gateTransfer (kind : FarKind) (sel : Word) (g : Desc) :
    Precise C ret (gateTransfer kind sel g) := by
  refine precise_getState_bind fun s _ => precise_ite (precise_raise _) <|
    precise_ite (precise_raise _) <| precise_reads_bind (reads_gateTarget _) fun t => ?_
  cases kind with
  | jmp =>
    exact precise_ite (precise_raise _) <| precise_ite (precise_raise _) (precise_sameLevelTransfer ..)
  | call =>
    exact precise_ite (precise_raise _) <| precise_ite (precise_raise _) <|
      precise_ite (precise_innerTransfer _ _ _ _ (reads_callFrame _)) (precise_sameLevelTransfer ..)

theorem precise_returnSame (rcs : Word) (d : Desc) (reip esp : Dword) :
    Precise C ret (returnSame rcs d reip esp) :=
  precise_getState_bind fun _ _ => precise_ite (precise_raise _) <|
    precise_reads_bind (reads_require32 _) fun _ =>
    precise_bind_answers (precise_setAccessed ..) fun _ => answers_update _

theorem precise_returnOuter (rcs : Word) (d : Desc) (reip : Dword) (off : Nat) (n : Word) :
    Precise C ret (returnOuter rcs d reip off n) := by
  refine precise_getState_bind fun s _ => precise_ite (precise_raise _) <|
    precise_reads_bind (reads_segReadDword ..) fun _ =>
    precise_reads_bind (reads_segReadDword ..) fun _ =>
    precise_reads_bind (reads_returnSS ..) fun _ => precise_ite (precise_raise _) ?_
  exact precise_reads_bind (reads_require32 _) fun _ =>
    precise_reads_bind (reads_prepareAccessed ..) fun _ =>
    precise_reads_bind (reads_prepareAccessed ..) fun _ => precise_update _

theorem precise_farReturn (n : Word) : Precise C ret (farReturn n) :=
  precise_getState_bind fun _ _ => precise_ite (precise_raise _) <|
    precise_reads_bind (reads_segReadDword ..) fun _ =>
    precise_reads_bind (reads_segReadDword ..) fun _ =>
    precise_reads_bind (reads_returnCS _) fun _ =>
    precise_ite (precise_returnOuter ..) (precise_returnSame ..)

/-- The flags of a return from an exception are written when nothing can stop any more (R358). -/
theorem precise_interruptReturn : Precise C ret interruptReturn := by
  refine precise_getState_bind fun s _ => precise_ite (precise_raise _) <|
    precise_reads_bind (reads_segReadDword ..) fun _ =>
    precise_reads_bind (reads_segReadDword ..) fun _ =>
    precise_reads_bind (reads_segReadDword ..) fun _ =>
    precise_reads_bind (reads_returnCS _) fun _ => precise_ite (precise_refuse _) ?_
  exact precise_ite (precise_bind_answers (precise_returnOuter ..) fun _ => answers_update _)
    (precise_bind_answers (precise_returnSame ..) fun _ => answers_update _)

theorem precise_enterGate (g : Desc) (code : Option Dword) (retEip : Dword) :
    Precise C ret (enterGate g code retEip) := by
  refine precise_getState_bind fun s _ => precise_reads_bind (reads_gateTarget _) fun t =>
    precise_ite (precise_raise _) <| precise_ite (precise_raise _) ?_
  refine precise_ite ?_ <| precise_ite (precise_raise_bind _ _) ?_
  · exact precise_bind_answers (precise_innerTransfer _ _ _ _ (reads_pure _)) fun _ => answers_update _
  · exact precise_bind_answers (precise_pushAndEnter ..) fun _ => answers_update _

/-! ## Task switches -/

/-- A task switch that stops in its checks has written nothing; one that stops later, or ends with the T-bit
set, is a `SwitchRaises` (R304, R305). -/
theorem preciseTrap_taskSwitch {cause : SwitchCause} (hC : C cause) (tsel : Word) :
    PreciseTrap C ret (taskSwitch cause tsel ret) where
  stop s x t _ h := by
    have hs := h
    rw [taskSwitch_eq_commitSwitch] at hs
    obtain hd | ⟨d, u, hd, hs⟩ := bind_eq_error hs
    · exact .inl ((reads_incomingTss ..).stoppedBy hd)
    obtain hp | ⟨pages, w, hp, hs⟩ := bind_eq_error hs
    · exact .inl (((reads_incomingTss ..).of_ok hd).stoppedBy ((reads_prepareSwitch ..).stoppedBy hp))
    · exact .inr ⟨cause, hC, tsel, s, d, u, pages, w, .refl s, hd, hp,
        (commitSwitch_post_ts ..).of_error hs, .inl h⟩
  trap s t _ h := by
    have hs := h
    rw [taskSwitch_eq_commitSwitch] at hs
    obtain ⟨d, u, hd, hs⟩ := bind_eq_ok hs
    obtain ⟨pages, w, hp, hs⟩ := bind_eq_ok hs
    exact .inr ⟨cause, hC, tsel, s, d, u, pages, w, .refl s, hd, hp,
      (commitSwitch_post_ts ..).of_ok hs, .inr ⟨h, rfl⟩⟩

/-- An operation that asks for no debug trap. -/
theorem Precise.bind_pure_false {m : Exec Unit} (h : Precise C ret m) :
    PreciseTrap C ret (m >>= fun _ => pure false) where
  toPrecise := precise_bind_answers h fun _ => answers_pure _
  trap _ _ _ r := by
    obtain ⟨_, _, -, r⟩ := bind_eq_ok r
    cases r

theorem preciseTrap_reads_bind {m : Exec α} {f : α → Exec Bool} (hm : Reads m)
    (hf : ∀ a, PreciseTrap C ret (f a)) : PreciseTrap C ret (m >>= f) where
  toPrecise := precise_reads_bind hm fun a => (hf a).toPrecise
  trap s t hs h := by
    obtain ⟨a, u, hu, h⟩ := bind_eq_ok h
    have hr := hm.of_ok hu
    exact ((hf a).trap u t (hr.nextEip.trans hs) h).after_read hr

/-- INT through a task gate is a task switch; through another gate no trap is due (R293). -/
theorem preciseTrap_deliver (hC : C .int) (n : Nat) (software : Bool) :
    PreciseTrap C ret (deliver n none ret software) := by
  refine preciseTrap_reads_bind (reads_idtGate ..) fun g => ?_
  split
  · have h := preciseTrap_taskSwitch (ret := ret) hC g.gateSelector
    rw [← taskSwitch_bind_discardPrefetch] at h
    exact h
  · exact (precise_enterGate ..).bind_pure_false

/-- DB is raised where the answer asks for it (R305). -/
theorem PreciseTrap.raise_db {m : Exec Bool} (h : PreciseTrap C ret m) :
    Precise C ret (m >>= fun trap => if trap then raise .db else pure ()) := ⟨fun s x t hs r => by
  obtain r | ⟨trap, u, hu, r⟩ := bind_eq_error r
  · exact h.stop s x t hs r
  · cases trap <;> cases r
    exact h.trap s _ hs hu⟩

theorem precise_switchByInstruction {cause : SwitchCause} (hC : C cause) (tsel : Word) :
    Precise C ret (switchByInstruction cause tsel) :=
  precise_getState_bind fun _ hs => hs ▸ (preciseTrap_taskSwitch hC tsel).raise_db

theorem precise_tssTransfer {kind : FarKind} (hC : C kind.cause) (sel : Word) (d : Desc) :
    Precise C ret (tssTransfer kind sel d) :=
  precise_getState_bind fun _ _ => precise_ite (precise_raise _) <| precise_ite (precise_raise _)
    (precise_switchByInstruction hC _)

theorem precise_taskGateTransfer {kind : FarKind} (hC : C kind.cause) (sel : Word) (g : Desc) :
    Precise C ret (taskGateTransfer kind sel g) :=
  precise_getState_bind fun _ _ => precise_ite (precise_raise _) <| precise_ite (precise_raise _)
    (precise_switchByInstruction hC _)

theorem precise_farTransfer {kind : FarKind} (hC : C kind.cause) (sel : Word) (off : Dword) :
    Precise C ret (farTransfer kind sel off) := by
  refine precise_ite (precise_raise _) <| precise_reads_bind (reads_readDescOr ..) fun d =>
    precise_ite (precise_directTransfer ..) <| precise_ite (precise_raise _) ?_
  split
  · exact precise_gateTransfer ..
  · exact precise_taskGateTransfer hC ..
  · exact precise_tssTransfer hC ..
  · exact precise_tssTransfer hC ..
  · exact precise_refuse _
  · exact precise_refuse _
  · exact precise_refuse _
  · exact precise_raise _

/-! ## Every instruction -/

/-- The exceptions that end a run are those of the meaning. -/
theorem Precise.conclude {m : Exec Unit} {s t : State} {x : Exception} (hm : Precise C s.nextEip m)
    (h : conclude m s = .fault (.exception x t)) : PreciseAt C s.nextEip s x t :=
  hm.stop s x t rfl (conclude_eq_exception h)

/-- A privileged instruction that reads its operand and then writes a register (R231). -/
theorem precise_privileged_write {m : Exec α} (hm : Reads m) (f : α → State → State) :
    Precise C ret (do privileged; let a ← m; update (f a); advance) :=
  precise_reads_bind reads_privileged fun _ => precise_reads_bind hm fun _ =>
    (answers_update_advance _).precise

/-- An instruction that looks up the descriptor its operand selects and then only writes (R261 to R264). -/
theorem precise_lookup_write (src : RM) {f : Word → Option Desc → Exec Unit}
    (hf : ∀ sel d, Answers (f sel d)) :
    Precise C ret (do let sel ← readRM16 src; let d ← lookupDesc sel; f sel d) :=
  precise_reads_bind (reads_readRM16 src) fun _ => precise_reads_bind (reads_lookupDesc _) fun _ =>
    (hf ..).precise

section Instructions

variable {s t : State} {x : Exception}

/-- CS and the numbers 6 and 7 raise UD after the operand was read; a load stops before it writes (R170). -/
theorem execMovSreg_precise {sreg : BitVec 3} {src : RM}
    (h : execMovSreg sreg src s = .fault (.exception x t)) : PreciseAt C s.nextEip s x t := by
  refine Precise.conclude (precise_reads_bind (reads_readRM16 src) fun sel => ?_) h
  dsimp only
  split
  · exact precise_raise_bind ..
  · exact precise_raise_bind ..
  · exact precise_bind_answers (precise_loadSS _) fun _ => answers_advance
  · exact precise_bind_answers (precise_loadDataSeg ..) fun _ => answers_advance

theorem execLldt_precise {src : RM} (h : execLldt src s = .fault (.exception x t)) :
    PreciseAt C s.nextEip s x t := by
  refine Precise.conclude (precise_reads_bind reads_privileged fun _ =>
    precise_reads_bind (reads_readRM16 src) fun sel => ?_) h
  refine precise_ite (answers_update_advance _).precise <| precise_ite (precise_raise_bind ..) <|
    precise_reads_bind (reads_readDescOr ..) fun d => ?_
  exact precise_ite (precise_raise_bind ..) <| precise_ite (precise_raise_bind ..)
    (answers_update_advance _).precise

theorem execLtr_precise {src : RM} (h : execLtr src s = .fault (.exception x t)) :
    PreciseAt C s.nextEip s x t := by
  refine Precise.conclude (precise_reads_bind reads_privileged fun _ =>
    precise_reads_bind (reads_readRM16 src) fun sel => ?_) h
  refine precise_ite (precise_raise_bind ..) <| precise_ite (precise_raise_bind ..) <|
    precise_reads_bind (reads_readDescOr ..) fun d => ?_
  refine precise_ite (precise_raise_bind ..) <| precise_ite (precise_refuse_bind ..) <|
    precise_ite (precise_raise_bind ..) <| precise_ite (precise_raise_bind ..) ?_
  exact precise_bind_answers (precise_setBusy _) fun _ => answers_update_advance _

/-! The moves to and from the special registers raise UD, or are refused, before they write (R237 to R242). -/

theorem execMovFromCr_precise {dst : Reg} {n : BitVec 3}
    (h : execMovFromCr dst n s = .fault (.exception x t)) : PreciseAt C s.nextEip s x t := by
  refine (precise_reads_bind reads_privileged fun _ => ?_).conclude h
  dsimp only
  split
  · exact (answers_update_drawFlags_advance _).precise
  · exact precise_raise_bind ..

theorem execMovToDr_precise {n : BitVec 3} {src : Reg}
    (h : execMovToDr n src s = .fault (.exception x t)) : PreciseAt C s.nextEip s x t := by
  refine (precise_reads_bind reads_privileged fun _ => ?_).conclude h
  dsimp only
  split
  · exact (answers_update_drawFlags_advance _).precise
  · exact precise_refuse_bind ..

theorem execMovFromDr_precise {dst : Reg} {n : BitVec 3}
    (h : execMovFromDr dst n s = .fault (.exception x t)) : PreciseAt C s.nextEip s x t := by
  refine (precise_reads_bind reads_privileged fun _ => ?_).conclude h
  dsimp only
  split
  · exact (answers_update_drawFlags_advance _).precise
  · exact precise_refuse_bind ..

theorem execMovToTr_precise {n : BitVec 3} {src : Reg}
    (h : execMovToTr n src s = .fault (.exception x t)) : PreciseAt C s.nextEip s x t := by
  refine (precise_reads_bind reads_privileged fun _ => ?_).conclude h
  dsimp only
  split
  · exact (answers_update_drawFlags_advance _).precise
  · exact precise_raise_bind ..

theorem execMovFromTr_precise {dst : Reg} {n : BitVec 3}
    (h : execMovFromTr dst n s = .fault (.exception x t)) : PreciseAt C s.nextEip s x t := by
  refine (precise_reads_bind reads_privileged fun _ => ?_).conclude h
  dsimp only
  split
  · exact (answers_update_drawFlags_advance _).precise
  · exact precise_raise_bind ..

/-- The write of ARPL stops before it stores, and ZF comes after it (R260). -/
theorem execArpl_precise {dst : RM} {src : Reg} (h : execArpl dst src s = .fault (.exception x t)) :
    PreciseAt C s.nextEip s x t := by
  refine Precise.conclude (precise_reads_bind (reads_checkWritableRM16 dst) fun _ =>
    precise_reads_bind (reads_readRM16 dst) fun a => ?_) h
  exact precise_ite
    (precise_bind_answers (precise_writeRM16 ..) fun _ => answers_update_advance _)
    (answers_update_advance _).precise

theorem execLar_precise {dst : Reg} {src : RM} (h : execLar dst src s = .fault (.exception x t)) :
    PreciseAt C s.nextEip s x t := by
  refine Precise.conclude (precise_lookup_write src fun sel d => ?_) h
  cases d with
  | none => exact answers_update_advance _
  | some d =>
    exact answers_ite (answers_bind (answers_update _) fun _ => answers_update_advance _)
      (answers_update_advance _)

theorem execLsl_precise {dst : Reg} {src : RM} (h : execLsl dst src s = .fault (.exception x t)) :
    PreciseAt C s.nextEip s x t := by
  refine Precise.conclude (precise_lookup_write src fun sel d => ?_) h
  cases d with
  | none => exact answers_update_advance _
  | some d =>
    exact answers_ite (answers_bind (answers_update _) fun _ => answers_update_advance _)
      (answers_update_advance _)

theorem execVerr_precise {src : RM} (h : execVerr src s = .fault (.exception x t)) :
    PreciseAt C s.nextEip s x t := by
  refine Precise.conclude (precise_lookup_write src fun sel d => ?_) h
  cases d <;> exact answers_update_advance _

theorem execVerw_precise {src : RM} (h : execVerw src s = .fault (.exception x t)) :
    PreciseAt C s.nextEip s x t := by
  refine Precise.conclude (precise_lookup_write src fun sel d => ?_) h
  cases d <;> exact answers_update_advance _

/-- IRET switches tasks where NT is set (R291, R292). -/
theorem execIret_precise (hC : C .iret) (h : execIret s = .fault (.exception x t)) :
    PreciseAt C s.nextEip s x t :=
  Precise.conclude (precise_ite
    (precise_reads_bind (reads_sysRead ..) fun _ => precise_switchByInstruction hC _)
    precise_interruptReturn) h

/-- The exceptions of every instruction are precise, the tasks switched being those it may switch. -/
theorem exec_precise {i : Instr} (h : exec i s = .fault (.exception x t)) :
    PreciseAt (SwitchesTasks i) s.nextEip s x t := by
  cases i with
  | movSreg sreg src => exact execMovSreg_precise h
  | jmpRel8 rel => exact (precise_nearJump _).conclude h
  | jmpRel32 rel => exact (precise_nearJump _).conclude h
  | jmpRm target =>
    exact (precise_reads_bind (reads_readRM32 target) fun _ => precise_nearJump _).conclude h
  | jmpFar sel off => exact (precise_farTransfer (.inl ⟨sel, off, rfl⟩) ..).conclude h
  | jmpFarMem ptr =>
    exact (precise_reads_bind (reads_readFarPointer ptr) fun _ =>
      precise_farTransfer (.inr ⟨ptr, rfl⟩) ..).conclude h
  | callRel32 rel => exact (precise_nearCall _).conclude h
  | callRm target =>
    exact (precise_reads_bind (reads_readRM32 target) fun _ => precise_nearCall _).conclude h
  | callFar sel off => exact (precise_farTransfer (.inl ⟨sel, off, rfl⟩) ..).conclude h
  | callFarMem ptr =>
    exact (precise_reads_bind (reads_readFarPointer ptr) fun _ =>
      precise_farTransfer (.inr ⟨ptr, rfl⟩) ..).conclude h
  | ret => exact (precise_nearReturn _).conclude h
  | retImm n => exact (precise_nearReturn _).conclude h
  | retf => exact (precise_farReturn _).conclude h
  | retfImm n => exact (precise_farReturn _).conclude h
  | int vector => exact (preciseTrap_deliver ⟨vector, rfl⟩ ..).raise_db.conclude h
  | iret => exact execIret_precise rfl h
  | clts =>
    exact (precise_reads_bind reads_privileged fun _ => (answers_update_advance _).precise).conclude h
  | hlt =>
    exact (precise_reads_bind reads_privileged fun _ =>
      (answers_bind answers_advance fun _ => answers_update _).precise).conclude h
  | lgdt src => exact (precise_privileged_write (reads_readTableOperand src) _).conclude h
  | lidt src => exact (precise_privileged_write (reads_readTableOperand src) _).conclude h
  | lldt src => exact execLldt_precise h
  | lmsw src => exact (precise_privileged_write (reads_readRM16 src) _).conclude h
  | ltr src => exact execLtr_precise h
  | str dst => exact (precise_bind_answers (precise_writeRM16 ..) fun _ => answers_advance).conclude h
  | movFromCr dst n => exact execMovFromCr_precise h
  | movToCr n src =>
    exact (precise_reads_bind reads_privileged fun _ =>
      precise_bind_answers (precise_writeCr ..) fun _ => answers_drawFlags_advance).conclude h
  | movFromDr dst n => exact execMovFromDr_precise h
  | movToDr n src => exact execMovToDr_precise h
  | movFromTr dst n => exact execMovFromTr_precise h
  | movToTr n src => exact execMovToTr_precise h
  | arpl dst src => exact execArpl_precise h
  | lar dst src => exact execLar_precise h
  | lsl dst src => exact execLsl_precise h
  | verr src => exact execVerr_precise h
  | verw src => exact execVerw_precise h

end Instructions

/-- Settles O13: every instruction reads and checks before it writes, but for the task switch. -/
theorem exceptionsArePrecise : Obligations.ExceptionsArePrecise := by
  intro i s t e _ h
  obtain ⟨hs, hcr2⟩ | ⟨cause, hi, tsel, u, d, v, pages, w, hu, hd, hp, hts, hrun⟩ := exec_precise h
  · exact .inl ⟨hs, hcr2.imp_right fun ⟨c, hc⟩ => ⟨c, Stop.exc.inj hc⟩⟩
  · exact .inr ⟨cause, tsel, u, d, v, pages, w, hi, hu, hd, hp, hts, hrun⟩

end Sys2Proof.Machine

/-! What every step keeps. `step_eq_next` says once how a step gets to its next state: by taking an exception
or by running an instruction, from a state that the fetch only read. `AllowsRegisters` lists every change that
the instructions make which load no segment register, and `runs_of_not_loadsSegments` walks through these
instructions once, for any relation that allows the changes. `Upheld` is the first of these relations: the
parameters, the form of memory and the fixed bits of the control state (R33, R34, R36, R391). -/

namespace Sys2Proof.Machine

open Sys2Proof

variable {R : State → State → Prop} {α β : Type}

/-! ## Fetching only accesses memory -/

theorem keeps_fetchLimit (h : Composes R) (n : Nat) : Keeps R (fetchLimit n) :=
  keeps_bind h (keeps_getState h) fun _ =>
    keeps_ite (keeps_raise h _) (keeps_ite (keeps_raise h _) (keeps_pure h _))

theorem keeps_fetchBytes (h : AllowsAccess R) (k n : Nat) : Keeps R (fetchBytes k n) :=
  have hc := h.toComposes
  keeps_bind hc (keeps_getState hc) fun _ => keeps_bind hc (keeps_translateRange h ..) fun _ =>
    keeps_bind hc (keeps_getState hc) fun _ => keeps_ite (keeps_refuse hc _) (keeps_readPhys h _)

theorem keeps_fetchFrom (h : AllowsAccess R) (bytes : List Byte) (fuel : Nat) :
    Keeps R (fetchFrom bytes fuel) := by
  have hc := h.toComposes
  induction fuel generalizing bytes with
  | zero =>
    unfold fetchFrom
    split
    · exact keeps_raise hc _
    · exact keeps_pure hc _
  | succ fuel ih =>
    unfold fetchFrom
    split
    · exact keeps_ite (keeps_raise hc _) <| keeps_bind hc (keeps_fetchLimit hc _) fun _ =>
        keeps_bind hc (keeps_fetchBytes h ..) fun _ => ih _
    · exact keeps_pure hc _

theorem keeps_fetch (h : AllowsAccess R) : Keeps R fetch := keeps_fetchFrom h _ _

/-! ## How a step gets to its next state -/

/-- A step that has a next state took an exception, or ran an instruction, from a state that the fetch
left. -/
theorem step_eq_next {s t : State} (h : step s = .next t) :
    ∃ u, Accessed { s with draws := s.draws + 1 } u ∧
      ((∃ e d, takeException e { u with debugTrap := d } = .next t) ∨
        ∃ i n, exec i { u with nextEip := n } = .next t) := by
  have hf := keeps_fetch allowsAccess_accessed
  unfold step at h
  split at h
  · exact (State.endRun_ne_next _ _ _ h).elim
  · exact (State.endRun_ne_next _ _ _ h).elim
  unfold runStep at h
  split at h
  · cases h
  split at h
  · exact ⟨_, accessed_refl _, .inl ⟨.db, false, h⟩⟩
  split at h
  case h_1 e u hu => exact ⟨u, hf.of_error hu, .inl ⟨e, u.debugTrap, h⟩⟩
  case h_3 u hu => exact ⟨u, hf.of_ok hu, .inl ⟨.ud, u.debugTrap, h⟩⟩
  case h_6 i len u hu => exact ⟨u, hf.of_ok hu, .inr ⟨i, _, h⟩⟩
  all_goals cases h

/-! ## The instructions that load no segment register -/

/-- The relation allows the changes that instructions make, but for those of the segment registers, CPL and
TR; of EFLAGS, CR0 and CR3 it allows those that keep their form (R25, R33, R34). -/
structure AllowsRegisters (R : State → State → Prop) : Prop extends AllowsAccess R where
  registers : ∀ (s : State) (x : Regs) (e n : Dword) (l : LdtReg) (q : List Dword) (a : Activity) (d : Bool),
    R s { s with
      regs := x, eip := e, nextEip := n, ldtr := l, storedAhead := q, activity := a, debugTrap := d }
  flags : ∀ (s : State) (fl : Dword), (FlagsOK s.eflags → FlagsOK fl) → R s { s with eflags := fl }
  tables : ∀ (s : State) (g i : TableReg), R s { s with gdtr := g, idtr := i }
  control : ∀ (s : State) (c : ControlRegs) (u : Bool) (p : List Memory), (Cr0OK s.ctl.cr0 → Cr0OK c.cr0) →
    (cr3Of s.ctl.cr3 = s.ctl.cr3 → cr3Of c.cr3 = c.cr3) →
    R s { s with ctl := c, tablesUsed := u, pastMemory := p }

/-- A check that stops the meaning here, whatever would follow (R10). -/
theorem keeps_raise_bind (h : Composes R) (e : Exception) (f : α → Exec β) : Keeps R (raise e >>= f) :=
  ⟨fun s => h.refl s⟩

theorem keeps_refuse_bind (h : Composes R) (r : Refusal) (f : α → Exec β) : Keeps R (refuse r >>= f) :=
  ⟨fun s => h.refl s⟩

/-- The check of a privileged instruction leaves the state as it was (R231). -/
theorem post_privileged_bind {f : Unit → Exec β} {s : State} {Q : β → State → Prop}
    {E : Stop → State → Prop} (hf : Post (f ()) s Q E) (he : E (.exc (.gp 0)) s) :
    Post (privileged >>= f) s Q E := by
  unfold Post
  by_cases h : s.cpl = 0
  · rw [run_bind_ok (privileged_ok h)]; exact hf
  · rw [run_bind_error (privileged_raises h)]; exact he

/-- A debug register is written; CR0 and CR3 are not (R239). -/
theorem ControlRegs.setDr_cr {c c' : ControlRegs} {n : BitVec 3} {v : Dword}
    (h : c.setDr n v = some c') : c'.cr0 = c.cr0 ∧ c'.cr3 = c.cr3 := by
  unfold ControlRegs.setDr at h
  split at h <;> cases h <;> exact ⟨rfl, rfl⟩

theorem ControlRegs.setTestReg_cr {c c' : ControlRegs} {n : BitVec 3} {v : Dword}
    (h : c.setTestReg n v = some c') : c'.cr0 = c.cr0 ∧ c'.cr3 = c.cr3 := by
  unfold ControlRegs.setTestReg at h
  split at h <;> cases h <;> exact ⟨rfl, rfl⟩

/-- The instruction runs a meaning that leaves the state in the relation to where it began, whether it
answers or stops. -/
def Runs (R : State → State → Prop) (i : Instr) (s : State) : Prop :=
  ∃ m : Exec Unit, exec i s = conclude m s ∧ Post m s (fun _ t => R s t) (fun _ t => R s t)

/-- The instructions that may load CS, SS, a data-segment register or TR: MOV Sreg, the far transfers, INT,
IRET and LTR. -/
def loadsSegments : Instr → Bool
  | .movSreg _ _ => true
  | .jmpFar _ _ => true
  | .jmpFarMem _ => true
  | .callFar _ _ => true
  | .callFarMem _ => true
  | .retf => true
  | .retfImm _ => true
  | .int _ => true
  | .iret => true
  | .ltr _ => true
  | _ => false

section Walk

variable (h : AllowsRegisters R)
include h

theorem keeps_advance : Keeps R advance := keeps_update fun s => h.registers s s.regs s.nextEip _ _ _ _ _

theorem keeps_setReg (r : Reg) (v : Dword) : Keeps R (setReg r v) :=
  keeps_update fun s => h.registers s _ _ _ _ _ _ _

theorem keeps_jumpTo (target : Dword) : Keeps R (update (·.jumpTo target)) :=
  keeps_update fun s => h.registers s s.regs target _ _ [] _ _

theorem keeps_pushAll (vs : List Dword) : Keeps R (pushAll vs) :=
  keeps_bind h.toComposes (keeps_preparePush h.toAllowsAccess vs) fun cells =>
    keeps_update fun s => h.trans s _ _ (h.store s cells)
      (h.registers (s.store cells) { s.regs with esp := s.regs.pushed vs.length } _ _ _ _ _ _)

theorem keeps_writeRM16 (x : RM) (v : Word) : Keeps R (writeRM16 x v) := by
  cases x with
  | reg r => exact keeps_update fun s => h.registers s _ _ _ _ _ _ _
  | mem m => exact keeps_bind h.toComposes (keeps_getState h.toComposes) fun _ =>
      keeps_segWrite h.toAllowsAccess ..

theorem keeps_writeZF_advance (b : Bool) : Keeps R (writeZF b >>= fun _ => advance) :=
  keeps_bind h.toComposes (keeps_update fun s => h.flags s _ (·.setZF b)) fun _ => keeps_advance h

theorem keeps_drawFlags_advance : Keeps R (drawFlags >>= fun _ => advance) :=
  keeps_bind h.toComposes (keeps_update fun s => h.flags s _ (·.drawArithFlags _)) fun _ => keeps_advance h

theorem keeps_setReg_drawFlags_advance (r : Reg) (v : Dword) :
    Keeps R (setReg r v >>= fun _ => drawFlags >>= fun _ => advance) :=
  keeps_bind h.toComposes (keeps_setReg h r v) fun _ => keeps_drawFlags_advance h

theorem keeps_setReg_writeZF_advance (r : Reg) (v : Dword) (b : Bool) :
    Keeps R (setReg r v >>= fun _ => writeZF b >>= fun _ => advance) :=
  keeps_bind h.toComposes (keeps_setReg h r v) fun _ => keeps_writeZF_advance h b

theorem keeps_nearJump (target : Dword) : Keeps R (nearJump target) :=
  keeps_bind h.toComposes (keeps_nearTarget h.toComposes _) fun _ => keeps_jumpTo h _

theorem keeps_nearCall (target : Dword) : Keeps R (nearCall target) :=
  keeps_bind h.toComposes (keeps_nearTarget h.toComposes _) fun _ =>
    keeps_bind h.toComposes (keeps_getState h.toComposes) fun _ =>
    keeps_bind h.toComposes (keeps_pushAll h _) fun _ => keeps_jumpTo h _

theorem keeps_nearReturn (n : Word) : Keeps R (nearReturn n) :=
  keeps_bind h.toComposes (keeps_getState h.toComposes) fun _ =>
    keeps_bind h.toComposes (keeps_segReadDword h.toAllowsAccess ..) fun target =>
    keeps_bind h.toComposes (keeps_nearTarget h.toComposes _) fun _ =>
    keeps_update fun s => h.registers s _ target _ _ [] _ _

/-- The check of a privileged instruction, and then the instruction (R231). -/
theorem keeps_privileged_bind {f : Unit → Exec β} (hf : Keeps R (f ())) : Keeps R (privileged >>= f) :=
  keeps_bind h.toComposes (keeps_privileged h.toComposes) fun _ => hf

/-- A privileged instruction that reads its operand and then writes a register (R231). -/
theorem keeps_privileged_write {m : Exec α} (hm : Keeps R m) {f : α → State → State}
    (hf : ∀ a s, R s (f a s)) : Keeps R (do privileged; let a ← m; update (f a); advance) :=
  keeps_privileged_bind h <| keeps_bind h.toComposes hm fun a =>
    keeps_bind h.toComposes (keeps_update (hf a)) fun _ => keeps_advance h

/-- An instruction that looks up the descriptor its operand selects (R261 to R264). -/
theorem keeps_lookup_bind (src : RM) {f : Word → Option Desc → Exec β}
    (hf : ∀ sel d, Keeps R (f sel d)) :
    Keeps R (do let sel ← readRM16 src; let d ← lookupDesc sel; f sel d) :=
  keeps_bind h.toComposes (keeps_readRM16 h.toAllowsAccess src) fun sel =>
    keeps_bind h.toComposes (keeps_lookupDesc_of h.toAllowsAccess sel) fun _ => hf ..

/-- MOV to CRn writes CR0 with PE set and its reserved bits 0, and CR3 with its low bits 0 (R237). -/
theorem keeps_writeCr (n : BitVec 3) (v : Dword) : Keeps R (writeCr n v) := by
  refine ⟨fun s => ?_⟩
  unfold writeCr
  split
  · exact post_ite
      (fun hpe => h.control s { s.ctl with cr0 := cr0Of v } _ _ (fun _ => Cr0OK.ofMov hpe) id)
      (fun _ => h.refl s)
  · exact h.control s { s.ctl with cr2 := v } _ _ id id
  · exact h.control s { s.ctl with cr3 := cr3Of v } _ _ id fun _ => cr3Of_idem v
  · exact h.refl s

/-- MOV to DRn or TRn: what is written, and then the flags (R239, R241). -/
theorem post_withCtl_drawFlags_advance {s : State} {c : ControlRegs} (h0 : c.cr0 = s.ctl.cr0)
    (h3 : c.cr3 = s.ctl.cr3) :
    Post (update (fun t => { t with ctl := c }) >>= fun _ => drawFlags >>= fun _ => advance) s
      (fun _ t => R s t) (fun _ t => R s t) :=
  have hc : R s { s with ctl := c } := h.control s c _ _ (h0 ▸ id) (h3 ▸ id)
  ((keeps_drawFlags_advance h).post { s with ctl := c }).mono
    (fun _ _ k => h.trans _ _ _ hc k) (fun _ _ k => h.trans _ _ _ hc k)

/-! ### One lemma for an instruction whose meaning has cases -/

variable (s : State)

theorem runs_lldt (src : RM) : Runs R (.lldt src) s := by
  refine ⟨_, rfl, Keeps.post (keeps_privileged_bind h <|
    keeps_bind h.toComposes (keeps_readRM16 h.toAllowsAccess src) fun sel => ?_) s⟩
  have hw : ∀ f : State → LdtReg,
      Keeps R (update (fun t => { t with ldtr := f t }) >>= fun _ => advance) := fun f =>
    keeps_bind h.toComposes (keeps_update fun s => h.registers s _ _ _ _ _ _ _) fun _ => keeps_advance h
  refine keeps_ite (hw _) <| keeps_ite (keeps_raise_bind h.toComposes ..) <|
    keeps_bind h.toComposes (keeps_readDescOr h.toAllowsAccess ..) fun d => ?_
  exact keeps_ite (keeps_raise_bind h.toComposes ..) <| keeps_ite (keeps_raise_bind h.toComposes ..) (hw _)

theorem runs_movFromCr (dst : Reg) (n : BitVec 3) : Runs R (.movFromCr dst n) s := by
  refine ⟨_, rfl, Keeps.post (keeps_privileged_bind h ?_) s⟩
  dsimp only
  split
  · exact keeps_setReg_drawFlags_advance h ..
  · exact keeps_raise_bind h.toComposes ..

theorem runs_movFromDr (dst : Reg) (n : BitVec 3) : Runs R (.movFromDr dst n) s := by
  refine ⟨_, rfl, Keeps.post (keeps_privileged_bind h ?_) s⟩
  dsimp only
  split
  · exact keeps_setReg_drawFlags_advance h ..
  · exact keeps_refuse_bind h.toComposes ..

theorem runs_movFromTr (dst : Reg) (n : BitVec 3) : Runs R (.movFromTr dst n) s := by
  refine ⟨_, rfl, Keeps.post (keeps_privileged_bind h ?_) s⟩
  dsimp only
  split
  · exact keeps_setReg_drawFlags_advance h ..
  · exact keeps_raise_bind h.toComposes ..

theorem runs_movToDr (n : BitVec 3) (src : Reg) : Runs R (.movToDr n src) s := by
  refine ⟨_, rfl, post_privileged_bind ?_ (h.refl s)⟩
  dsimp only
  split
  · next c hc =>
    obtain ⟨h0, h3⟩ := ControlRegs.setDr_cr hc
    exact post_withCtl_drawFlags_advance h h0 h3
  · exact (keeps_refuse_bind h.toComposes ..).post s

theorem runs_movToTr (n : BitVec 3) (src : Reg) : Runs R (.movToTr n src) s := by
  refine ⟨_, rfl, post_privileged_bind ?_ (h.refl s)⟩
  dsimp only
  split
  · next c hc =>
    obtain ⟨h0, h3⟩ := ControlRegs.setTestReg_cr hc
    exact post_withCtl_drawFlags_advance h h0 h3
  · exact (keeps_raise_bind h.toComposes ..).post s

theorem runs_arpl (dst : RM) (src : Reg) : Runs R (.arpl dst src) s :=
  ⟨_, rfl, Keeps.post (keeps_bind h.toComposes (keeps_checkWritableRM16 h.toAllowsAccess dst) fun _ =>
    keeps_bind h.toComposes (keeps_readRM16 h.toAllowsAccess dst) fun _ =>
    keeps_ite (keeps_bind h.toComposes (keeps_writeRM16 h ..) fun _ => keeps_writeZF_advance h _)
      (keeps_writeZF_advance h _)) s⟩

theorem runs_lar (dst : Reg) (src : RM) : Runs R (.lar dst src) s := by
  refine ⟨_, rfl, Keeps.post (keeps_lookup_bind h src fun sel d => ?_) s⟩
  cases d with
  | none => exact keeps_writeZF_advance h _
  | some d => exact keeps_ite (keeps_setReg_writeZF_advance h ..) (keeps_writeZF_advance h _)

theorem runs_lsl (dst : Reg) (src : RM) : Runs R (.lsl dst src) s := by
  refine ⟨_, rfl, Keeps.post (keeps_lookup_bind h src fun sel d => ?_) s⟩
  cases d with
  | none => exact keeps_writeZF_advance h _
  | some d => exact keeps_ite (keeps_setReg_writeZF_advance h ..) (keeps_writeZF_advance h _)

theorem runs_verr (src : RM) : Runs R (.verr src) s := by
  refine ⟨_, rfl, Keeps.post (keeps_lookup_bind h src fun sel d => ?_) s⟩
  cases d <;> exact keeps_writeZF_advance h _

theorem runs_verw (src : RM) : Runs R (.verw src) s := by
  refine ⟨_, rfl, Keeps.post (keeps_lookup_bind h src fun sel d => ?_) s⟩
  cases d <;> exact keeps_writeZF_advance h _

/-- Every instruction that loads no segment register makes only changes that the relation allows. -/
theorem runs_of_not_loadsSegments {i : Instr} (hi : loadsSegments i = false) : Runs R i s := by
  have hc := h.toComposes
  have ha := h.toAllowsAccess
  cases i with
  | jmpRel8 rel => exact ⟨_, rfl, (keeps_nearJump h _).post s⟩
  | jmpRel32 rel => exact ⟨_, rfl, (keeps_nearJump h _).post s⟩
  | jmpRm x =>
    exact ⟨_, rfl, (keeps_bind hc (keeps_readRM32 ha x) fun _ => keeps_nearJump h _).post s⟩
  | callRel32 rel => exact ⟨_, rfl, (keeps_nearCall h _).post s⟩
  | callRm x =>
    exact ⟨_, rfl, (keeps_bind hc (keeps_readRM32 ha x) fun _ => keeps_nearCall h _).post s⟩
  | ret => exact ⟨_, rfl, (keeps_nearReturn h _).post s⟩
  | retImm n => exact ⟨_, rfl, (keeps_nearReturn h _).post s⟩
  | clts =>
    exact ⟨_, rfl, Keeps.post (keeps_privileged_bind h <| keeps_bind hc
      (keeps_update fun s => h.control s { s.ctl with cr0 := withBit s.ctl.cr0 bitTS false } _ _
        (fun h0 => h0.withTS false) id) fun _ => keeps_advance h) s⟩
  | hlt =>
    exact ⟨_, rfl, Keeps.post (keeps_privileged_bind h <| keeps_bind hc (keeps_advance h) fun _ =>
      keeps_update fun s => h.registers s _ _ _ _ _ _ _) s⟩
  | lgdt x =>
    exact ⟨_, rfl, Keeps.post (keeps_privileged_write h (keeps_readTableOperand ha x)
      fun table s => h.tables s table s.idtr) s⟩
  | lidt x =>
    exact ⟨_, rfl, Keeps.post (keeps_privileged_write h (keeps_readTableOperand ha x)
      fun table s => h.tables s s.gdtr table) s⟩
  | lldt x => exact runs_lldt h s x
  | lmsw x =>
    exact ⟨_, rfl, Keeps.post (keeps_privileged_write h (keeps_readRM16 ha x)
      fun v s => h.control s { s.ctl with cr0 := cr0AfterLmsw s.ctl.cr0 v } _ _ (fun h0 => h0.afterLmsw v) id)
      s⟩
  | str x => exact ⟨_, rfl, (keeps_bind hc (keeps_writeRM16 h ..) fun _ => keeps_advance h).post s⟩
  | movFromCr dst n => exact runs_movFromCr h s dst n
  | movToCr n src =>
    exact ⟨_, rfl, Keeps.post (keeps_privileged_bind h <| keeps_bind hc (keeps_writeCr h ..) fun _ =>
      keeps_drawFlags_advance h) s⟩
  | movFromDr dst n => exact runs_movFromDr h s dst n
  | movToDr n src => exact runs_movToDr h s n src
  | movFromTr dst n => exact runs_movFromTr h s dst n
  | movToTr n src => exact runs_movToTr h s n src
  | arpl dst src => exact runs_arpl h s dst src
  | lar dst src => exact runs_lar h s dst src
  | lsl dst src => exact runs_lsl h s dst src
  | verr src => exact runs_verr h s src
  | verw src => exact runs_verw h s src
  | movSreg | jmpFar | jmpFarMem | callFar | callFarMem | retf | retfImm | int | iret | ltr => cases hi

end Walk

/-! ## The parameters, memory and the control state -/

/-- `ControlOK` in the terms of the laws of EFLAGS and CR0. -/
theorem State.controlOK_iff (s : State) :
    s.ControlOK ↔ Cr0OK s.ctl.cr0 ∧ cr3Of s.ctl.cr3 = s.ctl.cr3 ∧ FlagsOK s.eflags :=
  ⟨fun ⟨pe, cr0, cr3, vm, fl⟩ => ⟨⟨cr0, pe⟩, cr3, fl, vm⟩,
    fun ⟨⟨cr0, pe⟩, cr3, fl, vm⟩ => ⟨pe, cr0, cr3, vm, fl⟩⟩

/-- What every instruction upholds: the parameters, the form of memory and of the control state; and the
draws only go up. -/
structure Upheld (s t : State) : Prop where
  memMap : t.memMap = s.memMap
  deliver : t.deliverExceptions = s.deliverExceptions
  draws : s.draws ≤ t.draws
  wf : s.mem.wf = true → t.mem.wf = true
  control : s.ControlOK → t.ControlOK

theorem upheld_trans {s t u : State} (h : Upheld s t) (k : Upheld t u) : Upheld s u :=
  ⟨k.memMap.trans h.memMap, k.deliver.trans h.deliver, Nat.le_trans h.draws k.draws,
    k.wf ∘ h.wf, k.control ∘ h.control⟩

/-- The shared operations set TS in CR0 and change no other bit of it. -/
theorem Kept.control {s t : State} (h : Kept s t) (hs : s.ControlOK) : t.ControlOK := by
  obtain ⟨hcr0, hcr3, hfl⟩ := (State.controlOK_iff s).mp hs
  refine (State.controlOK_iff t).mpr ⟨?_, h.cr3 hcr3, h.flags hfl⟩
  obtain h0 | h0 := h.cr0
  · exact h0 ▸ hcr0
  · exact h0 ▸ hcr0.withTS true

theorem Kept.upheld {s t : State} (h : Kept s t) : Upheld s t :=
  ⟨h.memMap, h.deliver, h.draws, h.wf, h.control⟩

theorem Accessed.kept {s t : State} (h : Accessed s t) : Kept s t :=
  ⟨h.memMap, h.deliverExceptions, h.draws, h.wf, h.gdtr, h.idtr, by rw [h.ctl], by rw [h.ctl],
    .inl h.cr0, fun k => by rw [h.cr3]; exact k, fun k => by rw [h.eflags]; exact k⟩

/-- A change that keeps the parameters, memory, and the form of CR0, CR3 and EFLAGS upholds all of it. -/
theorem upheld_of_registers {s t : State} (hm : t.memMap = s.memMap)
    (hd : t.deliverExceptions = s.deliverExceptions) (hn : t.draws = s.draws) (hw : t.mem = s.mem)
    (h0 : Cr0OK s.ctl.cr0 → Cr0OK t.ctl.cr0)
    (h3 : cr3Of s.ctl.cr3 = s.ctl.cr3 → cr3Of t.ctl.cr3 = t.ctl.cr3)
    (hf : FlagsOK s.eflags → FlagsOK t.eflags) : Upheld s t :=
  ⟨hm, hd, hn ▸ Nat.le_refl _, fun h => hw ▸ h, fun hs => by
    obtain ⟨hcr0, hcr3, hfl⟩ := (State.controlOK_iff s).mp hs
    exact (State.controlOK_iff t).mpr ⟨h0 hcr0, h3 hcr3, hf hfl⟩⟩

theorem allowsRegisters_upheld : AllowsRegisters Upheld where
  refl s := (kept_refl s).upheld
  trans _ _ _ h k := upheld_trans h k
  noteLookup s lin es := (allowsAccess_kept.noteLookup s lin es).upheld
  noteRead s ps := (allowsAccess_kept.noteRead s ps).upheld
  store s cells := (allowsAccess_kept.store s cells).upheld
  fault s lin := (allowsAccess_kept.fault s lin).upheld
  registers _ _ _ _ _ _ _ _ := upheld_of_registers rfl rfl rfl rfl id id id
  flags _ _ hf := upheld_of_registers rfl rfl rfl rfl id id hf
  tables _ _ _ := upheld_of_registers rfl rfl rfl rfl id id id
  control _ _ _ _ h0 h3 := upheld_of_registers rfl rfl rfl rfl h0 h3 id

theorem upheld_of_conclude {m : Exec Unit} {s t : State}
    (hm : Post m s (fun _ t => Upheld s t) (fun _ t => Upheld s t)) (h : conclude m s = .next t) :
    Upheld s t := by
  unfold conclude at h
  split at h
  · cases h; exact hm.of_ok ‹_›
  · exact upheld_trans (hm.of_error ‹_›) (kept_takeException h).upheld
  · cases h

/-! ## The instructions that load segment registers -/

theorem execMovSreg_kept {sreg : BitVec 3} {src : RM} {s t : State}
    (h : execMovSreg sreg src s = .next t) : Kept s t := by
  refine kept_conclude (keeps_bind composes_kept (keeps_readRM16 allowsAccess_kept src) fun sel => ?_) h
  dsimp only
  split
  · exact keeps_raise_bind composes_kept ..
  · exact keeps_raise_bind composes_kept ..
  · exact keeps_bind composes_kept (kept_loadSS _) fun _ => kept_advance
  · exact keeps_bind composes_kept (kept_loadDataSeg ..) fun _ => kept_advance

theorem execInt_kept {vector : Byte} {s t : State} (h : execInt vector s = .next t) : Kept s t :=
  kept_conclude (keeps_bind composes_kept (kept_deliver ..) fun _ =>
    keeps_ite (keeps_raise composes_kept _) (keeps_pure composes_kept _)) h

theorem execIret_kept {s t : State} (h : execIret s = .next t) : Kept s t :=
  kept_conclude (keeps_ite
    (keeps_bind composes_kept (keeps_sysRead allowsAccess_kept ..) fun _ => kept_switchByInstruction ..)
    kept_interruptReturn) h

theorem execLtr_kept {src : RM} {s t : State} (h : execLtr src s = .next t) : Kept s t := by
  refine kept_conclude (keeps_bind composes_kept (keeps_privileged composes_kept) fun _ =>
    keeps_bind composes_kept (keeps_readRM16 allowsAccess_kept src) fun sel => ?_) h
  refine keeps_ite (keeps_raise_bind composes_kept ..) <| keeps_ite (keeps_raise_bind composes_kept ..) <|
    keeps_bind composes_kept (keeps_readDescOr allowsAccess_kept ..) fun d => ?_
  refine keeps_ite (keeps_raise_bind composes_kept ..) <| keeps_ite (keeps_refuse_bind composes_kept ..) <|
    keeps_ite (keeps_raise_bind composes_kept ..) <| keeps_ite (keeps_raise_bind composes_kept ..) ?_
  exact keeps_bind composes_kept (keeps_setBusy allowsAccess_kept _) fun _ =>
    keeps_bind composes_kept (kept_update fun s => kept_of_plain s _ _ _ _ _ _ _ _ _ _) fun _ =>
    kept_advance

theorem exec_kept_of_loadsSegments {i : Instr} {s t : State} (hi : loadsSegments i = true)
    (h : exec i s = .next t) : Kept s t := by
  cases i with
  | movSreg sreg src => exact execMovSreg_kept h
  | jmpFar sel off => exact kept_conclude (kept_farTransfer ..) h
  | jmpFarMem ptr =>
    exact kept_conclude (keeps_bind composes_kept (keeps_readFarPointer allowsAccess_kept ptr)
      fun _ => kept_farTransfer ..) h
  | callFar sel off => exact kept_conclude (kept_farTransfer ..) h
  | callFarMem ptr =>
    exact kept_conclude (keeps_bind composes_kept (keeps_readFarPointer allowsAccess_kept ptr)
      fun _ => kept_farTransfer ..) h
  | retf => exact kept_conclude (kept_farReturn _) h
  | retfImm n => exact kept_conclude (kept_farReturn _) h
  | int vector => exact execInt_kept h
  | iret => exact execIret_kept h
  | ltr src => exact execLtr_kept h
  | _ => cases hi

/-! ## Every instruction and every step -/

theorem exec_upheld {i : Instr} {s t : State} (h : exec i s = .next t) : Upheld s t := by
  cases hi : loadsSegments i with
  | false =>
    obtain ⟨m, hm, hpost⟩ := runs_of_not_loadsSegments allowsRegisters_upheld s hi
    exact upheld_of_conclude hpost (hm ▸ h)
  | true => exact (exec_kept_of_loadsSegments hi h).upheld

/-- A step upholds what its state has, the number of its draw having gone up first. -/
theorem step_upheld {s t : State} (h : step s = .next t) : Upheld { s with draws := s.draws + 1 } t := by
  obtain ⟨u, hu, ⟨e, d, h⟩ | ⟨i, n, h⟩⟩ := step_eq_next h
  · have hd : Kept u { u with debugTrap := d } := kept_of_plain u _ _ _ _ _ _ _ _ _ _
    exact (kept_trans (kept_trans hu.kept hd) (kept_takeException h)).upheld
  · have hn : Kept u { u with nextEip := n } := kept_of_plain u _ _ _ _ _ _ _ _ _ _
    exact upheld_trans (kept_trans hu.kept hn).upheld (exec_upheld h)

/-- Settles O8: what a step leaves it has upheld, from a state whose draws are one more. -/
theorem stepKeepsMemoryForm : Obligations.StepKeepsMemoryForm := by
  intro s t hwf h
  have hu := step_upheld h
  exact ⟨hu.wf hwf, hu.memMap, hu.deliver, hu.draws⟩

/-- Settles O9: the control state that a step upholds does not depend on the draws. -/
theorem stepKeepsControlState : Obligations.StepKeepsControlState := by
  intro s t hs h
  exact (step_upheld h).control ⟨hs.protectedMode, hs.cr0, hs.cr3, hs.notVirtual, hs.eflags⟩

end Sys2Proof.Machine

/-! The protection state (R391 P3 to P7). `Guarded` and `taskNamed` are kept wherever an operation leaves the
state (`Watched`), and CS and SS stay loaded where it answers (`Passed`). `Protects` is the property that
composes. The one operation that stops with CS or SS not loaded is the task switch, in its step 5 (R304); the
exception it raises is then delivered, and a delivery that answers has loaded both (`deliver_post_seated`). -/

namespace Sys2Proof.Machine

open Sys2Proof

variable {α β : Type}

/-! ## Selectors -/

/-- The RPL that a far transfer gives the CS selector is the new level (R172). -/
theorem selRpl_append (x : BitVec 14) (lvl : Level) : selRpl (x ++ lvl) = lvl :=
  BitVec.extractLsb'_append_eq_right

/-- It does not make the selector null (R28). -/
theorem isNull_append (sel : Word) (lvl : Level) :
    isNull (sel.extractLsb' 2 14 ++ lvl) = isNull sel := by
  simp only [isNull]
  rw [show (sel.extractLsb' 2 14 ++ lvl).extractLsb' 2 14 = sel.extractLsb' 2 14 from
    BitVec.extractLsb'_append_eq_left]

theorem maxLevel_le {a b c : Level} (h : maxLevel a b ≤ c) : a ≤ c := by
  unfold maxLevel at h
  split at h <;> bv_omega

/-! ## What the checks of a load say of the register that is loaded -/

/-- The code segment of the descriptor `d` may run at level `lvl` (R189). -/
structure CodeChecked (lvl : Level) (sel : Word) (d : Desc) : Prop where
  notNull : isNull sel = false
  isCode : d.isCode = true
  level : if d.conforming then d.dpl ≤ lvl else d.dpl = lvl

theorem Desc.isSeg_of_isCode {d : Desc} (h : d.isCode = true) : d.isSeg = true := by
  simp only [Desc.isCode, Bool.and_eq_true] at h
  exact h.1

theorem Desc.isSeg_of_writable {d : Desc} (h : d.writable = true) : d.isSeg = true := by
  simp only [Desc.writable, Desc.isData, Bool.and_eq_true] at h
  exact h.1.1

theorem CodeChecked.codeAt {lvl : Level} {sel : Word} {d : Desc} (h : CodeChecked lvl sel d)
    (hb : d.big = true) (csel : Word) : (cacheOf csel d).CodeAt lvl := by
  obtain ⟨hcode, hconf, -, -⟩ := cacheOf_code csel d (Desc.isSeg_of_isCode h.isCode)
  exact ⟨rfl, hcode.trans h.isCode, hb, by rw [hconf]; exact h.level⟩

theorem StackChecked.stackAt {lvl : Level} {sel : Word} {d : Desc} (h : StackChecked lvl sel d) :
    (cacheOf sel d).StackAt lvl := by
  obtain ⟨-, -, -, hwr⟩ := cacheOf_code sel d (Desc.isSeg_of_writable h.writable)
  exact ⟨rfl, hwr.trans h.writable, h.big, h.dpl, h.rpl⟩

theorem DataChecked.dataAt {lvl : Level} {sel : Word} {d : Desc} (h : DataChecked lvl sel d) :
    (cacheOf sel d).DataAt lvl := by
  obtain ⟨-, hconf, hrd, -⟩ := cacheOf_code sel d h.isSeg
  refine ⟨rfl, hrd.trans h.readable, ?_⟩
  rw [hconf]
  exact h.privilege.imp_right fun hp => maxLevel_le (of_decide_eq_true hp)

/-! ## `Guarded` under each change of the state -/

/-- `Guarded` speaks of the segment registers and CPL only. -/
theorem State.Guarded.congr {s t : State} (h : s.Guarded) (hs : t.segs = s.segs) (hc : t.cpl = s.cpl) :
    t.Guarded := by
  obtain ⟨hl, hcode, hstack, hdata, hnull⟩ := h
  constructor <;> rw [hs] <;> try rw [hc]
  all_goals assumption

/-- A data-segment register is loaded (R163, R164). -/
theorem State.Guarded.withSeg {s : State} (h : s.Guarded) {name : SegName} {g : SegReg}
    (hcs : name ≠ .cs) (hss : name ≠ .ss) (hd : g.valid = true → g.DataAt s.cpl)
    (hn : isNull g.sel = true → g.valid = false) : (s.withSeg name g).Guarded where
  level := by
    have : (s.segs.set name g).get .cs = s.segs.get .cs := SegFile.get_set_other _ _ (Ne.symm hcs)
    exact (congrArg (fun r => selRpl r.sel) this).trans h.level
  code := by
    have : (s.segs.set name g).cs = s.segs.cs := SegFile.get_set_other _ (m := .cs) _ (Ne.symm hcs)
    simpa [this] using h.code
  stack := by
    have : (s.segs.set name g).ss = s.segs.ss := SegFile.get_set_other _ (m := .ss) _ (Ne.symm hss)
    simpa [this] using h.stack
  data n hnc hns := by
    by_cases hne : n = name
    · subst hne; simpa using hd
    · simpa [hne] using h.data n hnc hns
  null n := by
    by_cases hne : n = name
    · subst hne; simpa using hn
    · simpa [hne] using h.null n

/-- SS is loaded (R165). -/
theorem State.Guarded.withSS {s : State} (h : s.Guarded) {g : SegReg} (hg : g.StackAt s.cpl)
    (hn : isNull g.sel = false) : (s.withSeg .ss g).Guarded where
  level := h.level
  code := h.code
  stack _ := hg
  data n hnc hns := by simpa [hns] using h.data n hnc hns
  null n := by
    by_cases hne : n = .ss
    · subst hne; simp [hn]
    · simpa [hne] using h.null n

theorem State.withCS_get_other (s : State) (sel : Word) (d : Desc) (lvl : Level) {n : SegName}
    (h : n ≠ .cs) : (s.withCS sel d lvl).segs.get n = s.segs.get n := by
  cases n with
  | cs => exact absurd rfl h
  | es | ss | ds | fs | gs => rfl

/-- CS is loaded at the current level (R172). -/
theorem State.Guarded.withCS {s : State} (h : s.Guarded) {sel : Word} {d : Desc}
    (hc : CodeChecked s.cpl sel d) (hb : d.big = true) : (s.withCS sel d s.cpl).Guarded where
  level := selRpl_append ..
  code _ := hc.codeAt hb _
  stack := h.stack
  data n hcs hss := by
    rw [State.withCS_get_other _ _ _ _ hcs]
    exact h.data n hcs hss
  null n hn := by
    by_cases hcs : n = .cs
    · subst hcs
      exact absurd ((isNull_append ..).symm.trans hn) (by simp [hc.notNull])
    · rw [State.withCS_get_other _ _ _ _ hcs] at hn ⊢
      exact h.null n hn

/-- The data-segment registers may be used at level `lvl`, and none that is null is valid (R391 P6, R28). -/
def DataGuarded (f : SegFile) (lvl : Level) : Prop :=
  ∀ n, n ≠ .cs → n ≠ .ss →
    ((f.get n).valid = true → (f.get n).DataAt lvl) ∧ (isNull (f.get n).sel = true → (f.get n).valid = false)

/-- What may be used at a level may be used at one that is more privileged. -/
theorem State.Guarded.dataGuarded {s : State} (h : s.Guarded) {lvl : Level} (hl : lvl ≤ s.cpl) :
    DataGuarded s.segs lvl := fun n hcs hss =>
  ⟨fun hv => have hd := h.data n hcs hss hv
    ⟨hd.isSeg, hd.readable, hd.level.imp_right (BitVec.le_trans hl)⟩, h.null n⟩

/-- Step 3 of an interlevel return leaves in a register only what the outer level may use (R216). -/
theorem SegReg.nullIfInaccessible_guarded {g : SegReg} {lvl new : Level}
    (hd : g.valid = true → g.DataAt lvl) (hn : isNull g.sel = true → g.valid = false) :
    ((g.nullIfInaccessible new).valid = true → (g.nullIfInaccessible new).DataAt new) ∧
      (isNull (g.nullIfInaccessible new).sel = true → (g.nullIfInaccessible new).valid = false) := by
  unfold SegReg.nullIfInaccessible
  split
  · simp
  · next hkeep =>
    refine ⟨fun hv => ?_, hn⟩
    obtain ⟨hs, hr, -⟩ := hd hv
    refine ⟨hs, hr, ?_⟩
    by_cases hconf : g.conformingCode = true
    · exact .inl hconf
    · have : ¬g.dpl < new := by simpa [hv, hconf] using hkeep
      exact .inr (BitVec.not_lt.mp this)

theorem State.Guarded.dataGuarded_nullInaccessible {s t : State} (h : s.Guarded) (new : Level)
    (ht : ∀ n, n ≠ .cs → n ≠ .ss → t.segs.get n = s.segs.get n) :
    DataGuarded (t.nullInaccessible new).segs new := by
  intro n hcs hss
  have hg := SegReg.nullIfInaccessible_guarded (new := new) (h.data n hcs hss) (h.null n)
  rw [← ht n hcs hss] at hg
  cases n with
  | cs => exact absurd rfl hcs
  | ss => exact absurd rfl hss
  | es | ds | fs | gs => exact hg

/-- Loads of CS and SS leave the data-segment registers alone. -/
theorem SegFile.get_with_code_stack (f : SegFile) (c g : SegReg) {n : SegName} (hcs : n ≠ .cs)
    (hss : n ≠ .ss) : ({ f with cs := c, ss := g } : SegFile).get n = f.get n := by
  cases n with
  | cs => exact absurd rfl hcs
  | ss => exact absurd rfl hss
  | es | ds | fs | gs => rfl

/-- CS and SS are loaded at one level, at which the data-segment registers may be used: the end of a
transfer to another level (R204, R214). -/
theorem guarded_of_loaded {t : State} {csel ssel : Word} {c d : Desc} (hc : CodeChecked t.cpl csel c)
    (hb : c.big = true) (hs : StackChecked t.cpl ssel d)
    (hcs : t.segs.cs = cacheOf (csel.extractLsb' 2 14 ++ t.cpl) c) (hss : t.segs.ss = cacheOf ssel d)
    (hd : DataGuarded t.segs t.cpl) : t.Guarded where
  level := by rw [hcs]; exact selRpl_append ..
  code _ := by rw [hcs]; exact hc.codeAt hb _
  stack _ := by rw [hss]; exact hs.stackAt
  data n hnc hns := (hd n hnc hns).1
  null n hn := by
    cases n with
    | cs =>
      rw [show t.segs.get .cs = _ from hcs, cacheOf_sel, isNull_append, hc.notNull] at hn
      cases hn
    | ss =>
      rw [show t.segs.get .ss = _ from hss, cacheOf_sel, hs.notNull] at hn
      cases hn
    | es | ds | fs | gs => exact (hd _ (by decide) (by decide)).2 hn

/-- The registers from the image of a TSS: none is valid yet, and CPL is the RPL of CS (R303). -/
theorem withTssImage_guarded (s : State) (cause : SwitchCause) (img : List Byte) :
    (s.withTssImage cause img).Guarded where
  level := rfl
  code h := by cases h
  stack h := by cases h
  data n _ _ h := by cases n <;> cases h
  null n _ := by cases n <;> rfl

/-! ## The relations -/

/-- What every operation keeps, wherever it leaves the state. -/
structure Watched (s t : State) : Prop where
  guarded : s.Guarded → t.Guarded
  named : s.taskNamed = true → t.taskNamed = true

theorem watched_refl (s : State) : Watched s s := ⟨id, id⟩

theorem watched_trans {s t u : State} (h : Watched s t) (k : Watched t u) : Watched s u :=
  ⟨k.guarded ∘ h.guarded, k.named ∘ h.named⟩

/-- The segment registers, CPL and TR are as they were. -/
structure SameSegments (s t : State) : Prop where
  segs : t.segs = s.segs
  cpl : t.cpl = s.cpl
  tr : t.tr = s.tr

theorem allowsRegisters_sameSegments : AllowsRegisters SameSegments where
  refl _ := ⟨rfl, rfl, rfl⟩
  trans _ _ _ h k := ⟨k.segs.trans h.segs, k.cpl.trans h.cpl, k.tr.trans h.tr⟩
  noteLookup _ _ _ := ⟨rfl, rfl, rfl⟩
  noteRead _ _ := ⟨rfl, rfl, rfl⟩
  store _ _ := ⟨rfl, rfl, rfl⟩
  fault _ _ := ⟨rfl, rfl, rfl⟩
  registers _ _ _ _ _ _ _ _ := ⟨rfl, rfl, rfl⟩
  flags _ _ _ := ⟨rfl, rfl, rfl⟩
  tables _ _ _ := ⟨rfl, rfl, rfl⟩
  control _ _ _ _ _ _ := ⟨rfl, rfl, rfl⟩

theorem Accessed.sameSegments {s t : State} (h : Accessed s t) : SameSegments s t :=
  ⟨h.segs, h.cpl, h.tr⟩

theorem taskNamed_of_tr {s t : State} (h : t.tr = s.tr) (hs : s.taskNamed = true) :
    t.taskNamed = true := by
  unfold State.taskNamed at *
  rw [h]
  exact hs

theorem SameSegments.watched {s t : State} (h : SameSegments s t) : Watched s t :=
  ⟨fun hs => hs.congr h.segs h.cpl, taskNamed_of_tr h.tr⟩

theorem SameSegments.seated {s t : State} (h : SameSegments s t) (hs : s.Seated) : t.Seated := by
  unfold State.Seated at *
  rw [h.segs]
  exact hs

theorem Accessed.watched {s t : State} (h : Accessed s t) : Watched s t := h.sameSegments.watched

/-- Wherever the operation leaves the state it is watched, and where it answers CS and SS are still
loaded. -/
def Protects (m : Exec α) (s : State) : Prop :=
  Post m s (fun _ t => Watched s t ∧ (s.Seated → t.Seated)) (fun _ t => Watched s t)

/-- As `Protects`, and where it answers CS and SS are loaded, whatever they held before. -/
def Seats (m : Exec α) (s : State) : Prop :=
  Post m s (fun _ t => Watched s t ∧ t.Seated) (fun _ t => Watched s t)

theorem Seats.protects {m : Exec α} {s : State} (h : Seats m s) : Protects m s :=
  h.mono (fun _ _ ⟨hw, hs⟩ => ⟨hw, fun _ => hs⟩) (fun _ _ hw => hw)

theorem Keeps.protects {m : Exec α} (h : Keeps SameSegments m) (s : State) : Protects m s :=
  (h.post s).mono (fun _ _ k => ⟨k.watched, k.seated⟩) (fun _ _ k => k.watched)

theorem protects_bind {m : Exec α} {f : α → Exec β} {s : State} (hm : Protects m s)
    (hf : ∀ a t, Protects (f a) t) : Protects (m >>= f) s :=
  post_seq hm
    (fun a t ⟨hw, hs⟩ => (hf a t).mono
      (fun _ _ ⟨hw', hs'⟩ => ⟨watched_trans hw hw', hs' ∘ hs⟩) (fun _ _ hw' => watched_trans hw hw'))
    (fun _ _ hw => hw)

/-- What follows an access that found what `C` says. -/
theorem protects_access_bind {m : Exec α} {f : α → Exec β} {s : State} {C : α → State → Prop}
    (hm : Post m s (fun a u => Accessed s u ∧ C a u) (fun _ u => Accessed s u))
    (hf : ∀ a u, Accessed s u → C a u → Protects (f a) u) : Protects (m >>= f) s :=
  post_seq hm
    (fun a u ⟨hu, hc⟩ => (hf a u hu hc).mono
      (fun _ _ ⟨hw, hs⟩ => ⟨watched_trans hu.watched hw, fun h => hs (hu.sameSegments.seated h)⟩)
      (fun _ _ hw => watched_trans hu.watched hw))
    (fun _ _ hu => hu.watched)

theorem seats_access_bind {m : Exec α} {f : α → Exec β} {s : State} {C : α → State → Prop}
    (hm : Post m s (fun a u => Accessed s u ∧ C a u) (fun _ u => Accessed s u))
    (hf : ∀ a u, Accessed s u → C a u → Seats (f a) u) : Seats (m >>= f) s :=
  post_seq hm
    (fun a u ⟨hu, hc⟩ => (hf a u hu hc).mono
      (fun _ _ ⟨hw, hs⟩ => ⟨watched_trans hu.watched hw, hs⟩)
      (fun _ _ hw => watched_trans hu.watched hw))
    (fun _ _ hu => hu.watched)

/-- An access, where what it found does not matter. -/
theorem access_post {m : Exec α} (h : Keeps Accessed m) (s : State) :
    Post m s (fun _ u => Accessed s u ∧ True) (fun _ u => Accessed s u) :=
  (h.post s).mono (fun _ _ hu => ⟨hu, trivial⟩) (fun _ _ hu => hu)

/-- After the operation nothing moves the segment registers, CPL or TR. -/
theorem seats_bind_same {m : Exec α} {f : α → Exec β} {s : State} (hm : Seats m s)
    (hf : ∀ a, Keeps SameSegments (f a)) : Seats (m >>= f) s :=
  post_seq hm
    (fun a t ⟨hw, hs⟩ => ((hf a).post t).mono
      (fun _ _ k => ⟨watched_trans hw k.watched, k.seated hs⟩)
      (fun _ _ k => watched_trans hw k.watched))
    (fun _ _ hw => hw)

theorem protects_raise (e : Exception) (s : State) : Protects (raise e : Exec α) s := watched_refl s

theorem protects_refuse (r : Refusal) (s : State) : Protects (refuse r : Exec α) s := watched_refl s

theorem seats_raise (e : Exception) (s : State) : Seats (raise e : Exec α) s := watched_refl s

theorem seats_refuse (r : Refusal) (s : State) : Seats (refuse r : Exec α) s := watched_refl s

/-! ## Loads of single registers -/

/-- CS was loaded at the current level. -/
theorem watched_withCS {s t : State} {sel : Word} {d : Desc} (hc : CodeChecked s.cpl sel d)
    (hb : d.big = true) (hs : t.segs = { s.segs with cs := cacheOf (sel.extractLsb' 2 14 ++ s.cpl) d })
    (hl : t.cpl = s.cpl) (ht : t.tr = s.tr) :
    Watched s t ∧ (s.segs.ss.valid = true → t.Seated) :=
  ⟨⟨fun h => (h.withCS hc hb).congr hs hl, taskNamed_of_tr ht⟩,
    fun hss => by unfold State.Seated; rw [hs]; exact ⟨rfl, hss⟩⟩

/-- A data-segment register was loaded. -/
theorem protected_withSeg {s u : State} (hu : Accessed s u) {name : SegName} {g : SegReg}
    (hcs : name ≠ .cs) (hss : name ≠ .ss) (hd : g.valid = true → g.DataAt s.cpl)
    (hn : isNull g.sel = true → g.valid = false) :
    Watched s (u.withSeg name g) ∧ (s.Seated → (u.withSeg name g).Seated) := by
  refine ⟨⟨fun h => (h.congr hu.segs hu.cpl).withSeg hcs hss (hu.cpl ▸ hd) hn, taskNamed_of_tr hu.tr⟩,
    fun h => ?_⟩
  have hkeep : ∀ n, n ≠ name → (u.withSeg name g).segs.get n = s.segs.get n := fun n hne => by
    rw [State.withSeg_segs, SegFile.get_set_other _ _ hne, hu.segs]
  exact ⟨(congrArg SegReg.valid (hkeep .cs (Ne.symm hcs))).trans h.1,
    (congrArg SegReg.valid (hkeep .ss (Ne.symm hss))).trans h.2⟩

theorem protected_of_dataChecked {s u : State} (hu : Accessed s u) {name : SegName} {sel : Word}
    {d : Desc} (hcs : name ≠ .cs) (hss : name ≠ .ss) (hd : DataChecked s.cpl sel d) :
    Watched s (u.withSeg name (cacheOf sel d)) ∧ (s.Seated → (u.withSeg name (cacheOf sel d)).Seated) :=
  protected_withSeg hu hcs hss (fun _ => hd.dataAt) (by simp [hd.notNull])

/-- SS was loaded at the current level. -/
theorem watched_withSS {s u : State} (hu : Accessed s u) {sel : Word} {d : Desc}
    (hd : StackChecked s.cpl sel d) :
    Watched s (u.withSeg .ss (cacheOf sel d)) ∧
      (s.segs.cs.valid = true → (u.withSeg .ss (cacheOf sel d)).Seated) :=
  ⟨⟨fun h => (h.congr hu.segs hu.cpl).withSS (hu.cpl ▸ hd.stackAt) hd.notNull, taskNamed_of_tr hu.tr⟩,
    fun h => ⟨(congrArg (fun f : SegFile => f.cs.valid) hu.segs).trans h, rfl⟩⟩

theorem protects_loadDataSeg {name : SegName} (sel : Word) (hcs : name ≠ .cs) (hss : name ≠ .ss)
    (s : State) : Protects (loadDataSeg name sel) s := by
  refine (loadDataSeg_post name sel s).mono (fun _ t ht => ?_) (fun _ _ h => h.watched)
  obtain ⟨u, hu, ⟨-, rfl⟩ | ⟨d, hd, rfl⟩⟩ := ht
  · exact protected_withSeg hu hcs hss (fun h => by cases h) (fun _ => rfl)
  · exact protected_of_dataChecked hu hcs hss hd

theorem protects_loadSS (sel : Word) (s : State) : Protects (loadSS sel) s := by
  refine (loadSS_post sel s).mono (fun _ t ht => ?_) (fun _ _ h => h.watched)
  obtain ⟨u, d, hu, hd, rfl⟩ := ht
  obtain ⟨hw, hs⟩ := watched_withSS hu hd
  exact ⟨hw, fun h => hs h.1⟩

/-! ## Transfers -/

/-- The checks of a transfer to a code segment at the current level (R188, R190, R200). -/
theorem codeChecked_of_same_level {cpl : Level} {sel : Word} {d : Desc} (hn : isNull sel = false)
    (hc : d.isCode = true) (h1 : ¬(d.conforming && decide (cpl < d.dpl)) = true)
    (h2 : ¬(!d.conforming && d.dpl != cpl) = true) : CodeChecked cpl sel d := by
  refine ⟨hn, hc, ?_⟩
  cases hd : d.conforming
  · simpa [hd] using h2
  · simpa [hd] using h1

/-- A code segment that is not less privileged, and to which there is no inward transfer (R201, R357). -/
theorem codeChecked_of_not_inner {cpl : Level} {sel : Word} {d : Desc} (hn : isNull sel = false)
    (hc : d.isCode = true) (h1 : ¬cpl < d.dpl)
    (h2 : ¬(!d.conforming && decide (d.dpl < cpl)) = true) : CodeChecked cpl sel d := by
  have hle : d.dpl ≤ cpl := BitVec.not_lt.mp h1
  refine ⟨hn, hc, ?_⟩
  cases hd : d.conforming
  · have hge : cpl ≤ d.dpl := BitVec.not_lt.mp (by simpa [hd] using h2)
    exact BitVec.le_antisymm hle hge
  · exact hle

theorem enterCode_seated_post {sel : Word} {d : Desc} (target : Dword) (pushed : List Host.Cell)
    (esp : Dword) {s : State} (hc : CodeChecked s.cpl sel d) :
    Post (enterCode sel d target pushed esp) s
      (fun _ t => Watched s t ∧ (s.segs.ss.valid = true → t.Seated)) (fun _ t => Watched s t) := by
  refine (enterCode_post sel d target pushed esp s).mono (fun _ t ht => ?_) (fun _ _ h => h.watched)
  obtain ⟨hb, u, hu, rfl⟩ := ht
  exact watched_withCS hc hb (by simp [hu.segs]) rfl hu.tr

/-- A push needs a valid SS, so that both are loaded after it (R181). -/
theorem seats_pushAndEnter {sel : Word} {d : Desc} (target : Dword) (vs : List Dword) {s : State}
    (hc : CodeChecked s.cpl sel d) : Seats (pushAndEnter sel d target vs) s := by
  refine seats_access_bind (preparePush_post vs s) fun cells u hu ⟨hv, _⟩ => post_getState_bind ?_
  exact (enterCode_seated_post target cells _ (hu.cpl ▸ hc)).mono
    (fun _ _ ⟨hw, hs⟩ => ⟨hw, hs (hu.segs ▸ hv)⟩) (fun _ _ h => h)

theorem protects_sameLevelTransfer (kind : FarKind) {sel : Word} {d : Desc} (target : Dword) {s : State}
    (hc : CodeChecked s.cpl sel d) : Protects (sameLevelTransfer kind sel d target) s := by
  refine post_getState_bind <| post_check (protects_raise ..) fun _ =>
    post_check (protects_raise ..) fun _ => ?_
  cases kind with
  | jmp =>
    exact (enterCode_seated_post _ _ _ hc).mono (fun _ _ ⟨hw, hs⟩ => ⟨hw, fun h => hs h.2⟩) (fun _ _ h => h)
  | call => exact (seats_pushAndEnter _ _ hc).protects

/-- An inward transfer loads CS and SS at the level of the target (R204). -/
theorem seats_innerTransfer {tsel : Word} {t : Desc} (target : Dword) (count : Nat)
    {frame : Exec (List Dword)} (hf : Keeps Accessed frame) {s : State} (hc : CodeChecked t.dpl tsel t)
    (hl : t.dpl ≤ s.cpl) : Seats (innerTransfer tsel t target count frame) s := by
  refine (innerTransfer_post tsel t target count hf s).mono (fun _ w hw => ?_) (fun _ _ h => h.watched)
  obtain ⟨hb, u, sel, d, top, hu, hs, rfl⟩ := hw
  refine ⟨⟨fun h => guarded_of_loaded hc hb hs rfl rfl fun n hcs hss => ?_, taskNamed_of_tr hu.tr⟩,
    rfl, rfl⟩
  have hkeep : (((u.withCS tsel t t.dpl).withStack sel d top).jumpTo target).segs.get n = u.segs.get n :=
    SegFile.get_with_code_stack u.segs _ _ hcs hss
  rw [hkeep, hu.segs]
  exact h.dataGuarded hl n hcs hss

theorem protects_directTransfer (kind : FarKind) {sel : Word} (off : Dword) {d : Desc}
    (hn : isNull sel = false) (hc : d.isCode = true) (s : State) :
    Protects (directTransfer kind sel off d) s :=
  post_getState_bind <| post_check (protects_raise ..) fun h1 => post_check (protects_raise ..) fun _ =>
    post_check (protects_raise ..) fun h2 =>
    protects_sameLevelTransfer _ _ (codeChecked_of_same_level hn hc h1 h2)

theorem codeChecked_inner {sel : Word} {d : Desc} {cpl : Level} (hn : isNull sel = false)
    (hc : d.isCode = true) (h : (!d.conforming && decide (d.dpl < cpl)) = true) :
    CodeChecked d.dpl sel d ∧ d.dpl ≤ cpl := by
  simp only [Bool.and_eq_true, Bool.not_eq_true', decide_eq_true_eq] at h
  exact ⟨⟨hn, hc, by simp [h.1]⟩, BitVec.le_of_lt h.2⟩

theorem protects_gateTransfer (kind : FarKind) (sel : Word) (g : Desc) (s : State) :
    Protects (gateTransfer kind sel g) s := by
  refine post_getState_bind <| post_check (protects_raise ..) fun _ => post_check (protects_raise ..) fun _ =>
    protects_access_bind (gateTarget_post ..) fun t u hu ⟨hn, hc⟩ => ?_
  rw [← hu.cpl]
  cases kind with
  | jmp =>
    exact post_check (protects_raise ..) fun h1 => post_check (protects_raise ..) fun h2 =>
      protects_sameLevelTransfer _ _ (codeChecked_of_same_level hn hc h1 h2)
  | call =>
    refine post_check (protects_raise ..) fun h1 => post_check (protects_raise ..) fun _ =>
      post_ite (fun h2 => ?_) fun h2 => ?_
    · obtain ⟨hcode, hle⟩ := codeChecked_inner hn hc h2
      exact (seats_innerTransfer _ _ (keeps_callFrame allowsAccess_accessed _) hcode hle).protects
    · exact protects_sameLevelTransfer _ _ (codeChecked_of_not_inner hn hc h1 h2)

/-! ## Returns -/

theorem ReturnChecked.codeChecked {cpl : Level} {rcs : Word} {d : Desc} (h : ReturnChecked cpl rcs d) :
    CodeChecked (selRpl rcs) rcs d := ⟨h.notNull, h.isCode, h.privilege⟩

theorem protects_returnSame {rcs : Word} {d : Desc} (reip esp : Dword) {s : State}
    (hc : CodeChecked s.cpl rcs d) : Protects (returnSame rcs d reip esp) s := by
  refine (returnSame_post rcs d reip esp s).mono (fun _ t ht => ?_) (fun _ _ h => h.watched)
  obtain ⟨hb, u, x, hu, rfl⟩ := ht
  obtain ⟨hw, hs⟩ := watched_withCS (t := { u.withCS rcs d s.cpl with regs := x }.jumpTo reip) hc hb
    (by simp [hu.segs]) rfl hu.tr
  exact ⟨hw, fun h => hs h.2⟩

theorem seats_returnOuter {rcs : Word} {d : Desc} (reip : Dword) (off : Nat) (n : Word) {s : State}
    (hc : CodeChecked (selRpl rcs) rcs d) : Seats (returnOuter rcs d reip off n) s := by
  refine (returnOuter_post rcs d reip off n s).mono (fun _ t ht => ?_) (fun _ _ h => h.watched)
  obtain ⟨hb, u, sel, sd, esp, hu, hs, rfl⟩ := ht
  refine ⟨⟨fun h => guarded_of_loaded hc hb hs rfl rfl ?_, taskNamed_of_tr hu.tr⟩, rfl, rfl⟩
  refine h.dataGuarded_nullInaccessible (selRpl rcs) fun m hcs hss => ?_
  rw [← hu.segs]
  exact SegFile.get_with_code_stack u.segs _ _ hcs hss

/-- The end of a return, to the same level or to an outer one (R211). -/
theorem protects_return {rcs : Word} {d : Desc} (reip esp : Dword) (off : Nat) (n : Word) {s u : State}
    (hl : u.cpl = s.cpl) (h : ReturnChecked s.cpl rcs d) :
    Protects (if s.cpl < selRpl rcs then returnOuter rcs d reip off n else returnSame rcs d reip esp)
      u := by
  refine post_ite (fun _ => (seats_returnOuter _ _ _ h.codeChecked).protects) fun hout => ?_
  have hrpl : selRpl rcs = u.cpl :=
    hl ▸ BitVec.le_antisymm (BitVec.not_lt.mp hout) (BitVec.not_lt.mp h.notInward)
  exact protects_returnSame _ _ (hrpl ▸ h.codeChecked)

theorem protects_farReturn (n : Word) (s : State) : Protects (farReturn n) s := by
  have ha := allowsAccess_accessed
  refine post_getState_bind <| post_check (protects_raise ..) fun _ =>
    protects_access_bind (access_post (keeps_segReadDword ha ..) s) fun reip u hu _ =>
    protects_access_bind (access_post (keeps_segReadDword ha ..) u) fun rcsd v hv _ =>
    protects_access_bind (returnCS_post ..) fun d w hw hd => ?_
  have hv' := accessed_trans hu hv
  rw [hv'.cpl] at hd
  exact protects_return _ _ _ _ (accessed_trans hv' hw).cpl hd

/-- The flags of a return from an exception are written after it (R358). -/
theorem protects_interruptReturn (s : State) : Protects interruptReturn s := by
  have ha := allowsAccess_accessed
  refine post_getState_bind <| post_check (protects_raise ..) fun _ =>
    protects_access_bind (access_post (keeps_segReadDword ha ..) s) fun reip u hu _ =>
    protects_access_bind (access_post (keeps_segReadDword ha ..) u) fun rcsd v hv _ =>
    protects_access_bind (access_post (keeps_segReadDword ha ..) v) fun image w hw _ =>
    protects_access_bind (returnCS_post ..) fun d x hx hd => post_check (protects_refuse ..) fun _ => ?_
  have hw' := accessed_trans (accessed_trans hu hv) hw
  rw [hw'.cpl] at hd
  have hret := protects_return reip (s.regs.esp + 12) (s.regs.esp.toNat + 12) 0
    (accessed_trans hw' hx).cpl hd
  have hfl : ∀ t, Protects (update fun t => { t with eflags := flagsAfterIret t.eflags image s.cpl }) t :=
    fun t => ⟨SameSegments.watched ⟨rfl, rfl, rfl⟩, id⟩
  split at hret
  · next h => rw [if_pos h]; exact protects_bind hret fun _ => hfl
  · next h => rw [if_neg h]; exact protects_bind hret fun _ => hfl

/-! ## Task switches -/

/-- Wherever the operation leaves the state it is watched. -/
def Watches (m : Exec α) (s : State) : Prop := Post m s (fun _ t => Watched s t) (fun _ t => Watched s t)

theorem Keeps.watches {m : Exec α} (h : Keeps SameSegments m) (s : State) : Watches m s :=
  (h.post s).mono (fun _ _ k => k.watched) (fun _ _ k => k.watched)

theorem watches_bind {m : Exec α} {f : α → Exec β} {s : State} (hm : Watches m s)
    (hf : ∀ a t, Watches (f a) t) : Watches (m >>= f) s :=
  post_seq hm
    (fun a t hw => (hf a t).mono (fun _ _ k => watched_trans hw k) (fun _ _ k => watched_trans hw k))
    (fun _ _ hw => hw)

/-- What is known of the state between the two is `C`. -/
theorem seats_watch_bind {m : Exec α} {f : α → Exec β} {s : State} {C : State → Prop}
    (hm : Post m s (fun _ t => Watched s t ∧ C t) (fun _ t => Watched s t))
    (hf : ∀ a t, C t → Seats (f a) t) : Seats (m >>= f) s :=
  post_seq hm
    (fun a t ⟨hw, hc⟩ => (hf a t hc).mono (fun _ _ ⟨hw', hs⟩ => ⟨watched_trans hw hw', hs⟩)
      (fun _ _ hw' => watched_trans hw hw'))
    (fun _ _ hw => hw)

theorem seats_bind {m : Exec α} {f : α → Exec β} {s : State} (hm : Watches m s)
    (hf : ∀ a t, Seats (f a) t) : Seats (m >>= f) s :=
  seats_watch_bind (C := fun _ => True) (hm.mono (fun _ _ h => ⟨h, trivial⟩) (fun _ _ h => h))
    fun a t _ => hf a t

theorem Protects.seats {m : Exec α} {s : State} (h : Protects m s) (hs : s.Seated) : Seats m s :=
  h.mono (fun _ _ ⟨hw, hk⟩ => ⟨hw, hk hs⟩) (fun _ _ hw => hw)

/-- The incoming task is named by a selector of the GDT that is not null (R300). -/
theorem incomingTss_named {cause : SwitchCause} {tsel : Word} {d : Desc} {s t : State}
    (h : incomingTss cause tsel s = .ok d t) : isNull tsel = false ∧ selTI tsel = false := by
  unfold incomingTss at h
  rw [run_bind_getState, run_ite] at h
  split at h
  · cases h
  · next hn => simpa using hn

theorem incomingTss_post (cause : SwitchCause) (tsel : Word) (s : State) :
    Post (incomingTss cause tsel) s (fun _ u => Accessed s u ∧ isNull tsel = false ∧ selTI tsel = false)
      (fun _ u => Accessed s u) := by
  have h := (keeps_incomingTss allowsAccess_accessed cause tsel).post s
  unfold Post at *
  split
  · next hr => rw [hr] at h; exact ⟨h, incomingTss_named hr⟩
  · next hr => rw [hr] at h; exact h

theorem taskNamed_of_selector {t : State} (hn : isNull t.tr.sel = false) (hti : selTI t.tr.sel = false) :
    t.taskNamed = true := by
  simp [State.taskNamed, hn, hti]

/-- Step 4: TR names the incoming task (R302). -/
theorem watches_linkTasks {tsel : Word} (d : Desc) (pages : SwitchPages) (hn : isNull tsel = false)
    (hti : selTI tsel = false) (s : State) : Watches (linkTasks tsel d pages) s := by
  have ha := allowsRegisters_sameSegments.toAllowsAccess
  refine post_getState_bind <|
    watches_bind ((keeps_changeAccessByteIf ha ..).watches s) fun _ u =>
    watches_bind ((keeps_changeAccessByteIf ha ..).watches u) fun _ v => ?_
  exact ⟨fun h => h.congr rfl rfl, fun _ => taskNamed_of_selector hn hti⟩

theorem keeps_loadTaskLdt {R : State → State → Prop} (h : AllowsRegisters R) : Keeps R loadTaskLdt := by
  have hc := h.toComposes
  refine keeps_bind hc (keeps_getState hc) fun s =>
    keeps_ite (keeps_pure hc _) <| keeps_ite (keeps_raise hc _) <|
    keeps_bind hc (keeps_readDescOr h.toAllowsAccess ..) fun d => keeps_ite (keeps_raise hc _) ?_
  exact keeps_update fun t => h.registers t _ _ _ _ _ _ _

theorem loadTaskCS_post (s : State) :
    Post loadTaskCS s (fun _ t => Watched s t ∧ t.segs.cs.valid = true) (fun _ t => Watched s t) := by
  have ha := allowsAccess_accessed
  refine post_getState_bind <| post_check (post_raise (watched_refl s)) fun h0 =>
    post_seq (accessed_post (keeps_readDescOr ha ..) (accessed_refl s)) (fun d u hu => ?_)
      (fun _ _ h => h.watched)
  have hw := hu.watched
  refine post_check (post_raise hw) fun hcode => post_check (post_raise hw) fun h1 =>
    post_check (post_raise hw) fun h2 => post_check (post_raise hw) fun _ =>
    post_seq (require32_post d u) (fun _ v ⟨hv, hb⟩ => ?_) (fun _ t h => h ▸ hw)
  subst hv
  refine post_seq (accessed_post (keeps_setAccessed ha ..) hu) (fun _ t ht => post_update ?_)
    (fun _ _ h => h.watched)
  have hc := codeChecked_of_same_level (by simpa using h0) (by simpa using hcode) h1 h2
  exact ⟨(watched_withCS (t := t.withCS s.segs.cs.sel d s.cpl) hc hb (by simp [ht.segs]) rfl ht.tr).1, rfl⟩

theorem loadTaskSS_post (s : State) :
    Post loadTaskSS s (fun _ t => Watched s t ∧ (s.segs.cs.valid = true → t.Seated))
      (fun _ t => Watched s t) := by
  have ha := allowsAccess_accessed
  refine post_getState_bind <| post_check (post_raise (watched_refl s)) fun h0 =>
    post_seq (accessed_post (keeps_readDescOr ha ..) (accessed_refl s)) (fun d u hu => ?_)
      (fun _ _ h => h.watched)
  have hw := hu.watched
  refine post_check (post_raise hw) fun h1 => post_check (post_raise hw) fun h2 =>
    post_seq (require32_post d u) (fun _ v ⟨hv, hb⟩ => ?_) (fun _ t h => h ▸ hw)
  subst hv
  refine post_seq (accessed_post (keeps_setAccessed ha ..) hu) (fun _ t ht => post_update ?_)
    (fun _ _ h => h.watched)
  simp only [Bool.or_eq_true, bne_iff_ne, Bool.not_eq_true', not_or, not_not, Bool.not_eq_false] at h1
  obtain ⟨⟨hrpl, hwr⟩, hdpl⟩ := h1
  exact watched_withSS ht ⟨by simpa using h0, hrpl, hwr, hdpl, by simpa using h2, hb⟩

theorem protects_loadTaskData {name : SegName} (hcs : name ≠ .cs) (hss : name ≠ .ss) (s : State) :
    Protects (loadTaskData name) s := by
  have ha := allowsAccess_accessed
  refine post_getState_bind <| post_ite (fun _ => ⟨watched_refl s, id⟩) fun h0 =>
    post_seq (accessed_post (keeps_readDescOr ha ..) (accessed_refl s)) (fun d u hu => ?_)
      (fun _ _ h => h.watched)
  have hw := hu.watched
  refine post_check (post_raise hw) fun h1 => post_check (post_raise hw) fun h2 =>
    post_check (post_raise hw) fun h3 =>
    post_seq (accessed_post (keeps_setAccessed ha ..) hu) (fun _ t ht => post_update ?_)
      (fun _ _ h => h.watched)
  simp only [Bool.or_eq_true, Bool.not_eq_true', not_or, Bool.not_eq_false, Bool.not_eq_true] at h1
  obtain ⟨hseg, hrd⟩ := h1
  refine protected_of_dataChecked ht hcs hss ⟨by simpa using h0, hseg, Desc.readable_of hseg hrd, ?_,
    by simpa using h3⟩
  by_cases hconf : d.conforming = true
  · exact .inl hconf
  · exact .inr (by simpa [hconf] using h2)

/-- A task whose segments were all loaded has CS and SS (R312). -/
theorem seats_loadTaskSegments (s : State) : Seats loadTaskSegments s := by
  refine seats_bind ((keeps_loadTaskLdt allowsRegisters_sameSegments).watches s) fun _ t =>
    seats_watch_bind (loadTaskCS_post t) fun _ u hcs =>
    seats_watch_bind ((loadTaskSS_post u).mono (fun _ _ ⟨hw, hs⟩ => ⟨hw, hs hcs⟩) (fun _ _ h => h))
      fun _ v hv => Protects.seats ?_ hv
  exact protects_bind (protects_loadTaskData (by decide) (by decide) v) fun _ v =>
    protects_bind (protects_loadTaskData (by decide) (by decide) v) fun _ v =>
    protects_bind (protects_loadTaskData (by decide) (by decide) v) fun _ v =>
    protects_loadTaskData (by decide) (by decide) v

/-- The check of the target, the last of a transfer, moves nothing. -/
theorem seats_validateTask (s : State) : Seats validateTask s := by
  have hc := allowsRegisters_sameSegments.toComposes
  exact seats_bind_same (seats_loadTaskSegments s) fun _ =>
    keeps_bind hc (keeps_getState hc) fun _ => keeps_ite (keeps_pure hc _) (keeps_raise hc _)

theorem seats_whileTaken {m : Exec Unit} {s : State} (h : Seats m s) : Seats (whileTaken m) s := by
  have hd : ∀ t : State, SameSegments t t.discardPrefetch := fun _ => ⟨rfl, rfl, rfl⟩
  unfold Seats Post whileTaken at *
  cases hm : m s with
  | ok a t =>
    rw [hm] at h
    exact ⟨watched_trans h.1 (hd t).watched, (hd t).seated h.2⟩
  | error e t =>
    rw [hm] at h
    exact watched_trans h (hd t).watched

/-- Step 5 that answers has loaded CS and SS; one that raises leaves registers that are not valid
(R303, R304). -/
theorem seats_loadIncoming (cause : SwitchCause) (ps : List Nat) (s : State) :
    Seats (loadIncoming cause ps) s := by
  refine seats_access_bind (access_post (keeps_readPhys allowsAccess_accessed ps) s) fun img u _ _ =>
    post_check (seats_refuse ..) fun _ => seats_bind (m := update _) ?_ fun _ t =>
    seats_bind_same (seats_whileTaken (seats_validateTask t)) fun _ =>
      keeps_pure allowsRegisters_sameSegments.toComposes _
  exact ⟨fun _ => withTssImage_guarded .., taskNamed_of_tr rfl⟩

theorem seats_taskSwitch (cause : SwitchCause) (tsel : Word) (retEip : Dword) (s : State) :
    Seats (taskSwitch cause tsel retEip) s := by
  have ha := allowsRegisters_sameSegments.toAllowsAccess
  exact seats_access_bind (incomingTss_post cause tsel s) fun d u _ ⟨hn, hti⟩ =>
    seats_bind ((keeps_prepareSwitch ha ..).watches u) fun pages v =>
    seats_bind ((keeps_saveOutgoing ha ..).watches v) fun _ w =>
    seats_bind (watches_linkTasks d pages hn hti w) fun _ x => seats_loadIncoming cause pages.image x

theorem seats_switchByInstruction (cause : SwitchCause) (tsel : Word) (s : State) :
    Seats (switchByInstruction cause tsel) s := by
  have hc := allowsRegisters_sameSegments.toComposes
  exact post_getState_bind <| seats_bind_same (seats_taskSwitch ..) fun _ =>
    keeps_ite (keeps_raise hc _) (keeps_pure hc _)

/-! ## Far JMP and CALL -/

theorem protects_tssTransfer (kind : FarKind) (sel : Word) (d : Desc) (s : State) :
    Protects (tssTransfer kind sel d) s :=
  post_getState_bind <| post_check (protects_raise ..) fun _ => post_check (protects_raise ..) fun _ =>
    (seats_switchByInstruction ..).protects

theorem protects_taskGateTransfer (kind : FarKind) (sel : Word) (g : Desc) (s : State) :
    Protects (taskGateTransfer kind sel g) s :=
  post_getState_bind <| post_check (protects_raise ..) fun _ => post_check (protects_raise ..) fun _ =>
    (seats_switchByInstruction ..).protects

theorem protects_farTransfer (kind : FarKind) (sel : Word) (off : Dword) (s : State) :
    Protects (farTransfer kind sel off) s := by
  refine post_check (protects_raise ..) fun hn =>
    protects_access_bind (access_post (keeps_readDescOr allowsAccess_accessed ..) s) fun d u hu _ =>
    post_ite (fun hc => protects_directTransfer _ _ (by simpa using hn) hc u) fun _ =>
    post_check (protects_raise ..) fun _ => ?_
  split
  · exact protects_gateTransfer ..
  · exact protects_taskGateTransfer ..
  · exact protects_tssTransfer ..
  · exact protects_tssTransfer ..
  · exact protects_refuse ..
  · exact protects_refuse ..
  · exact protects_refuse ..
  · exact protects_raise ..

/-! ## Delivery (R357) -/

/-- Entry through a gate loads CS, and SS or finds it loaded (R357). -/
theorem seats_enterGate (g : Desc) (code : Option Dword) (retEip : Dword) (s : State) :
    Seats (enterGate g code retEip) s := by
  have hfl : Keeps SameSegments
      (update fun u => { u with eflags := flagsAfterEntry u.eflags g.isInterruptGate }) :=
    keeps_update fun _ => ⟨rfl, rfl, rfl⟩
  refine post_getState_bind <| seats_access_bind (gateTarget_post ..) fun t u hu ⟨hn, hc⟩ => ?_
  dsimp only
  rw [← hu.cpl]
  refine post_check (seats_raise ..) fun h1 => post_check (seats_raise ..) fun _ =>
    post_ite (fun h2 => ?_) fun h2 => post_check (watched_refl u) fun _ => ?_
  · obtain ⟨hcode, hle⟩ := codeChecked_inner hn hc h2
    exact seats_bind_same (seats_innerTransfer _ _ (keeps_pure allowsAccess_accessed.toComposes _) hcode hle)
      fun _ => hfl
  · exact seats_bind_same (seats_pushAndEnter _ _ (codeChecked_of_not_inner hn hc h1 h2)) fun _ => hfl

theorem seats_deliver (n : Nat) (code : Option Dword) (retEip : Dword) (software : Bool) (s : State) :
    Seats (deliver n code retEip software) s := by
  have hr := allowsRegisters_sameSegments
  have hc := hr.toComposes
  have hend : ∀ trap : Bool, Keeps SameSegments (update (·.discardPrefetch) >>= fun _ => pure trap) :=
    fun _ => keeps_bind hc (keeps_update fun _ => ⟨rfl, rfl, rfl⟩) fun _ => keeps_pure hc _
  refine seats_access_bind (access_post (keeps_idtGate allowsAccess_accessed ..) s) fun g u _ _ =>
    post_ite (fun _ => ?_) fun _ => ?_
  · refine seats_bind_same (seats_taskSwitch ..) fun trap => ?_
    cases code with
    | none => exact hend trap
    | some c => exact keeps_bind hc (keeps_pushAll hr _) fun _ => hend trap
  · exact seats_bind_same (seats_enterGate ..) fun _ => keeps_pure hc _

theorem seats_deliverException (e : Exception) (s : State) : Seats (deliverException e) s :=
  post_getState_bind <| seats_bind_same (seats_deliver ..) fun _ => keeps_update fun _ => ⟨rfl, rfl, rfl⟩

/-- Taking an exception ends with CS and SS loaded, wherever it was raised, or shuts the processor down
(R304, R357). -/
theorem takeException_protects {e : Exception} {s t : State} (h : takeException e s = .next t) :
    Watched s t ∧ (t.activity ≠ .shutdown → t.Seated) := by
  unfold takeException at h
  split at h
  · split at h
    · cases h
      obtain ⟨hw, hs⟩ := (seats_deliverException e s).of_ok ‹_›
      exact ⟨hw, fun _ => hs⟩
    · cases h
    · next u hu =>
      have hw := (seats_deliverException e s).of_error hu
      split at h
      · cases h
        obtain ⟨hw', hs⟩ := (seats_deliverException .df u).of_ok ‹_›
        exact ⟨watched_trans hw hw', fun _ => hs⟩
      · cases h
      · next v hv =>
        cases h
        have hw' := (seats_deliverException .df u).of_error hv
        have hd : SameSegments v { v with activity := .shutdown } := ⟨rfl, rfl, rfl⟩
        exact ⟨watched_trans (watched_trans hw hw') hd.watched, fun hne => absurd rfl hne⟩
  · exact (State.endRun_ne_next _ _ _ h).elim

/-! ## Every instruction and every step -/

/-- What an instruction or a step does: `Watched`, and CS and SS stay loaded short of a shutdown. -/
def Guards (s t : State) : Prop := Watched s t ∧ (s.Seated → t.activity ≠ .shutdown → t.Seated)

theorem Protects.conclude {m : Exec Unit} {s t : State} (hm : Protects m s)
    (h : conclude m s = .next t) : Guards s t := by
  unfold Machine.conclude at h
  split at h
  · cases h
    obtain ⟨hw, hs⟩ := hm.of_ok ‹_›
    exact ⟨hw, fun hseat _ => hs hseat⟩
  · obtain ⟨hw, hs⟩ := takeException_protects h
    exact ⟨watched_trans (hm.of_error ‹_›) hw, fun _ => hs⟩
  · cases h

theorem protects_raise_bind (e : Exception) (f : α → Exec β) (s : State) : Protects (raise e >>= f) s :=
  watched_refl s

theorem protects_refuse_bind (r : Refusal) (f : α → Exec β) (s : State) :
    Protects (refuse r >>= f) s := watched_refl s

theorem protects_advance (s : State) : Protects advance s :=
  (keeps_advance allowsRegisters_sameSegments).protects s

theorem execMovSreg_guards {sreg : BitVec 3} {src : RM} {s t : State}
    (h : execMovSreg sreg src s = .next t) : Guards s t := by
  have ha := allowsRegisters_sameSegments.toAllowsAccess
  refine Protects.conclude (protects_bind ((keeps_readRM16 ha src).protects s) fun sel u => ?_) h
  dsimp only
  split
  · exact protects_raise_bind ..
  · exact protects_raise_bind ..
  · exact protects_bind (protects_loadSS ..) fun _ => protects_advance
  · next name hcs hss _ =>
    exact protects_bind (protects_loadDataSeg sel (fun h => hcs (h ▸ rfl)) (fun h => hss (h ▸ rfl)) u)
      fun _ => protects_advance

/-- LTR loads TR with a selector of the GDT that is not null (R280). -/
theorem execLtr_guards {src : RM} {s t : State} (h : execLtr src s = .next t) : Guards s t := by
  have ha := allowsRegisters_sameSegments.toAllowsAccess
  refine Protects.conclude (protects_bind ((keeps_privileged ha.toComposes).protects s) fun _ u =>
    protects_bind ((keeps_readRM16 ha src).protects u) fun sel v => ?_) h
  refine post_check (protects_raise_bind ..) fun hn => post_check (protects_raise_bind ..) fun hti =>
    protects_bind ((keeps_readDescOr ha ..).protects v) fun d w => ?_
  refine post_check (protects_raise_bind ..) fun _ => post_check (protects_refuse_bind ..) fun _ =>
    post_check (protects_raise_bind ..) fun _ => post_check (protects_raise_bind ..) fun _ =>
    protects_bind ((keeps_setBusy ha sel).protects w) fun _ x =>
    protects_bind (m := update _) ?_ fun _ => protects_advance
  exact ⟨⟨fun h => h.congr rfl rfl,
    fun _ => taskNamed_of_selector (by simpa using hn) (by simpa using hti)⟩, id⟩

theorem execInt_guards {vector : Byte} {s t : State} (h : execInt vector s = .next t) : Guards s t := by
  have hc := allowsRegisters_sameSegments.toComposes
  exact (seats_bind_same (seats_deliver ..) fun _ =>
    keeps_ite (keeps_raise hc _) (keeps_pure hc _)).protects.conclude h

theorem execIret_guards {s t : State} (h : execIret s = .next t) : Guards s t :=
  Protects.conclude (post_ite
    (fun _ => protects_access_bind (access_post (keeps_sysRead allowsAccess_accessed ..) s) fun _ _ _ _ =>
      (seats_switchByInstruction ..).protects)
    (fun _ => protects_interruptReturn s)) h

theorem protects_farTransfer_mem (kind : FarKind) (ptr : RM) (s : State) :
    Protects (do let p ← readFarPointer ptr; farTransfer kind p.1 p.2) s :=
  protects_bind ((keeps_readFarPointer allowsRegisters_sameSegments.toAllowsAccess ptr).protects s)
    fun p => protects_farTransfer kind p.1 p.2

theorem exec_guards_of_loadsSegments {i : Instr} {s t : State} (hi : loadsSegments i = true)
    (h : exec i s = .next t) : Guards s t := by
  cases i with
  | movSreg sreg src => exact execMovSreg_guards h
  | jmpFar sel off => exact (protects_farTransfer ..).conclude h
  | jmpFarMem ptr => exact (protects_farTransfer_mem ..).conclude h
  | callFar sel off => exact (protects_farTransfer ..).conclude h
  | callFarMem ptr => exact (protects_farTransfer_mem ..).conclude h
  | retf => exact (protects_farReturn ..).conclude h
  | retfImm n => exact (protects_farReturn ..).conclude h
  | int vector => exact execInt_guards h
  | iret => exact execIret_guards h
  | ltr src => exact execLtr_guards h
  | _ => cases hi

theorem exec_guards {i : Instr} {s t : State} (h : exec i s = .next t) : Guards s t := by
  cases hi : loadsSegments i with
  | false =>
    obtain ⟨m, hm, hpost⟩ := runs_of_not_loadsSegments allowsRegisters_sameSegments s hi
    have hprot : Protects m s :=
      hpost.mono (fun _ _ k => ⟨k.watched, k.seated⟩) (fun _ _ k => k.watched)
    exact hprot.conclude (hm ▸ h)
  | true => exact exec_guards_of_loadsSegments hi h

theorem step_guards {s t : State} (h : step s = .next t) : Guards s t := by
  obtain ⟨u, hu, hlast⟩ := step_eq_next h
  have hs : SameSegments s u := ⟨hu.segs, hu.cpl, hu.tr⟩
  obtain ⟨e, d, h⟩ | ⟨i, n, h⟩ := hlast
  · have hd : SameSegments u { u with debugTrap := d } := ⟨rfl, rfl, rfl⟩
    obtain ⟨hw, hseat⟩ := takeException_protects h
    exact ⟨watched_trans (watched_trans hs.watched hd.watched) hw, fun _ => hseat⟩
  · have hn : SameSegments u { u with nextEip := n } := ⟨rfl, rfl, rfl⟩
    obtain ⟨hw, hseat⟩ := exec_guards h
    exact ⟨watched_trans (watched_trans hs.watched hn.watched) hw,
      fun k => hseat (hn.seated (hs.seated k))⟩

/-- Settles O10, by the walk over the instructions in `exec_guards` and delivery in
`takeException_protects`. -/
theorem stepKeepsProtection : Obligations.StepKeepsProtection := by
  intro s t hs h
  obtain ⟨hw, hseat⟩ := step_guards h
  exact ⟨hw.guarded hs, hseat, hw.named⟩

end Sys2Proof.Machine

/-! The flags bit by bit, the step where it runs no instruction, the state after reset, and what step 5 of a
task switch loads (R24, R25, R243, R303, R391). -/

namespace Sys2Proof.Machine

open Sys2Proof

/-! ## EFLAGS bit by bit (R25, R237, R357, R358) -/

/-- The bits that hold no flag, in the words of R25. -/
theorem isFlagBit_eq_false_iff {k : Nat} (hk : k < 32) :
    isFlagBit k = false ↔ k = 1 ∨ k = 3 ∨ k = 5 ∨ k = 15 ∨ 18 ≤ k := by
  interval_cases k <;> simp [isFlagBit]

theorem eflagsOf_getLsbD_fixed (v : Dword) {k : Nat} (hk : k < 32) : (eflagsOf v).getLsbD k =
    if k = 1 then true else if k = 3 ∨ k = 5 ∨ k = 15 ∨ 18 ≤ k then false else v.getLsbD k := by
  have hfixed := isFlagBit_eq_false_iff hk
  rw [eflagsOf_getLsbD v k hk]
  grind

theorem drawArithFlags_getLsbD (fl : Dword) (draw : BitVec 6) {k : Nat} (hk : k ∉ [0, 2, 4, 6, 7, 11]) :
    (drawArithFlags fl draw).getLsbD k = fl.getLsbD k := by
  simp only [List.mem_cons, List.not_mem_nil, or_false, not_or] at hk
  simp [drawArithFlags, withBit_getLsbD, hk]

theorem flagsAfterEntry_getLsbD (fl : Dword) (ig : Bool) (k : Nat) : (flagsAfterEntry fl ig).getLsbD k =
    if k = 8 ∨ k = 14 ∨ k = 9 ∧ ig = true then false else fl.getLsbD k := by
  cases ig with
  | false => simp (disch := decide) [flagsAfterEntry, bitTF, bitNT, withBit_getLsbD]; grind
  | true => simp (disch := decide) [flagsAfterEntry, bitTF, bitIF, bitNT, withBit_getLsbD]; grind

/-- IRET writes IOPL at CPL 0 only (R358). -/
theorem keepIopl_getLsbD (old v : Dword) (cpl : Level) (k : Nat) :
    (if cpl = 0 then v
      else withBit (withBit v 12 (old.getLsbD 12)) 13 (old.getLsbD 13)).getLsbD k =
      if (k = 12 ∨ k = 13) ∧ cpl ≠ 0 then old.getLsbD k else v.getLsbD k := by
  split
  · simp [*]
  · rw [withBit_getLsbD _ _ _ _ (by decide), withBit_getLsbD _ _ _ _ (by decide)]
    grind

/-- It writes IF only where `CPL <= IOPL` (R358). -/
theorem keepIf_getLsbD (old v : Dword) (cpl : Level) (k : Nat) :
    (if cpl ≤ iopl old then v else withBit v bitIF (old.getLsbD bitIF)).getLsbD k =
      if k = 9 ∧ iopl old < cpl then old.getLsbD k else v.getLsbD k := by
  have hif : cpl ≤ iopl old ↔ ¬iopl old < cpl := BitVec.not_lt.symm
  split
  · simp [hif.mp ‹_›]
  · rw [withBit_getLsbD _ _ _ _ (by decide)]
    grind [bitIF]

theorem flagsAfterIret_getLsbD (old image : Dword) (cpl : Level) (k : Nat) :
    (flagsAfterIret old image cpl).getLsbD k =
      if k = 17 then old.getLsbD k
      else if (k = 12 ∨ k = 13) ∧ cpl ≠ 0 then old.getLsbD k
      else if k = 9 ∧ iopl old < cpl then old.getLsbD k
      else (eflagsOf image).getLsbD k := by
  unfold flagsAfterIret
  rw [withBit_getLsbD _ _ _ _ (by decide), keepIf_getLsbD, keepIopl_getLsbD]
  grind [bitVM]

/-- Settles O22, from one lemma for each change of EFLAGS. -/
theorem flagUpdates : Obligations.FlagUpdates := fun old image b ig draw cpl k hk =>
  ⟨eflagsOf_getLsbD_fixed image hk, withBit_getLsbD old bitZF b k (by decide),
    drawArithFlags_getLsbD old draw, flagsAfterEntry_getLsbD old ig k,
    flagsAfterIret_getLsbD old image cpl k⟩

/-! ## The step (R24, R38, R92, R243) -/

theorem step_halted {s : State} (h : s.activity = .halted) : step s = s.endRun .halted := by
  unfold step; rw [h]

theorem step_shutdown {s : State} (h : s.activity = .shutdown) : step s = s.endRun .shutdown := by
  unfold step; rw [h]

theorem step_running {s : State} (h : s.activity = .running) :
    step s = runStep { s with draws := s.draws + 1 } := by
  unfold step; rw [h]

theorem runStep_outside {s : State} {r : Refusal} (h : outsideModes s = some r) :
    runStep s = .refused r := by
  unfold runStep; rw [h]

theorem runStep_debugTrap {s : State} (h : outsideModes s = none) (hd : s.debugTrap = true) :
    runStep s = takeException .db { s with debugTrap := false } := by
  unfold runStep; rw [h]
  exact if_pos hd

/-- How a step goes on after its fetch. -/
def afterFetch : EStateM.Result Stop State Decoded → Host.Outcome State Fault Refusal
  | .error (.exc e) t => takeException e t
  | .error (.refuse r) _ => .refused r
  | .ok .ud t => takeException .ud t
  | .ok (.needMore _) _ => .refused (.undecoded .noRow)
  | .ok (.refused why) _ => .refused (.undecoded why)
  | .ok (.instr i len) t => exec i { t with nextEip := t.eip + BitVec.ofNat 32 len }

theorem runStep_fetch {s : State} (h : outsideModes s = none) (hd : s.debugTrap = false) :
    runStep s = afterFetch (fetch s) := by
  unfold runStep; rw [h]
  refine (if_neg (by simp [hd])).trans ?_
  cases fetch s with
  | ok d t => cases d <;> rfl
  | error e t => cases e <;> rfl

theorem step_outside {s : State} {r : Refusal} (ha : s.activity = .running)
    (h : outsideModes s = some r) : step s = .refused r :=
  (step_running ha).trans (runStep_outside (s := { s with draws := s.draws + 1 }) h)

theorem step_debugTrap {s : State} (ha : s.activity = .running) (h : outsideModes s = none)
    (hd : s.debugTrap = true) :
    step s = takeException .db { s with draws := s.draws + 1, debugTrap := false } :=
  (step_running ha).trans (runStep_debugTrap (s := { s with draws := s.draws + 1 }) h hd)

theorem step_fetch {s : State} (ha : s.activity = .running) (h : outsideModes s = none)
    (hd : s.debugTrap = false) : step s = afterFetch (fetch { s with draws := s.draws + 1 }) :=
  (step_running ha).trans (runStep_fetch (s := { s with draws := s.draws + 1 }) h hd)

/-- The first byte of an instruction is checked against the limit of CS before it is fetched (R92). -/
theorem fetch_beyond_limit {s : State} (h : s.segs.cs.valid = false ∨
    s.segs.cs.expandDown = false ∧ s.segs.cs.limit.toNat < s.eip.toNat) :
    fetch s = .error (.exc (.gp 0)) s := by
  have hl : fetchLimit 1 s = .error (.exc (.gp 0)) s := by
    unfold fetchLimit
    rw [run_bind_getState, run_ite, run_ite]
    obtain hv | ⟨he, hlt⟩ := h
    · simp [hv]
    · have : limitOK s.segs.cs s.eip.toNat 1 = false := by simp [limitOK, he, hlt]
      simp [this]
  exact run_bind_error hl

/-- Settles O5: `step_fetch` at a fetch that gives an instruction, and a fetch only reads. -/
theorem stepRunsDecoded : Obligations.StepRunsDecoded := by
  intro s u i n ha ho hd hf
  refine ⟨?_, reads_fetch.of_ok hf⟩
  rw [step_fetch ha ho hd, hf]
  rfl

theorem State.endRun_eq (s : State) (f : Fault) :
    s.endRun f = if s.storedAhead = [] then .fault f else .refused .staleCode := by
  split
  · exact State.endRun_of_empty ‹_› f
  · exact State.endRun_refused ‹_› f

/-- The states outside the modes and forms of the spec (R391 P1, P2, P5). -/
theorem outsideModes_eq (s : State) : outsideModes s =
    if s.ctl.cr0.getLsbD 0 = false then some .realAddressMode
    else if s.eflags.getLsbD 17 = true then some .virtual8086Mode
    else if s.segs.cs.valid = true ∧ s.segs.cs.db = false ∨
        s.segs.ss.valid = true ∧ s.segs.ss.db = false then some .sixteenBitForm
    else none := by
  simp only [outsideModes, bitPE, bitVM, Bool.and_eq_true, Bool.not_eq_true']
  split
  · rfl
  · split
    · rfl
    · by_cases hcs : s.segs.cs.valid = true ∧ s.segs.cs.db = false <;> simp [hcs]

/-- Settles O7, from one lemma for each way a step ends without an instruction. -/
theorem stepRunsNoInstruction : Obligations.StepRunsNoInstruction := by
  intro s
  refine ⟨fun h => (step_halted h).trans (State.endRun_eq ..),
    fun h => (step_shutdown h).trans (State.endRun_eq ..), outsideModes_eq s,
    fun r => step_outside, fun ha ho => ⟨step_debugTrap ha ho, fun hd => ?_⟩⟩
  rw [step_fetch ha ho hd]
  refine ⟨fun h => ?_, fun e u h => ?_, fun r u h => ?_, fun u h => ?_, fun why u h => ?_⟩
  · rw [fetch_beyond_limit (s := { s with draws := s.draws + 1 }) h]; rfl
  all_goals rw [h]; rfl

/-! ## The state after reset (R39, R40, R391) -/

theorem reset_controlOK : State.reset.ControlOK := by
  constructor <;> decide

theorem reset_guarded : State.reset.Guarded where
  level := by decide
  code _ := by constructor <;> decide
  stack _ := by constructor <;> decide
  data n hcs hss hv := by cases n <;> first | exact absurd rfl hcs | exact absurd rfl hss | cases hv
  null n hn := by revert hn; cases n <;> decide

/-- All of physical memory is there. -/
theorem reset_flat : State.reset.Flat := by
  refine ⟨by decide, fun lin => ?_⟩
  have : lin.toNat < 4294967296 := lin.isLt
  simp [State.hasMemory, State.reset, Config.physBits, this]

/-- Settles O11. TR holds the null selector, so that P7 does not hold. -/
theorem resetMeetsInvariants : Obligations.ResetMeetsInvariants := by
  refine ⟨rfl, reset_controlOK, reset_guarded, ⟨rfl, rfl⟩, reset_flat, fun hnt => ?_, fun h => ?_⟩
  · exact absurd hnt (by decide)
  · exact absurd h.named (by decide)

/-! ## Step 5 of the task switch (R303, R306) -/

theorem incomingFlags_getLsbD (cause : SwitchCause) (image : Dword) {k : Nat} (hk : k < 32)
    (hnt : k ≠ bitNT) : (incomingFlags cause image).getLsbD k = (eflagsOf image).getLsbD k := by
  have hbit : ∀ b, (eflagsOf (withBit image bitNT b)).getLsbD k = (eflagsOf image).getLsbD k := fun b => by
    rw [eflagsOf_getLsbD _ k hk, eflagsOf_getLsbD _ k hk, withBit_getLsbD _ _ _ _ (by decide), if_neg hnt]
  cases cause with
  | jmp => exact hbit _
  | call => exact hbit _
  | int => exact hbit _
  | iret => rfl

/-- NT of the incoming task, as Table 7-2 has it. -/
theorem incomingFlags_nt (cause : SwitchCause) (image : Dword) :
    (incomingFlags cause image).getLsbD bitNT = true ↔
      cause = .call ∨ cause = .int ∨ cause = .iret ∧ image.getLsbD bitNT = true := by
  have hbit : ∀ v, (eflagsOf v).getLsbD bitNT = v.getLsbD bitNT := fun v => by
    rw [eflagsOf_getLsbD _ _ (by decide)]; rfl
  have hset : ∀ b, (withBit image bitNT b).getLsbD bitNT = b := fun b => by
    rw [withBit_getLsbD _ _ _ _ (by decide), if_pos rfl]
  cases cause <;> simp [incomingFlags, hbit, hset]

/-- Settles O59, by the laws of `State.withTssImage` and the two lemmas about its flags. -/
theorem incomingImageLoaded : Obligations.IncomingImageLoaded := by
  intro s cause img
  refine ⟨rfl, fun k hk hnt => incomingFlags_getLsbD cause _ hk hnt, incomingFlags_nt cause _, rfl, rfl,
    fun name => by cases name <;> rfl, rfl, rfl, rfl, fun hp => ?_, fun hp => ?_, rfl, rfl, rfl, rfl⟩
  · simp [hp, cr3Of]
  · simp [hp]

end Sys2Proof.Machine

/-! The checks of an access. -/

namespace Sys2Proof.Machine

open Sys2Proof

/-! ## Limits (R74, R91) -/

theorem limitOK_eq_true_iff (g : SegReg) (off n : Nat) : limitOK g off n = true ↔
    if g.expandDown then
      g.limit.toNat + 1 ≤ off ∧ off + n - 1 ≤ if g.db then 2 ^ 32 - 1 else 2 ^ 16 - 1
    else off + n - 1 ≤ g.limit.toNat := by
  unfold limitOK
  split <;> simp

theorem limitOK_of_expandUp {g : SegReg} (h : g.expandDown = false) (off n : Nat) :
    limitOK g off n = decide (off + n - 1 ≤ g.limit.toNat) := by
  simp [limitOK, h]

/-- The effective limit is the field as it stands, or with twelve one-bits appended (R74). -/
theorem Desc.effLimit_toNat (d : Desc) : d.effLimit.toNat =
    if d.hi.getLsbD 23 then d.limit.toNat * 4096 + 4095 else d.limit.toNat := by
  have hl : d.limit.toNat < 2 ^ 20 := d.limit.isLt
  unfold Desc.effLimit
  split
  · rw [BitVec.toNat_append, ← Nat.shiftLeft_add_eq_or_of_lt (by decide), Nat.shiftLeft_eq]
    rfl
  · exact BitVec.toNat_setWidth_of_le (by decide)

/-- Settles O14, from what the limit check asks for and the effective limit as a number. -/
theorem limitsOfSegments : Obligations.LimitsOfSegments := by
  refine ⟨fun g off n _ => ⟨fun hup => ?_, fun hdown => ?_⟩, fun d => ?_⟩
  · simp only [limitOK_of_expandUp hup, decide_eq_true_eq, decide_eq_false_iff_not, true_and]
    refine ⟨?_, ?_, ?_⟩ <;> omega
  · rw [limitOK_eq_true_iff, if_pos hdown]
  · have hl : d.limit.toNat < 2 ^ 20 := d.limit.isLt
    have he := d.effLimit_toNat
    refine ⟨fun hg => ?_, fun hg => ?_⟩ <;> simp only [hg, if_true, Bool.false_eq_true, if_false] at he
    · exact ⟨he, by omega⟩
    · exact ⟨he, by omega, by omega⟩

/-! ## The checks through a segment register (R90) -/

/-- The segment may be written, or read, as the access asks. -/
def SegReg.allows (g : SegReg) (wr : Bool) : Bool := if wr then g.canWrite else g.canRead

theorem SegReg.allows_write (g : SegReg) :
    g.allows true = (!g.typ.getLsbD 3 && g.typ.getLsbD 1) := rfl

theorem SegReg.allows_read (g : SegReg) :
    g.allows false = (!g.typ.getLsbD 3 || g.typ.getLsbD 1) := rfl

section SegCheck

variable {name : SegName} {off : Dword} {n : Nat} {wr : Bool} {s : State}

/-- `segCheck` as one chain of checks: a write into an executable segment is one into a segment that is not
writable. -/
theorem segCheck_eq (name : SegName) (off : Dword) (n : Nat) (wr : Bool) (s : State) :
    segCheck name off n wr s =
      if (s.segs.get name).valid = false ∨ (s.segs.get name).allows wr = false then
        .error (.exc (.gp 0)) s
      else if limitOK (s.segs.get name) off.toNat n then .ok ((s.segs.get name).base + off) s
      else if name = .ss then .error (.exc (.sf 0)) s else .error (.exc (.gp 0)) s := by
  unfold segCheck
  rw [run_bind_getState]
  simp only [run_ite]
  simp only [run_raise, run_pure, SegReg.code, SegReg.allows, SegReg.canWrite, SegReg.canRead]
  cases wr <;> grind

theorem segCheck_denied (h : (s.segs.get name).valid = false ∨ (s.segs.get name).allows wr = false) :
    segCheck name off n wr s = .error (.exc (.gp 0)) s := by
  rw [segCheck_eq, if_pos h]

theorem segCheck_allowed (hv : (s.segs.get name).valid = true)
    (ha : (s.segs.get name).allows wr = true) : segCheck name off n wr s =
      if limitOK (s.segs.get name) off.toNat n then .ok ((s.segs.get name).base + off) s
      else if name = .ss then .error (.exc (.sf 0)) s else .error (.exc (.gp 0)) s := by
  rw [segCheck_eq, if_neg (by simp [hv, ha])]

end SegCheck

/-- A read through a segment register is its check and then the read. -/
theorem segRead_of_segCheck {name : SegName} {off a : Dword} {n : Nat} {s t : State}
    (h : segCheck name off n false s = .ok a t) : segRead name off n s = memRead a n t := run_bind_ok h

theorem segWrite_of_segCheck {name : SegName} {off a : Dword} {bs : List Byte} {s t : State}
    (h : segCheck name off bs.length true s = .ok a t) : segWrite name off bs s = memWrite a bs t :=
  run_bind_ok h

/-- Settles O15, by the chain of checks `segCheck_eq`. -/
theorem segmentCheck : Obligations.SegmentCheck := by
  intro s name off n wr g gp
  refine ⟨fun hv => segCheck_denied (.inl hv), fun _ hw h3 => segCheck_denied (.inr ?_),
    fun _ hw _ h1 => segCheck_denied (.inr ?_), fun _ hw h3 h1 => segCheck_denied (.inr ?_),
    fun hv hacc => segCheck_allowed hv ?_, fun _ => segRead_of_segCheck, fun _ _ => run_bind_error,
    fun _ _ => segWrite_of_segCheck, fun _ _ _ => run_bind_error⟩
  · rw [hw, SegReg.allows_write, h3, Bool.not_true, Bool.false_and]
  · rw [hw, SegReg.allows_write, h1, Bool.and_false]
  · rw [hw, SegReg.allows_read, h3, h1]; rfl
  · cases wr with
    | false => simpa [SegReg.allows_read] using hacc
    | true => simpa [SegReg.allows_write] using hacc

end Sys2Proof.Machine

/-! Page translation. -/

namespace Sys2Proof.Machine

open Sys2Proof

/-! ## Looking up a linear address (R96, R113) -/

theorem lookup_of_oldLookups_nil {s : State} {lin : Dword} (h : oldLookups s lin = []) :
    lookup s lin = walk s lin := by
  unfold lookup; rw [h]

/-- A lookup is that of the tables as they stand or of a memory from before a store (R113). -/
theorem lookup_cases (s : State) (lin : Dword) :
    lookup s lin = walk s lin ∨ ∃ m ∈ s.pastMemory, lookup s lin = walkIn s m lin := by
  unfold lookup
  split
  · exact .inl rfl
  · next l ls hold =>
    generalize Config.staleChoice s.draws % (ls.length + 2) = k
    cases hk : (l :: ls)[k]? with
    | none => exact .inl (by rw [List.getD_eq_getElem?_getD, hk]; rfl)
    | some x =>
      have hx : x ∈ oldLookups s lin := hold ▸ List.mem_of_getElem? hk
      obtain ⟨m, hm, rfl⟩ := List.mem_map.mp (List.mem_filter.mp hx).1
      exact .inr ⟨m, hm, by rw [List.getD_eq_getElem?_getD, hk]; rfl⟩

section Walk

variable {s : State} {lin : Dword}

theorem walk_of_pde_absent (hm : s.hasDword (pdeAddr s lin) = true)
    (hp : (s.mem.dword (pdeAddr s lin)).getLsbD 0 = false) :
    walk s lin = .notPresent [pdeAddr s lin] := by
  unfold walk walkIn
  rw [hm, hp]
  rfl

/-- The walk where the directory entry is present (R96). -/
theorem walk_of_pde (hm : s.hasDword (pdeAddr s lin) = true)
    (hp : (s.mem.dword (pdeAddr s lin)).getLsbD 0 = true)
    (hm' : s.hasDword (pteAddr (s.mem.dword (pdeAddr s lin)) lin) = true) :
    walk s lin =
      if (s.mem.dword (pteAddr (s.mem.dword (pdeAddr s lin)) lin)).getLsbD 0 = false then
        .notPresent [pdeAddr s lin, pteAddr (s.mem.dword (pdeAddr s lin)) lin]
      else .mapped (translationOf (s.mem.dword (pdeAddr s lin))
          (s.mem.dword (pteAddr (s.mem.dword (pdeAddr s lin)) lin)))
        [pdeAddr s lin, pteAddr (s.mem.dword (pdeAddr s lin)) lin] := by
  unfold walk walkIn
  rw [hm, hp, hm']
  simp

end Walk

theorem Translation.phys_eq (t : Translation) (lin : Dword) :
    t.phys lin = t.frame.toNat * 4096 + (lin.extractLsb' 0 12).toNat := by
  unfold Translation.phys
  rw [BitVec.toNat_append, ← Nat.shiftLeft_add_eq_or_of_lt (lin.extractLsb' 0 12).isLt, Nat.shiftLeft_eq]

/-- The entries of a lookup are noted as used (R96). -/
theorem State.mem_walked_noteLookup (s : State) (lin : Dword) {es : List Nat} {p : Nat} (h : p ∈ es) :
    p ∈ (s.noteLookup lin es).walked := by
  rw [State.noteLookup_walked, List.mem_append, List.mem_filter]
  by_cases hp : p ∈ s.walked <;> simp [h, hp]

/-! ## The page check (R103) -/

/-- How a page fault leaves the machine: the linear address is in CR2 (R103, R344). -/
def pageFault (α : Type) (lin : Dword) (code : Word) (u : State) : EStateM.Result Stop State α :=
  .error (.exc (.pf lin code)) { u with ctl := { u.ctl with cr2 := lin } }

theorem pfCode_eq_sum (present : Bool) (acc : Access) (user : Bool) : pfCode present acc user =
    (if present then 1 else 0) + (if acc = .write then 2 else 0) + (if user then 4 else 0) := by
  cases present <;> cases acc <;> cases user <;> decide

/-- The page allows the access: an access at user level needs a user page, and to write it a writable one
(R99, R100). -/
def Translation.allows (t : Translation) (acc : Access) (user : Bool) : Bool :=
  !user || t.user && (acc != Access.write || t.writable)

theorem Translation.allows_iff {t : Translation} {acc : Access} {user : Bool} : t.allows acc user = true ↔
    (user = true → t.user = true ∧ (acc = .write → t.writable = true)) := by
  unfold Translation.allows
  cases user <;> simp [imp_iff_not_or]

section PageCheck

variable {s u : State} {acc : Access} {user : Bool} {lin : Dword} {t : Translation} {es : List Nat} {p : Nat}

theorem pageCheck_unpaged (acc : Access) (user : Bool) (lin : Dword) (h : s.paging = false) :
    pageCheck acc user lin s = .ok lin.toNat s := by
  unfold pageCheck
  rw [run_bind_getState, run_ite, if_pos (by simp [h]), run_pure]

/-- With paging the lookup is noted, and then its answer decides. -/
theorem pageCheck_paged (h : s.paging = true) : pageCheck acc user lin s =
    match lookup s lin with
    | .noMemory => .error (.refuse .noMemory) (s.noteLookup lin [])
    | .notPresent es => pageFault Nat lin (pfCode false acc user) (s.noteLookup lin es)
    | .mapped t es =>
      if t.allows acc user then .ok (t.phys lin) (s.noteLookup lin es)
      else pageFault Nat lin (pfCode true acc user) (s.noteLookup lin es) := by
  unfold pageCheck
  rw [run_bind_getState, run_ite, if_neg (by simp [h]), run_bind_update]
  cases lookup s lin with
  | noMemory => rfl
  | notPresent es => rfl
  | mapped t es =>
    show (if _ then _ else _ : Exec Nat) _ = _
    simp only [run_ite]
    change (if _ then pageFault Nat lin (pfCode true acc user) (s.noteLookup lin es)
      else if _ then pageFault Nat lin (pfCode true acc user) (s.noteLookup lin es)
      else .ok (t.phys lin) (s.noteLookup lin es)) = _
    unfold Translation.allows
    cases user <;> cases t.user <;> cases t.writable <;> cases acc <;> rfl

theorem pageCheck_notPresent (h : s.paging = true) (hl : lookup s lin = .notPresent es) :
    pageCheck acc user lin s = pageFault Nat lin (pfCode false acc user) (s.noteLookup lin es) := by
  rw [pageCheck_paged h, hl]

theorem pageCheck_mapped (h : s.paging = true) (hl : lookup s lin = .mapped t es) :
    pageCheck acc user lin s =
      if t.allows acc user then .ok (t.phys lin) (s.noteLookup lin es)
      else pageFault Nat lin (pfCode true acc user) (s.noteLookup lin es) := by
  rw [pageCheck_paged h, hl]

theorem pageCheck_allowed (h : s.paging = true) (hl : lookup s lin = .mapped t es)
    (ha : t.allows acc user = true) :
    pageCheck acc user lin s = .ok (t.phys lin) (s.noteLookup lin es) := by
  rw [pageCheck_mapped h hl, if_pos ha]

theorem pageCheck_denied (h : s.paging = true) (hl : lookup s lin = .mapped t es)
    (ha : t.allows acc user = false) :
    pageCheck acc user lin s = pageFault Nat lin (pfCode true acc user) (s.noteLookup lin es) := by
  rw [pageCheck_mapped h hl, if_neg (by simp [ha])]

/-- A page check with paging that passes. -/
theorem pageCheck_ok (h : s.paging = true) (hr : pageCheck acc user lin s = .ok p u) :
    ∃ t es, lookup s lin = .mapped t es ∧ t.allows acc user = true ∧ p = t.phys lin ∧
      u = s.noteLookup lin es := by
  rw [pageCheck_paged h] at hr
  cases hl : lookup s lin with
  | noMemory => rw [hl] at hr; cases hr
  | notPresent es => rw [hl] at hr; cases hr
  | mapped t es =>
    rw [hl] at hr
    by_cases ha : t.allows acc user = true
    · simp only [if_pos ha] at hr
      cases hr
      exact ⟨t, es, rfl, ha, rfl, rfl⟩
    · simp only [if_neg ha] at hr
      cases hr

end PageCheck

/-- Settles O16: without an old translation the lookup is the walk, and the page check follows it. -/
theorem pageTranslation : Obligations.PageTranslation := by
  intro s acc user lin
  refine ⟨pageCheck_unpaged acc user lin, fun hpg hold hpde => ?_, lookup_cases s lin,
    fun cells hu hc => ?_, fun p u hpg hold hr => ?_⟩
  · intro pde pte code fault
    have hlook := lookup_of_oldLookups_nil hold
    have hfault : ∀ present u, pageFault Nat lin (pfCode present acc user) u = fault present u := by
      intro present u; rw [pfCode_eq_sum]; rfl
    refine ⟨fun h0 => ?_, fun h1 hpte => ?_⟩
    · refine ⟨s.noteLookup lin [pdeAddr s lin], .noteLookup .., s.mem_walked_noteLookup lin (by simp), ?_⟩
      rw [← hfault, pageCheck_notPresent hpg (hlook.trans (walk_of_pde_absent hpde h0))]
    · have hwalk := hlook.trans (walk_of_pde hpde h1 hpte)
      refine ⟨s.noteLookup lin [pdeAddr s lin, pteAddr pde lin], .noteLookup ..,
        s.mem_walked_noteLookup lin (by simp), s.mem_walked_noteLookup lin (by simp), fun h0 => ?_,
        fun h0 => ?_⟩
      · rw [if_pos h0] at hwalk
        rw [← hfault, pageCheck_notPresent hpg hwalk]
      · rw [if_neg (by rw [show BitVec.getLsbD _ 0 = true from h0]; simp)] at hwalk
        rw [pageCheck_mapped hpg hwalk, Translation.phys_eq, ← hfault]
        have hallows : (translationOf pde pte).allows acc user = true ↔
            (user = true → (pde.getLsbD 2 = true ∧ pte.getLsbD 2 = true) ∧
              (acc = .write → pde.getLsbD 1 = true ∧ pte.getLsbD 1 = true)) := by
          rw [Translation.allows_iff]
          simp only [translationOf, Bool.and_eq_true]
        by_cases ha : (translationOf pde pte).allows acc user = true
        · rw [if_pos ha, if_neg fun h => h.2 (hallows.mp ha h.1).1,
            if_neg fun h => h.2.2 ((hallows.mp ha h.1).2 h.2.1)]
          rfl
        · rw [if_neg ha]
          by_cases huser : user = true ∧ ¬(pde.getLsbD 2 = true ∧ pte.getLsbD 2 = true)
          · rw [if_pos huser]
          · rw [if_neg huser, if_pos]
            rw [hallows] at ha
            grind
  · have : cells.isEmpty = false := by simpa using hc
    simp [hu, this]
  · obtain ⟨t, es, -, -, -, rfl⟩ := pageCheck_ok hpg hr
    rw [State.noteLookup_draws, if_neg (by simpa using hold)]

end Sys2Proof.Machine

/-! Reading and writing linear memory. -/

namespace Sys2Proof.Machine

open Sys2Proof

/-! ## The bytes of an access (R62, R103) -/

theorem State.hasMemory_congr {s t : State} (h : t.memMap = s.memMap) (p : Nat) :
    t.hasMemory p = s.hasMemory p := by
  unfold State.hasMemory; rw [h]

theorem State.ReadTo.hasMemory {s t : State} (h : s.ReadTo t) (p : Nat) :
    t.hasMemory p = s.hasMemory p := State.hasMemory_congr h.memMap p

section Access

variable {s u : State} {acc : Access} {user : Bool} {lin : Dword} {n p : Nat} {ps : List Nat} {e : Stop}

theorem pageCheckRange_one_ok (h : pageCheck acc user lin s = .ok p u) :
    pageCheckRange acc user lin 1 s = .ok [p] u := by
  have hnil : pageCheckRange acc user (lin + 1) 0 u = .ok [] u := rfl
  unfold pageCheckRange
  rw [run_bind_ok h, run_bind_ok hnil, run_pure]

theorem translateRange_one_ok (h : pageCheck acc user lin s = .ok p u) (hm : s.hasMemory p = true) :
    translateRange acc user lin 1 s = .ok [p] u := by
  refine translateRange_ok_iff.mpr ⟨pageCheckRange_one_ok h, fun q hq => ?_⟩
  rw [List.mem_singleton.mp hq, ((reads_pageCheck ..).of_ok h).hasMemory, hm]

theorem pageCheck_of_translateRange_one (h : translateRange acc user lin 1 s = .ok [p] u) :
    pageCheck acc user lin s = .ok p u ∧ s.hasMemory p = true := by
  obtain ⟨hr, hm⟩ := translateRange_ok_iff.mp h
  obtain ⟨q, v, hq, hrest⟩ := bind_eq_ok hr
  cases hrest
  refine ⟨hq, ?_⟩
  rw [← ((reads_pageCheck ..).of_ok hq).hasMemory]
  exact hm p (by simp)

theorem translateRange_of_pageCheckRange_error (h : pageCheckRange acc user lin n s = .error e u) :
    translateRange acc user lin n s = .error e u := run_bind_error h

theorem translateRange_one_error (h : pageCheck acc user lin s = .error e u) :
    translateRange acc user lin 1 s = .error e u :=
  translateRange_of_pageCheckRange_error (run_bind_error h)

/-- All the page checks come before the question whether there is memory (R62, R103). -/
theorem translateRange_noMemory (h : pageCheckRange acc user lin n s = .ok ps u)
    (hm : ∃ p ∈ ps, s.hasMemory p = false) :
    translateRange acc user lin n s = .error (.refuse .noMemory) u := by
  obtain ⟨p, hp, hf⟩ := hm
  rw [← ((reads_pageCheckRange ..).of_ok h).hasMemory] at hf
  unfold translateRange
  rw [run_bind_ok h, run_bind_error (requireMemory_refuses hp hf)]

end Access

/-- Settles O17: the page check asks for `Translation.allows`, whatever translation the lookup gives. -/
theorem pagePrivilege : Obligations.PagePrivilege := by
  intro s acc lin hpg
  refine ⟨fun p u h => ?_, fun t es hl hm => ⟨?_, fun hu hw => ?_⟩, fun t es hl hdeny => ?_⟩
  · obtain ⟨hc, hm⟩ := pageCheck_of_translateRange_one h
    obtain ⟨t, es, hl, ha, rfl, -⟩ := pageCheck_ok hpg hc
    obtain ⟨hu, hw⟩ := Translation.allows_iff.mp ha rfl
    exact ⟨t, es, hl, hu, hw, rfl, hm⟩
  · exact ⟨_, translateRange_one_ok (pageCheck_allowed hpg hl rfl) hm, .noteLookup ..⟩
  · have ha : t.allows acc true = true := Translation.allows_iff.mpr fun _ => ⟨hu, hw⟩
    exact ⟨_, translateRange_one_ok (pageCheck_allowed hpg hl ha) hm, .noteLookup ..⟩
  · have ha : t.allows acc true = false := by
      rw [← Bool.not_eq_true, Translation.allows_iff]
      grind
    have hcode : pfCode true acc true = if acc = .write then 7 else 5 := by cases acc <;> rfl
    have hr := translateRange_one_error (pageCheck_denied hpg hl ha)
    rw [hcode] at hr
    exact ⟨_, hr, (reads_translateRange ..).of_error hr⟩

/-! ## Where linear and physical addresses are the same (R62) -/

/-- The addresses of `n` bytes at `lin` and on, modulo 2^32, where linear and physical addresses are the
same. -/
def linAddrs (lin : Dword) (n : Nat) : List Nat :=
  (List.range n).map fun k => (lin + BitVec.ofNat 32 k).toNat

@[simp] theorem linAddrs_length (lin : Dword) (n : Nat) : (linAddrs lin n).length = n := by
  simp [linAddrs]

theorem linAddrs_succ (lin : Dword) (n : Nat) :
    linAddrs lin (n + 1) = lin.toNat :: linAddrs (lin + 1) n := by
  simp only [linAddrs, List.range_succ_eq_map, List.map_cons, List.map_map, BitVec.add_zero]
  congr 1
  refine List.map_congr_left fun k _ => ?_
  rw [Function.comp_apply, Nat.succ_eq_add_one, Nat.add_comm, BitVec.ofNat_add, BitVec.add_assoc]
  rfl

theorem linAddrs_slice (lin : Dword) {n i k : Nat} (h : i + k ≤ n) :
    ((linAddrs lin n).drop i).take k = linAddrs (lin + BitVec.ofNat 32 i) k := by
  refine List.ext_getElem (by simp; omega) fun j h1 h2 => ?_
  simp [linAddrs, BitVec.add_assoc]

theorem linAddrs_nodup (lin : Dword) {n : Nat} (h : n ≤ 2 ^ 32) : (linAddrs lin n).Nodup := by
  refine List.Nodup.map_on (fun i hi j hj hij => ?_) List.nodup_range
  have hi := List.mem_range.mp hi
  have hj := List.mem_range.mp hj
  have hb := BitVec.add_right_inj _ |>.mp (BitVec.eq_of_toNat_eq hij)
  have := congrArg BitVec.toNat hb
  simp only [BitVec.toNat_ofNat] at this
  omega

theorem State.bytesAt_eq_map (s : State) (lin : Dword) (n : Nat) :
    s.bytesAt lin n = (linAddrs lin n).map s.mem.read := by
  simp [State.bytesAt, linAddrs]

theorem pageCheckRange_unpaged {s : State} (acc : Access) (user : Bool) (lin : Dword) (n : Nat)
    (h : s.paging = false) : pageCheckRange acc user lin n s = .ok (linAddrs lin n) s := by
  induction n generalizing lin with
  | zero => rfl
  | succ n ih =>
    unfold pageCheckRange
    rw [run_bind_ok (pageCheck_unpaged acc user lin h), run_bind_ok (ih (lin + 1)), run_pure,
      linAddrs_succ]

theorem translateRange_flat {s : State} (acc : Access) (user : Bool) (lin : Dword) (n : Nat)
    (h : s.Flat) : translateRange acc user lin n s = .ok (linAddrs lin n) s := by
  refine translateRange_ok_iff.mpr ⟨pageCheckRange_unpaged acc user lin n h.1, fun p hp => ?_⟩
  obtain ⟨k, -, rfl⟩ := List.mem_map.mp hp
  exact h.2 _

/-! ## Reads (R96, R103, R108) -/

/-- A byte reads as memory holds it, but for bits 6 and 5 where a walk has used it (R96). -/
theorem State.byteAt_mask (s : State) (p : Nat) : s.byteAt p &&& 0x9F = s.mem.read p &&& 0x9F := by
  unfold State.byteAt
  split
  · generalize Config.entryBits s.draws p = x
    have hx : x.zeroExtend 8 <<< 5 &&& (0x9F : Byte) = 0#8 := by decide +revert
    rw [BitVec.and_or_distrib_right, hx, BitVec.and_assoc, BitVec.or_zero]
    rfl
  · rfl

theorem State.byteAt_of_not_walked {s : State} {p : Nat} (h : p ∉ s.walked) :
    s.byteAt p = s.mem.read p := by
  unfold State.byteAt
  rw [if_neg (by simpa using h)]

theorem run_readPhys (ps : List Nat) (s : State) :
    readPhys ps s = .ok (ps.map s.byteAt) (s.noteRead ps) := rfl

theorem readBytes_of_translate {user : Bool} {lin : Dword} {n : Nat} {s u : State} {ps : List Nat}
    (h : translateRange .read user lin n s = .ok ps u) :
    readBytes user lin n s = .ok (ps.map u.byteAt) (u.noteRead ps) := run_bind_ok h

theorem readBytes_of_translate_error {user : Bool} {lin : Dword} {n : Nat} {s u : State} {e : Stop}
    (h : translateRange .read user lin n s = .error e u) : readBytes user lin n s = .error e u :=
  run_bind_error h

/-- Where no walk has used an entry, a read changes nothing. -/
theorem State.noteRead_of_walked_nil {s : State} (ps : List Nat) (h : s.walked = []) :
    s.noteRead ps = s := by
  have : (ps.any s.walked.contains) = false := by simp [h]
  unfold State.noteRead
  rw [this]
  rfl

theorem readBytes_flat {user : Bool} {s : State} (lin : Dword) (n : Nat) (h : s.Flat)
    (hw : s.walked = []) : readBytes user lin n s = .ok (s.bytesAt lin n) s := by
  rw [readBytes_of_translate (translateRange_flat .read user lin n h), State.noteRead_of_walked_nil _ hw,
    State.bytesAt_eq_map]
  congr 1
  exact List.map_congr_left fun p _ => State.byteAt_of_not_walked (by simp [hw])

/-- Settles O18, from the translation of the bytes and what one byte reads as. -/
theorem readsBytes : Obligations.ReadsBytes := by
  intro s u user lin n ps
  refine ⟨fun h => ?_, fun e v h => ?_, fun qs v h hm => ?_, readBytes_flat lin n⟩
  · have hr : s.ReadTo u := (reads_translateRange ..).of_ok h
    refine ⟨_, readBytes_of_translate h, hr.trans (.noteRead ..), translateRange_length h,
      fun p _ => ?_, fun ⟨p, hp, hw⟩ => ?_⟩
    · rw [← hr.mem]
      exact ⟨u.byteAt_mask p, State.byteAt_of_not_walked⟩
    · rw [State.noteRead_draws, if_pos (List.any_eq_true.mpr ⟨p, hp, by simpa using hw⟩)]
  · exact readBytes_of_translate_error (translateRange_of_pageCheckRange_error h)
  · exact readBytes_of_translate_error (translateRange_noMemory h hm)

/-! ## Writes (R103, R109) -/

/-- Bytes stored at distinct addresses, among others, read back. -/
theorem Memory.map_read_writeAll {m : Memory} {cells : List Host.Cell} {ps : List Nat} {bs : List Byte}
    (hwf : m.wf = true) (hd : (cells.map (·.1)).Nodup) (hl : ps.length = bs.length)
    (hsub : ∀ c ∈ ps.zip bs, c ∈ cells) : ps.map (m.writeAll cells).read = bs := by
  refine List.ext_getElem (by simpa using hl) fun k h1 h2 => ?_
  have hk : k < ps.length := by simpa using h1
  have hc : (ps[k], bs[k]) ∈ ps.zip bs :=
    List.mem_iff_getElem.mpr ⟨k, by simp [hk, h2], by simp⟩
  rw [List.getElem_map]
  exact Memory.read_writeAll_same cells hwf hd (hsub _ hc)

theorem Memory.map_read_writeAll_zip {m : Memory} {ps : List Nat} {bs : List Byte} (hwf : m.wf = true)
    (hd : ps.Nodup) (hl : ps.length = bs.length) : ps.map (m.writeAll (ps.zip bs)).read = bs :=
  Memory.map_read_writeAll hwf (by rwa [map_fst_zip_bytes hl]) hl fun _ h => h

theorem writeBytes_of_translate_error {user : Bool} {lin : Dword} {bs : List Byte} {s u : State}
    {e : Stop} (h : translateRange .write user lin bs.length s = .error e u) :
    writeBytes user lin bs s = .error e u := run_bind_error (run_bind_error h)

/-- Settles O19: a write stores each byte at its translated address. -/
theorem writesBytes : Obligations.WritesBytes := by
  intro s u user lin bytes ps hwf
  refine ⟨fun h => ?_, fun e v h => ?_, fun hflat hle => ?_⟩
  · have hr : s.ReadTo u := (reads_translateRange ..).of_ok h
    have hlen := translateRange_length h
    refine ⟨_, writeBytes_of_translate h, .after_read hr (State.storedTo_storeBytes u ps bytes), hlen,
      fun hd k p b hp hb => ?_⟩
    have hmap := Memory.map_read_writeAll_zip (hr.mem ▸ hwf : u.mem.wf = true) hd hlen
    have hk := congrArg (·[k]?) hmap
    simpa [State.storeBytes, List.getElem?_map, hp, hb] using hk
  · exact ⟨writeBytes_of_translate_error h, (reads_translateRange ..).of_error h⟩
  · have h := translateRange_flat .write user lin bytes.length hflat
    refine ⟨_, writeBytes_of_translate h, ?_, State.storedTo_storeBytes ..⟩
    rw [State.bytesAt_eq_map]
    exact Memory.map_read_writeAll_zip hwf (linAddrs_nodup lin hle) (linAddrs_length ..)

end Sys2Proof.Machine

/-! Descriptor tables, pushes, and the outgoing task. -/

namespace Sys2Proof.Machine

open Sys2Proof

/-! ## Descriptor tables (R84 to R88) -/

theorem selOffset_eq (sel : Word) : selOffset sel = sel.toNat / 8 * 8 := by
  have h : sel.toNat < 2 ^ 16 := sel.isLt
  simp only [selOffset, BitVec.extractLsb'_toNat, Nat.shiftRight_eq_div_pow]
  omega

section Desc

variable {s t u : State} {sel : Word} {d : Desc} {e : Stop} {x : Exception} {cells : List Host.Cell}
  {bs : List Byte}

theorem readDesc_of_not_inTable (h : s.inTable sel = false) : readDesc sel s = .ok none s := by
  unfold readDesc
  rw [run_bind_getState, run_ite, if_neg (by simp [h]), run_pure]

theorem readDesc_of_inTable (h : s.inTable sel = true)
    (hr : sysRead (s.descAddr sel) 8 s = .ok bs u) : readDesc sel s = .ok (some (descOf bs)) u := by
  unfold readDesc
  rw [run_bind_getState, run_ite, if_pos h, run_bind_ok hr, run_pure]

theorem readDescOr_error (h : readDesc sel s = .error e t) : readDescOr sel x s = .error e t :=
  run_bind_error h

theorem prepareAccessed_of_accessed (sel : Word) (s : State) (h : d.accessed = true) :
    prepareAccessed sel d s = .ok [] s := by
  unfold prepareAccessed
  rw [run_bind_getState, run_ite, if_pos h, run_pure]

theorem prepareAccessed_of_not_accessed (sel : Word) (s : State) (h : d.accessed = false) :
    prepareAccessed sel d s = prepareWrite false (s.descAddr sel + 5) [d.accessByte ||| 1] s := by
  unfold prepareAccessed
  rw [run_bind_getState, run_ite, if_neg (by simp [h])]

theorem setAccessed_of_prepared (h : prepareAccessed sel d s = .ok cells u) :
    setAccessed sel d s = .ok () (u.store cells) := run_bind_ok h

theorem setAccessed_of_prepare_error (h : prepareAccessed sel d s = .error e t) :
    setAccessed sel d s = .error e t := run_bind_error h

end Desc

/-- Settles O20: the table a selector selects, and the one byte that `SetAccessed` stores. -/
theorem descriptorTables : Obligations.DescriptorTables := by
  refine ⟨fun s sel => ?_, fun s u sel d p hwf => ⟨fun ha => ?_, fun ha htr => ?_,
    fun t => setAccessed_storedTo⟩⟩
  · rw [← selOffset_eq]
    refine ⟨fun hti hl => readDesc_of_not_inTable ?_, fun hti hv => readDesc_of_not_inTable ?_,
      fun hti hl => readDesc_of_not_inTable ?_, fun base bytes u hb hr => ?_⟩
    · simp [State.inTable, hti, hl]
    · simp [State.inTable, hti, hv]
    · simp [State.inTable, hti, hl]
    · have hin : s.inTable sel = true ∧ base = s.tableBase sel := by
        obtain ⟨hti, hl, rfl⟩ | ⟨hti, hv, hl, rfl⟩ := hb
        · simp [State.inTable, State.tableBase, hti, hl]
        · simp [State.inTable, State.tableBase, hti, hv, hl]
      rw [hin.2] at hr
      exact ⟨readDesc_of_inTable hin.1 hr, (reads_sysRead ..).of_ok hr⟩
  · rw [setAccessed_of_prepared (prepareAccessed_of_accessed sel s ha), State.store_nil]
  · have hprep := prepareAccessed_of_not_accessed sel s ha
    rw [prepareWrite_of_translate htr] at hprep
    have hset := setAccessed_of_prepared hprep
    have hst := setAccessed_storedTo hset
    rw [show accessedStores sel d s = [p] by unfold accessedStores; rw [hprep]; rfl] at hst
    refine ⟨_, hset, hst, ?_⟩
    exact Memory.read_write_same p _ (((reads_translateRange ..).of_ok htr).mem ▸ hwf)

/-! ## Pushes (R93, R181) -/

/-- The bytes of the `k`-th doubleword of a run. -/
theorem flatMap_dwordBytes_slice {vs : List Dword} {k : Nat} {v : Dword} (h : vs[k]? = some v) :
    ((vs.flatMap dwordBytes).drop (4 * k)).take 4 = dwordBytes v := by
  induction vs generalizing k with
  | nil => simp at h
  | cons w vs ih =>
    cases k with
    | zero =>
      obtain rfl : w = v := by simpa using h
      rw [List.flatMap_cons, Nat.mul_zero, List.drop_zero, List.take_left' (dwordBytes_length w)]
    | succ k =>
      rw [List.flatMap_cons, Nat.mul_succ, Nat.add_comm, ← List.drop_drop,
        List.drop_left' (dwordBytes_length w)]
      exact ih (by simpa using h)

theorem flatMap_dwordBytes_reverse_length (vs : List Dword) :
    (vs.reverse.flatMap dwordBytes).length = 4 * vs.length := by
  rw [flatMap_dwordBytes_length, List.length_reverse]

/-- A push beyond the limit of SS is the stack fault (R90, R181). -/
theorem preparePush_beyond_limit {s : State} {vs : List Dword} (hv : s.segs.ss.valid = true)
    (ha : s.segs.ss.allows true = true)
    (hl : limitOK s.segs.ss (s.regs.esp - BitVec.ofNat 32 (4 * vs.length)).toNat (4 * vs.length) = false) :
    preparePush vs s = .error (.exc (.sf 0)) s := by
  have hc : segCheck .ss (s.regs.pushed vs.length) (4 * vs.length) true s = .error (.exc (.sf 0)) s := by
    rw [segCheck_allowed (name := .ss) hv ha]
    have hl : limitOK (s.segs.get .ss) (s.regs.pushed vs.length).toNat (4 * vs.length) = false := hl
    rw [hl]
    rfl
  unfold preparePush
  rw [run_bind_getState, run_bind_error hc]

end Sys2Proof.Machine

namespace Sys2Proof.Laws

open Sys2Proof Sys2Proof.Machine

/-- Settles O21: the checks of a push, and then its stores, which are those of `PushedTo`. -/
theorem pushAll : Obligations.PushAll := by
  intro s t vs ps hwf
  refine ⟨fun h => ?_, fun e u h => ?_, fun hv h3 h1 hl => ?_⟩
  · obtain ⟨hst, hregs⟩ := pushedTo_storedTo h
    refine ⟨pushAll_of_pushedTo h, ?_, hregs, hst, fun hd k v hv => ?_⟩
    all_goals
      obtain ⟨cells, u, hprep, rfl, rfl⟩ := h
      have hr := pushPrepared_readTo hprep
      obtain ⟨lin, qs, -, htr, rfl⟩ := hprep
      have hlen : qs.length = (vs.reverse.flatMap dwordBytes).length := by
        rw [translateRange_length htr, flatMap_dwordBytes_reverse_length]
      rw [map_fst_zip_bytes hlen] at *
    · rw [hlen, flatMap_dwordBytes_reverse_length]
    · have hmap := Memory.map_read_writeAll_zip (hr.mem ▸ hwf : u.mem.wf = true) hd hlen
      rw [List.map_take, List.map_drop, State.store_mem, hmap, flatMap_dwordBytes_slice hv]
  · obtain h | ⟨cells, v, -, h⟩ := bind_eq_error h
    · exact (reads_preparePush vs).of_error h
    · cases h
  · have ha : s.segs.ss.allows true = true := by rw [SegReg.allows_write, h3, h1]; rfl
    exact run_bind_error (preparePush_beyond_limit hv ha hl)

end Sys2Proof.Laws

namespace Sys2Proof.Machine

open Sys2Proof

/-! ## The outgoing task (R80, R299, R306) -/

/-- The offsets, from byte 32 of the TSS on, at which step 3 stores. -/
def savedOffsets : List Nat := List.range 40 ++ [40, 41, 44, 45, 48, 49, 52, 53, 56, 57, 60, 61]

/-- The doublewords that step 3 stores, in the order of the TSS. -/
def State.savedDwords (s : State) (cause : SwitchCause) (retEip : Dword) : List Dword :=
  [retEip, if cause = .iret then withBit s.eflags bitNT false else s.eflags, s.regs.eax, s.regs.ecx,
    s.regs.edx, s.regs.ebx, s.regs.esp, s.regs.ebp, s.regs.esi, s.regs.edi]

/-- The selectors that step 3 stores, in the order of the TSS. -/
def State.savedSelectors (s : State) : List Word :=
  [s.segs.es.sel, s.segs.cs.sel, s.segs.ss.sel, s.segs.ds.sel, s.segs.fs.sel, s.segs.gs.sel]

theorem mem_zip_of_mem_take_zip {α β : Type} {xs : List α} {ys : List β} {n : Nat} {c : α × β}
    (h : c ∈ (xs.take n).zip ys) : c ∈ xs.zip ys := by
  obtain ⟨k, hk⟩ := List.mem_iff_getElem?.mp h
  obtain ⟨hx, hy⟩ := List.getElem?_zip_eq_some.mp hk
  refine List.mem_iff_getElem?.mpr ⟨k, List.getElem?_zip_eq_some.mpr ⟨?_, hy⟩⟩
  rw [List.getElem?_take] at hx
  split at hx
  · exact hx
  · cases hx

section Saved

variable (s : State) (cause : SwitchCause) (retEip : Dword) (ps : List Nat)

theorem savedDwords_subset {c : Host.Cell}
    (hc : c ∈ (ps.take 40).zip ((s.savedDwords cause retEip).flatMap dwordBytes)) :
    c ∈ s.savedCells cause retEip ps := by
  have := mem_zip_of_mem_take_zip hc
  simp only [State.savedCells, List.mem_append]
  exact .inl (.inl (.inl (.inl (.inl (.inl this)))))

theorem savedSelectors_subset {k : Nat} {v : Word} (hv : s.savedSelectors[k]? = some v) {c : Host.Cell}
    (hc : c ∈ ((ps.drop (40 + 4 * k)).take 2).zip (wordBytes v)) :
    c ∈ s.savedCells cause retEip ps := by
  have := mem_zip_of_mem_take_zip hc
  simp only [State.savedCells, List.mem_append]
  match k with
  | 0 | 1 | 2 | 3 | 4 | 5 => cases hv; simp [this]
  | k + 6 => cases hv

/-- Where step 3 stores. -/
theorem savedCells_addrs (a : Nat → Nat) :
    (s.savedCells cause retEip ((List.range 62).map a)).map (·.1) = savedOffsets.map a := by
  have h : (s.savedCells cause retEip (List.range 62)).map (·.1) = savedOffsets := rfl
  rw [← h]
  simp only [State.savedCells, List.map_append, ← List.map_drop, List.zip_map_left, List.map_map]
  rfl

theorem savedCells_mem {a : Nat} (h : a ∈ (s.savedCells cause retEip ps).map (·.1)) : a ∈ ps := by
  obtain ⟨c, hc, rfl⟩ := List.mem_map.mp h
  simp only [State.savedCells, List.mem_append] at hc
  obtain (((((hc | hc) | hc) | hc) | hc) | hc) | hc := hc
  · exact (List.of_mem_zip hc).1
  all_goals exact List.mem_of_mem_drop (List.of_mem_zip hc).1

end Saved

theorem run_saveOutgoing (cause : SwitchCause) (retEip : Dword) (ps : List Nat) (s : State) :
    saveOutgoing cause retEip ps s = .ok () (s.store (s.savedCells cause retEip ps)) := rfl

theorem savedOffsets_map_nodup (lin : Dword) :
    (savedOffsets.map fun k => (lin + BitVec.ofNat 32 k).toNat).Nodup := by
  have hinj := List.inj_on_of_nodup_map (linAddrs_nodup lin (n := 62) (by decide))
  have hsub : ∀ k ∈ savedOffsets, k ∈ List.range 62 := by decide
  exact List.Nodup.map_on (fun i hi j hj => hinj (hsub i hi) (hsub j hj)) (by decide)

/-- The stores of step 3 in the words of the statement: the doublewords, and the lower halves of the
selector fields. -/
theorem savedOffsets_map_eq (base : Dword) :
    (savedOffsets.map fun k => (base + 32 + BitVec.ofNat 32 k).toNat) =
      ((List.range 40).map fun k => (base + BitVec.ofNat 32 (32 + k)).toNat) ++
        [72, 76, 80, 84, 88, 92].flatMap fun o =>
          [(base + BitVec.ofNat 32 o).toNat, (base + BitVec.ofNat 32 (o + 1)).toNat] := by
  have h : ∀ k, base + 32 + BitVec.ofNat 32 k = base + BitVec.ofNat 32 (32 + k) := fun k => by
    rw [BitVec.ofNat_add, BitVec.add_assoc]; rfl
  simp only [h, savedOffsets, List.map_append]
  rfl

/-- Settles O57: the cells that step 3 stores lie at distinct addresses, so that each field reads back. -/
theorem outgoingTaskSaved : Obligations.OutgoingTaskSaved := by
  intro s cause ret
  refine ⟨fun ps => ⟨_, run_saveOutgoing .., ?_⟩, fun hflat hwf => ?_⟩
  · exact (State.storedTo_store ..).mono fun _ => savedCells_mem s cause ret ps
  refine ⟨_, _, translateRange_flat .write false (s.tr.base + 32) 62 hflat, run_saveOutgoing ..,
    fun k v hv => ?_, fun k v hv => ?_, ?_⟩
  all_goals
    have haddrs := savedCells_addrs s cause ret fun k => (s.tr.base + 32 + BitVec.ofNat 32 k).toNat
    have hnodup := savedOffsets_map_nodup (s.tr.base + 32)
    rw [← haddrs] at hnodup
  · have hv : (s.savedDwords cause ret)[k]? = some v := hv
    have hk : k < 10 := (List.getElem?_eq_some_iff.mp hv).1
    have hmap := Memory.map_read_writeAll hwf hnodup (ps := (linAddrs (s.tr.base + 32) 62).take 40)
      (by simp [State.savedDwords]) fun _ => savedDwords_subset s cause ret _
    have hslice := congrArg (fun l => (l.drop (4 * k)).take 4) hmap
    simp only [flatMap_dwordBytes_slice hv] at hslice
    rw [← hslice, State.bytesAt_eq_map, ← List.map_drop, ← List.map_take, List.drop_take, List.take_take,
      Nat.min_eq_left (by omega), linAddrs_slice _ (by omega), BitVec.ofNat_add, ← BitVec.add_assoc]
    rfl
  · have hk : k < 6 := (List.getElem?_eq_some_iff.mp (show s.savedSelectors[k]? = some v from hv)).1
    have hmap := Memory.map_read_writeAll hwf hnodup
      (ps := ((linAddrs (s.tr.base + 32) 62).drop (40 + 4 * k)).take 2) (bs := wordBytes v)
      (by simp; omega) fun _ => savedSelectors_subset s cause ret _ hv
    rw [← hmap, State.bytesAt_eq_map, linAddrs_slice _ (by omega), BitVec.add_assoc,
      show (72 + 4 * k) = 32 + (40 + 4 * k) by omega, BitVec.ofNat_add 32]
    rfl
  · have hst := State.storedTo_store s (s.savedCells cause ret (linAddrs (s.tr.base + 32) 62))
    rw [← savedOffsets_map_eq, ← haddrs]
    exact hst

end Sys2Proof.Machine

/-! How an instruction ends, in the words of Safety.lean: `outcomeOf` follows the pieces of a meaning, and
loads of segment registers are chains of checks that end in one store and one register. -/

namespace Sys2Proof.Machine

open Sys2Proof

variable {α β : Type}

/-! ## The outcome of a meaning, piece by piece (R10, R355) -/

section Outcome

variable {m : Exec α} {s t : State} {a : α} {e : Exception} {r : Refusal}
  {f g : α → State → Host.Outcome State Fault Refusal}

@[simp] theorem outcomeOf_ok : outcomeOf (.ok a t) f = f a t := rfl

@[simp] theorem outcomeOf_exc : outcomeOf (.error (.exc e) t) f = takeException e t := rfl

@[simp] theorem outcomeOf_refuse : outcomeOf (.error (.refuse r) t) f = .refused r := rfl

theorem conclude_eq_outcomeOf (m : Exec Unit) (s : State) :
    conclude m s = outcomeOf (m s) fun _ t => .next t := by
  unfold conclude
  cases m s with
  | ok _ t => rfl
  | error e t => cases e <;> rfl

theorem outcomeOf_bind (m : Exec α) (k : α → Exec β) (s : State)
    (f : β → State → Host.Outcome State Fault Refusal) :
    outcomeOf ((m >>= k) s) f = outcomeOf (m s) fun a t => outcomeOf (k a t) f := by
  rw [run_bind]
  cases m s with
  | ok a t => rfl
  | error e t => cases e <;> rfl

/-- What an outcome asks of the rest is asked only where the first piece answers. -/
theorem outcomeOf_congr {r : EStateM.Result Stop State α} (h : ∀ a t, r = .ok a t → f a t = g a t) :
    outcomeOf r f = outcomeOf r g := by
  cases r with
  | ok a t => exact h a t rfl
  | error e t => cases e <;> rfl

end Outcome

section Conclude

variable {m : Exec α} {k : α → Exec Unit} {s t : State} {a : α} {e : Exception} {r : Refusal}

theorem conclude_bind_ok (h : m s = .ok a t) : conclude (m >>= k) s = conclude (k a) t := by
  rw [conclude_eq_outcomeOf, run_bind_ok h, ← conclude_eq_outcomeOf]

theorem conclude_bind_exc (h : m s = .error (.exc e) t) : conclude (m >>= k) s = takeException e t :=
  conclude_exc (run_bind_error h)

theorem conclude_bind_refuse (h : m s = .error (.refuse r) t) : conclude (m >>= k) s = .refused r :=
  conclude_refuse (run_bind_error h)

/-- After a piece that writes, only registers change. -/
theorem conclude_bind_update {f : State → State} : conclude (m >>= fun _ => update f) s =
    outcomeOf (m s) fun _ t => .next (f t) := by
  rw [conclude_eq_outcomeOf, outcomeOf_bind]
  rfl

end Conclude

/-! ## The descriptors that a load takes (R162 to R165, R312) -/

theorem maxLevel_le_iff {a b c : Level} : maxLevel a b ≤ c ↔ a ≤ c ∧ b ≤ c := by
  unfold maxLevel
  split <;> bv_omega

theorem lt_maxLevel_iff {a b c : Level} : c < maxLevel a b ↔ c < a ∨ c < b := by
  rw [← BitVec.not_le, maxLevel_le_iff, not_and_or, BitVec.not_le, BitVec.not_le]

theorem Desc.isCode_iff (d : Desc) :
    d.isCode = true ↔ d.hi.getLsbD 12 = true ∧ d.hi.getLsbD 11 = true := Bool.and_eq_true_iff

theorem Desc.isData_iff (d : Desc) :
    d.isData = true ↔ d.hi.getLsbD 12 = true ∧ d.hi.getLsbD 11 = false := by
  unfold Desc.isData Desc.isSeg
  rw [Bool.and_eq_true_iff, Bool.not_eq_true']

theorem Desc.conforming_iff (d : Desc) :
    d.conforming = true ↔ d.isCode = true ∧ d.hi.getLsbD 10 = true := Bool.and_eq_true_iff

theorem Desc.writable_iff (d : Desc) :
    d.writable = true ↔ d.isData = true ∧ d.hi.getLsbD 9 = true := Bool.and_eq_true_iff

/-- A data-segment register may be loaded with the descriptor at level `cpl`: a data segment or readable
code, conforming or of a DPL no less than CPL and RPL (R162, R164). -/
def Desc.loadsData (d : Desc) (cpl : Level) (sel : Word) : Bool :=
  d.isSeg && !(d.isCode && !d.readable) && (d.conforming || dataPrivOK cpl sel d)

/-- Code that may not be read. -/
theorem Desc.executeOnly_iff (d : Desc) :
    (d.isCode && !d.readable) = true ↔ d.isCode = true ∧ d.hi.getLsbD 9 = false := by
  unfold Desc.readable Desc.isData Desc.isCode
  cases d.isSeg <;> cases d.hi.getLsbD 11 <;> cases d.hi.getLsbD 9 <;> decide

theorem Desc.loadsData_eq_true_iff {d : Desc} {cpl : Level} {sel : Word} :
    d.loadsData cpl sel = true ↔ (d.isData = true ∨ d.isCode = true ∧ d.hi.getLsbD 9 = true) ∧
      (d.conforming = true ∨ cpl ≤ d.dpl ∧ selRpl sel ≤ d.dpl) := by
  have hx := d.executeOnly_iff
  have hs : d.isSeg = true ↔ d.isData = true ∨ d.isCode = true := by
    unfold Desc.isData Desc.isCode
    cases d.isSeg <;> cases d.hi.getLsbD 11 <;> decide
  have hboth : ¬(d.isData = true ∧ d.isCode = true) := by
    rw [Desc.isData_iff, Desc.isCode_iff]; grind
  simp only [Desc.loadsData, dataPrivOK, Bool.and_eq_true, Bool.or_eq_true, decide_eq_true_eq,
    maxLevel_le_iff]
  grind

theorem Desc.loadsData_eq_false_iff {d : Desc} {cpl : Level} {sel : Word} :
    d.loadsData cpl sel = false ↔ d.isSeg = false ∨ d.isCode = true ∧ d.hi.getLsbD 9 = false ∨
      d.conforming = false ∧ (d.dpl < cpl ∨ d.dpl < selRpl sel) := by
  rw [← Desc.executeOnly_iff, ← lt_maxLevel_iff]
  simp only [Desc.loadsData, dataPrivOK, Bool.and_eq_false_iff, Bool.or_eq_false_iff,
    decide_eq_false_iff_not, BitVec.not_le, Bool.not_eq_false', or_assoc]

/-- SS may be loaded with the descriptor at level `lvl`, if it is present and a 32-bit one (R165). -/
def Desc.loadsStack (d : Desc) (lvl : Level) (sel : Word) : Bool :=
  selRpl sel == lvl && d.writable && d.dpl == lvl

theorem Desc.loadsStack_eq_true_iff {d : Desc} {lvl : Level} {sel : Word} :
    d.loadsStack lvl sel = true ↔ selRpl sel = lvl ∧ d.writable = true ∧ d.dpl = lvl := by
  simp [Desc.loadsStack, and_assoc]

theorem Desc.loadsStack_eq_false_iff {d : Desc} {lvl : Level} {sel : Word} :
    d.loadsStack lvl sel = false ↔ selRpl sel ≠ lvl ∨ d.writable = false ∨ d.dpl ≠ lvl := by
  rw [← Bool.not_eq_true, Desc.loadsStack_eq_true_iff, not_and_or, not_and_or, Bool.not_eq_true]

/-! ## Loads (R163 to R165) -/

section Loads

variable {s t : State} {sel : Word} {d : Desc} {name : SegName} {e : Stop}

theorem loadDataSeg_null (h : isNull sel = true) : loadDataSeg name sel s =
    .ok () (s.withSeg name ((s.segs.get name).withNull sel)) := by
  unfold loadDataSeg
  rw [run_ite, if_pos h, run_update]

theorem loadDataSeg_stops (h : isNull sel = false)
    (hr : readDescOr sel (.gp (selErr sel)) s = .error e t) : loadDataSeg name sel s = .error e t := by
  unfold loadDataSeg
  rw [run_ite, if_neg (by simp [h]), run_bind_error hr]

/-- A data-segment register is set after the accessed bit (R88, R164). -/
def setSeg (name : SegName) (sel : Word) (d : Desc) : Exec Unit := do
  setAccessed sel d
  update fun s => s.withSeg name (cacheOf sel d)

theorem loadDataSeg_some (h : isNull sel = false) (hr : readDesc sel s = .ok (some d) t) :
    loadDataSeg name sel s =
      if d.loadsData t.cpl sel = false then .error (.exc (.gp (selErr sel))) t
      else if d.present = false then .error (.exc (.np (selErr sel))) t
      else setSeg name sel d t := by
  unfold loadDataSeg
  rw [run_ite, if_neg (by simp [h]), run_bind_ok (readDescOr_some hr), run_bind_getState]
  have hset : (setAccessed sel d >>= fun _ => update fun s => s.withSeg name (cacheOf sel d)) t =
    setSeg name sel d t := rfl
  simp only [run_ite]
  simp only [run_raise, hset]
  grind [Desc.loadsData]

theorem loadSS_null (h : isNull sel = true) : loadSS sel s = .error (.exc (.gp 0)) s := by
  unfold loadSS
  rw [run_ite, if_pos h, run_raise]

theorem loadSS_stops (h : isNull sel = false)
    (hr : readDescOr sel (.gp (selErr sel)) s = .error e t) : loadSS sel s = .error e t := by
  unfold loadSS
  rw [run_ite, if_neg (by simp [h]), run_bind_error hr]

theorem loadSS_some (h : isNull sel = false) (hr : readDesc sel s = .ok (some d) t) :
    loadSS sel s =
      if d.loadsStack t.cpl sel = false then .error (.exc (.gp (selErr sel))) t
      else if d.present = false then .error (.exc (.sf (selErr sel))) t
      else if d.big = false then .error (.refuse .sixteenBitForm) t
      else setSeg .ss sel d t := by
  unfold loadSS
  rw [run_ite, if_neg (by simp [h]), run_bind_ok (readDescOr_some hr), run_bind_getState]
  have hset : (setAccessed sel d >>= fun _ => update fun s => s.withSeg .ss (cacheOf sel d)) t =
    setSeg .ss sel d t := rfl
  simp only [run_ite]
  simp only [run_raise, run_refuse, hset]
  grind [Desc.loadsStack]

/-- Setting a segment register changes it, the accessed bit and nothing else. -/
theorem setSeg_ok (h : setAccessed sel d s = .ok () t) :
    setSeg name sel d s = .ok () (t.withSeg name (cacheOf sel d)) := run_bind_ok h

end Loads

end Sys2Proof.Machine

/-! MOV Sreg, MOV to and from CRn, and taking an exception. -/

namespace Sys2Proof.Machine

open Sys2Proof

/-! ## MOV Sreg, r/m16 (R160, R170) -/

/-- What a segment register holds after a load, bit by bit (R72, R73, R74, R164). -/
theorem cacheOf_typ_getLsbD (sel : Word) (d : Desc) :
    (cacheOf sel d).typ.getLsbD 0 = true ∧
      ∀ k, 1 ≤ k → k < 4 → (cacheOf sel d).typ.getLsbD k = d.hi.getLsbD (8 + k) := by
  refine ⟨by simp [Desc.typ], fun k h1 h4 => ?_⟩
  interval_cases k <;> simp [Desc.typ]

section MovSreg

variable {s t u v w : State} {sreg : BitVec 3} {src : RM} {sel : Word} {d : Desc} {name : SegName}
  {e : Exception} {r : Refusal}

theorem State.withEip_nextEip (h : t.nextEip = s.nextEip) :
    { t with eip := t.nextEip } = { t with eip := s.nextEip } :=
  congrArg (fun e => { t with eip := e }) h

theorem execMovSreg_read_exc (h : readRM16 src s = .error (.exc e) u) :
    exec (.movSreg sreg src) s = takeException e u := conclude_bind_exc h

/-- CS and the numbers 6 and 7 (R170). -/
theorem execMovSreg_ud (h : readRM16 src s = .ok sel u)
    (hreg : segOfBits sreg = none ∨ segOfBits sreg = some .cs) :
    exec (.movSreg sreg src) s = takeException .ud u := by
  refine (conclude_bind_ok h).trans ?_
  obtain hreg | hreg := hreg <;> rw [hreg] <;> rfl

theorem execMovSreg_ss (h : readRM16 src s = .ok sel u) :
    exec (.movSreg 2 src) s = outcomeOf (loadSS sel u) fun _ t => .next { t with eip := t.nextEip } :=
  (conclude_bind_ok h).trans conclude_bind_update

theorem execMovSreg_data (h : readRM16 src s = .ok sel u) (hreg : segOfBits sreg = some name)
    (hcs : name ≠ .cs) (hss : name ≠ .ss) : exec (.movSreg sreg src) s =
      outcomeOf (loadDataSeg name sel u) fun _ t => .next { t with eip := t.nextEip } := by
  refine (conclude_bind_ok h).trans ?_
  rw [hreg]
  cases name with
  | cs => exact absurd rfl hcs
  | ss => exact absurd rfl hss
  | es | ds | fs | gs => exact conclude_bind_update

/-- The end of a load of a segment register: the accessed bit, the register, EIP (R164, R165). -/
theorem outcomeOf_setSeg (h : s.ReadTo v) : (outcomeOf (setSeg name sel d v) fun _ t =>
    Host.Outcome.next { t with eip := t.nextEip }) = outcomeOf (setAccessed sel d v) fun _ t =>
      .next { t.withSeg name (cacheOf sel d) with eip := s.nextEip } := by
  unfold setSeg
  rw [outcomeOf_bind]
  refine outcomeOf_congr fun _ t ht => ?_
  have hn : (t.withSeg name (cacheOf sel d)).nextEip = s.nextEip :=
    (setAccessed_storedTo ht).nextEip.trans h.nextEip
  exact congrArg Host.Outcome.next (State.withEip_nextEip hn)

/-- The numbers that name a data-segment register. -/
theorem segOfBits_data (h : sreg ∉ [1, 6, 7]) (h2 : sreg ≠ 2) :
    ∃ name, segOfBits sreg = some name ∧ name ≠ .cs ∧ name ≠ .ss := by
  revert h h2
  revert sreg
  decide

theorem segOfBits_ne {name : SegName} (h : segOfBits sreg = some name) (h1 : sreg ∉ [1, 6, 7])
    (h2 : sreg ≠ 2) : name ≠ .cs ∧ name ≠ .ss := by
  obtain ⟨n, hn, hne⟩ := segOfBits_data h1 h2
  rw [hn] at h
  cases h
  exact hne

end MovSreg

/-- Settles O23, by the chains of checks `loadDataSeg_some` and `loadSS_some`. -/
theorem movToSegmentRegister : Obligations.MovToSegmentRegister := by
  refine ⟨fun s u sreg name src sel hreg hcs hss hread => ?_,
    fun s u v w src sel d hread hn hd hrpl hw hdpl hp hb hset => ?_, fun sel d => ?_, fun d => ?_⟩
  · have hr : s.ReadTo u := (reads_readRM16 src).of_ok hread
    refine ⟨fun hnull => ⟨hr, ?_⟩, fun d v w hn hd htype hpriv hp hset => ?_⟩
    · rw [execMovSreg_data hread hreg hcs hss, loadDataSeg_null hnull, outcomeOf_ok]
      exact congrArg _ (State.withEip_nextEip hr.nextEip)
    · have hv := hr.trans ((reads_readDesc sel).of_ok hd)
      refine ⟨hv, setAccessed_storedTo hset, ?_⟩
      have hload : d.loadsData v.cpl sel = true :=
        Desc.loadsData_eq_true_iff.mpr ⟨htype, by rw [hv.cpl]; exact hpriv⟩
      rw [execMovSreg_data hread hreg hcs hss, loadDataSeg_some hn hd, if_neg (by simp [hload]),
        if_neg (by simp [hp]), outcomeOf_setSeg hv, hset, outcomeOf_ok]
  · have hv := ((reads_readRM16 src).of_ok hread).trans ((reads_readDesc sel).of_ok hd)
    refine ⟨hv, setAccessed_storedTo hset, ?_⟩
    have hload : d.loadsStack v.cpl sel = true := by
      rw [hv.cpl]; exact Desc.loadsStack_eq_true_iff.mpr ⟨hrpl, hw, hdpl⟩
    rw [execMovSreg_ss hread, loadSS_some hn hd, if_neg (by simp [hload]), if_neg (by simp [hp]),
      if_neg (by simp [hb]), outcomeOf_setSeg hv, hset, outcomeOf_ok]
  · obtain ⟨h0, htyp⟩ := cacheOf_typ_getLsbD sel d
    exact ⟨rfl, rfl, rfl, rfl, d.effLimit_toNat, h0, htyp, rfl, rfl⟩
  · exact ⟨rfl, d.isCode_iff, d.isData_iff, d.conforming_iff, d.writable_iff, rfl, rfl, rfl⟩

/-- Settles O24, by the same chains: which check of them fails. -/
theorem movToSegmentTraps : Obligations.MovToSegmentTraps := by
  refine ⟨fun s u sreg src e => execMovSreg_read_exc, fun s u sreg src sel hread => ?_⟩
  have hr : s.ReadTo u := (reads_readRM16 src).of_ok hread
  refine ⟨fun hreg => execMovSreg_ud hread ?_, fun h2 hn => ?_, fun hreg hn => ?_⟩
  · obtain rfl | rfl | rfl := hreg <;> decide
  · subst h2
    rw [execMovSreg_ss hread, loadSS_null hn, outcomeOf_exc]
  by_cases h2 : sreg = 2
  · subst h2
    have hexec := execMovSreg_ss hread
    refine ⟨fun v hd => ?_, fun e v hd => ?_, fun d v hd => ⟨fun h => absurd rfl h, fun _ => ?_⟩⟩
    · rw [hexec, loadSS_stops hn (readDescOr_none hd), outcomeOf_exc]
    · rw [hexec, loadSS_stops hn (readDescOr_error hd), outcomeOf_exc]
    have hv := hr.trans ((reads_readDesc sel).of_ok hd)
    rw [loadSS_some hn hd, hv.cpl] at hexec
    refine ⟨fun hbad => ?_, fun hrpl hw hdpl => ?_⟩
    · rw [hexec, if_pos (Desc.loadsStack_eq_false_iff.mpr hbad), outcomeOf_exc]
    rw [if_neg (by simp [Desc.loadsStack_eq_true_iff.mpr ⟨hrpl, hw, hdpl⟩])] at hexec
    refine ⟨fun hp => ?_, fun hp hb => ?_, fun hp hb => ?_⟩
    · rw [hexec, if_pos hp, outcomeOf_exc]
    · rw [hexec, if_neg (by simp [hp]), if_pos hb, outcomeOf_refuse]
    · exact hexec.trans (by rw [if_neg (by simp [hp]), if_neg (by simp [hb]), outcomeOf_setSeg hv])
  · obtain ⟨name, hname, hcs, hss⟩ := segOfBits_data hreg h2
    have hexec := execMovSreg_data hread hname hcs hss
    refine ⟨fun v hd => ?_, fun e v hd => ?_, fun d v hd => ⟨fun _ => ?_, fun h => absurd h h2⟩⟩
    · rw [hexec, loadDataSeg_stops hn (readDescOr_none hd), outcomeOf_exc]
    · rw [hexec, loadDataSeg_stops hn (readDescOr_error hd), outcomeOf_exc]
    have hv := hr.trans ((reads_readDesc sel).of_ok hd)
    rw [loadDataSeg_some hn hd, hv.cpl] at hexec
    have hbad (h : d.loadsData s.cpl sel = false) :
        exec (.movSreg sreg src) s = takeException (.gp (selErr sel)) v := by
      rw [hexec, if_pos h, outcomeOf_exc]
    rw [Desc.loadsData_eq_false_iff] at hbad
    refine ⟨fun h => hbad (.inl h), fun hc h9 => hbad (.inr (.inl ⟨hc, h9⟩)),
      fun hc hl => hbad (.inr (.inr ⟨hc, hl⟩)), fun htype hpriv => ?_⟩
    rw [if_neg (by simp [Desc.loadsData_eq_true_iff.mpr ⟨htype, hpriv⟩])] at hexec
    refine ⟨fun hp => ?_, fun hp n hn => ?_⟩
    · rw [hexec, if_pos hp, outcomeOf_exc]
    · rw [hname] at hn
      cases hn
      exact hexec.trans (by rw [if_neg (by simp [hp]), outcomeOf_setSeg hv])

/-! ## MOV to and from CRn (R237, R238) -/

theorem bitVec3_cases (n : BitVec 3) :
    n = 0 ∨ n = 1 ∨ n = 2 ∨ n = 3 ∨ n = 4 ∨ n = 5 ∨ n = 6 ∨ n = 7 := by
  revert n
  decide

theorem writeCr_eq (n : BitVec 3) (v : Dword) (s : State) : writeCr n v s =
    if n = 0 then
      if v.getLsbD 0 then .ok () { s with ctl := { s.ctl with cr0 := cr0Of v } }
      else .error (.refuse .leavesProtectedMode) s
    else if n = 2 then .ok () { s with ctl := { s.ctl with cr2 := v } }
    else if n = 3 then
      .ok () { s with ctl := { s.ctl with cr3 := cr3Of v }, tablesUsed := false, pastMemory := [] }
    else .error (.exc .ud) s := by
  have h0 : writeCr 0 v s = if v.getLsbD 0 then .ok () { s with ctl := { s.ctl with cr0 := cr0Of v } }
      else .error (.refuse .leavesProtectedMode) s := run_ite ..
  obtain rfl | rfl | rfl | rfl | rfl | rfl | rfl | rfl := bitVec3_cases n
  · exact h0
  all_goals rfl

theorem ControlRegs.cr_eq (c : ControlRegs) (n : BitVec 3) : c.cr n =
    if n = 0 then some c.cr0 else if n = 2 then some c.cr2 else if n = 3 then some c.cr3 else none := by
  obtain rfl | rfl | rfl | rfl | rfl | rfl | rfl | rfl := bitVec3_cases n <;> rfl

/-- At CPL 0 a privileged instruction goes on (R231). -/
theorem conclude_privileged {k : Unit → Exec Unit} {s : State} (h : s.cpl = 0) :
    conclude (privileged >>= k) s = conclude (k ()) s := conclude_bind_ok (privileged_ok h)

/-- Settles O49, by the chains `writeCr_eq` and `ControlRegs.cr_eq`. -/
theorem moveControlRegisters : Obligations.MoveControlRegisters := by
  intro s r n hcpl v flags
  refine ⟨?_, ?_⟩
  · refine (conclude_privileged hcpl).trans ?_
    rw [conclude_eq_outcomeOf, outcomeOf_bind, writeCr_eq]
    split_ifs <;> rfl
  · refine (conclude_privileged hcpl).trans ?_
    rw [ControlRegs.cr_eq]
    split_ifs <;> rfl

/-! ## Taking an exception (R355, R357) -/

theorem deliverException_ok {e : Exception} {s t : State} {trap : Bool}
    (h : deliver e.vector e.errorCode s.eip false s = .ok trap t) :
    deliverException e s = .ok () { t with debugTrap := trap } := by
  unfold deliverException
  rw [run_bind_getState, run_bind_ok h, run_update]

theorem deliverException_error {e : Exception} {x : Stop} {s t : State}
    (h : deliver e.vector e.errorCode s.eip false s = .error x t) :
    deliverException e s = .error x t := by
  unfold deliverException
  rw [run_bind_getState, run_bind_error h]

theorem takeException_undelivered {s : State} (e : Exception) (h : s.deliverExceptions = false) :
    takeException e s = s.endRun (.exception e s) := by
  unfold takeException
  rw [if_neg (by simp [h])]

theorem takeException_delivered {e : Exception} {s t : State} (h : s.deliverExceptions = true)
    (hd : deliverException e s = .ok () t) : takeException e s = .next t := by
  unfold takeException
  rw [if_pos h, hd]

/-- An exception while delivering one: the double fault (R357). -/
theorem takeException_doubleFault {e f : Exception} {s t : State} (h : s.deliverExceptions = true)
    (hd : deliverException e s = .error (.exc f) t) : takeException e s =
      match deliverException .df t with
      | .ok _ u => .next u
      | .error (.refuse r) _ => .refused r
      | .error (.exc _) u => .next { u with activity := .shutdown } := by
  unfold takeException
  rw [if_pos h]
  revert hd
  generalize deliverException e s = r
  rintro rfl
  rfl

/-- Settles O43. -/
theorem takingAnException : Obligations.TakingAnException := by
  refine ⟨fun c a => ⟨rfl, rfl, rfl, rfl, rfl, rfl, rfl, rfl, rfl, rfl, rfl, by simp [Exception.errorCode]⟩,
    fun e s => ⟨fun h => ?_, fun h => ⟨fun trap t hd => ?_, fun f t hd => ?_⟩⟩⟩
  · rw [takeException_undelivered e h, State.endRun_eq]
  · exact takeException_delivered h (deliverException_ok hd)
  · rw [takeException_doubleFault h (deliverException_error hd)]
    refine ⟨fun trap u hu => ?_, fun x u hu => ?_⟩
    · rw [deliverException_ok (e := .df) hu]
    · rw [deliverException_error (e := .df) hu]

end Sys2Proof.Machine

/-! The stack of an inner level, and the segments of an incoming task. -/

namespace Sys2Proof.Machine

open Sys2Proof

/-! ## The stack of an inner level (R203, R204) -/

/-- The linear address of the ESP, and of the SS, of level `n` in the current TSS (R80). -/
def State.innerEspAddr (s : State) (n : Level) : Dword := s.tr.base + BitVec.ofNat 32 (4 + 8 * n.toNat)

def State.innerSsAddr (s : State) (n : Level) : Dword := s.tr.base + BitVec.ofNat 32 (8 + 8 * n.toNat)

section InnerStack

variable {s u v w : State} {new : Level} {bs cs : List Byte} {e : Stop} {d : Desc}

theorem innerStack_short (h : s.tr.limit.toNat < 8 * new.toNat + 11) :
    innerStack new s = .error (.exc (.ts (selErr s.tr.sel))) s := by
  unfold innerStack
  rw [run_bind_getState, run_ite, if_pos (by omega), run_raise]

theorem innerStack_esp_error (h : 8 * new.toNat + 11 ≤ s.tr.limit.toNat)
    (h1 : sysRead (s.innerEspAddr new) 4 s = .error e u) : innerStack new s = .error e u := by
  unfold innerStack
  rw [run_bind_getState, run_ite, if_neg (by omega)]
  exact run_bind_error h1

theorem innerStack_ss_error (h : 8 * new.toNat + 11 ≤ s.tr.limit.toNat)
    (h1 : sysRead (s.innerEspAddr new) 4 s = .ok bs u) (h2 : sysRead (s.innerSsAddr new) 2 u = .error e v) :
    innerStack new s = .error e v := by
  unfold innerStack
  rw [run_bind_getState, run_ite, if_neg (by omega)]
  exact (run_bind_ok h1).trans (run_bind_error h2)

/-- The fields of the TSS that name the inner stack of level `new` read as `bs` and `cs`. -/
structure InnerFields (new : Level) (s : State) (bs cs : List Byte) (v : State) : Prop where
  room : 8 * new.toNat + 11 ≤ s.tr.limit.toNat
  reads : ∃ u, sysRead (s.innerEspAddr new) 4 s = .ok bs u ∧ sysRead (s.innerSsAddr new) 2 u = .ok cs v

theorem innerStack_null (h : InnerFields new s bs cs v) (hn : isNull (wordAt cs 0) = true) :
    innerStack new s = .error (.exc (.gp 0)) v := by
  obtain ⟨hl, u, h1, h2⟩ := h
  unfold innerStack
  rw [run_bind_getState, run_ite, if_neg (by omega)]
  refine (run_bind_ok h1).trans ((run_bind_ok h2).trans ?_)
  rw [run_ite, if_pos hn, run_raise]

theorem innerStack_stops (h : InnerFields new s bs cs v) (hn : isNull (wordAt cs 0) = false)
    (hd : readDescOr (wordAt cs 0) (.gp (selErr (wordAt cs 0))) v = .error e w) :
    innerStack new s = .error e w := by
  obtain ⟨hl, u, h1, h2⟩ := h
  unfold innerStack
  rw [run_bind_getState, run_ite, if_neg (by omega)]
  refine (run_bind_ok h1).trans ((run_bind_ok h2).trans ?_)
  rw [run_ite, if_neg (by simp [hn]), run_bind_error hd]

/-- The checks of the stack segment, in order (R204). -/
theorem innerStack_some (h : InnerFields new s bs cs v) (hn : isNull (wordAt cs 0) = false)
    (hd : readDesc (wordAt cs 0) v = .ok (some d) w) : innerStack new s =
      if selRpl (wordAt cs 0) ≠ new ∨ d.writable = false then
        .error (.exc (.gp (selErr (wordAt cs 0)))) w
      else if d.dpl ≠ new ∨ d.present = false then .error (.exc (.sf (selErr (wordAt cs 0)))) w
      else if d.big = false then .error (.refuse .sixteenBitForm) w
      else .ok (dwordAt bs 0, wordAt cs 0, d) w := by
  obtain ⟨hl, u, h1, h2⟩ := h
  unfold innerStack
  rw [run_bind_getState, run_ite, if_neg (by omega)]
  refine (run_bind_ok h1).trans ((run_bind_ok h2).trans ?_)
  rw [run_ite, if_neg (by simp [hn]), run_bind_ok (readDescOr_some hd)]
  simp only [run_ite]
  simp only [run_raise, run_refuse, run_pure]
  grind

end InnerStack

/-- Settles O31. -/
theorem innerStackSelection : Obligations.InnerStackSelection := by
  intro s new
  refine ⟨innerStack_short, fun h e u => innerStack_esp_error h,
    fun h bs u h1 e v => innerStack_ss_error h h1, fun h bs cs u v h1 h2 => ?_⟩
  have hf : InnerFields new s bs cs v := ⟨h, u, h1, h2⟩
  refine ⟨innerStack_null hf, fun hn => ⟨fun w => innerStack_stops hf hn ∘ readDescOr_none,
    fun e w => innerStack_stops hf hn ∘ readDescOr_error, fun d w hd => ?_⟩⟩
  have heq := innerStack_some hf hn hd
  refine ⟨fun hbad => by rw [heq, if_pos hbad], fun hrpl hw => ?_⟩
  rw [if_neg (by simp [hrpl, hw])] at heq
  refine ⟨fun hbad => by rw [heq, if_pos hbad], fun hdpl hp hb => ?_, fun hdpl hp hb => ?_⟩
  · rw [heq, if_neg (by simp [hdpl, hp]), if_pos hb]
  · rw [heq, if_neg (by simp [hdpl, hp]), if_neg (by simp [hb])]

/-! ## The segments of the incoming task (R312) -/

theorem runsInOrder_last (m : Exec Unit) (s : State) : RunsInOrder [m] s (m s) := by
  unfold RunsInOrder
  cases h : m s with
  | ok a t => exact .inr ⟨t, rfl, rfl⟩
  | error e t => exact .inl ⟨e, t, rfl, rfl⟩

theorem runsInOrder_cons {m k : Exec Unit} {ms : List (Exec Unit)} (s : State)
    (h : ∀ t, RunsInOrder ms t (k t)) : RunsInOrder (m :: ms) s ((m >>= fun _ => k) s) := by
  rw [run_bind]
  unfold RunsInOrder
  cases m s with
  | ok a t => exact .inr ⟨t, rfl, h t⟩
  | error e t => exact .inl ⟨e, t, rfl, rfl⟩

theorem loadTaskSegments_runsInOrder (s : State) :
    RunsInOrder [loadTaskLdt, loadTaskCS, loadTaskSS, loadTaskData .ds, loadTaskData .es,
      loadTaskData .fs, loadTaskData .gs] s (loadTaskSegments s) :=
  runsInOrder_cons s fun t => runsInOrder_cons t fun t => runsInOrder_cons t fun t =>
    runsInOrder_cons t fun t => runsInOrder_cons t fun t => runsInOrder_cons t fun t =>
    runsInOrder_last _ t

theorem require32_ok {d : Desc} (s : State) (h : d.big = true) : require32 d s = .ok () s := by
  unfold require32
  rw [run_ite, if_pos h, run_pure]

theorem require32_refuses {d : Desc} (s : State) (h : d.big = false) :
    require32 d s = .error (.refuse .sixteenBitForm) s := by
  unfold require32
  rw [run_ite, if_neg (by simp [h]), run_refuse]

section TaskLoads

variable {s u v : State} {name : SegName} {d : Desc} {e : Stop}

/-! The LDT. -/

theorem loadTaskLdt_null (h : isNull s.ldtr.sel = true) : loadTaskLdt s = .ok () s := by
  unfold loadTaskLdt
  rw [run_bind_getState]
  exact (run_ite ..).trans (if_pos h)

theorem loadTaskLdt_ti (h : isNull s.ldtr.sel = false) (ht : selTI s.ldtr.sel = true) :
    loadTaskLdt s = .error (.exc (.ts (selErr s.ldtr.sel))) s := by
  unfold loadTaskLdt
  rw [run_bind_getState]
  simp only [run_ite]
  rw [if_neg (by simp [h]), if_pos ht, run_raise]

theorem loadTaskLdt_stops (h : isNull s.ldtr.sel = false) (ht : selTI s.ldtr.sel = false)
    (hr : readDescOr s.ldtr.sel (.ts (selErr s.ldtr.sel)) s = .error e u) :
    loadTaskLdt s = .error e u := by
  unfold loadTaskLdt
  rw [run_bind_getState]
  simp only [run_ite]
  rw [if_neg (by simp [h]), if_neg (by simp [ht]), run_bind_error hr]

theorem loadTaskLdt_some (h : isNull s.ldtr.sel = false) (ht : selTI s.ldtr.sel = false)
    (hd : readDesc s.ldtr.sel s = .ok (some d) u) : loadTaskLdt s =
      if d.isSeg = false ∧ d.typ = 2 ∧ d.present = true then
        .ok () { u with ldtr := ⟨s.ldtr.sel, d.base, d.effLimit, true⟩ }
      else .error (.exc (.ts (selErr s.ldtr.sel))) u := by
  unfold loadTaskLdt
  rw [run_bind_getState]
  simp only [run_ite]
  rw [if_neg (by simp [h]), if_neg (by simp [ht]), run_bind_ok (readDescOr_some hd), run_ite, run_raise,
    run_update]
  grind

/-! CS. -/

theorem loadTaskCS_null (h : isNull s.segs.cs.sel = true) :
    loadTaskCS s = .error (.exc (.ts (selErr s.segs.cs.sel))) s := by
  unfold loadTaskCS
  rw [run_bind_getState]
  exact (run_ite ..).trans (if_pos h)

theorem loadTaskCS_stops (h : isNull s.segs.cs.sel = false)
    (hr : readDescOr s.segs.cs.sel (.ts (selErr s.segs.cs.sel)) s = .error e u) :
    loadTaskCS s = .error e u := by
  unfold loadTaskCS
  rw [run_bind_getState]
  simp only [run_ite]
  rw [if_neg (by simp [h]), run_bind_error hr]

/-- A code segment may run at level `cpl` (R189). -/
def Desc.runsAt (d : Desc) (cpl : Level) : Bool :=
  d.isCode && if d.conforming then decide (d.dpl ≤ cpl) else d.dpl == cpl

theorem Desc.runsAt_eq_true_iff {d : Desc} {cpl : Level} : d.runsAt cpl = true ↔
    d.isCode = true ∧ if d.conforming then d.dpl ≤ cpl else d.dpl = cpl := by
  unfold Desc.runsAt
  cases d.conforming <;> simp

theorem Desc.runsAt_eq_false_iff {d : Desc} {cpl : Level} : d.runsAt cpl = false ↔
    d.isCode = false ∨ d.conforming = true ∧ cpl < d.dpl ∨ d.conforming = false ∧ d.dpl ≠ cpl := by
  rw [← Bool.not_eq_true, Desc.runsAt_eq_true_iff, not_and_or, Bool.not_eq_true]
  cases d.conforming <;> simp [BitVec.not_le]

/-- CS is set after the accessed bit, at the level as it is (R88, R172). -/
def setCS (sel : Word) (d : Desc) : Exec Unit := do
  let s ← getState
  setAccessed sel d
  update fun t => t.withCS sel d s.cpl

theorem loadTaskCS_some (h : isNull s.segs.cs.sel = false)
    (hd : readDesc s.segs.cs.sel s = .ok (some d) u) : loadTaskCS s =
      if d.runsAt s.cpl = false then .error (.exc (.ts (selErr s.segs.cs.sel))) u
      else if d.present = false then .error (.exc (.np (selErr s.segs.cs.sel))) u
      else if d.big = false then .error (.refuse .sixteenBitForm) u
      else setCS s.segs.cs.sel d u := by
  have hr := (reads_readDesc s.segs.cs.sel).of_ok hd
  have hset : (do setAccessed s.segs.cs.sel d; update fun t => t.withCS s.segs.cs.sel d s.cpl) u =
    setCS s.segs.cs.sel d u := by rw [← hr.cpl]; rfl
  unfold loadTaskCS
  rw [run_bind_getState]
  simp only [run_ite]
  rw [if_neg (by simp [h]), run_bind_ok (readDescOr_some hd)]
  simp only [run_ite]
  cases hb : d.big with
  | true =>
    rw [run_bind_ok (require32_ok u hb), hset]
    simp only [run_raise]
    grind [Desc.runsAt_eq_false_iff, BitVec.not_le]
  | false =>
    rw [run_bind_error (require32_refuses u hb)]
    simp only [run_raise]
    grind [Desc.runsAt_eq_false_iff, BitVec.not_le]

theorem setCS_eq (sel : Word) (d : Desc) (u : State) : setCS sel d u =
    match setAccessed sel d u with
    | .ok _ v => .ok () (v.withCS sel d u.cpl)
    | .error e v => .error e v := by
  unfold setCS
  rw [run_bind_getState, run_bind]
  cases setAccessed sel d u <;> rfl

theorem setSeg_eq (name : SegName) (sel : Word) (d : Desc) (u : State) : setSeg name sel d u =
    match setAccessed sel d u with
    | .ok _ v => .ok () (v.withSeg name (cacheOf sel d))
    | .error e v => .error e v := by
  unfold setSeg
  rw [run_bind]
  cases setAccessed sel d u <;> rfl

/-! SS. -/

theorem loadTaskSS_null (h : isNull s.segs.ss.sel = true) :
    loadTaskSS s = .error (.exc (.ts (selErr s.segs.ss.sel))) s := by
  unfold loadTaskSS
  rw [run_bind_getState]
  exact (run_ite ..).trans (if_pos h)

theorem loadTaskSS_stops (h : isNull s.segs.ss.sel = false)
    (hr : readDescOr s.segs.ss.sel (.ts (selErr s.segs.ss.sel)) s = .error e u) :
    loadTaskSS s = .error e u := by
  unfold loadTaskSS
  rw [run_bind_getState]
  simp only [run_ite]
  rw [if_neg (by simp [h]), run_bind_error hr]

theorem loadTaskSS_some (h : isNull s.segs.ss.sel = false)
    (hd : readDesc s.segs.ss.sel s = .ok (some d) u) : loadTaskSS s =
      if d.loadsStack s.cpl s.segs.ss.sel = false then .error (.exc (.ts (selErr s.segs.ss.sel))) u
      else if d.present = false then .error (.exc (.sf (selErr s.segs.ss.sel))) u
      else if d.big = false then .error (.refuse .sixteenBitForm) u
      else setSeg .ss s.segs.ss.sel d u := by
  have hset : (do setAccessed s.segs.ss.sel d; update fun t => t.withSeg .ss (cacheOf s.segs.ss.sel d)) u =
    setSeg .ss s.segs.ss.sel d u := rfl
  unfold loadTaskSS
  rw [run_bind_getState]
  simp only [run_ite]
  rw [if_neg (by simp [h]), run_bind_ok (readDescOr_some hd)]
  simp only [run_ite]
  cases hb : d.big with
  | true =>
    rw [run_bind_ok (require32_ok u hb), hset]
    simp only [run_raise]
    grind [Desc.loadsStack]
  | false =>
    rw [run_bind_error (require32_refuses u hb)]
    simp only [run_raise]
    grind [Desc.loadsStack]

/-! DS, ES, FS and GS. -/

theorem loadTaskData_null (h : isNull (s.segs.get name).sel = true) : loadTaskData name s = .ok () s := by
  unfold loadTaskData
  rw [run_bind_getState]
  exact (run_ite ..).trans (if_pos h)

theorem loadTaskData_stops (h : isNull (s.segs.get name).sel = false)
    (hr : readDescOr (s.segs.get name).sel (.ts (selErr (s.segs.get name).sel)) s = .error e u) :
    loadTaskData name s = .error e u := by
  unfold loadTaskData
  rw [run_bind_getState]
  simp only [run_ite]
  rw [if_neg (by simp [h]), run_bind_error hr]

theorem loadTaskData_some (h : isNull (s.segs.get name).sel = false)
    (hd : readDesc (s.segs.get name).sel s = .ok (some d) u) : loadTaskData name s =
      if d.loadsData s.cpl (s.segs.get name).sel = false then
        .error (.exc (.ts (selErr (s.segs.get name).sel))) u
      else if d.present = false then .error (.exc (.np (selErr (s.segs.get name).sel))) u
      else setSeg name (s.segs.get name).sel d u := by
  have hset : (do setAccessed (s.segs.get name).sel d
                  update fun t => t.withSeg name (cacheOf (s.segs.get name).sel d)) u =
    setSeg name (s.segs.get name).sel d u := rfl
  unfold loadTaskData
  rw [run_bind_getState]
  simp only [run_ite]
  rw [if_neg (by simp [h]), run_bind_ok (readDescOr_some hd)]
  simp only [run_ite]
  simp only [run_raise, hset]
  grind [Desc.loadsData]

end TaskLoads

/-- Settles O60, by the chain of checks of each register. -/
theorem incomingSegmentsValidated : Obligations.IncomingSegmentsValidated := by
  refine ⟨loadTaskSegments_runsInOrder, fun s => ?_, fun s name => ?_, fun s t sel d e h =>
    ⟨setAccessed_of_prepare_error h, (reads_prepareAccessed ..).of_error h⟩⟩
  · refine ⟨loadTaskLdt_null, fun hn => ⟨loadTaskLdt_ti hn, fun ht =>
      ⟨fun u hu => loadTaskLdt_stops hn ht (readDescOr_none hu),
        fun e u hu => loadTaskLdt_stops hn ht (readDescOr_error hu), fun d u => loadTaskLdt_some hn ht⟩⟩,
      loadTaskCS_null, fun hn => ⟨fun u hu => loadTaskCS_stops hn (readDescOr_none hu),
        fun e u hu => loadTaskCS_stops hn (readDescOr_error hu), fun d u hd => ?_⟩⟩
    have heq := loadTaskCS_some hn hd
    refine ⟨fun hbad => by rw [heq, if_pos (Desc.runsAt_eq_false_iff.mpr hbad)], fun hc hl => ?_⟩
    rw [if_neg (by simp [Desc.runsAt_eq_true_iff.mpr ⟨hc, hl⟩])] at heq
    refine ⟨fun hp => by rw [heq, if_pos hp], fun hp hb => ?_, fun hp hb => ?_⟩
    · rw [heq, if_neg (by simp [hp]), if_pos hb]
    · rw [heq, if_neg (by simp [hp]), if_neg (by simp [hb]), setCS_eq]
      have hr := (reads_readDesc s.segs.cs.sel).of_ok hd
      cases hset : setAccessed s.segs.cs.sel d u with
      | error e v => rfl
      | ok a v =>
        have hst := setAccessed_storedTo hset
        have hcpl : v.cpl = s.cpl := hst.cpl.trans hr.cpl
        simp only [State.withCS, hr.cpl, hst.segs, hr.segs, ← hcpl]
        rfl
  · refine ⟨loadTaskSS_null, fun hn => ⟨fun u hu => loadTaskSS_stops hn (readDescOr_none hu),
        fun e u hu => loadTaskSS_stops hn (readDescOr_error hu), fun d u hd => ?_⟩,
      loadTaskData_null, fun hn => ⟨fun u hu => loadTaskData_stops hn (readDescOr_none hu),
        fun e u hu => loadTaskData_stops hn (readDescOr_error hu), fun d u hd => ?_⟩⟩
    · have heq := loadTaskSS_some hn hd
      refine ⟨fun hbad => by rw [heq, if_pos (Desc.loadsStack_eq_false_iff.mpr hbad)],
        fun hrpl hw hdpl => ?_⟩
      rw [if_neg (by simp [Desc.loadsStack_eq_true_iff.mpr ⟨hrpl, hw, hdpl⟩])] at heq
      refine ⟨fun hp => by rw [heq, if_pos hp], fun hp hb => ?_, fun hp hb => ?_⟩
      · rw [heq, if_neg (by simp [hp]), if_pos hb]
      · rw [heq, if_neg (by simp [hp]), if_neg (by simp [hb])]
        exact setSeg_eq ..
    · have heq := loadTaskData_some hn hd
      refine ⟨fun hbad => by rw [heq, if_pos (Desc.loadsData_eq_false_iff.mpr hbad)],
        fun htype hpriv => ?_⟩
      rw [if_neg (by simp [Desc.loadsData_eq_true_iff.mpr ⟨htype, hpriv⟩])] at heq
      refine ⟨fun hp => by rw [heq, if_pos hp], fun hp => ?_⟩
      rw [heq, if_neg (by simp [hp])]
      exact setSeg_eq ..

end Sys2Proof.Machine

/-! Far return, and return from an exception. -/

namespace Sys2Proof.Machine

open Sys2Proof

/-! ## The return CS and the return SS (R213) -/

section ReturnChecks

variable {s u : State} {rcs rss : Word} {new : Level} {d : Desc} {e : Stop}

theorem returnCS_inward (h : selRpl rcs < s.cpl) :
    returnCS rcs s = .error (.exc (.gp (selErr rcs))) s := by
  unfold returnCS
  rw [run_bind_getState, run_ite, if_pos h, run_raise]

theorem returnCS_null (hrpl : s.cpl ≤ selRpl rcs) (h : isNull rcs = true) :
    returnCS rcs s = .error (.exc (.gp (selErr rcs))) s := by
  unfold returnCS
  rw [run_bind_getState, run_ite, if_neg (BitVec.not_lt.mpr hrpl), run_ite, if_pos h, run_raise]

theorem returnCS_stops (hrpl : s.cpl ≤ selRpl rcs) (h : isNull rcs = false)
    (hr : readDescOr rcs (.gp (selErr rcs)) s = .error e u) : returnCS rcs s = .error e u := by
  unfold returnCS
  rw [run_bind_getState, run_ite, if_neg (BitVec.not_lt.mpr hrpl), run_ite, if_neg (by simp [h]),
    run_bind_error hr]

theorem returnCS_some (hrpl : s.cpl ≤ selRpl rcs) (h : isNull rcs = false)
    (hd : readDesc rcs s = .ok (some d) u) : returnCS rcs s =
      if d.isCode = false then .error (.exc (.gp (selErr rcs))) u
      else if d.present = false then .error (.exc (.np (selErr rcs))) u
      else if d.runsAt (selRpl rcs) = false then .error (.exc (.gp (selErr rcs))) u
      else .ok d u := by
  unfold returnCS
  rw [run_bind_getState, run_ite, if_neg (BitVec.not_lt.mpr hrpl), run_ite, if_neg (by simp [h]),
    run_bind_ok (readDescOr_some hd)]
  simp only [run_ite]
  simp only [run_raise, run_pure]
  grind [Desc.runsAt_eq_false_iff]

theorem returnSS_null (h : isNull rss = true) :
    returnSS rss new s = .error (.exc (.gp (selErr rss))) s := by
  unfold returnSS
  rw [run_ite, if_pos h, run_raise]

theorem returnSS_stops (h : isNull rss = false)
    (hr : readDescOr rss (.gp (selErr rss)) s = .error e u) : returnSS rss new s = .error e u := by
  unfold returnSS
  rw [run_ite, if_neg (by simp [h]), run_bind_error hr]

theorem returnSS_some (h : isNull rss = false) (hd : readDesc rss s = .ok (some d) u) :
    returnSS rss new s =
      if d.writable = false then .error (.exc (.gp (selErr rss))) u
      else if d.present = false then .error (.exc (.sf (selErr rss))) u
      else if d.dpl ≠ new ∨ selRpl rss ≠ d.dpl then .error (.exc (.gp (selErr rss))) u
      else if d.big then .ok d u else .error (.refuse .sixteenBitForm) u := by
  unfold returnSS
  rw [run_ite, if_neg (by simp [h]), run_bind_ok (readDescOr_some hd)]
  simp only [run_ite]
  simp only [run_raise, run_refuse, run_pure]
  grind

end ReturnChecks

/-! ## The two ends of a return (R211, R214) -/

theorem targetOK_eq_true_iff {limit off : Dword} :
    targetOK limit off = true ↔ off.toNat ≤ limit.toNat := decide_eq_true_iff

theorem targetOK_eq_false_iff {limit off : Dword} :
    targetOK limit off = false ↔ limit.toNat < off.toNat := by
  rw [← Bool.not_eq_true, targetOK_eq_true_iff, Nat.not_le]

section ReturnEnds

variable {s u v w : State} {rcs : Word} {d sd : Desc} {reip resp rssd : Dword} {off : Nat} {n : Word}
  {e : Stop}

/-- The check of the offset and of the code segment's size, where a return or an entry ends (R75, R91). -/
theorem run_target_checked {α : Type} (d : Desc) (target : Dword) (k : Unit → Exec α) (s : State) :
    (if !targetOK d.effLimit target then raise (.gp 0) else require32 d >>= k) s =
      if d.effLimit.toNat < target.toNat then .error (.exc (.gp 0)) s
      else if d.big = false then .error (.refuse .sixteenBitForm) s
      else k () s := by
  rw [run_ite, run_raise]
  cases hb : d.big with
  | true => rw [run_bind_ok (require32_ok s hb)]; grind [targetOK_eq_false_iff]
  | false => rw [run_bind_error (require32_refuses s hb)]; grind [targetOK_eq_false_iff]

/-- A return to the same level ends in CS, ESP and CS:EIP. -/
theorem returnSame_eq (rcs : Word) (d : Desc) (reip esp : Dword) (s : State) :
    returnSame rcs d reip esp s =
      if d.effLimit.toNat < reip.toNat then .error (.exc (.gp 0)) s
      else if d.big = false then .error (.refuse .sixteenBitForm) s
      else (setAccessed rcs d >>= fun _ => update fun t =>
        State.jumpTo { (t.withCS rcs d s.cpl) with regs := { t.regs with esp := esp } } reip) s := by
  unfold returnSame
  rw [run_bind_getState]
  exact run_target_checked ..

theorem returnOuter_beyond_limit (h : limitOK s.segs.ss off 8 = false) :
    returnOuter rcs d reip off n s = .error (.exc (.sf 0)) s := by
  unfold returnOuter
  rw [run_bind_getState, run_ite, if_pos (by simp [h]), run_raise]

theorem returnOuter_esp_error (h : limitOK s.segs.ss off 8 = true)
    (h1 : segReadDword .ss (BitVec.ofNat 32 off) s = .error e u) :
    returnOuter rcs d reip off n s = .error e u := by
  unfold returnOuter
  rw [run_bind_getState, run_ite, if_neg (by simp [h]), run_bind_error h1]

theorem returnOuter_ss_error (h : limitOK s.segs.ss off 8 = true)
    (h1 : segReadDword .ss (BitVec.ofNat 32 off) s = .ok resp u)
    (h2 : segReadDword .ss (BitVec.ofNat 32 (off + 4)) u = .error e v) :
    returnOuter rcs d reip off n s = .error e v := by
  unfold returnOuter
  rw [run_bind_getState, run_ite, if_neg (by simp [h]), run_bind_ok h1, run_bind_error h2]

/-- The outer SS:ESP at offset `off` of the stack reads as `resp` and `rssd`. -/
structure OuterFrame (off : Nat) (s : State) (resp rssd : Dword) (v : State) : Prop where
  room : limitOK s.segs.ss off 8 = true
  reads : ∃ u, segReadDword .ss (BitVec.ofNat 32 off) s = .ok resp u ∧
    segReadDword .ss (BitVec.ofNat 32 (off + 4)) u = .ok rssd v

theorem returnOuter_stack_error (h : OuterFrame off s resp rssd v)
    (h3 : returnSS (rssd.extractLsb' 0 16) (selRpl rcs) v = .error e w) :
    returnOuter rcs d reip off n s = .error e w := by
  obtain ⟨hl, u, h1, h2⟩ := h
  unfold returnOuter
  rw [run_bind_getState, run_ite, if_neg (by simp [hl]), run_bind_ok h1, run_bind_ok h2]
  exact run_bind_error h3

/-- A return to an outer level ends in the two accessed bits, CS:EIP, SS:ESP and step 3. -/
theorem returnOuter_of_stack (h : OuterFrame off s resp rssd v)
    (h3 : returnSS (rssd.extractLsb' 0 16) (selRpl rcs) v = .ok sd w) :
    returnOuter rcs d reip off n s =
      if d.effLimit.toNat < reip.toNat then .error (.exc (.gp 0)) w
      else if d.big = false then .error (.refuse .sixteenBitForm) w
      else (prepareAccessed rcs d >>= fun codeMark =>
        prepareAccessed (rssd.extractLsb' 0 16) sd >>= fun stackMark => update fun t =>
          ((((t.store (codeMark ++ stackMark)).withCS rcs d (selRpl rcs)).withStack
            (rssd.extractLsb' 0 16) sd (resp + n.zeroExtend 32)).nullInaccessible (selRpl rcs)).jumpTo
              reip) w := by
  obtain ⟨hl, u, h1, h2⟩ := h
  unfold returnOuter
  rw [run_bind_getState, run_ite, if_neg (by simp [hl]), run_bind_ok h1, run_bind_ok h2]
  refine (run_bind_ok h3).trans ?_
  exact run_target_checked ..

end ReturnEnds

/-! ## RETF, RETF imm16 and IRET with NT = 0 (R211, R358) -/

/-- What follows the check of the return CS: the same level or an outer one; `size` bytes of frame. -/
def returnRest (s : State) (size : Nat) (n rcs : Word) (reip : Dword) (d : Desc) : Exec Unit :=
  if s.cpl < selRpl rcs then returnOuter rcs d reip (s.regs.esp.toNat + size + n.toNat) n
  else returnSame rcs d reip (s.regs.esp + BitVec.ofNat 32 size + n.zeroExtend 32)

section Returns

variable {s u v w : State} {i : Instr} {size : Nat} {n : Word} {reip csword image : Dword} {e : Exception}

theorem exec_farReturn (h : i = .retf ∧ n = 0 ∨ i = .retfImm n) :
    exec i s = conclude (farReturn n) s := by
  obtain ⟨rfl, rfl⟩ | rfl := h <;> rfl

theorem exec_iret_nt_clear (h : s.eflags.getLsbD bitNT = false) :
    exec .iret s = conclude interruptReturn s := by
  change conclude _ s = _
  rw [conclude_eq_outcomeOf, run_ite, if_neg (by rw [h]; decide), ← conclude_eq_outcomeOf]

theorem exec_return_beyond_limit (h : Returns i s size n)
    (hl : limitOK s.segs.ss s.regs.esp.toNat size = false) : exec i s = takeException (.sf 0) s := by
  obtain ⟨rfl, hi⟩ | ⟨rfl, rfl, rfl, hnt⟩ := h
  · rw [exec_farReturn hi]
    refine conclude_exc ?_
    unfold farReturn
    rw [run_bind_getState, run_ite, if_pos (by simp [hl]), run_raise]
  · rw [exec_iret_nt_clear hnt]
    refine conclude_exc ?_
    unfold interruptReturn
    rw [run_bind_getState, run_ite, if_pos (by simp [hl]), run_raise]

theorem exec_return_eip_exc (h : Returns i s size n)
    (hl : limitOK s.segs.ss s.regs.esp.toNat size = true)
    (h1 : segReadDword .ss s.regs.esp s = .error (.exc e) u) : exec i s = takeException e u := by
  obtain ⟨rfl, hi⟩ | ⟨rfl, rfl, rfl, hnt⟩ := h
  · rw [exec_farReturn hi]
    refine conclude_exc ?_
    unfold farReturn
    rw [run_bind_getState, run_ite, if_neg (by simp [hl]), run_bind_error h1]
  · rw [exec_iret_nt_clear hnt]
    refine conclude_exc ?_
    unfold interruptReturn
    rw [run_bind_getState, run_ite, if_neg (by simp [hl]), run_bind_error h1]

theorem exec_return_cs_exc (h : Returns i s size n)
    (hl : limitOK s.segs.ss s.regs.esp.toNat size = true)
    (h1 : segReadDword .ss s.regs.esp s = .ok reip u)
    (h2 : segReadDword .ss (s.regs.esp + 4) u = .error (.exc e) v) : exec i s = takeException e v := by
  obtain ⟨rfl, hi⟩ | ⟨rfl, rfl, rfl, hnt⟩ := h
  · rw [exec_farReturn hi]
    refine conclude_exc ?_
    unfold farReturn
    rw [run_bind_getState, run_ite, if_neg (by simp [hl]), run_bind_ok h1, run_bind_error h2]
  · rw [exec_iret_nt_clear hnt]
    refine conclude_exc ?_
    unfold interruptReturn
    rw [run_bind_getState, run_ite, if_neg (by simp [hl]), run_bind_ok h1, run_bind_error h2]

theorem exec_return_image_exc (h : Returns i s size n)
    (hl : limitOK s.segs.ss s.regs.esp.toNat size = true)
    (h1 : segReadDword .ss s.regs.esp s = .ok reip u)
    (h2 : segReadDword .ss (s.regs.esp + 4) u = .ok csword v) (hsize : size = 12)
    (h3 : segReadDword .ss (s.regs.esp + 8) v = .error (.exc e) w) : exec i s = takeException e w := by
  obtain ⟨rfl, -⟩ | ⟨rfl, rfl, rfl, hnt⟩ := h
  · exact absurd hsize (by decide)
  · rw [exec_iret_nt_clear hnt]
    refine conclude_exc ?_
    unfold interruptReturn
    rw [run_bind_getState, run_ite, if_neg (by simp [hl]), run_bind_ok h1, run_bind_ok h2,
      run_bind_error h3]

/-- A far return whose frame reads: the check of the return CS, then the rest (R211). -/
theorem exec_farReturn_of_frame (h : i = .retf ∧ n = 0 ∨ i = .retfImm n)
    (hl : limitOK s.segs.ss s.regs.esp.toNat 8 = true)
    (h1 : segReadDword .ss s.regs.esp s = .ok reip u)
    (h2 : segReadDword .ss (s.regs.esp + 4) u = .ok csword v) : exec i s =
      outcomeOf (returnCS (csword.extractLsb' 0 16) v) fun d w =>
        outcomeOf (returnRest s 8 n (csword.extractLsb' 0 16) reip d w) fun _ t => .next t := by
  rw [exec_farReturn h, conclude_eq_outcomeOf]
  unfold farReturn
  rw [run_bind_getState, run_ite, if_neg (by simp [hl]), run_bind_ok h1, run_bind_ok h2]
  exact outcomeOf_bind ..

/-- An IRET whose frame reads: the check of the return CS, the VM bit of the image, the rest, and then the
flags (R358). -/
theorem exec_iret_of_frame (hnt : s.eflags.getLsbD bitNT = false)
    (hl : limitOK s.segs.ss s.regs.esp.toNat 12 = true)
    (h1 : segReadDword .ss s.regs.esp s = .ok reip u)
    (h2 : segReadDword .ss (s.regs.esp + 4) u = .ok csword v)
    (h3 : segReadDword .ss (s.regs.esp + 8) v = .ok image w) : exec .iret s =
      outcomeOf (returnCS (csword.extractLsb' 0 16) w) fun d x =>
        if s.cpl = 0 ∧ image.getLsbD bitVM = true then .refused .virtual8086Mode
        else outcomeOf (returnRest s 12 0 (csword.extractLsb' 0 16) reip d x) fun _ t =>
          .next { t with eflags := flagsAfterIret t.eflags image s.cpl } := by
  rw [exec_iret_nt_clear hnt, conclude_eq_outcomeOf]
  unfold interruptReturn
  rw [run_bind_getState, run_ite, if_neg (by simp [hl]), run_bind_ok h1, run_bind_ok h2, run_bind_ok h3]
  refine (outcomeOf_bind ..).trans (outcomeOf_congr fun d x _ => ?_)
  by_cases hvm : s.cpl = 0 ∧ image.getLsbD bitVM = true
  · rw [run_ite, if_pos (by simpa using hvm), if_pos hvm, run_refuse, outcomeOf_refuse]
  · rw [run_ite, if_neg (by simpa using hvm), if_neg hvm]
    unfold returnRest
    split
    · exact outcomeOf_bind ..
    · have hesp : s.regs.esp + BitVec.ofNat 32 12 + (0 : Word).zeroExtend 32 = s.regs.esp + 12 :=
        BitVec.add_zero _
      rw [hesp]
      exact outcomeOf_bind ..

theorem ReturnFrame.readTo (h : ReturnFrame i s size n reip csword image v) : s.ReadTo v := by
  obtain ⟨-, -, u, w, h1, h2, h3⟩ := h
  have hw : s.ReadTo w := ((reads_segReadDword ..).of_ok h1).trans ((reads_segReadDword ..).of_ok h2)
  split at h3
  · exact h3.2 ▸ hw
  · exact hw.trans ((reads_segReadDword ..).of_ok h3)

/-- Both kinds of return in one: `ended` is what the instruction does after the return. -/
theorem exec_return_of_frame (h : ReturnFrame i s size n reip csword image v) :
    ∃ ended : State → State, exec i s =
      outcomeOf (returnCS (csword.extractLsb' 0 16) v) fun d w =>
        if s.cpl = 0 ∧ image.getLsbD bitVM = true then .refused .virtual8086Mode
        else outcomeOf (returnRest s size n (csword.extractLsb' 0 16) reip d w) fun _ t =>
          .next (ended t) := by
  obtain ⟨hi, hl, u, w, h1, h2, h3⟩ := h
  obtain ⟨rfl, hi⟩ | ⟨rfl, rfl, rfl, hnt⟩ := hi
  · obtain ⟨rfl, rfl⟩ : image = 0 ∧ v = w := h3
    exact ⟨id, (exec_farReturn_of_frame hi hl h1 h2).trans
      (outcomeOf_congr fun d x _ => (if_neg fun h => absurd h.2 (by decide)).symm)⟩
  · exact ⟨_, exec_iret_of_frame hnt hl h1 h2 h3⟩

theorem ofNat_esp_add (esp : Dword) (k : Nat) :
    BitVec.ofNat 32 (esp.toNat + k) = esp + BitVec.ofNat 32 k := by
  rw [BitVec.ofNat_add, BitVec.ofNat_toNat, BitVec.setWidth_eq]

theorem returnRest_same {d : Desc} {rcs : Word} (h : selRpl rcs = s.cpl) :
    returnRest s size n rcs reip d =
      returnSame rcs d reip (s.regs.esp + BitVec.ofNat 32 size + n.zeroExtend 32) :=
  if_neg (by rw [h]; bv_omega)

theorem returnRest_outer {d : Desc} {rcs : Word} (h : s.cpl < selRpl rcs) :
    returnRest s size n rcs reip d =
      returnOuter rcs d reip (s.regs.esp.toNat + size + n.toNat) n := if_pos h

end Returns

theorem extractLsb_append_selRpl (sel : Word) : sel.extractLsb' 2 14 ++ selRpl sel = sel :=
  BitVec.extractLsb'_append_extractLsb'_eq_extractLsb' rfl |>.trans BitVec.extractLsb'_eq_self

/-- At the level of the selector, CS holds the selector as it stands (R172). -/
theorem State.withCS_same_level {t : State} {sel : Word} (d : Desc) (h : selRpl sel = t.cpl) :
    t.withCS sel d t.cpl = { t with segs := { t.segs with cs := cacheOf sel d } } := by
  unfold State.withCS
  rw [← h, extractLsb_append_selRpl, h]

/-- Settles O34. -/
theorem farReturnSameLevel : Obligations.FarReturnSameLevel := by
  intro s u v w x i n reip csword d hi hl h1 h2 rcs hrpl hn hd hc hp hpriv hlim hb hset
  have hv : s.ReadTo v := ((reads_segReadDword ..).of_ok h1).trans ((reads_segReadDword ..).of_ok h2)
  have hw : s.ReadTo w := hv.trans ((reads_readDesc rcs).of_ok hd)
  have hst := setAccessed_storedTo hset
  refine ⟨hw, hst, ?_⟩
  have hcs : returnCS rcs v = .ok d w := by
    rw [returnCS_some (by rw [hrpl, hv.cpl]; exact BitVec.le_refl _) hn hd, if_neg (by simp [hc]),
      if_neg (by simp [hp]), if_neg (by simp [Desc.runsAt_eq_true_iff.mpr ⟨hc, hpriv⟩])]
  rw [exec_farReturn_of_frame hi hl h1 h2, hcs, outcomeOf_ok, returnRest_same hrpl, returnSame_eq,
    if_neg (Nat.not_lt.mpr hlim), if_neg (by simp [hb]), run_bind_ok hset, run_update, outcomeOf_ok]
  have hcpl : x.cpl = w.cpl := hst.cpl
  rw [← hcpl, State.withCS_same_level d (by rw [hcpl, hw.cpl, hrpl]), hst.segs, hst.regs, hw.segs, hw.regs]
  rfl

/-- Settles O37, by the chains of checks `returnCS_some` and `returnSS_some` and the two ends of a return. -/
theorem returnChecks : Obligations.ReturnChecks := by
  refine ⟨fun s i size n hi => ⟨exec_return_beyond_limit hi, fun hl => ⟨fun e u => exec_return_eip_exc hi hl,
      fun reip u h1 => ⟨fun e v => exec_return_cs_exc hi hl h1,
        fun csword v h2 hsize e w => exec_return_image_exc hi hl h1 h2 hsize⟩⟩⟩,
    fun s v i size n reip csword image hf => ?_, fun s rss new => ⟨returnSS_null, fun hn =>
      ⟨fun v => returnSS_stops hn ∘ readDescOr_none, fun e v => returnSS_stops hn ∘ readDescOr_error,
        fun d v hd => ?_⟩⟩⟩
  · intro rcs gp
    obtain ⟨ended, hexec⟩ := exec_return_of_frame hf
    have hv : s.ReadTo v := ReturnFrame.readTo hf
    rw [← hv.cpl]
    have hcs_exc {x w} (h : returnCS rcs v = .error (.exc x) w) : exec i s = takeException x w := by
      rw [hexec, h, outcomeOf_exc]
    refine ⟨fun h => hcs_exc (returnCS_inward h), fun hrpl h => hcs_exc (returnCS_null hrpl h),
      fun hrpl hn => ⟨fun w h => hcs_exc (returnCS_stops hrpl hn (readDescOr_none h)),
        fun e w h => hcs_exc (returnCS_stops hrpl hn (readDescOr_error h)), fun d w hd => ?_⟩⟩
    have heq := returnCS_some hrpl hn hd
    refine ⟨fun hc => hcs_exc (by rw [heq, if_pos hc]),
      fun hc hp => hcs_exc (by rw [heq, if_neg (by simp [hc]), if_pos hp]), fun hc hp => ?_⟩
    rw [if_neg (by simp [hc]), if_neg (by simp [hp])] at heq
    have hbad (h : d.runsAt (selRpl rcs) = false) : exec i s = gp w := hcs_exc (by rw [heq, if_pos h])
    rw [Desc.runsAt_eq_false_iff] at hbad
    refine ⟨fun hcf hl => hbad (.inr (.inl ⟨hcf, hl⟩)), fun hcf hl => hbad (.inr (.inr ⟨hcf, hl⟩)),
      fun hpriv => ?_⟩
    rw [if_neg (by simp [Desc.runsAt_eq_true_iff.mpr ⟨hc, hpriv⟩])] at heq
    rw [heq, outcomeOf_ok, ← hv.cpl] at hexec
    refine ⟨fun h0 hvm => hexec.trans (if_pos ⟨h0, hvm⟩), fun hvm hsame => ?_, fun hvm hout => ?_⟩
    · rw [if_neg hvm, returnRest_same (by rw [← hv.cpl]; exact hsame.symm), returnSame_eq] at hexec
      refine ⟨fun h => by rw [hexec, if_pos h, outcomeOf_exc],
        fun h hb => by rw [hexec, if_neg (by omega), if_pos hb, outcomeOf_refuse], fun h hb => ⟨fun y => ended
          (State.jumpTo { (y.withCS rcs d w.cpl) with
            regs := { y.regs with esp := s.regs.esp + BitVec.ofNat 32 size + n.zeroExtend 32 } } reip), ?_⟩⟩
      rw [hexec, if_neg (by omega), if_neg (by simp [hb]), outcomeOf_bind]
      rfl
    · have hw : s.ReadTo w := hv.trans ((reads_readDesc rcs).of_ok hd)
      rw [if_neg hvm, returnRest_outer (by rw [← hv.cpl]; exact hout)] at hexec
      simp only [← ofNat_esp_add, ← Nat.add_assoc]
      have hout {x y} (h : returnOuter rcs d reip (s.regs.esp.toNat + size + n.toNat) n w =
          .error (.exc x) y) : exec i s = takeException x y := by rw [hexec, h, outcomeOf_exc]
      rw [← hw.segs]
      refine ⟨fun h => hout (returnOuter_beyond_limit h), fun hroom => ⟨fun e x h =>
        hout (returnOuter_esp_error hroom h), fun resp x h1 e y h => hout (returnOuter_ss_error hroom h1 h),
        fun resp ssword x y h1 h2 => ?_⟩⟩
      have hof : OuterFrame (s.regs.esp.toNat + size + n.toNat) w resp ssword y := ⟨hroom, x, h1, h2⟩
      refine ⟨fun f z h => hout (returnOuter_stack_error hof h),
        fun r z h => by rw [hexec, returnOuter_stack_error hof h, outcomeOf_refuse], fun e z h => ?_⟩
      rw [returnOuter_of_stack hof h] at hexec
      refine ⟨fun h => by rw [hexec, if_pos h, outcomeOf_exc],
        fun h hb => by rw [hexec, if_neg (by omega), if_pos hb, outcomeOf_refuse],
        fun h hb => ⟨fun codeMark stackMark b => ended
          (((((b.store (codeMark ++ stackMark)).withCS rcs d (selRpl rcs)).withStack
            (ssword.extractLsb' 0 16) e (resp + n.zeroExtend 32)).nullInaccessible (selRpl rcs)).jumpTo
              reip), ?_⟩⟩
      rw [hexec, if_neg (by omega), if_neg (by simp [hb]), outcomeOf_bind]
      refine outcomeOf_congr fun codeMark a _ => ?_
      rw [outcomeOf_bind]
      rfl
  · have heq := returnSS_some (new := new) hn hd
    refine ⟨fun hw => by rw [heq, if_pos hw], fun hw hp => by rw [heq, if_neg (by simp [hw]), if_pos hp],
      fun hw hp h => by rw [heq, if_neg (by simp [hw]), if_neg (by simp [hp]), if_pos h],
      fun hw hp hdpl hrpl => ?_⟩
    rw [heq, if_neg (by simp [hw]), if_neg (by simp [hp]), if_neg (by simp [hdpl, hrpl])]

end Sys2Proof.Machine

/-! Far JMP and CALL: the dispatch on the descriptor, call gates, and the end at the same level. -/

namespace Sys2Proof.Machine

open Sys2Proof

/-! ## The operand and the dispatch (R187) -/

section Dispatch

variable {s u v w : State} {kind : FarKind} {i : Instr} {sel : Word} {off : Dword} {d : Desc} {e : Stop}

theorem exec_of_farOperand (h : FarOperand kind i s sel off u) :
    exec i s = conclude (farTransfer kind sel off) u := by
  cases kind with
  | jmp =>
    obtain ⟨rfl, rfl⟩ | ⟨x, rfl, hx⟩ := h
    · rfl
    · exact conclude_bind_ok hx
  | call =>
    obtain ⟨rfl, rfl⟩ | ⟨x, rfl, hx⟩ := h
    · rfl
    · exact conclude_bind_ok hx

theorem farOperand_readTo (h : FarOperand kind i s sel off u) : s.ReadTo u := by
  cases kind <;>
    obtain ⟨-, rfl⟩ | ⟨x, -, hx⟩ := h
  · exact .refl u
  · exact (reads_readFarPointer x).of_ok hx
  · exact .refl u
  · exact (reads_readFarPointer x).of_ok hx

theorem farTransfer_null (h : isNull sel = true) :
    farTransfer kind sel off u = .error (.exc (.gp 0)) u := by
  unfold farTransfer
  rw [run_ite, if_pos h, run_raise]

theorem farTransfer_stops (h : isNull sel = false)
    (hr : readDescOr sel (.gp (selErr sel)) u = .error e v) : farTransfer kind sel off u = .error e v := by
  unfold farTransfer
  rw [run_ite, if_neg (by simp [h]), run_bind_error hr]

theorem farTransfer_code (h : isNull sel = false) (hd : readDesc sel u = .ok (some d) v)
    (hc : d.isCode = true) : farTransfer kind sel off u = directTransfer kind sel off d v := by
  unfold farTransfer
  rw [run_ite, if_neg (by simp [h]), run_bind_ok (readDescOr_some hd), run_ite, if_pos hc]

theorem farTransfer_data (h : isNull sel = false) (hd : readDesc sel u = .ok (some d) v)
    (hdata : d.isData = true) : farTransfer kind sel off u = .error (.exc (.gp (selErr sel))) v := by
  have hc : d.isCode = false := by
    rw [Desc.isData_iff] at hdata
    rw [← Bool.not_eq_true, Desc.isCode_iff, hdata.2]
    simp
  unfold farTransfer
  rw [run_ite, if_neg (by simp [h]), run_bind_ok (readDescOr_some hd), run_ite, if_neg (by simp [hc]),
    run_ite, if_pos hdata, run_raise]

theorem Desc.not_code_of_system (h : d.isSeg = false) : d.isCode = false := by
  unfold Desc.isCode
  rw [h, Bool.false_and]

theorem Desc.not_data_of_system (h : d.isSeg = false) : d.isData = false := by
  unfold Desc.isData
  rw [h, Bool.false_and]

/-- A descriptor of no segment: what follows is said by its type alone (R187). -/
theorem farTransfer_system (h : isNull sel = false) (hd : readDesc sel u = .ok (some d) v)
    (hs : d.isSeg = false) :
    (d.typ.toNat = 0xC → farTransfer kind sel off u = gateTransfer kind sel d v) ∧
    (d.typ.toNat = 0x5 → farTransfer kind sel off u = taskGateTransfer kind sel d v) ∧
    (d.typ.toNat ∈ [9, 0xB] → farTransfer kind sel off u = tssTransfer kind sel d v) ∧
    (d.typ.toNat ∈ [1, 3, 4] → farTransfer kind sel off u = .error (.refuse .sixteenBitForm) v) ∧
    (d.typ.toNat ∈ [0, 2, 6, 7, 8, 0xA, 0xD, 0xE, 0xF] →
      farTransfer kind sel off u = .error (.exc (.gp (selErr sel))) v) := by
  unfold farTransfer
  rw [run_ite, if_neg (by simp [h]), run_bind_ok (readDescOr_some hd), run_ite,
    if_neg (by simp [Desc.not_code_of_system hs]), run_ite, if_neg (by simp [Desc.not_data_of_system hs])]
  generalize d.typ.toNat = k
  simp only [List.mem_cons, List.not_mem_nil, or_false]
  refine ⟨?_, ?_, ?_, ?_, ?_⟩
  · rintro rfl; rfl
  · rintro rfl; rfl
  · rintro (rfl | rfl) <;> rfl
  · rintro (rfl | rfl | rfl) <;> rfl
  · rintro (rfl | rfl | rfl | rfl | rfl | rfl | rfl | rfl | rfl) <;> rfl

/-! ## TSS and task gate (R285, R289) -/

theorem tssTransfer_denied (h : selTI sel = true ∨ d.dpl < v.cpl ∨ d.dpl < selRpl sel) :
    tssTransfer kind sel d v = .error (.exc (.gp (selErr sel))) v := by
  rw [← lt_maxLevel_iff] at h
  unfold tssTransfer
  rw [run_bind_getState]
  simp only [run_ite]
  simp only [run_raise]
  grind

theorem taskGateTransfer_denied (h : d.dpl < v.cpl ∨ d.dpl < selRpl sel) :
    taskGateTransfer kind sel d v = .error (.exc (.gp (selErr sel))) v := by
  unfold taskGateTransfer
  rw [run_bind_getState, run_ite, if_pos (lt_maxLevel_iff.mpr h), run_raise]

theorem taskGateTransfer_absent (hcpl : v.cpl ≤ d.dpl) (hrpl : selRpl sel ≤ d.dpl)
    (hp : d.present = false) : taskGateTransfer kind sel d v = .error (.exc (.np (selErr sel))) v := by
  unfold taskGateTransfer
  rw [run_bind_getState, run_ite, if_neg (BitVec.not_lt.mpr (maxLevel_le_iff.mpr ⟨hcpl, hrpl⟩)), run_ite,
    if_pos (by simp [hp]), run_raise]

/-! ## A code segment, directly (R188) -/

theorem directTransfer_eq (kind : FarKind) (sel : Word) (off : Dword) (d : Desc) (v : State) :
    directTransfer kind sel off d v =
      if d.conforming = true ∧ v.cpl < d.dpl ∨
          d.conforming = false ∧ (v.cpl < selRpl sel ∨ d.dpl ≠ v.cpl) then
        .error (.exc (.gp (selErr sel))) v
      else sameLevelTransfer kind sel d off v := by
  unfold directTransfer
  rw [run_bind_getState]
  simp only [run_ite]
  simp only [run_raise]
  grind

/-! ## A call gate (R196 to R201) -/

theorem gateTransfer_denied (h : d.dpl < v.cpl ∨ d.dpl < selRpl sel) :
    gateTransfer kind sel d v = .error (.exc (.gp (selErr sel))) v := by
  unfold gateTransfer
  rw [run_bind_getState, run_ite, if_pos (lt_maxLevel_iff.mpr h), run_raise]

theorem gateTransfer_absent (hcpl : v.cpl ≤ d.dpl) (hrpl : selRpl sel ≤ d.dpl)
    (hp : d.present = false) : gateTransfer kind sel d v = .error (.exc (.np (selErr sel))) v := by
  unfold gateTransfer
  rw [run_bind_getState, run_ite, if_neg (BitVec.not_lt.mpr (maxLevel_le_iff.mpr ⟨hcpl, hrpl⟩)), run_ite,
    if_pos (by simp [hp]), run_raise]

/-- The gate is present, and CPL and RPL may use it (R198). -/
def Desc.usableAt (g : Desc) (cpl : Level) (sel : Word) : Prop :=
  cpl ≤ g.dpl ∧ selRpl sel ≤ g.dpl ∧ g.present = true

theorem gateTransfer_stops (h : d.usableAt v.cpl sel) (ht : gateTarget d.gateSelector v = .error e w) :
    gateTransfer kind sel d v = .error e w := by
  obtain ⟨hcpl, hrpl, hp⟩ := h
  unfold gateTransfer
  rw [run_bind_getState, run_ite, if_neg (BitVec.not_lt.mpr (maxLevel_le_iff.mpr ⟨hcpl, hrpl⟩)), run_ite,
    if_neg (by simp [hp]), run_bind_error ht]

theorem gateTransfer_jmp {t : Desc} (h : d.usableAt v.cpl sel)
    (ht : gateTarget d.gateSelector v = .ok t w) : gateTransfer .jmp sel d v =
      if t.conforming = true ∧ v.cpl < t.dpl ∨ t.conforming = false ∧ t.dpl ≠ v.cpl then
        .error (.exc (.gp (selErr d.gateSelector))) w
      else sameLevelTransfer .jmp d.gateSelector t d.gateOffset w := by
  obtain ⟨hcpl, hrpl, hp⟩ := h
  unfold gateTransfer
  rw [run_bind_getState, run_ite, if_neg (BitVec.not_lt.mpr (maxLevel_le_iff.mpr ⟨hcpl, hrpl⟩)), run_ite,
    if_neg (by simp [hp]), run_bind_ok ht]
  simp only [run_ite]
  simp only [run_raise]
  grind

theorem gateTransfer_call {t : Desc} (h : d.usableAt v.cpl sel)
    (ht : gateTarget d.gateSelector v = .ok t w) : gateTransfer .call sel d v =
      if v.cpl < t.dpl then .error (.exc (.gp (selErr d.gateSelector))) w
      else if t.present = false then .error (.exc (.np (selErr d.gateSelector))) w
      else if t.conforming = false ∧ t.dpl < v.cpl then
        innerTransfer d.gateSelector t d.gateOffset (4 + d.gateCount) (callFrame d.gateCount) w
      else sameLevelTransfer .call d.gateSelector t d.gateOffset w := by
  obtain ⟨hcpl, hrpl, hp⟩ := h
  unfold gateTransfer
  rw [run_bind_getState, run_ite, if_neg (BitVec.not_lt.mpr (maxLevel_le_iff.mpr ⟨hcpl, hrpl⟩)), run_ite,
    if_neg (by simp [hp]), run_bind_ok ht]
  simp only [run_ite]
  simp only [run_raise]
  grind

theorem gateTarget_null (h : isNull sel = true) : gateTarget sel v = .error (.exc (.gp 0)) v := by
  unfold gateTarget
  rw [run_ite, if_pos h, run_raise]

theorem gateTarget_stops (h : isNull sel = false)
    (hr : readDescOr sel (.gp (selErr sel)) v = .error e w) : gateTarget sel v = .error e w := by
  unfold gateTarget
  rw [run_ite, if_neg (by simp [h]), run_bind_error hr]

theorem gateTarget_no_code (h : isNull sel = false) (hd : readDesc sel v = .ok (some d) w)
    (hc : d.isCode = false) : gateTarget sel v = .error (.exc (.gp (selErr sel))) w := by
  unfold gateTarget
  rw [run_ite, if_neg (by simp [h]), run_bind_ok (readDescOr_some hd), run_ite, if_pos (by simp [hc]),
    run_raise]

end Dispatch

/-! ## The end at the same level (R190, R191, R200, R201) -/

section SameLevel

variable {s u v w : State} {kind : FarKind} {i : Instr} {sel : Word} {off target esp : Dword} {d g : Desc}
  {e : Stop} {cells : List Host.Cell} {vs : List Dword}

theorem enterCode_sixteenBit (h : d.big = false) :
    enterCode sel d target cells esp v = .error (.refuse .sixteenBitForm) v :=
  run_bind_error (require32_refuses v h)

theorem enterCode_mark_error (h : d.big = true) (hm : prepareAccessed sel d v = .error e w) :
    enterCode sel d target cells esp v = .error e w :=
  (run_bind_ok (require32_ok v h)).trans (run_bind_error hm)

theorem sameLevelTransfer_absent (h : d.present = false) :
    sameLevelTransfer kind sel d target v = .error (.exc (.np (selErr sel))) v := by
  unfold sameLevelTransfer
  rw [run_bind_getState, run_ite, if_pos (by simp [h]), run_raise]

theorem sameLevelTransfer_beyond (hp : d.present = true) (h : d.effLimit.toNat < target.toNat) :
    sameLevelTransfer kind sel d target v = .error (.exc (.gp 0)) v := by
  unfold sameLevelTransfer
  rw [run_bind_getState, run_ite, if_neg (by simp [hp]), run_ite,
    if_pos (by simp [targetOK_eq_false_iff.mpr h]), run_raise]

theorem sameLevelTransfer_jmp (hp : d.present = true) (h : target.toNat ≤ d.effLimit.toNat) :
    sameLevelTransfer .jmp sel d target v = enterCode sel d target [] v.regs.esp v := by
  unfold sameLevelTransfer
  rw [run_bind_getState, run_ite, if_neg (by simp [hp]), run_ite,
    if_neg (by simp [targetOK_eq_true_iff.mpr h])]

theorem sameLevelTransfer_call (hp : d.present = true) (h : target.toNat ≤ d.effLimit.toNat) :
    sameLevelTransfer .call sel d target v = pushAndEnter sel d target v.farReturnPointer v := by
  unfold sameLevelTransfer
  rw [run_bind_getState, run_ite, if_neg (by simp [hp]), run_ite,
    if_neg (by simp [targetOK_eq_true_iff.mpr h])]

theorem pushAndEnter_push_error (h : preparePush vs v = .error e w) :
    pushAndEnter sel d target vs v = .error e w := run_bind_error h

theorem pushAndEnter_of_push (h : preparePush vs v = .ok cells w) : pushAndEnter sel d target vs v =
    enterCode sel d target cells (v.regs.esp - BitVec.ofNat 32 (4 * vs.length)) w := by
  unfold pushAndEnter
  rw [run_bind_ok h, run_bind_getState, ((reads_preparePush vs).of_ok h).regs]
  rfl

theorem State.ReadTo.farReturnPointer (h : s.ReadTo v) : v.farReturnPointer = s.farReturnPointer := by
  unfold State.farReturnPointer
  rw [h.segs, h.nextEip]

/-- The gate that a far transfer finds and may use. -/
theorem exec_of_gate (hi : FarOperand kind i s sel off u) (hn : isNull sel = false)
    (hd : readDesc sel u = .ok (some g) v) (hs : g.isSeg = false) (ht : g.typ = 0xC) :
    exec i s = conclude (gateTransfer kind sel g) v := by
  rw [exec_of_farOperand hi, conclude_eq_outcomeOf,
    (farTransfer_system hn hd hs).1 (by rw [ht]; rfl), ← conclude_eq_outcomeOf]

/-- What a gate operand gives: the target at the gate's selector, and the transfer through the gate. -/
theorem gateOperand_exec {csel : Word} (h : GateOperand kind i s g csel off d v) :
    ∃ sel w, exec i s = conclude (gateTransfer kind sel g) w ∧ s.ReadTo w ∧ g.usableAt w.cpl sel ∧
      gateTarget g.gateSelector w = .ok d v ∧ csel = g.gateSelector ∧ off = g.gateOffset := by
  obtain ⟨sel, unused, u, w, hi, hn, hd, hs, ht, hcpl, hrpl, hp, rfl, rfl, hcn, hcd, hc⟩ := h
  have hw : s.ReadTo w := (farOperand_readTo hi).trans ((reads_readDesc sel).of_ok hd)
  exact ⟨sel, w, exec_of_gate hi hn hd hs ht, hw, ⟨hw.cpl ▸ hcpl, hrpl, hp⟩, gateTarget_ok hcn hcd hc,
    rfl, rfl⟩

theorem sameLevelOperand_readTo (h : SameLevelOperand kind i s sel off d v) : s.ReadTo v := by
  obtain ⟨u, hi, -, hd, -⟩ | ⟨⟨g, h⟩, -⟩ := h
  · exact (farOperand_readTo hi).trans ((reads_readDesc sel).of_ok hd)
  · obtain ⟨_, w, -, hw, -, ht, -⟩ := gateOperand_exec h
    exact hw.trans ((reads_gateTarget _).of_ok ht)

/-- A far transfer that stays at its level is its end at the same level, however it got there. -/
theorem exec_sameLevel (h : SameLevelOperand kind i s sel off d v) :
    exec i s = conclude (sameLevelTransfer kind sel d off) v := by
  have hv := sameLevelOperand_readTo h
  obtain ⟨u, hi, hn, hd, hc, hpriv⟩ | ⟨⟨g, h⟩, hpriv⟩ := h
  · rw [exec_of_farOperand hi, conclude_eq_outcomeOf, farTransfer_code hn hd hc, directTransfer_eq,
      if_neg, ← conclude_eq_outcomeOf]
    rw [hv.cpl]
    cases hcf : d.conforming <;> simp only [hcf] at hpriv <;> grind [BitVec.not_le]
  · obtain ⟨osel, w, hexec, hw, huse, ht, rfl, rfl⟩ := gateOperand_exec h
    rw [hexec, conclude_eq_outcomeOf, conclude_eq_outcomeOf]
    cases kind with
    | jmp =>
      rw [gateTransfer_jmp huse ht, if_neg]
      rw [hw.cpl]
      cases hcf : d.conforming <;> simp only [hcf] at hpriv <;> grind [BitVec.not_le]
    | call =>
      have hle : ¬ w.cpl < d.dpl := by
        rw [hw.cpl]
        cases hcf : d.conforming <;> simp only [hcf] at hpriv <;> grind [BitVec.not_le]
      have hin : ¬ (d.conforming = false ∧ d.dpl < w.cpl) := by
        rw [hw.cpl]
        cases hcf : d.conforming <;> simp only [hcf] at hpriv <;> grind
      rw [gateTransfer_call huse ht, if_neg hle, if_neg hin]
      by_cases hp : d.present = false
      · rw [if_pos hp, sameLevelTransfer_absent hp]
      · rw [if_neg hp]

end SameLevel

theorem readFarPointer_mem {m : MemOperand} {s u : State} {bytes : List Byte}
    (h : segRead m.seg (effectiveOffset s.regs m) 6 s = .ok bytes u) :
    readFarPointer (.mem m) s = .ok (wordAt bytes 4, dwordAt bytes 0) u :=
  run_bind_ok (f := fun bs => pure (wordAt bs 4, dwordAt bs 0)) h

theorem readFarPointer_mem_error {m : MemOperand} {s u : State} {e : Stop}
    (h : segRead m.seg (effectiveOffset s.regs m) 6 s = .error e u) :
    readFarPointer (.mem m) s = .error e u :=
  run_bind_error (f := fun bs => pure (wordAt bs 4, dwordAt bs 0)) h

/-- Settles O33: the dispatch, the call gate's target, and the end at the same level. -/
theorem farTransferTraps : Obligations.FarTransferTraps := by
  refine ⟨fun s r => ⟨rfl, rfl⟩, fun s u m => ⟨fun _ => readFarPointer_mem, fun e h =>
      ⟨conclude_bind_exc (readFarPointer_mem_error h), conclude_bind_exc (readFarPointer_mem_error h)⟩⟩,
    fun s u kind i sel off hi => ?_, fun s u v kind i sel off g hi hn hd hs ht hcpl hrpl hp => ?_,
    fun s v kind i sel off d hi => ?_,
    fun s t sel off esp d cells e hb hm =>
      ⟨enterCode_mark_error hb hm, (reads_prepareAccessed ..).of_error hm⟩⟩
  · have hexec := exec_of_farOperand hi
    have hfar {e v} (h : farTransfer kind sel off u = .error (.exc e) v) : exec i s = takeException e v :=
      hexec.trans (conclude_exc h)
    refine ⟨fun hn => hfar (farTransfer_null hn), fun hn =>
      ⟨fun v h => hfar (farTransfer_stops hn (readDescOr_none h)),
        fun e v h => hfar (farTransfer_stops hn (readDescOr_error h)), fun d v hd => ?_⟩⟩
    have hcpl : v.cpl = s.cpl := ((farOperand_readTo hi).trans ((reads_readDesc sel).of_ok hd)).cpl
    rw [← hcpl]
    refine ⟨fun h => hfar (farTransfer_data hn hd h), fun hs ht => hfar ?_, fun hs ht => ?_,
      fun hs ht hpriv => hfar ?_, fun hs ht hti => hfar ?_, fun hs ht hc hr hp => hfar ?_,
      fun hc => ⟨fun hcf hl => hfar ?_, fun hcf hl => hfar ?_⟩⟩
    · obtain ⟨-, -, -, -, hno⟩ := farTransfer_system (kind := kind) (off := off) hn hd hs
      exact hno ht
    · obtain ⟨-, -, -, hold, -⟩ := farTransfer_system (kind := kind) (off := off) hn hd hs
      exact hexec.trans (conclude_refuse (hold ht))
    · obtain ⟨hgate, htask, htss, -⟩ := farTransfer_system (kind := kind) (off := off) hn hd hs
      simp only [List.mem_cons, List.not_mem_nil, or_false] at ht htss
      obtain ht | ht | ht | ht := ht
      · rw [htask ht, taskGateTransfer_denied hpriv]
      · rw [htss (.inl ht), tssTransfer_denied (.inr hpriv)]
      · rw [htss (.inr ht), tssTransfer_denied (.inr hpriv)]
      · rw [hgate ht, gateTransfer_denied hpriv]
    · obtain ⟨-, -, htss, -⟩ := farTransfer_system (kind := kind) (off := off) hn hd hs
      rw [htss ht, tssTransfer_denied (.inl hti)]
    · obtain ⟨hgate, htask, -⟩ := farTransfer_system (kind := kind) (off := off) hn hd hs
      simp only [List.mem_cons, List.not_mem_nil, or_false] at ht
      obtain ht | ht := ht
      · rw [htask ht, taskGateTransfer_absent hc hr hp]
      · rw [hgate ht, gateTransfer_absent hc hr hp]
    · rw [farTransfer_code hn hd hc, directTransfer_eq, if_pos (.inl ⟨hcf, hl⟩)]
    · rw [farTransfer_code hn hd hc, directTransfer_eq, if_pos (.inr ⟨hcf, hl⟩)]
  · intro tsel
    have hexec := exec_of_gate hi hn hd hs ht
    have hv : s.ReadTo v := (farOperand_readTo hi).trans ((reads_readDesc sel).of_ok hd)
    have huse : g.usableAt v.cpl sel := ⟨hv.cpl ▸ hcpl, hrpl, hp⟩
    have hgate {e w} (h : gateTransfer kind sel g v = .error (.exc e) w) : exec i s = takeException e w :=
      hexec.trans (conclude_exc h)
    have hstop {e w} (h : gateTarget g.gateSelector v = .error (.exc e) w) :
      exec i s = takeException e w := hgate (gateTransfer_stops huse h)
    refine ⟨fun h => hstop (gateTarget_null h), fun hnt =>
      ⟨fun w h => hstop (gateTarget_stops hnt (readDescOr_none h)),
        fun e w h => hstop (gateTarget_stops hnt (readDescOr_error h)), fun d w hdt => ?_⟩⟩
    rw [← hv.cpl]
    refine ⟨fun hc => hstop (gateTarget_no_code hnt hdt hc), fun hc hl => ?_, fun hc hk hcf hne => ?_,
      fun hc hle hk hp => ?_⟩
    all_goals have htgt := gateTarget_ok hnt hdt hc
    · cases kind with
      | jmp =>
        exact hgate (e := .gp (selErr g.gateSelector)) (by rw [gateTransfer_jmp huse htgt, if_pos (by grind)])
      | call =>
        exact hgate (e := .gp (selErr g.gateSelector)) (by rw [gateTransfer_call huse htgt, if_pos hl])
    · subst hk
      exact hgate (e := .gp (selErr g.gateSelector)) (by
        rw [gateTransfer_jmp huse htgt, if_pos (.inr ⟨hcf, hne⟩)])
    · cases kind with
      | jmp =>
        exact hgate (e := .np (selErr g.gateSelector)) (by
          rw [gateTransfer_jmp huse htgt, if_neg (by grind [BitVec.not_le]), sameLevelTransfer_absent hp])
      | call =>
        exact hgate (e := .np (selErr g.gateSelector)) (by
          rw [gateTransfer_call huse htgt, if_neg (BitVec.not_lt.mpr hle), if_pos hp])
  · have hexec := exec_sameLevel hi
    have hv := sameLevelOperand_readTo hi
    have hend {e w} (h : sameLevelTransfer kind sel d off v = .error (.exc e) w) :
      exec i s = takeException e w := hexec.trans (conclude_exc h)
    refine ⟨fun hp => hend (sameLevelTransfer_absent hp), fun hp h => hend (sameLevelTransfer_beyond hp h),
      fun hp h => ⟨?_, ?_, ?_⟩⟩
    · rintro rfl hb
      exact hexec.trans (conclude_refuse (by rw [sameLevelTransfer_jmp hp h, enterCode_sixteenBit hb]))
    · rintro rfl
      rw [hexec, conclude_eq_outcomeOf, sameLevelTransfer_jmp hp h, hv.regs]
    · rintro rfl
      rw [conclude_eq_outcomeOf, sameLevelTransfer_call hp h, hv.farReturnPointer,
        ← conclude_eq_outcomeOf] at hexec
      refine ⟨fun e w hpush => hexec.trans (conclude_exc (pushAndEnter_push_error hpush)),
        fun hval h3 h1 hl => hexec.trans (conclude_exc (pushAndEnter_push_error ?_)),
        fun cells w hpush => ?_⟩
      · refine preparePush_beyond_limit (by rw [hv.segs]; exact hval) ?_ (by rw [hv.segs, hv.regs]; exact hl)
        rw [hv.segs, SegReg.allows_write, h3, h1]
        rfl
      · have hrun := pushAndEnter_of_push (sel := sel) (d := d) (target := off)
          (preparePush_of_pushPrepared hpush)
        rw [hv.regs] at hrun
        rw [conclude_eq_outcomeOf] at hexec
        have hexec := hexec.trans (congrArg (outcomeOf · _) hrun)
        refine ⟨fun hb => ?_, hexec⟩
        rw [hexec, enterCode_sixteenBit hb, outcomeOf_refuse]

end Sys2Proof.Machine

/-! The inward transfer, stage by stage, and the CALL that makes one. -/

namespace Sys2Proof.Machine

open Sys2Proof

/-! ## The inward transfer (R204 to R207) -/

section Inner

variable {tsel nss : Word} {t d : Desc} {target nesp : Dword} {count : Nat} {frame : Exec (List Dword)}
  {s u v w : State} {e : Stop} {vs : List Dword} {cells : List Host.Cell}

theorem innerTransfer_stack_error (h : innerStack t.dpl s = .error e u) :
    innerTransfer tsel t target count frame s = .error e u := run_bind_error h

theorem innerTransfer_no_room (h : innerStack t.dpl s = .ok (nesp, nss, d) u)
    (hl : limitOK (cacheOf nss d) (nesp - BitVec.ofNat 32 (4 * count)).toNat (4 * count) = false) :
    innerTransfer tsel t target count frame s = .error (.exc (.sf 0)) u := by
  refine (run_bind_ok h).trans ((run_ite ..).trans ?_)
  rw [if_pos (by simp only [hl, Bool.not_false]), run_raise]

theorem innerTransfer_beyond (h : innerStack t.dpl s = .ok (nesp, nss, d) u)
    (hl : limitOK (cacheOf nss d) (nesp - BitVec.ofNat 32 (4 * count)).toNat (4 * count) = true)
    (ht : t.effLimit.toNat < target.toNat) :
    innerTransfer tsel t target count frame s = .error (.exc (.gp 0)) u := by
  refine (run_bind_ok h).trans ((run_ite ..).trans ?_)
  rw [if_neg (by simp only [hl]; decide), run_ite, if_pos (by simp [targetOK_eq_false_iff.mpr ht]),
    run_raise]

/-- The inner stack `nss:nesp` has room for the frame, and the target lies within its code segment. -/
structure InnerRoom (t : Desc) (target : Dword) (count : Nat) (s : State) (nesp : Dword) (nss : Word)
    (d : Desc) (u : State) : Prop where
  stack : innerStack t.dpl s = .ok (nesp, nss, d) u
  room : limitOK (cacheOf nss d) (nesp - BitVec.ofNat 32 (4 * count)).toNat (4 * count) = true
  target : target.toNat ≤ t.effLimit.toNat

theorem innerTransfer_frame_error (h : InnerRoom t target count s nesp nss d u)
    (hf : frame u = .error e v) : innerTransfer tsel t target count frame s = .error e v := by
  refine (run_bind_ok h.stack).trans ((run_ite ..).trans ?_)
  rw [if_neg (by simp only [h.room]; decide), run_ite,
    if_neg (by simp [targetOK_eq_true_iff.mpr h.target]), run_bind_error hf]

theorem innerTransfer_push_error (h : InnerRoom t target count s nesp nss d u) (hf : frame u = .ok vs v)
    (hp : prepareWrite false (d.base + (nesp - BitVec.ofNat 32 (4 * count)))
      (vs.reverse.flatMap dwordBytes) v = .error e w) :
    innerTransfer tsel t target count frame s = .error e w := by
  refine (run_bind_ok h.stack).trans ((run_ite ..).trans ?_)
  rw [if_neg (by simp only [h.room]; decide), run_ite,
    if_neg (by simp [targetOK_eq_true_iff.mpr h.target]), run_bind_ok hf, run_bind_error hp]

/-- The end of an inward transfer, its push being checked: the size of the code segment, the two accessed
bits, and then every store. -/
theorem innerTransfer_of_push (h : InnerRoom t target count s nesp nss d u) (hf : frame u = .ok vs v)
    (hp : prepareWrite false (d.base + (nesp - BitVec.ofNat 32 (4 * count)))
      (vs.reverse.flatMap dwordBytes) v = .ok cells w) :
    innerTransfer tsel t target count frame s =
      if t.big = false then .error (.refuse .sixteenBitForm) w
      else (prepareAccessed nss d >>= fun stackMark => prepareAccessed tsel t >>= fun codeMark =>
        update fun s => (((s.store (stackMark ++ cells ++ codeMark)).withCS tsel t t.dpl).withStack nss d
          (nesp - BitVec.ofNat 32 (4 * count))).jumpTo target) w := by
  refine (run_bind_ok h.stack).trans ((run_ite ..).trans ?_)
  rw [if_neg (by simp only [h.room]; decide), run_ite,
    if_neg (by simp [targetOK_eq_true_iff.mpr h.target]), run_bind_ok hf, run_bind_ok hp]
  cases hb : t.big with
  | true => exact run_bind_ok (require32_ok w hb)
  | false => exact run_bind_error (require32_refuses w hb)

/-! ## The parameters of a CALL (R205, R206) -/

/-- What `readParams` gives: so many doublewords, each as it is read at its place in the caller's stack. -/
theorem readParams_spec {i n : Nat} {ps : List Dword} (h : readParams i n u = .ok ps v) :
    ps.length = n ∧ ∀ (k : Nat) (p : Dword), ps[k]? = some p → ∃ a b, u.ReadTo a ∧
      segReadDword .ss (u.regs.esp + BitVec.ofNat 32 (4 * (i + k))) a = .ok p b ∧ b.ReadTo v := by
  induction n generalizing i u ps with
  | zero =>
    cases h
    exact ⟨rfl, fun k p hk => by simp at hk⟩
  | succ n ih =>
    obtain ⟨p, a, h1, h⟩ := bind_eq_ok (show (segReadDword .ss _ >>= _) u = _ from h)
    obtain ⟨qs, b, h2, h⟩ := bind_eq_ok h
    cases h
    obtain ⟨hlen, hqs⟩ := ih h2
    have hr := (reads_segReadDword ..).of_ok h1
    refine ⟨by rw [List.length_cons, hlen], fun k q hk => ?_⟩
    cases k with
    | zero =>
      rw [List.getElem?_cons_zero, Option.some.injEq] at hk
      subst hk
      exact ⟨u, a, .refl u, h1, (reads_readParams ..).of_ok h2⟩
    | succ k =>
      obtain ⟨x, y, hx, hxy, hy⟩ := hqs k q (by simpa using hk)
      rw [hr.regs, show i + 1 + k = i + (k + 1) by omega] at hxy
      exact ⟨x, y, hr.trans hx, hxy, hy⟩

/-- The frame of an inward CALL with the parameters `ps`, from the highest doubleword down. -/
def State.callFrameOf (s : State) (ps : List Dword) : List Dword :=
  [s.segs.ss.sel.zeroExtend 32, s.regs.esp] ++ ps.reverse ++ s.farReturnPointer

theorem callFrame_error {n : Nat} (h : readParams 0 n u = .error e v) : callFrame n u = .error e v :=
  run_bind_error h

theorem callFrame_ok {n : Nat} {ps : List Dword} (h : readParams 0 n u = .ok ps v) :
    callFrame n u = .ok (v.callFrameOf ps) v := run_bind_ok h

theorem State.ReadTo.callFrameOf (h : s.ReadTo v) (ps : List Dword) :
    v.callFrameOf ps = s.callFrameOf ps := by
  unfold State.callFrameOf
  rw [h.segs, h.regs, h.farReturnPointer]

end Inner

/-- An inward transfer in the words of `EnteredInner`, from a state that is only read before it: control,
stack and the rest of the state. -/
theorem enteredInner_after_read {csel nss : Word} {c d : Desc} {target nesp : Dword} {vs : List Dword}
    {s y t : State} {ps : List Nat} (hy : s.ReadTo y)
    (h : EnteredInner csel c target nesp nss d vs y ps t) :
    t.cpl = c.dpl ∧ t.eip = target ∧ t.segs.ss = cacheOf nss d ∧
      t.segs.cs = { cacheOf csel c with sel := csel.extractLsb' 2 14 ++ c.dpl } ∧
      t.regs = { s.regs with esp := nesp - BitVec.ofNat 32 (4 * vs.length) } ∧
      s.StoredTo ps
        { t with segs := { t.segs with cs := s.segs.cs, ss := s.segs.ss }
                 regs := s.regs, eip := s.eip, cpl := s.cpl } := by
  obtain ⟨hst, hcpl, heip, hss, hcs, -, hregs⟩ := enteredInner_storedTo h
  rw [hy.regs] at hregs
  rw [hy.segs, hy.regs, hy.eip, hy.cpl] at hst
  exact ⟨hcpl, heip, hss, hcs, hregs, hst.after_read hy⟩

/-- Settles O30, stage by stage. -/
theorem callGateToInnerLevel : Obligations.CallGateToInnerLevel := by
  intro s v i csel off g d hg hcf hl hp count room
  obtain ⟨sel, w0, hexec, hw0, huse, ht, rfl, rfl⟩ := gateOperand_exec hg
  have hv : s.ReadTo v := hw0.trans ((reads_gateTarget _).of_ok ht)
  rw [conclude_eq_outcomeOf, gateTransfer_call huse ht, if_neg (by rw [hw0.cpl]; bv_omega),
    if_neg (by simp [hp]), if_pos ⟨hcf, by rw [hw0.cpl]; exact hl⟩] at hexec
  have hcall {e w} (h : innerTransfer g.gateSelector d g.gateOffset (4 + g.gateCount)
      (callFrame g.gateCount) v = .error (.exc e) w) : exec i s = takeException e w := by
    rw [hexec, h, outcomeOf_exc]
  refine ⟨fun e w h => hcall (innerTransfer_stack_error h),
    fun r w h => by rw [hexec, innerTransfer_stack_error h, outcomeOf_refuse], fun nesp nss e x hst => ?_⟩
  have hx : s.ReadTo x := hv.trans ((reads_innerStack _).of_ok hst)
  have hroom : 4 * (4 + g.gateCount) = room := Nat.mul_add 4 4 count
  refine ⟨fun h => hcall (innerTransfer_no_room hst (by rw [hroom]; exact h)),
    fun hr ht => hcall (innerTransfer_beyond hst (by rw [hroom]; exact hr) ht), fun hr ht => ?_⟩
  have hin : InnerRoom d g.gateOffset (4 + g.gateCount) v nesp nss e x := ⟨hst, by rw [hroom]; exact hr, ht⟩
  refine ⟨fun f y h => hcall (innerTransfer_frame_error hin (callFrame_error h)),
    fun params y hparams => ?_⟩
  intro frame
  obtain ⟨hlen, hread⟩ := readParams_spec hparams
  have hy : s.ReadTo y := hx.trans ((reads_readParams ..).of_ok hparams)
  have hframe : callFrame g.gateCount x = .ok frame y :=
    (callFrame_ok hparams).trans (by rw [hy.callFrameOf]; rfl)
  have hcount : frame.length = 4 + g.gateCount := by
    simp [frame, hlen, count, Desc.gateCount]
    omega
  refine ⟨hlen, fun k p hk => ?_, fun f z h => ?_, fun cells z h => ⟨fun hb => ?_, fun hb => ?_⟩,
    fun ps t h => ?_⟩
  · simpa [hx.regs] using hread k p hk
  · exact hcall (innerTransfer_push_error hin hframe (by rw [hroom]; exact h))
  · rw [hexec, innerTransfer_of_push hin hframe (by rw [hroom]; exact h), if_pos hb, outcomeOf_refuse]
  · rw [hexec, innerTransfer_of_push hin hframe (by rw [hroom]; exact h), if_neg (by simp [hb]),
      outcomeOf_bind, hroom]
    refine outcomeOf_congr fun m a _ => ?_
    rw [outcomeOf_bind]
    rfl
  · obtain ⟨hcpl, heip, hss, hcs, hregs, hstored⟩ := enteredInner_after_read hy h
    rw [hcount, hroom] at hregs
    exact ⟨by rw [hexec, innerTransfer_of_entered hst hframe hcount h, outcomeOf_ok],
      hcpl, heip, hss, hcs, hregs, hstored⟩

end Sys2Proof.Machine

/-! Entry through a trap or interrupt gate of the IDT. -/

namespace Sys2Proof.Machine

open Sys2Proof

/-! ## The entry, stage by stage (R357) -/

/-- What an entry pushes at its own level: EFLAGS, CS, the return offset and the error code (R357). -/
def State.entryFrame (s : State) (code : Option Dword) (ret : Dword) : List Dword :=
  [s.eflags, s.segs.cs.sel.zeroExtend 32, ret] ++ code.toList

/-- What an entry at an inner level pushes: the old SS:ESP before the rest (R357). -/
def State.innerEntryFrame (s : State) (code : Option Dword) (ret : Dword) : List Dword :=
  [s.segs.ss.sel.zeroExtend 32, s.regs.esp] ++ s.entryFrame code ret

theorem State.innerEntryFrame_length (s : State) (code : Option Dword) (ret : Dword) :
    (s.innerEntryFrame code ret).length = 2 + (s.entryFrame code ret).length := Nat.add_comm _ 2

theorem State.innerEntryFrame_reverse (s : State) (code : Option Dword) (ret : Dword) :
    (s.innerEntryFrame code ret).reverse =
      (s.entryFrame code ret).reverse ++ [s.regs.esp, s.segs.ss.sel.zeroExtend 32] := List.reverse_append

/-- The flags as an entry leaves them (R357). -/
def setEntryFlags (g : Desc) : Exec Unit :=
  update fun u => { u with eflags := flagsAfterEntry u.eflags g.isInterruptGate }

theorem State.ReadTo.entryFrame {s t : State} (h : s.ReadTo t) (code : Option Dword) (ret : Dword) :
    t.entryFrame code ret = s.entryFrame code ret := by
  unfold State.entryFrame
  rw [h.eflags, h.segs]

theorem State.ReadTo.innerEntryFrame {s t : State} (h : s.ReadTo t) (code : Option Dword) (ret : Dword) :
    t.innerEntryFrame code ret = s.innerEntryFrame code ret := by
  unfold State.innerEntryFrame
  rw [h.segs, h.regs, h.entryFrame]

section Entry

variable {s u v w : State} {n : Nat} {software : Bool} {code : Option Dword} {ret : Dword} {g d : Desc}
  {e : Stop}

theorem deliver_gate_error (h : idtGate n software s = .error e u) :
    deliver n code ret software s = .error e u := run_bind_error h

theorem deliver_of_gate (h : idtGate n software s = .ok g u) (ht : g.typ.toNat ≠ 5) :
    deliver n code ret software s = (enterGate g code ret >>= fun _ => pure false) u := by
  refine (run_bind_ok h).trans ((run_ite ..).trans (if_neg fun h5 => ht ?_))
  rw [h5]
  rfl

theorem deliver_error (h : idtGate n software s = .ok g u) (ht : g.typ.toNat ≠ 5)
    (he : enterGate g code ret u = .error e v) : deliver n code ret software s = .error e v :=
  (deliver_of_gate h ht).trans (run_bind_error he)

theorem deliver_ok (h : idtGate n software s = .ok g u) (ht : g.typ.toNat ≠ 5)
    (he : enterGate g code ret u = .ok () v) : deliver n code ret software s = .ok false v :=
  (deliver_of_gate h ht).trans (run_bind_ok he)

theorem enterGate_stops (h : gateTarget g.gateSelector u = .error e v) :
    enterGate g code ret u = .error e v := by
  unfold enterGate
  rw [run_bind_getState, run_bind_error h]

theorem enterGate_outward (h : gateTarget g.gateSelector u = .ok d v) (hl : u.cpl < d.dpl) :
    enterGate g code ret u = .error (.exc (.gp (selErr g.gateSelector))) v := by
  unfold enterGate
  rw [run_bind_getState, run_bind_ok h, run_ite, if_pos hl, run_raise]

theorem enterGate_absent (h : gateTarget g.gateSelector u = .ok d v) (hl : d.dpl ≤ u.cpl)
    (hp : d.present = false) : enterGate g code ret u = .error (.exc (.np (selErr g.gateSelector))) v := by
  unfold enterGate
  rw [run_bind_getState, run_bind_ok h, run_ite, if_neg (BitVec.not_lt.mpr hl), run_ite,
    if_pos (by simp [hp]), run_raise]

/-- The handler's code segment, at the level of the interrupted program or conforming (R357). -/
structure SameHandler (g d : Desc) (u v : State) : Prop where
  target : gateTarget g.gateSelector u = .ok d v
  present : d.present = true
  level : d.dpl ≤ u.cpl
  same : ¬(d.conforming = false ∧ d.dpl < u.cpl)

/-- The handler's code segment, at a more privileged level (R357). -/
structure InnerHandler (g d : Desc) (u v : State) : Prop where
  target : gateTarget g.gateSelector u = .ok d v
  present : d.present = true
  nonconforming : d.conforming = false
  inner : d.dpl < u.cpl

theorem enterGate_same_beyond (h : SameHandler g d u v) (hl : d.effLimit.toNat < g.gateOffset.toNat) :
    enterGate g code ret u = .error (.exc (.gp 0)) v := by
  unfold enterGate
  rw [run_bind_getState, run_bind_ok h.target, run_ite, if_neg (BitVec.not_lt.mpr h.level), run_ite,
    if_neg (by simp [h.present]), run_ite, if_neg (by simpa using h.same), run_ite,
    if_pos (by simp [targetOK_eq_false_iff.mpr hl])]
  rfl

theorem enterGate_same (h : SameHandler g d u v) (hl : g.gateOffset.toNat ≤ d.effLimit.toNat) :
    enterGate g code ret u = (pushAndEnter g.gateSelector d g.gateOffset (u.entryFrame code ret) >>=
      fun _ => setEntryFlags g) v := by
  unfold enterGate
  rw [run_bind_getState, run_bind_ok h.target, run_ite, if_neg (BitVec.not_lt.mpr h.level), run_ite,
    if_neg (by simp [h.present]), run_ite, if_neg (by simpa using h.same), run_ite,
    if_neg (by simp [targetOK_eq_true_iff.mpr hl])]
  rfl

theorem enterGate_inner (h : InnerHandler g d u v) : enterGate g code ret u =
    (innerTransfer g.gateSelector d g.gateOffset (2 + (u.entryFrame code ret).length)
      (pure (u.innerEntryFrame code ret)) >>= fun _ => setEntryFlags g) v := by
  unfold enterGate
  rw [run_bind_getState, run_bind_ok h.target, run_ite,
    if_neg (BitVec.not_lt.mpr (BitVec.le_of_lt h.inner)), run_ite, if_neg (by simp [h.present]), run_ite,
    if_pos (by simpa using ⟨h.nonconforming, h.inner⟩)]
  rfl

/-! ## What an entry stores -/

/-- The stores `cells`, made after reads alone, are all that changes in memory. -/
theorem State.ReadTo.storedTo_mem (h : s.ReadTo v) (cells : List Host.Cell) :
    s.StoredTo (cells.map (·.1)) { s with mem := (v.store cells).mem } :=
  ⟨rfl, ((State.storedTo_store v cells).after_read h).2⟩

theorem enterCode_of_mark {sel : Word} {target esp : Dword} {cells mark : List Host.Cell}
    (hb : d.big = true) (hm : prepareAccessed sel d u = .ok mark v) :
    enterCode sel d target cells esp u =
      .ok () ((((v.store (cells ++ mark)).withEsp esp).withCS sel d v.cpl).jumpTo target) :=
  (run_bind_ok (require32_ok u hb)).trans (run_bind_ok hm)

end Entry

section Settled

variable {s u v w : State} {n : Nat} {software : Bool} {code : Option Dword} {ret : Dword} {g d : Desc}

theorem sameHandler_of (hu : s.ReadTo u) (ht : gateTarget g.gateSelector u = .ok d v)
    (hp : d.present = true) (hl : if d.conforming then d.dpl ≤ s.cpl else d.dpl = s.cpl) :
    SameHandler g d u v := by
  rw [← hu.cpl] at hl
  refine ⟨ht, hp, ?_, ?_⟩ <;> cases hcf : d.conforming <;> simp only [hcf] at hl <;> grind [BitVec.not_le]

/-- Entry at the same level completes (R357). -/
theorem deliver_same_completes {t : State} {cells : List Host.Cell} {ps : List Nat}
    (hg : idtGate n software s = .ok g u) (h5 : g.typ.toNat ≠ 5) (hh : SameHandler g d u v)
    (hlim : g.gateOffset.toNat ≤ d.effLimit.toNat) (hpush : PushPrepared v (s.entryFrame code ret) cells w)
    (ht : EnteredCode g.gateSelector d g.gateOffset cells
      (s.regs.esp - BitVec.ofNat 32 (4 * (s.entryFrame code ret).length)) w ps t) :
    deliver n code ret software s
        = .ok false { t with eflags := flagsAfterEntry s.eflags g.isInterruptGate } ∧
      t.eip = g.gateOffset ∧ t.cpl = s.cpl ∧
      t.regs = { s.regs with esp := s.regs.esp - BitVec.ofNat 32 (4 * (s.entryFrame code ret).length) } ∧
      s.StoredTo ps { t with segs := { t.segs with cs := s.segs.cs }, regs := s.regs, eip := s.eip } := by
  have hu : s.ReadTo u := (reads_idtGate ..).of_ok hg
  have hv : s.ReadTo v := hu.trans ((reads_gateTarget _).of_ok hh.target)
  have hw : s.ReadTo w := hv.trans (pushPrepared_readTo hpush)
  obtain ⟨hst, hcpl, heip, hregs, hfl, hsegs⟩ := enteredCode_storedTo ht
  rw [hw.regs] at hregs
  refine ⟨deliver_ok hg h5 ?_, heip, hcpl.trans hw.cpl, hregs, ?_⟩
  · have hrun := pushAndEnter_of_push (sel := g.gateSelector) (d := d) (target := g.gateOffset)
      (preparePush_of_pushPrepared hpush)
    rw [hv.regs, enterCode_of_entered ht] at hrun
    rw [enterGate_same hh hlim, hu.entryFrame, run_bind_ok hrun, ← hw.eflags, ← hfl]
    rfl
  · rw [hw.segs] at hsegs
    rw [hw.segs, hw.regs, hw.eip] at hst
    rw [hsegs]
    exact hst.after_read hw

/-- Entry at an inner level completes (R356, R357). -/
theorem deliver_inner_completes {t : State} {nesp : Dword} {nss : Word} {e : Desc} {ps : List Nat}
    (hg : idtGate n software s = .ok g u) (h5 : g.typ.toNat ≠ 5) (hh : InnerHandler g d u v)
    (hst : innerStack d.dpl v = .ok (nesp, nss, e) w)
    (ht : EnteredInner g.gateSelector d g.gateOffset nesp nss e (s.innerEntryFrame code ret) w ps t) :
    deliver n code ret software s
        = .ok false { t with eflags := flagsAfterEntry s.eflags g.isInterruptGate } ∧
      t.eip = g.gateOffset ∧ t.cpl = d.dpl ∧ t.segs.ss = cacheOf nss e ∧
      s.StoredTo ps
        { t with segs := { t.segs with cs := s.segs.cs, ss := s.segs.ss }
                 regs := s.regs, eip := s.eip, cpl := s.cpl } := by
  have hu : s.ReadTo u := (reads_idtGate ..).of_ok hg
  have hv : s.ReadTo v := hu.trans ((reads_gateTarget _).of_ok hh.target)
  have hw : s.ReadTo w := hv.trans ((reads_innerStack _).of_ok hst)
  obtain ⟨hcpl, heip, hss, -, -, hstored⟩ := enteredInner_after_read hw ht
  have hfl : t.eflags = s.eflags := hstored.eflags
  refine ⟨deliver_ok hg h5 ?_, heip, hcpl, hss, hstored⟩
  rw [enterGate_inner hh, hu.entryFrame, hu.innerEntryFrame, run_bind_ok
    (innerTransfer_of_entered hst (run_pure ..) (s.innerEntryFrame_length code ret) ht), ← hfl]
  rfl

/-- Entry at the same level, once its push is checked, stores only that push and the accessed bit, or stops
with nothing stored (R357, R352). -/
theorem deliver_same_marks {cells : List Host.Cell} (hg : idtGate n software s = .ok g u)
    (h5 : g.typ.toNat ≠ 5) (hh : SameHandler g d u v) (hlim : g.gateOffset.toNat ≤ d.effLimit.toNat)
    (hpush : preparePush (s.entryFrame code ret) v = .ok cells w) (hb : d.big = true) :
    match prepareAccessed g.gateSelector d w with
    | .ok mark _ => ∃ t, deliver n code ret software s = .ok false t ∧
        s.StoredTo ((cells ++ mark).map (·.1)) { s with mem := t.mem }
    | .error e x => deliver n code ret software s = .error e x ∧ s.StoppedTo x := by
  have hu : s.ReadTo u := (reads_idtGate ..).of_ok hg
  have hv : s.ReadTo v := hu.trans ((reads_gateTarget _).of_ok hh.target)
  have hw : s.ReadTo w := hv.trans ((reads_preparePush _).of_ok hpush)
  have hrun := pushAndEnter_of_push (sel := g.gateSelector) (d := d) (target := g.gateOffset) hpush
  have henter := enterGate_same (code := code) (ret := ret) hh hlim
  rw [hu.entryFrame] at henter
  cases hm : prepareAccessed g.gateSelector d w with
  | ok mark y =>
    rw [enterCode_of_mark hb hm] at hrun
    exact ⟨_, deliver_ok hg h5 (henter.trans (run_bind_ok hrun)),
      (hw.trans ((reads_prepareAccessed ..).of_ok hm)).storedTo_mem _⟩
  | error e x =>
    rw [enterCode_mark_error hb hm] at hrun
    exact ⟨deliver_error hg h5 (henter.trans (run_bind_error hrun)),
      hw.stopped ((reads_prepareAccessed ..).of_error hm)⟩

/-- Entry at an inner level, once its push is checked, likewise (R356, R357, R352). -/
theorem deliver_inner_marks {nesp : Dword} {nss : Word} {e : Desc} {cells : List Host.Cell} {x : State}
    (hg : idtGate n software s = .ok g u) (h5 : g.typ.toNat ≠ 5) (hh : InnerHandler g d u v)
    (hin : InnerRoom d g.gateOffset (2 + (s.entryFrame code ret).length) v nesp nss e w)
    (hpush : prepareWrite false (e.base + (nesp - BitVec.ofNat 32 (4 * (2 + (s.entryFrame code ret).length))))
      ((s.innerEntryFrame code ret).reverse.flatMap dwordBytes) w = .ok cells x) (hb : d.big = true) :
    match prepareAccessed nss e x with
    | .error f y => deliver n code ret software s = .error f y ∧ s.StoppedTo y
    | .ok stackMark y =>
      match prepareAccessed g.gateSelector d y with
      | .error f z => deliver n code ret software s = .error f z ∧ s.StoppedTo z
      | .ok codeMark _ => ∃ t, deliver n code ret software s = .ok false t ∧
          s.StoredTo ((stackMark ++ cells ++ codeMark).map (·.1)) { s with mem := t.mem } := by
  have hu : s.ReadTo u := (reads_idtGate ..).of_ok hg
  have hv : s.ReadTo v := hu.trans ((reads_gateTarget _).of_ok hh.target)
  have hx : s.ReadTo x :=
    (hv.trans ((reads_innerStack _).of_ok hin.stack)).trans ((reads_prepareWrite ..).of_ok hpush)
  have hrun := innerTransfer_of_push (tsel := g.gateSelector) hin
    (run_pure (s.innerEntryFrame code ret) w) hpush
  rw [if_neg (by simp [hb])] at hrun
  have henter := enterGate_inner (code := code) (ret := ret) hh
  rw [hu.entryFrame, hu.innerEntryFrame] at henter
  cases hm : prepareAccessed nss e x with
  | error f y =>
    exact ⟨deliver_error hg h5 (henter.trans (run_bind_error (hrun.trans (run_bind_error hm)))),
      hx.stopped ((reads_prepareAccessed ..).of_error hm)⟩
  | ok stackMark y =>
    have hy : s.ReadTo y := hx.trans ((reads_prepareAccessed ..).of_ok hm)
    have hrun := hrun.trans (run_bind_ok hm)
    dsimp only
    cases hc : prepareAccessed g.gateSelector d y with
    | error f z =>
      exact ⟨deliver_error hg h5 (henter.trans (run_bind_error (hrun.trans (run_bind_error hc)))),
        hy.stopped ((reads_prepareAccessed ..).of_error hc)⟩
    | ok codeMark z =>
      exact ⟨_, deliver_ok hg h5 (henter.trans (run_bind_ok (hrun.trans (run_bind_ok hc)))),
        (hy.trans ((reads_prepareAccessed ..).of_ok hc)).storedTo_mem _⟩

end Settled

/-- Settles O41, stage by stage. -/
theorem gateEntry : Obligations.GateEntry := by
  refine ⟨fun s u v w t n software code ret g d cells ps hg h5 hn hd hc hp hl hlim hpush ht =>
      deliver_same_completes hg h5
        (sameHandler_of ((reads_idtGate ..).of_ok hg) (gateTarget_ok hn hd hc) hp hl) hlim hpush ht,
    fun s u v w t n software code ret nesp nss g d e ps hg h5 hn hd hc hp hcf hl hst ht => ?_,
    fun s n software code ret => ⟨fun e u h => ⟨deliver_gate_error h, (reads_idtGate ..).of_error h⟩,
      fun g u hg h5 => ?_⟩⟩
  · have hu : s.ReadTo u := (reads_idtGate ..).of_ok hg
    exact deliver_inner_completes hg h5 ⟨gateTarget_ok hn hd hc, hp, hcf, hu.cpl ▸ hl⟩ hst ht
  have hu : s.ReadTo u := (reads_idtGate ..).of_ok hg
  have hstop {e v} (h : enterGate g code ret u = .error e v) : deliver n code ret software s = .error e v :=
    deliver_error hg h5 h
  refine ⟨fun hn => hstop (enterGate_stops (gateTarget_null hn)), fun hn =>
    ⟨fun v h => hstop (enterGate_stops (gateTarget_stops hn (readDescOr_none h))),
      fun e v h => ⟨hstop (enterGate_stops (gateTarget_stops hn (readDescOr_error h))),
        hu.stopped ((reads_readDesc _).of_error h)⟩, fun d v hd => ?_⟩⟩
  have hv : s.ReadTo v := hu.trans ((reads_readDesc _).of_ok hd)
  refine ⟨fun h => ?_, fun hc hl hp => ?_, fun hc hp hl => ?_, fun hc hp hcf hl => ?_⟩
  · obtain hc | hl := h
    · exact hstop (enterGate_stops (gateTarget_no_code hn hd hc))
    · cases hc : d.isCode with
      | false => exact hstop (enterGate_stops (gateTarget_no_code hn hd hc))
      | true => exact hstop (enterGate_outward (gateTarget_ok hn hd hc) (hu.cpl ▸ hl))
  · exact hstop (enterGate_absent (gateTarget_ok hn hd hc) (hu.cpl ▸ hl) hp)
  · have hh := sameHandler_of hu (gateTarget_ok hn hd hc) hp hl
    refine ⟨fun h => hstop (enterGate_same_beyond hh h), fun hlim => ?_⟩
    have henter := enterGate_same (code := code) (ret := ret) hh hlim
    rw [hu.entryFrame] at henter
    refine ⟨fun e w h => ⟨hstop (henter.trans (run_bind_error (pushAndEnter_push_error h))),
        hv.stopped ((reads_preparePush _).of_error h)⟩, fun cells w h hb => ?_,
      fun cells w h hb => deliver_same_marks hg h5 hh hlim h hb⟩
    exact hstop (henter.trans (run_bind_error ((pushAndEnter_of_push h).trans (enterCode_sixteenBit hb))))
  · have hh : InnerHandler g d u v := ⟨gateTarget_ok hn hd hc, hp, hcf, hu.cpl ▸ hl⟩
    have henter := enterGate_inner (code := code) (ret := ret) hh
    rw [hu.entryFrame, hu.innerEntryFrame] at henter
    have hfail {f y} (h : innerTransfer g.gateSelector d g.gateOffset (2 + (s.entryFrame code ret).length)
        (pure (s.innerEntryFrame code ret)) v = .error f y) : deliver n code ret software s = .error f y :=
      hstop (henter.trans (run_bind_error h))
    refine ⟨fun e w h => ⟨hfail (innerTransfer_stack_error h), hv.stopped ((reads_innerStack _).of_error h)⟩,
      fun nesp nss e w hst => ⟨fun h => hfail (innerTransfer_no_room hst h),
        fun hr h => hfail (innerTransfer_beyond hst hr h), fun hr hlim => ?_⟩⟩
    have hw : s.ReadTo w := hv.trans ((reads_innerStack _).of_ok hst)
    have hin : InnerRoom d g.gateOffset (2 + (s.entryFrame code ret).length) v nesp nss e w :=
      ⟨hst, hr, hlim⟩
    have hbytes := congrArg (List.flatMap dwordBytes) (s.innerEntryFrame_reverse code ret)
    refine ⟨fun f x h => ⟨hfail (innerTransfer_push_error hin (run_pure ..) ?_),
        hw.stopped ((reads_prepareWrite ..).of_error h)⟩, fun cells x h hb => hfail ?_,
      fun cells x h hb => deliver_inner_marks hg h5 hh hin ?_ hb⟩
    · rw [hbytes]; exact h
    · rw [innerTransfer_of_push hin (run_pure ..) (by rw [hbytes]; exact h), if_pos hb]
    · rw [hbytes]; exact h

end Sys2Proof.Machine

/-! The decoder reads a run of bytes from its head on: what it answers does not depend on the bytes after it,
and where it lacks bytes it says how many more belong to the instruction. -/

namespace Sys2Proof

/-! ## Incremental readers (R142) -/

/-- A reader is incremental at the bytes `l`: its answer stands whatever follows; and where it lacks `m`
bytes, it still lacks the rest of them after fewer than `m` more. -/
structure IncrementalAt {α : Type} (P : Parse α) (l : List Byte) : Prop where
  ok : ∀ {a rest}, P l = .ok a rest → ∀ r, P (l ++ r) = .ok a (rest ++ r)
  stop : ∀ {e rest}, P l = .error e rest → (∀ m, e ≠ .needMore m) → ∀ r, P (l ++ r) = .error e (rest ++ r)
  more : ∀ {m rest}, P l = .error (.needMore m) rest →
    0 < m ∧ ∀ r, r.length < m → ∃ rest', P (l ++ r) = .error (.needMore (m - r.length)) rest'

/-- A reader is incremental at all bytes. -/
def Incremental {α : Type} (P : Parse α) : Prop := ∀ l, IncrementalAt P l

section Combinators

variable {α β : Type}

theorem parse_bind_ok {P : Parse α} {f : α → Parse β} {l rest : List Byte} {a : α} (h : P l = .ok a rest) :
    (P >>= f) l = f a rest := by
  change EStateM.bind P f l = _
  unfold EStateM.bind
  rw [h]

theorem parse_bind_error {P : Parse α} {f : α → Parse β} {l rest : List Byte} {e : DecodeStop}
    (h : P l = .error e rest) : (P >>= f) l = .error e rest := by
  change EStateM.bind P f l = _
  unfold EStateM.bind
  rw [h]

theorem incremental_pure (a : α) : Incremental (pure a : Parse α) := fun l =>
  ⟨by rintro _ _ ⟨⟩ r; rfl, by rintro _ _ ⟨⟩, by rintro _ _ ⟨⟩⟩

theorem incremental_stop {e : DecodeStop} (h : ∀ m, e ≠ .needMore m) :
    Incremental (parseStop e : Parse α) := fun l =>
  ⟨by rintro _ _ ⟨⟩, by rintro _ _ ⟨⟩ _ r; rfl, by rintro m _ ⟨⟩; exact absurd rfl (h m)⟩

theorem incremental_expectBytes (n : Nat) : Incremental (expectBytes n) := fun l => by
  unfold expectBytes
  refine ⟨?_, ?_, ?_⟩ <;> intro a rest h <;> split at h <;> cases h
  · intro r
    rw [if_neg (by simp; omega)]
  · intro hne
    exact absurd rfl (hne _)
  · refine ⟨by omega, fun r hr => ⟨l ++ r, ?_⟩⟩
    rw [if_pos (by simp; omega), List.length_append, Nat.sub_sub]

theorem incremental_nextByte : Incremental nextByte := fun l => by
  cases l with
  | nil =>
    refine ⟨by rintro _ _ ⟨⟩, ?_, ?_⟩
    · rintro _ _ ⟨⟩ hne
      exact absurd rfl (hne 1)
    · rintro _ _ ⟨⟩
      refine ⟨Nat.one_pos, fun r hr => ?_⟩
      obtain rfl : r = [] := List.eq_nil_of_length_eq_zero (Nat.lt_one_iff.mp hr)
      exact ⟨_, rfl⟩
  | cons b l => exact ⟨by rintro _ _ ⟨⟩ r; rfl, by rintro _ _ ⟨⟩, by rintro _ _ ⟨⟩⟩

theorem incremental_bind {P : Parse α} {f : α → Parse β} (hP : Incremental P)
    (hf : ∀ a, Incremental (f a)) : Incremental (P >>= f) := fun l => by
  cases h : P l with
  | ok a rest =>
    have hl := parse_bind_ok (f := f) h
    have hr (r : List Byte) := parse_bind_ok (f := f) ((hP l).ok h r)
    refine ⟨fun h1 r => ?_, fun h1 hne r => ?_, fun h1 => ?_⟩ <;> rw [hl] at h1
    · rw [hr, (hf a rest).ok h1]
    · rw [hr, (hf a rest).stop h1 hne]
    · obtain ⟨hpos, hmore⟩ := (hf a rest).more h1
      exact ⟨hpos, fun r hlt => by rw [hr]; exact hmore r hlt⟩
  | error e rest =>
    have hl := parse_bind_error (f := f) h
    refine ⟨fun h1 => ?_, fun h1 hne r => ?_, fun h1 => ?_⟩ <;> rw [hl] at h1 <;> cases h1
    · exact parse_bind_error ((hP l).stop h hne r)
    · obtain ⟨hpos, hmore⟩ := (hP l).more h
      refine ⟨hpos, fun r hlt => ?_⟩
      obtain ⟨rest', hr⟩ := hmore r hlt
      exact ⟨rest', parse_bind_error hr⟩

theorem incremental_map {P : Parse α} (f : α → β) (hP : Incremental P) :
    Incremental (do let a ← P; pure (f a)) := incremental_bind hP fun a => incremental_pure (f a)

theorem incremental_ite {c : Prop} [Decidable c] {P Q : Parse α} (hP : Incremental P) (hQ : Incremental Q) :
    Incremental (if c then P else Q) := by
  split
  · exact hP
  · exact hQ

end Combinators

/-! ## The readers of the decoder (R143 to R146) -/

theorem incremental_nextWord : Incremental nextWord :=
  incremental_bind (incremental_expectBytes 2) fun _ => incremental_bind incremental_nextByte fun _ =>
    incremental_map _ incremental_nextByte

theorem incremental_nextDword : Incremental nextDword :=
  incremental_bind (incremental_expectBytes 4) fun _ => incremental_bind incremental_nextByte fun _ =>
    incremental_bind incremental_nextByte fun _ => incremental_bind incremental_nextByte fun _ =>
    incremental_map _ incremental_nextByte

theorem incremental_nextFarPointer : Incremental nextFarPointer :=
  incremental_bind (incremental_expectBytes 6) fun _ => incremental_bind incremental_nextDword fun _ =>
    incremental_map _ incremental_nextWord

theorem incremental_nextDisp (mode : BitVec 2) (base : Option Reg) : Incremental (nextDisp mode base) :=
  incremental_ite (incremental_map _ incremental_nextByte) <|
    incremental_ite incremental_nextDword <| incremental_ite incremental_nextDword (incremental_pure 0)

theorem incremental_nextMemOperand (override : Option SegName) (mode : BitVec 2) (rm : BitVec 3) :
    Incremental (nextMemOperand override mode rm) :=
  incremental_ite
    (incremental_bind (incremental_expectBytes _) fun _ => incremental_bind incremental_nextByte fun _ =>
      incremental_map _ (incremental_nextDisp _ _))
    (incremental_map _ (incremental_nextDisp _ _))

theorem incremental_nextRM (override : Option SegName) (mb : Byte) : Incremental (nextRM override mb) :=
  incremental_ite (incremental_pure _) (incremental_map _ (incremental_nextMemOperand _ _ _))

theorem incremental_ud {α : Type} : Incremental (parseStop .ud : Parse α) :=
  incremental_stop fun _ => DecodeStop.noConfusion

theorem incremental_refused {α : Type} (why : DecodeRefusal) :
    Incremental (parseStop (.refused why) : Parse α) := incremental_stop fun _ => DecodeStop.noConfusion

/-- An instruction of a ModRM byte and its operand. -/
theorem incremental_modrm (override : Option SegName) (f : Byte → RM → Instr) :
    Incremental (do let mb ← nextByte; let x ← nextRM override mb; pure (f mb x)) :=
  incremental_bind incremental_nextByte fun _ => incremental_map _ (incremental_nextRM _ _)

theorem incremental_decodeGroup6 (override : Option SegName) : Incremental (decodeGroup6 override) := by
  refine incremental_bind incremental_nextByte fun mb => ?_
  have hrm := incremental_nextRM override mb
  split
  exacts [incremental_refused _, incremental_map _ hrm, incremental_map _ hrm, incremental_map _ hrm,
    incremental_map _ hrm, incremental_map _ hrm, incremental_ud]

theorem incremental_decodeGroup7 (override : Option SegName) : Incremental (decodeGroup7 override) := by
  refine incremental_bind incremental_nextByte fun mb => ?_
  have hrm := incremental_nextRM override mb
  split
  exacts [incremental_refused _, incremental_refused _, incremental_map _ hrm, incremental_map _ hrm,
    incremental_refused _, incremental_map _ hrm, incremental_ud]

theorem incremental_decodeGroup5 (override : Option SegName) : Incremental (decodeGroup5 override) := by
  refine incremental_bind incremental_nextByte fun mb => ?_
  have hrm := incremental_nextRM override mb
  split
  exacts [incremental_map _ hrm, incremental_map _ hrm, incremental_map _ hrm, incremental_map _ hrm,
    incremental_ud, incremental_refused _]

theorem incremental_decodeTwoByte (override : Option SegName) : Incremental (decodeTwoByte override) := by
  refine incremental_bind incremental_nextByte fun op => ?_
  have hb {f : Byte → Instr} := incremental_map f incremental_nextByte
  split
  exacts [incremental_decodeGroup6 _, incremental_decodeGroup7 _, incremental_modrm _ _,
    incremental_modrm _ _, incremental_pure _, hb, hb, hb, hb, hb, hb, incremental_refused _]

theorem incremental_decodeOpcode (override : Option SegName) (op : Byte) :
    Incremental (decodeOpcode override op) := by
  unfold decodeOpcode
  split
  exacts [incremental_decodeTwoByte _, incremental_modrm _ _, incremental_refused _, incremental_refused _,
    incremental_modrm _ _, incremental_map _ incremental_nextFarPointer, incremental_map _ incremental_nextWord,
    incremental_pure _, incremental_map _ incremental_nextWord, incremental_pure _,
    incremental_map _ incremental_nextByte, incremental_pure _, incremental_map _ incremental_nextDword,
    incremental_map _ incremental_nextDword, incremental_map _ incremental_nextFarPointer,
    incremental_map _ incremental_nextByte, incremental_refused _, incremental_refused _,
    incremental_pure _, incremental_decodeGroup5 _, incremental_refused _]

/-! ## Segment overrides and LOCK (R142, R147) -/

/-- After LOCK an instruction raises UD, and nothing else changes (R147). -/
def lockStop {α : Type} (P : Parse α) : Parse α := fun l =>
  match P l with
  | .ok _ rest => .error .ud rest
  | .error e rest => .error e rest

theorem incrementalAt_lockStop {α : Type} {P : Parse α} {l : List Byte} (h : IncrementalAt P l) :
    IncrementalAt (lockStop P) l := by
  have hrun (l : List Byte) : lockStop P l = match P l with
    | .ok _ rest => .error .ud rest
    | .error e rest => .error e rest := rfl
  cases hl : P l with
  | ok a rest =>
    refine ⟨fun h1 => ?_, fun h1 _ r => ?_, fun h1 => ?_⟩ <;> rw [hrun, hl] at h1 <;> cases h1
    rw [hrun, h.ok hl]
  | error e rest =>
    refine ⟨fun h1 => ?_, fun h1 hne r => ?_, fun h1 => ?_⟩ <;> rw [hrun, hl] at h1 <;> cases h1
    · rw [hrun, h.stop hl hne]
    · obtain ⟨hpos, hmore⟩ := h.more hl
      refine ⟨hpos, fun r hlt => ?_⟩
      obtain ⟨rest', hr⟩ := hmore r hlt
      exact ⟨rest', by rw [hrun, hr]⟩

/-- A reader that takes one byte more before it goes on as `Q`. -/
theorem incrementalAt_cons {α : Type} {P Q : Parse α} {b : Byte} {l : List Byte}
    (hrun : ∀ r, P (b :: r) = Q r) (h : IncrementalAt Q l) : IncrementalAt P (b :: l) := by
  refine ⟨fun h1 r => ?_, fun h1 hne r => ?_, fun h1 => ?_⟩ <;> rw [hrun] at h1
  · rw [List.cons_append, hrun, h.ok h1]
  · rw [List.cons_append, hrun, h.stop h1 hne]
  · refine ⟨(h.more h1).1, fun r hr => ?_⟩
    rw [List.cons_append, hrun]
    exact (h.more h1).2 r hr

theorem decodeFrom_override {override : Option SegName} {lock : Bool} {b : Byte} {seg : SegName}
    (h : overrideOf b = some seg) (r : List Byte) :
    decodeFrom override lock (b :: r) = decodeFrom (some seg) lock r := by
  rw [decodeFrom, h]

theorem decodeFrom_lock {override : Option SegName} {lock : Bool} {b : Byte} (h : overrideOf b = none)
    (hb : b = 0xF0) (r : List Byte) :
    decodeFrom override lock (b :: r) = decodeFrom override true r := by
  rw [decodeFrom, h]
  exact if_pos hb

theorem decodeFrom_opcode {override : Option SegName} {lock : Bool} {b : Byte} (h : overrideOf b = none)
    (hb : b ≠ 0xF0) (r : List Byte) : decodeFrom override lock (b :: r) =
      if lock then lockStop (decodeOpcode override b) r else decodeOpcode override b r := by
  rw [decodeFrom, h]
  refine (if_neg hb).trans ?_
  unfold lockStop
  cases decodeOpcode override b r <;> cases lock <;> rfl

theorem incremental_decodeFrom (override : Option SegName) (lock : Bool) :
    Incremental (decodeFrom override lock) := fun l => by
  induction l generalizing override lock with
  | nil =>
    refine ⟨by rintro _ _ ⟨⟩, ?_, ?_⟩
    · rintro _ _ ⟨⟩ hne
      exact absurd rfl (hne 1)
    · rintro _ _ ⟨⟩
      refine ⟨Nat.one_pos, fun r hr => ?_⟩
      obtain rfl : r = [] := List.eq_nil_of_length_eq_zero (Nat.lt_one_iff.mp hr)
      exact ⟨_, rfl⟩
  | cons b l ih =>
    cases h : overrideOf b with
    | some seg => exact incrementalAt_cons (decodeFrom_override h) (ih (some seg) lock)
    | none =>
      by_cases hb : b = 0xF0
      · exact incrementalAt_cons (decodeFrom_lock h hb) (ih override true)
      · have hop := incremental_decodeOpcode override b l
        cases lock with
        | false => exact incrementalAt_cons (decodeFrom_opcode h hb) hop
        | true => exact incrementalAt_cons (decodeFrom_opcode h hb) (incrementalAt_lockStop hop)

/-! ## What a run of bytes decodes to -/

theorem decode_needMore_iff {l : List Byte} {m : Nat} :
    decode l = .needMore m ↔ ∃ rest, decodeFrom none false l = .error (.needMore m) rest := by
  unfold decode
  cases decodeFrom none false l with
  | ok i rest => simp
  | error e rest => cases e <;> simp

/-- Bytes that lack `m` more still lack the rest of them after fewer. -/
theorem decode_needMore_append {l : List Byte} {m : Nat} (h : decode l = .needMore m) :
    0 < m ∧ ∀ r : List Byte, r.length < m → decode (l ++ r) = .needMore (m - r.length) := by
  obtain ⟨rest, h⟩ := decode_needMore_iff.mp h
  obtain ⟨hpos, hmore⟩ := (incremental_decodeFrom none false l).more h
  exact ⟨hpos, fun r hr => decode_needMore_iff.mpr (hmore r hr)⟩

/-- Bytes that lack no more decode to the same whatever follows. -/
theorem decode_append {l : List Byte} (h : ∀ m, decode l ≠ .needMore m) (r : List Byte) :
    decode (l ++ r) = decode l := by
  have hinc := incremental_decodeFrom none false l
  unfold decode
  cases hl : decodeFrom none false l with
  | ok i rest =>
    rw [hinc.ok hl]
    simp only [List.length_append, Nat.add_sub_add_right]
  | error e rest =>
    have hne (m : Nat) : e ≠ .needMore m := fun he =>
      h m (decode_needMore_iff.mpr ⟨rest, by rw [hl, he]⟩)
    rw [hinc.stop hl hne]
    cases e with
    | needMore m => exact absurd rfl (hne m)
    | ud | refused why => rfl

/-- An instruction is no longer than the bytes it is decoded from. -/
theorem decode_length_le {l : List Byte} {i : Instr} {n : Nat} (h : decode l = .instr i n) :
    n ≤ l.length := by
  unfold decode at h
  cases hl : decodeFrom none false l with
  | ok j rest =>
    rw [hl] at h
    cases h
    exact Nat.sub_le ..
  | error e rest =>
    rw [hl] at h
    cases e <;> cases h

/-- The first bytes of an instruction are none yet, and lack no more than the rest of it. -/
theorem decode_prefix_of_instr {l r : List Byte} {i : Instr} (h : decode (l ++ r) = .instr i (l ++ r).length)
    (hr : r ≠ []) : ∃ m, decode l = .needMore m ∧ 0 < m ∧ m ≤ r.length := by
  by_cases hl : ∃ m, decode l = .needMore m
  · obtain ⟨m, hm⟩ := hl
    obtain ⟨hpos, hmore⟩ := decode_needMore_append hm
    refine ⟨m, hm, hpos, Nat.not_lt.mp fun hlt => ?_⟩
    rw [hmore r hlt] at h
    cases h
  · have hle := decode_length_le (decode_append (not_exists.mp hl) r ▸ h)
    have hlen := List.length_pos_of_ne_nil hr
    rw [List.length_append] at hle
    omega

/-- The first bytes of bytes that lack more lack some too. -/
theorem decode_prefix_of_needMore {l r : List Byte} {m : Nat} (h : decode (l ++ r) = .needMore m) :
    ∃ k, decode l = .needMore k ∧ 0 < k ∧ (r.length < k → m = k - r.length) := by
  by_cases hl : ∃ k, decode l = .needMore k
  · obtain ⟨k, hk⟩ := hl
    obtain ⟨hpos, hmore⟩ := decode_needMore_append hk
    refine ⟨k, hk, hpos, fun hlt => ?_⟩
    rw [hmore r hlt] at h
    cases h
    rfl
  · exact absurd (decode_append (not_exists.mp hl) r ▸ h) (not_exists.mp hl m)

end Sys2Proof

/-! The fetch: the bytes of memory at CS:EIP, in runs that are known to belong to the instruction. -/

namespace Sys2Proof.Machine

open Sys2Proof

/-! ## Limits and entries of a longer access -/

/-- An access within the limit is so in its first bytes. -/
theorem limitOK_mono {g : SegReg} {off m n : Nat} (h : limitOK g off n = true) (hmn : m ≤ n) :
    limitOK g off m = true := by
  rw [limitOK_eq_true_iff] at h ⊢
  split
  · rename_i hdown
    rw [if_pos hdown] at h
    omega
  · rename_i hup
    rw [if_neg hup] at h
    omega

/-- Page checks forget no entry that a walk has used. -/
theorem pageCheck_walked {acc : Access} {user : Bool} {lin : Dword} {s u : State} {p q : Nat}
    (h : pageCheck acc user lin s = .ok p u) (hq : q ∈ s.walked) : q ∈ u.walked := by
  cases hpg : s.paging with
  | false =>
    rw [pageCheck_unpaged acc user lin hpg] at h
    cases h
    exact hq
  | true =>
    obtain ⟨t, es, -, -, -, rfl⟩ := pageCheck_ok hpg h
    rw [State.noteLookup_walked]
    exact List.mem_append_right _ hq

theorem pageCheckRange_walked {acc : Access} {user : Bool} {lin : Dword} {n : Nat} {s u : State}
    {ps : List Nat} {q : Nat} (h : pageCheckRange acc user lin n s = .ok ps u) (hq : q ∈ s.walked) :
    q ∈ u.walked := by
  induction n generalizing lin s ps with
  | zero =>
    cases h
    exact hq
  | succ n ih =>
    obtain ⟨p, t, h1, h2⟩ := bind_eq_ok h
    obtain ⟨qs, v, h3, h4⟩ := bind_eq_ok h2
    cases h4
    exact ih h3 (pageCheck_walked h1 hq)

/-- A read of no entry that a walk has used takes no draw. -/
theorem State.noteRead_of_not_walked {s : State} {ps : List Nat} (h : ∀ p ∈ ps, p ∉ s.walked) :
    s.noteRead ps = s := by
  have : (ps.any s.walked.contains) = false := by simpa using h
  unfold State.noteRead
  rw [this]
  rfl

theorem readPhys_of_not_walked {s : State} {ps : List Nat} (h : ∀ p ∈ ps, p ∉ s.walked) :
    readPhys ps s = .ok (ps.map s.mem.read) s := by
  rw [run_readPhys, State.noteRead_of_not_walked h]
  congr 1
  exact List.map_congr_left fun p hp => State.byteAt_of_not_walked (h p hp)

/-! ## A run of bytes (R92, R103, R112) -/

/-- The linear address of byte `k` of the instruction. -/
def State.codeAt (s : State) (k : Nat) : Dword := s.segs.cs.base + s.eip + BitVec.ofNat 32 k

theorem State.codeAt_zero (s : State) : s.codeAt 0 = s.segs.cs.base + s.eip := BitVec.add_zero _

/-- From byte `k` of the instruction at CS:EIP of `s` on, the bytes at the physical addresses `ps` may be
fetched in the state `t`, which leads to `u`; no walk has used them. -/
structure CodeAhead (s : State) (k : Nat) (t : State) (ps : List Nat) (u : State) : Prop where
  reads : s.ReadTo t
  pages : pageCheckRange .fetch s.userLevel (s.codeAt k) ps.length t = .ok ps u
  memory : ∀ p ∈ ps, u.hasMemory p = true
  fresh : ∀ p ∈ ps, p ∉ u.walked

section Fetch

variable {s t u v : State} {k c n m fuel : Nat} {ps : List Nat} {bytes : List Byte} {e : Stop} {i : Instr}

theorem codeAhead_nil (h : CodeAhead s k t [] u) : t = u := by
  have hp := h.pages
  cases hp
  rfl

theorem fetchLimit_ok (hv : t.segs.cs.valid = true) (hl : limitOK t.segs.cs t.eip.toNat n = true) :
    fetchLimit n t = .ok () t := by
  unfold fetchLimit
  rw [run_bind_getState, run_ite, if_neg (by simp [hv]), run_ite, if_neg (by simp [hl]), run_pure]

theorem fetchLimit_beyond (hv : t.segs.cs.valid = true) (hl : limitOK t.segs.cs t.eip.toNat n = false) :
    fetchLimit n t = .error (.exc (.gp 0)) t := by
  unfold fetchLimit
  rw [run_bind_getState, run_ite, if_neg (by simp [hv]), run_ite, if_pos (by simp [hl]), run_raise]

/-- A run of the bytes ahead is fetched, or refused where one of them is stale; the others are then
ahead. -/
theorem CodeAhead.fetchBytes (h : CodeAhead s k t ps u) (hc : c ≤ ps.length) :
    ∃ v, CodeAhead s (k + c) v (ps.drop c) u ∧ fetchBytes k c t =
      if s.anyStale (s.codeAt k) c then .error (.refuse .staleCode) v
      else .ok ((ps.take c).map s.mem.read) v := by
  obtain ⟨rest, hrest⟩ := Nat.exists_eq_add_of_le hc
  obtain ⟨v, htake, hdrop⟩ := pageCheckRange_split (hrest ▸ h.pages)
  have htv : t.ReadTo v := (reads_pageCheckRange ..).of_ok htake
  have hsv : s.ReadTo v := h.reads.trans htv
  have hvu : v.ReadTo u := (reads_pageCheckRange ..).of_ok hdrop
  have hahead : CodeAhead s (k + c) v (ps.drop c) u := by
    refine ⟨hsv, ?_, fun p hp => h.memory p (List.mem_of_mem_drop hp),
      fun p hp => h.fresh p (List.mem_of_mem_drop hp)⟩
    rw [List.length_drop, hrest, Nat.add_sub_cancel_left, State.codeAt, BitVec.ofNat_add, ← BitVec.add_assoc]
    exact hdrop
  have hmem : ∀ p ∈ ps.take c, v.hasMemory p = true := fun p hp => by
    rw [← hvu.hasMemory]
    exact h.memory p (List.mem_of_mem_take hp)
  have hfresh : ∀ p ∈ ps.take c, p ∉ v.walked := fun p hp hw =>
    h.fresh p (List.mem_of_mem_take hp) (pageCheckRange_walked hdrop hw)
  have htrans : translateRange .fetch t.userLevel (t.segs.cs.base + t.eip + BitVec.ofNat 32 k) c t =
      .ok (ps.take c) v := by
    rw [h.reads.segs, h.reads.eip, h.reads.userLevel]
    exact translateRange_ok_iff.mpr ⟨htake, hmem⟩
  have hstale : t.anyStale (t.segs.cs.base + t.eip + BitVec.ofNat 32 k) c = s.anyStale (s.codeAt k) c := by
    unfold State.anyStale State.codeAt
    rw [h.reads.segs, h.reads.eip, h.reads.storedAhead]
  refine ⟨v, hahead, ?_⟩
  unfold Machine.fetchBytes
  rw [run_bind_getState, run_bind_ok htrans, run_ite, hstale, run_refuse, readPhys_of_not_walked hfresh,
    hsv.mem]

/-! ## The loop of the fetch (R92, R142) -/

theorem fetchFrom_decoded (h : ∀ m, decode bytes ≠ .needMore m) :
    fetchFrom bytes fuel t = .ok (decode bytes) t := by
  cases fuel <;> unfold fetchFrom <;> cases hd : decode bytes with
  | needMore m => exact absurd hd (h m)
  | instr i n | ud | refused why => rfl

/-- An instruction longer than 15 bytes (R142). -/
theorem fetchFrom_too_long (h : decode bytes = .needMore m) (hlen : maxInstrLen ≤ bytes.length) :
    fetchFrom bytes fuel t = .error (.exc (.gp 0)) t := by
  cases fuel <;> unfold fetchFrom <;> rw [h]
  · rfl
  · exact (run_ite ..).trans (if_pos hlen)

theorem fetchFrom_more (h : decode bytes = .needMore m) (hlen : bytes.length < maxInstrLen) :
    fetchFrom bytes (fuel + 1) t =
      (fetchLimit (bytes.length + min m (maxInstrLen - bytes.length)) >>= fun _ =>
        fetchBytes bytes.length (min m (maxInstrLen - bytes.length)) >>= fun bs =>
          fetchFrom (bytes ++ bs) fuel) t := by
  rw [fetchFrom, h]
  exact (run_ite ..).trans (if_neg (Nat.not_le.mpr hlen))

theorem fetchFrom_beyond (h : decode bytes = .needMore m) (hlen : bytes.length < maxInstrLen)
    (hr : s.ReadTo t) (hv : s.segs.cs.valid = true)
    (hl : limitOK s.segs.cs s.eip.toNat (bytes.length + min m (maxInstrLen - bytes.length)) = false) :
    fetchFrom bytes (fuel + 1) t = .error (.exc (.gp 0)) t := by
  rw [fetchFrom_more h hlen]
  exact run_bind_error (fetchLimit_beyond (by rw [hr.segs]; exact hv) (by rw [hr.segs, hr.eip]; exact hl))

/-- One run of the loop: `c` bytes more, which are known to belong to the instruction, are fetched, or
refused where one of them is stale. -/
theorem CodeAhead.run (h : CodeAhead s bytes.length t ps u) (hv : s.segs.cs.valid = true)
    (hd : decode bytes = .needMore m) (hlen : bytes.length < maxInstrLen)
    (hc : c = min m (maxInstrLen - bytes.length)) (hcps : c ≤ ps.length)
    (hl : limitOK s.segs.cs s.eip.toNat (bytes.length + c) = true) :
    ∃ v bs qs, CodeAhead s bs.length v qs u ∧ bs ++ qs.map s.mem.read = bytes ++ ps.map s.mem.read ∧
      bs.length = bytes.length + c ∧ qs.length = ps.length - c ∧ fetchFrom bytes (fuel + 1) t =
        if s.anyStale (s.codeAt bytes.length) c then .error (.refuse .staleCode) v
        else fetchFrom bs fuel v := by
  obtain ⟨v, hahead, hfetch⟩ := h.fetchBytes hcps
  have hlimit : fetchLimit (bytes.length + c) t = .ok () t :=
    fetchLimit_ok (by rw [h.reads.segs]; exact hv) (by rw [h.reads.segs, h.reads.eip]; exact hl)
  have hbs : (bytes ++ (ps.take c).map s.mem.read).length = bytes.length + c := by
    rw [List.length_append, List.length_map, List.length_take_of_le hcps]
  refine ⟨v, bytes ++ (ps.take c).map s.mem.read, ps.drop c, hbs ▸ hahead, ?_, hbs, List.length_drop, ?_⟩
  · rw [List.append_assoc, ← List.map_append, List.take_append_drop]
  · rw [fetchFrom_more hd hlen, ← hc, run_bind_ok hlimit]
    cases hst : s.anyStale (s.codeAt bytes.length) c <;> rw [hst] at hfetch
    · exact run_bind_ok hfetch
    · exact run_bind_error hfetch

theorem State.anyStale_split (s : State) (k m n : Nat) : s.anyStale (s.codeAt k) (m + n) = true ↔
    s.anyStale (s.codeAt k) m = true ∨ s.anyStale (s.codeAt (k + m)) n = true := by
  simp only [State.anyStale_iff, State.codeAt, BitVec.add_assoc, ← BitVec.ofNat_add]
  constructor
  · rintro ⟨j, hj, hmem⟩
    by_cases hjm : j < m
    · exact .inl ⟨j, hjm, hmem⟩
    · refine .inr ⟨j - m, by omega, ?_⟩
      rwa [show k + m + (j - m) = k + j by omega]
  · rintro (⟨j, hj, hmem⟩ | ⟨j, hj, hmem⟩)
    · exact ⟨j, by omega, hmem⟩
    · exact ⟨m + j, by omega, by rwa [← Nat.add_assoc]⟩

/-- The bytes fetched so far are an instruction, and none is ahead. -/
theorem CodeAhead.fetch_instr_nil (h : CodeAhead s bytes.length t [] u)
    (hd : decode (bytes ++ ([] : List Nat).map s.mem.read) = .instr i (bytes.length + ([] : List Nat).length)) :
    (s.anyStale (s.codeAt bytes.length) ([] : List Nat).length = false →
      fetchFrom bytes fuel t = .ok (.instr i (bytes.length + ([] : List Nat).length)) u) ∧
    (s.anyStale (s.codeAt bytes.length) ([] : List Nat).length = true →
      ∃ v, fetchFrom bytes fuel t = .error (.refuse .staleCode) v) := by
  obtain rfl := codeAhead_nil h
  rw [List.map_nil, List.append_nil] at hd
  exact ⟨fun _ => hd ▸ fetchFrom_decoded (by rw [hd]; exact fun _ => Decoded.noConfusion),
    fun hst => by cases hst⟩

/-- The bytes ahead are an instruction: the loop gives it, or is refused where one of them is stale. -/
theorem CodeAhead.fetch_instr (h : CodeAhead s bytes.length t ps u) (hv : s.segs.cs.valid = true)
    (hlen : bytes.length + ps.length ≤ maxInstrLen) (hfuel : maxInstrLen ≤ bytes.length + fuel)
    (hl : limitOK s.segs.cs s.eip.toNat (bytes.length + ps.length) = true)
    (hd : decode (bytes ++ ps.map s.mem.read) = .instr i (bytes.length + ps.length)) :
    (s.anyStale (s.codeAt bytes.length) ps.length = false →
      fetchFrom bytes fuel t = .ok (.instr i (bytes.length + ps.length)) u) ∧
    (s.anyStale (s.codeAt bytes.length) ps.length = true →
      ∃ v, fetchFrom bytes fuel t = .error (.refuse .staleCode) v) := by
  induction fuel generalizing bytes t ps with
  | zero =>
    obtain rfl : ps = [] := List.eq_nil_of_length_eq_zero (by omega)
    exact h.fetch_instr_nil hd
  | succ fuel ih =>
    by_cases hps : ps = []
    · subst hps
      exact h.fetch_instr_nil hd
    · have hpos := List.length_pos_of_ne_nil hps
      obtain ⟨m, hm, hm0, hmps⟩ := decode_prefix_of_instr (l := bytes) (r := ps.map s.mem.read)
        (i := i) (by rw [List.length_append, List.length_map]; exact hd) (by simpa using hps)
      rw [List.length_map] at hmps
      have hc : m = min m (maxInstrLen - bytes.length) := by omega
      obtain ⟨v, bs, qs, hahead, hbytes, hbs, hqs, hrun⟩ :=
        h.run (fuel := fuel) hv hm (by omega) hc hmps (limitOK_mono hl (by omega))
      have hsum : bs.length + qs.length = bytes.length + ps.length := by omega
      have hsplit := State.anyStale_split s bytes.length m qs.length
      rw [show m + qs.length = ps.length by omega, ← hbs] at hsplit
      obtain ⟨hok, hstale⟩ := ih hahead (by omega) (by omega) (by rw [hsum]; exact hl)
        (by rw [hbytes, hsum]; exact hd)
      rw [hrun, ← hsum]
      cases hst : s.anyStale (s.codeAt bytes.length) m with
      | true => exact ⟨fun hno => by simp [hsplit.mpr (.inl hst)] at hno, fun _ => ⟨v, rfl⟩⟩
      | false => exact ⟨fun hno => hok (by grind), fun hyes => hstale (by grind)⟩

/-- The 15 bytes ahead are no whole instruction (R142). -/
theorem CodeAhead.fetch_too_long (h : CodeAhead s bytes.length t ps u) (hv : s.segs.cs.valid = true)
    (hlen : bytes.length + ps.length = maxInstrLen) (hfuel : maxInstrLen ≤ bytes.length + fuel)
    (hl : limitOK s.segs.cs s.eip.toNat maxInstrLen = true)
    (hstale : s.anyStale (s.codeAt bytes.length) ps.length = false)
    (hd : decode (bytes ++ ps.map s.mem.read) = .needMore m) :
    fetchFrom bytes fuel t = .error (.exc (.gp 0)) u := by
  induction fuel generalizing bytes t ps with
  | zero =>
    obtain rfl : ps = [] := List.eq_nil_of_length_eq_zero (by omega)
    obtain rfl := codeAhead_nil h
    exact fetchFrom_too_long (by simpa using hd) hfuel
  | succ fuel ih =>
    by_cases hps : ps = []
    · subst hps
      obtain rfl := codeAhead_nil h
      exact fetchFrom_too_long (by simpa using hd) hlen.ge
    · have hpos := List.length_pos_of_ne_nil hps
      obtain ⟨k, hk, hk0, -⟩ := decode_prefix_of_needMore hd
      obtain ⟨c, hc⟩ : ∃ c, c = min k (maxInstrLen - bytes.length) := ⟨_, rfl⟩
      obtain ⟨v, bs, qs, hahead, hbytes, hbs, hqs, hrun⟩ :=
        h.run (fuel := fuel) hv hk (by omega) hc (by omega) (limitOK_mono hl (by omega))
      have hsplit := State.anyStale_split s bytes.length c qs.length
      rw [show c + qs.length = ps.length by omega, ← hbs] at hsplit
      rw [hrun, if_neg (by grind)]
      exact ih hahead (by omega) (by omega) (by grind) (by rw [hbytes]; exact hd)

/-- The bytes ahead lack `m` more, which do not all lie within the limit (R92). -/
theorem CodeAhead.fetch_beyond (h : CodeAhead s bytes.length t ps u) (hv : s.segs.cs.valid = true)
    (hlen : bytes.length + ps.length < maxInstrLen) (hfuel : maxInstrLen ≤ bytes.length + fuel)
    (hstale : s.anyStale (s.codeAt bytes.length) ps.length = false)
    (hd : decode (bytes ++ ps.map s.mem.read) = .needMore m)
    (hl : limitOK s.segs.cs s.eip.toNat (min (bytes.length + ps.length + m) maxInstrLen) = false) :
    ∃ v, fetchFrom bytes fuel t = .error (.exc (.gp 0)) v ∧ s.ReadTo v := by
  induction fuel generalizing bytes t ps with
  | zero => omega
  | succ fuel ih =>
    obtain ⟨k, hk, hk0, hkm⟩ := decode_prefix_of_needMore hd
    rw [List.length_map] at hkm
    obtain ⟨c, hc⟩ : ∃ c, c = min k (maxInstrLen - bytes.length) := ⟨_, rfl⟩
    cases hlc : limitOK s.segs.cs s.eip.toNat (bytes.length + c) with
    | false => exact ⟨t, fetchFrom_beyond hk (by omega) h.reads hv (hc ▸ hlc), h.reads⟩
    | true =>
      have hcps : c ≤ ps.length := by
        by_contra hgt
        have hm := hkm (by omega)
        rw [show min (bytes.length + ps.length + m) maxInstrLen = bytes.length + c by omega, hlc] at hl
        cases hl
      obtain ⟨v, bs, qs, hahead, hbytes, hbs, hqs, hrun⟩ := h.run (fuel := fuel) hv hk (by omega) hc hcps hlc
      have hsplit := State.anyStale_split s bytes.length c qs.length
      rw [show c + qs.length = ps.length by omega, ← hbs] at hsplit
      rw [hrun, if_neg (by grind)]
      refine ih hahead (by omega) (by omega) (by grind) (by rw [hbytes]; exact hd) ?_
      rw [show bs.length + qs.length = bytes.length + ps.length by omega]
      exact hl

/-- The bytes at CS:EIP that translate are the ones ahead at the start of a fetch. -/
theorem codeAhead_of_translate
    (h : translateRange .fetch s.userLevel (s.segs.cs.base + s.eip) n s = .ok ps u)
    (hw : ∀ p ∈ ps, p ∉ u.walked) : CodeAhead s ([] : List Byte).length s ps u ∧ ps.length = n := by
  have hlen := translateRange_length h
  obtain ⟨hpages, hmem⟩ := translateRange_ok_iff.mp h
  refine ⟨⟨.refl s, ?_, hmem, hw⟩, hlen⟩
  rw [hlen, List.length_nil, State.codeAt_zero]
  exact hpages

end Fetch

/-! ## What a store notes of the coming code (R112) -/

theorem Lookup.mem_phys {l : Lookup} {lin : Dword} {p : Nat} :
    p ∈ l.phys lin ↔ ∃ t es, l = .mapped t es ∧ p = t.phys lin := by
  cases l <;> simp [Lookup.phys]

theorem State.mem_addrsOf {s : State} {lin : Dword} {p : Nat} : p ∈ s.addrsOf lin ↔
    s.paging = false ∧ p = lin.toNat ∨
    s.paging = true ∧ ∃ t es, (walk s lin = .mapped t es ∨ .mapped t es ∈ oldLookups s lin) ∧
      p = t.phys lin := by
  unfold State.addrsOf
  cases s.paging with
  | false => simp
  | true =>
    simp only [Bool.not_true, Bool.false_eq_true, if_false, List.mem_flatMap, List.mem_cons,
      Lookup.mem_phys, reduceCtorEq, false_and, true_and, false_or]
    grind

theorem State.mem_storedAhead_store {s : State} {cells : List Host.Cell} {a : Dword} :
    a ∈ (s.store cells).storedAhead ↔ a ∈ s.ahead cells ∨ a ∈ s.storedAhead := List.mem_append

/-- Settles O6, by the loop of the fetch over the bytes ahead. -/
theorem fetchReadsCode : Obligations.FetchReadsCode := by
  refine ⟨fun s u n ps => ?_, fun s cells a => ?_⟩
  · intro lin stale hv htr hw
    obtain ⟨hahead, rfl⟩ := codeAhead_of_translate htr hw
    have hstale : s.anyStale (s.codeAt ([] : List Byte).length) ps.length = true ↔ stale := by
      rw [State.anyStale_iff, List.length_nil, State.codeAt_zero]
    have h0 : ([] : List Byte).length + ps.length = ps.length := Nat.zero_add _
    refine ⟨fun hst => ⟨fun i hlen hl hd => ?_, fun m hlen hl hd => ?_, fun m hlen hd hl => ?_⟩,
      fun hst i hlen hl hd => ?_⟩
    · rw [← hstale, Bool.not_eq_true] at hst
      have := (hahead.fetch_instr (fuel := maxInstrLen) (i := i) hv (by omega) (by omega)
        (by rw [h0]; exact hl) (by rw [h0]; exact hd)).1 hst
      rwa [h0] at this
    · rw [← hstale, Bool.not_eq_true] at hst
      exact hahead.fetch_too_long hv (by omega) (by omega) (hlen ▸ hl) hst hd
    · rw [← hstale, Bool.not_eq_true] at hst
      exact hahead.fetch_beyond hv (by omega) (by omega) hst hd (by rw [h0]; exact hl)
    · exact (hahead.fetch_instr (fuel := maxInstrLen) (i := i) hv (by omega) (by omega)
        (by rw [h0]; exact hl) (by rw [h0]; exact hd)).2 (hstale.mpr hst)
  · rw [State.mem_storedAhead_store, State.mem_ahead, or_comm]
    simp only [State.mem_addrsOf]
    rfl

end Sys2Proof.Machine

/-! Decoder and encoder: the bytes of a well-formed instruction decode to it, and a decoding uses exactly the
bytes of the instruction. -/

namespace Sys2Proof

/-! ## The fields of a ModRM or SIB byte, and register numbers (R143, R144) -/

@[simp] theorem regOfBits_bitsOfReg (r : Reg) : regOfBits (bitsOfReg r) = r := by cases r <;> rfl

theorem bitsOfReg_regOfBits (n : BitVec 3) : bitsOfReg (regOfBits n) = n := by
  obtain rfl | rfl | rfl | rfl | rfl | rfl | rfl | rfl := Machine.bitVec3_cases n <;> rfl

theorem bitsOfReg_inj {r q : Reg} : bitsOfReg r = bitsOfReg q ↔ r = q :=
  ⟨fun h => by rw [← regOfBits_bitsOfReg r, h, regOfBits_bitsOfReg], fun h => h ▸ rfl⟩

theorem fieldsByte_fields (hi : BitVec 2) (mid lo : BitVec 3) :
    (fieldsByte hi mid lo).extractLsb' 6 2 = hi ∧ (fieldsByte hi mid lo).extractLsb' 3 3 = mid ∧
      (fieldsByte hi mid lo).extractLsb' 0 3 = lo := by
  unfold fieldsByte
  refine ⟨?_, ?_, ?_⟩
  all_goals
    apply BitVec.eq_of_getLsbD_eq
    intro k hk
    simp only [BitVec.getLsbD_append, BitVec.getLsbD_extractLsb']
    grind

@[simp] theorem fieldsByte_hi (hi : BitVec 2) (mid lo : BitVec 3) :
    (fieldsByte hi mid lo).extractLsb' 6 2 = hi := (fieldsByte_fields hi mid lo).1

@[simp] theorem fieldsByte_mid (hi : BitVec 2) (mid lo : BitVec 3) :
    (fieldsByte hi mid lo).extractLsb' 3 3 = mid := (fieldsByte_fields hi mid lo).2.1

@[simp] theorem fieldsByte_lo (hi : BitVec 2) (mid lo : BitVec 3) :
    (fieldsByte hi mid lo).extractLsb' 0 3 = lo := (fieldsByte_fields hi mid lo).2.2

@[simp] theorem modrmReg_fieldsByte (hi : BitVec 2) (mid lo : BitVec 3) :
    modrmReg (fieldsByte hi mid lo) = mid := fieldsByte_mid hi mid lo

@[simp] theorem modrmRm_fieldsByte (hi : BitVec 2) (mid lo : BitVec 3) :
    modrmRm (fieldsByte hi mid lo) = lo := fieldsByte_lo hi mid lo

/-! ## The readers on the bytes they stand for (R108, R142, R144, R145) -/

theorem parse_map_ok {α β : Type} {P : Parse α} {l rest : List Byte} {a : α} (f : α → β)
    (h : P l = .ok a rest) : (do let x ← P; pure (f x) : Parse β) l = .ok (f a) rest := parse_bind_ok h

theorem nextByte_bind {α : Type} (f : Byte → Parse α) (b : Byte) (l : List Byte) :
    (nextByte >>= f) (b :: l) = f b l := rfl

theorem expectBytes_ok {n : Nat} {l : List Byte} (h : n ≤ l.length) : expectBytes n l = .ok () l :=
  if_neg (Nat.not_lt.mpr h)

theorem nextWord_wordBytes (w : Word) (rest : List Byte) : nextWord (wordBytes w ++ rest) = .ok w rest :=
  congrArg (EStateM.Result.ok · rest) (Machine.wordAt_wordBytes w)

theorem nextDword_dwordBytes (d : Dword) (rest : List Byte) :
    nextDword (dwordBytes d ++ rest) = .ok d rest :=
  (parse_bind_ok (expectBytes_ok (by simp [dwordBytes]))).trans
    (congrArg (EStateM.Result.ok · rest) (Machine.dwordAt_dwordBytes d))

theorem nextFarPointer_bytes (sel : Word) (off : Dword) (rest : List Byte) :
    nextFarPointer (dwordBytes off ++ wordBytes sel ++ rest) = .ok (sel, off) rest := by
  have hlen : 6 ≤ (dwordBytes off ++ wordBytes sel ++ rest).length := by
    simp [dwordBytes, wordBytes]
  refine (parse_bind_ok (expectBytes_ok hlen)).trans ?_
  rw [List.append_assoc]
  exact (parse_bind_ok (nextDword_dwordBytes off _)).trans (parse_map_ok _ (nextWord_wordBytes sel rest))

/-! ## Operands of a ModRM byte (R143, R144) -/

theorem dispLength_le (mode : BitVec 2) : dispLength mode ≤ 4 := by
  unfold dispLength
  split_ifs <;> omega

theorem baseOfBits_bitsOfReg (r : Reg) : baseOfBits 2 (bitsOfReg r) = some r := by cases r <;> rfl

theorem indexOfSib_none (scale : BitVec 2) (lo : BitVec 3) : indexOfSib (fieldsByte scale 4 lo) = none := by
  simp [indexOfSib]

theorem indexOfSib_some {r : Reg} (h : r ≠ .esp) (scale : BitVec 2) (lo : BitVec 3) :
    indexOfSib (fieldsByte scale (bitsOfReg r) lo) = some (r, scale) := by
  have hr : bitsOfReg r ≠ 4 := fun h4 => h (bitsOfReg_inj.mp h4)
  unfold indexOfSib
  rw [fieldsByte_mid, fieldsByte_hi, if_neg hr, regOfBits_bitsOfReg]

/-- Where `mod` asks for a displacement of 32 bits, the operand without a SIB byte. -/
theorem nextMemOperand_plain {mode : BitVec 2} {rm : BitVec 3} {base : Option Reg} (ov : Option SegName)
    (hrm : rm ≠ 4) (hbase : baseOfBits mode rm = base) (hdisp : nextDisp mode base = nextDword) (d : Dword)
    (rest : List Byte) : nextMemOperand ov mode rm (dwordBytes d ++ rest) =
      .ok ⟨ov.getD (defaultSeg base), base, none, d⟩ rest := by
  unfold nextMemOperand
  rw [if_neg hrm, hbase, hdisp]
  exact parse_map_ok _ (nextDword_dwordBytes d rest)

/-- The same with a SIB byte. -/
theorem nextMemOperand_sib {mode : BitVec 2} {sb : Byte} {base : Option Reg} (ov : Option SegName)
    (hbase : baseOfBits mode (sb.extractLsb' 0 3) = base) (hdisp : nextDisp mode base = nextDword) (d : Dword)
    (rest : List Byte) : nextMemOperand ov mode 4 (sb :: dwordBytes d ++ rest) =
      .ok ⟨ov.getD (defaultSeg base), base, indexOfSib sb, d⟩ rest := by
  have hlen : 1 + dispLength mode ≤ (sb :: dwordBytes d ++ rest).length := by
    have := dispLength_le mode
    simp [dwordBytes]; omega
  unfold nextMemOperand
  rw [if_pos rfl, parse_bind_ok (expectBytes_ok hlen)]
  refine (nextByte_bind ..).trans ?_
  rw [hbase, hdisp]
  exact parse_map_ok _ (nextDword_dwordBytes d rest)

theorem nextRM_mem {ov : Option SegName} {mode : BitVec 2} {reg rm : BitVec 3} {l rest : List Byte}
    {m : MemOperand} (hmode : mode ≠ 3) (h : nextMemOperand ov mode rm l = .ok m rest) :
    nextRM ov (fieldsByte mode reg rm) l = .ok (.mem m) rest := by
  unfold nextRM
  rw [fieldsByte_hi, fieldsByte_lo, if_neg hmode]
  exact parse_map_ok _ h

/-- The segment override that an operand's encoding carries (R144). -/
def overrideFor : RM → Option SegName
  | .reg _ => none
  | .mem m => if m.seg = defaultSeg m.base then none else some m.seg

theorem overrideFor_getD (m : MemOperand) : (overrideFor (.mem m)).getD (defaultSeg m.base) = m.seg := by
  by_cases h : m.seg = defaultSeg m.base <;> simp [overrideFor, h]

theorem overrideOf_overrideByte (seg : SegName) : overrideOf (overrideByte seg) = some seg := by
  cases seg <;> rfl

theorem decodeFrom_encodeOverride (x : RM) (lock : Bool) (l : List Byte) :
    decodeFrom none lock (encodeOverride x ++ l) = decodeFrom (overrideFor x) lock l := by
  cases x with
  | reg r => rfl
  | mem m =>
    by_cases h : m.seg = defaultSeg m.base
    · simp [encodeOverride, overrideFor, h]
    · simpa [encodeOverride, overrideFor, h] using decodeFrom_override (overrideOf_overrideByte m.seg) l

/-- The bytes `l` are a ModRM byte with the digit `reg` and the rest of the operand `x`, whose override byte
came before. -/
def IsOperand (reg : BitVec 3) (x : RM) (l : List Byte) : Prop :=
  ∃ hi lo tail, l = fieldsByte hi reg lo :: tail ∧
    ∀ rest, nextRM (overrideFor x) (fieldsByte hi reg lo) (tail ++ rest) = .ok x rest

theorem isOperand_mem {mode : BitVec 2} {reg rm : BitVec 3} {tail : List Byte} {m : MemOperand}
    (hmode : mode ≠ 3)
    (h : ∀ ov rest, nextMemOperand ov mode rm (tail ++ rest) =
      .ok ⟨ov.getD (defaultSeg m.base), m.base, m.index, m.disp⟩ rest) :
    IsOperand reg (.mem m) (fieldsByte mode reg rm :: tail) :=
  ⟨mode, rm, tail, rfl, fun rest => nextRM_mem hmode (by rw [h, overrideFor_getD])⟩

theorem isOperand_encodeMem (reg : BitVec 3) {m : MemOperand} (hwf : m.wf = true) :
    IsOperand reg (.mem m) (encodeMem reg m) := by
  obtain ⟨seg, base, index, disp⟩ := m
  have hidx {r : Reg} {s : BitVec 2} (h : index = some (r, s)) : r ≠ .esp := by
    subst h
    exact bne_iff_ne.mp hwf
  match base, index with
  | none, none => exact isOperand_mem (by decide) fun ov => nextMemOperand_plain ov (by decide) rfl rfl disp
  | none, some (i, scale) =>
    refine isOperand_mem (by decide) fun ov rest => ?_
    rw [nextMemOperand_sib ov (base := none) (by rw [fieldsByte_lo]; rfl) rfl, indexOfSib_some (hidx rfl)]
  | some b, none =>
    unfold encodeMem
    dsimp only
    split
    · next hb =>
      subst hb
      refine isOperand_mem (by decide) fun ov rest => ?_
      rw [nextMemOperand_sib ov (base := some .esp) (by rw [fieldsByte_lo]; rfl) rfl, indexOfSib_none]
    · next hb =>
      have h4 : bitsOfReg b ≠ 4 := fun h4 => hb (bitsOfReg_inj.mp h4)
      exact isOperand_mem (by decide) fun ov =>
        nextMemOperand_plain ov h4 (baseOfBits_bitsOfReg b) rfl disp
  | some b, some (i, scale) =>
    refine isOperand_mem (by decide) fun ov rest => ?_
    rw [nextMemOperand_sib ov (base := some b) (by rw [fieldsByte_lo, baseOfBits_bitsOfReg]) rfl,
      indexOfSib_some (hidx rfl)]

theorem isOperand_encodeRM (reg : BitVec 3) {x : RM} (hwf : x.wf = true) :
    IsOperand reg x (encodeRM reg x) := by
  cases x with
  | reg r =>
    refine ⟨3, bitsOfReg r, [], rfl, fun rest => ?_⟩
    unfold nextRM
    rw [fieldsByte_hi, fieldsByte_lo, if_pos rfl, regOfBits_bitsOfReg]
    rfl
  | mem m => exact isOperand_encodeMem reg hwf

/-! ## The groups by their digit (R146, R148) -/

/-- Reads an operand and makes an instruction of it. -/
def operandRow (f : RM → Instr) (ov : Option SegName) (mb : Byte) : Parse Instr := do
  let x ← nextRM ov mb
  pure (f x)

section Groups

variable (ov : Option SegName) (hi : BitVec 2) (digit lo : BitVec 3) (l : List Byte)

/-- The group `0F 00`. -/
theorem decodeGroup6_digit : decodeGroup6 ov (fieldsByte hi digit lo :: l) =
    if digit = 0 then .error (.refused .noRow) l
    else if digit = 1 then operandRow .str ov (fieldsByte hi digit lo) l
    else if digit = 2 then operandRow .lldt ov (fieldsByte hi digit lo) l
    else if digit = 3 then operandRow .ltr ov (fieldsByte hi digit lo) l
    else if digit = 4 then operandRow .verr ov (fieldsByte hi digit lo) l
    else if digit = 5 then operandRow .verw ov (fieldsByte hi digit lo) l
    else .error .ud l := by
  refine (nextByte_bind ..).trans ?_
  rw [modrmReg_fieldsByte]
  obtain rfl | rfl | rfl | rfl | rfl | rfl | rfl | rfl := Machine.bitVec3_cases digit <;> rfl

/-- The group `0F 01`. -/
theorem decodeGroup7_digit : decodeGroup7 ov (fieldsByte hi digit lo :: l) =
    if digit = 0 ∨ digit = 1 ∨ digit = 4 then .error (.refused .noRow) l
    else if digit = 2 then operandRow .lgdt ov (fieldsByte hi digit lo) l
    else if digit = 3 then operandRow .lidt ov (fieldsByte hi digit lo) l
    else if digit = 6 then operandRow .lmsw ov (fieldsByte hi digit lo) l
    else .error .ud l := by
  refine (nextByte_bind ..).trans ?_
  rw [modrmReg_fieldsByte]
  obtain rfl | rfl | rfl | rfl | rfl | rfl | rfl | rfl := Machine.bitVec3_cases digit <;> rfl

/-- The group `FF`. -/
theorem decodeGroup5_digit : decodeGroup5 ov (fieldsByte hi digit lo :: l) =
    if digit = 0 ∨ digit = 1 ∨ digit = 6 then .error (.refused .noRow) l
    else if digit = 2 then operandRow .callRm ov (fieldsByte hi digit lo) l
    else if digit = 3 then operandRow .callFarMem ov (fieldsByte hi digit lo) l
    else if digit = 4 then operandRow .jmpRm ov (fieldsByte hi digit lo) l
    else if digit = 5 then operandRow .jmpFarMem ov (fieldsByte hi digit lo) l
    else .error .ud l := by
  refine (nextByte_bind ..).trans ?_
  rw [modrmReg_fieldsByte]
  obtain rfl | rfl | rfl | rfl | rfl | rfl | rfl | rfl := Machine.bitVec3_cases digit <;> rfl

end Groups

/-! ## Whole instructions (R142, R146, R147) -/

/-- The bytes `l` are read as `i`, whatever follows them; after LOCK they raise UD. -/
def ReadAs (l : List Byte) (i : Instr) : Prop :=
  ∀ lock rest, decodeFrom none lock (l ++ rest) = if lock then .error .ud rest else .ok i rest

/-- An opcode byte is no segment override and not LOCK. -/
def IsOpcode (op : Byte) : Prop := overrideOf op = none ∧ op ≠ 0xF0

/-- For a given byte this is computed. -/
theorem isOpcode_of {op : Byte} (h : overrideOf op = none ∧ op ≠ 0xF0 := by decide) : IsOpcode op := h

theorem decodeFrom_ok {ov : Option SegName} {op : Byte} {l rest : List Byte} {i : Instr} (hop : IsOpcode op)
    (h : decodeOpcode ov op l = .ok i rest) (lock : Bool) :
    decodeFrom ov lock (op :: l) = if lock then .error .ud rest else .ok i rest := by
  rw [decodeFrom_opcode hop.1 hop.2, lockStop, h]

/-- An instruction without a ModRM operand. -/
theorem readAs_opcode {op : Byte} {l : List Byte} {i : Instr} (hop : IsOpcode op)
    (h : ∀ rest, decodeOpcode none op (l ++ rest) = .ok i rest) : ReadAs (op :: l) i :=
  fun lock rest => decodeFrom_ok hop (h rest) lock

/-- An instruction with a ModRM operand: `h` says what its row does at the ModRM byte. -/
theorem readAs_encodeWithRM {op : Byte} {more : List Byte} {reg : BitVec 3} {x : RM} {f : RM → Instr}
    (hwf : x.wf = true) (hop : IsOpcode op)
    (h : ∀ ov hi lo l, decodeOpcode ov op (more ++ fieldsByte hi reg lo :: l) =
      operandRow f ov (fieldsByte hi reg lo) l) :
    ReadAs (encodeWithRM (op :: more) reg x) (f x) := fun lock rest => by
  obtain ⟨hi, lo, tail, hbytes, hread⟩ := isOperand_encodeRM reg hwf
  unfold encodeWithRM
  rw [hbytes, List.append_assoc, List.append_assoc, decodeFrom_encodeOverride, List.cons_append]
  refine decodeFrom_ok hop ?_ lock
  rw [List.cons_append, h]
  exact parse_map_ok f (hread rest)

/-- An instruction with a ModRM operand and a register in the field `reg`. -/
theorem readAs_encodeWithReg {op : Byte} {more : List Byte} {r : Reg} {x : RM} {f : Reg → RM → Instr}
    (hwf : x.wf = true) (hop : IsOpcode op)
    (h : ∀ ov mb l, decodeOpcode ov op (more ++ mb :: l) =
      operandRow (f (regOfBits (modrmReg mb))) ov mb l) :
    ReadAs (encodeWithRM (op :: more) (bitsOfReg r) x) (f r x) :=
  readAs_encodeWithRM hwf hop fun ov hi lo l => by
    rw [h, modrmReg_fieldsByte, regOfBits_bitsOfReg]

/-- A move to or from a special register: `h` says what its row does at the ModRM byte. -/
theorem readAs_special {op : Byte} {n : BitVec 3} {r : Reg} {f : BitVec 3 → Reg → Instr}
    (h : ∀ mb l, decodeTwoByte none (op :: mb :: l) = .ok (f (modrmReg mb) (regOfBits (modrmRm mb))) l) :
    ReadAs [0x0F, op, fieldsByte 3 n (bitsOfReg r)] (f n r) :=
  readAs_opcode isOpcode_of fun rest => by
    refine (h _ rest).trans ?_
    rw [modrmReg_fieldsByte, modrmRm_fieldsByte, regOfBits_bitsOfReg]

/-- The bytes of every well-formed instruction are read as it. -/
theorem readAs_encode (i : Instr) (hwf : i.wf = true) : ReadAs (encode i) i := by
  cases i with
  | movSreg sreg src =>
    refine readAs_encodeWithRM hwf isOpcode_of fun ov hi lo l => ?_
    rw [← congrArg Instr.movSreg (modrmReg_fieldsByte hi sreg lo)]
    rfl
  | jmpRel8 rel => exact readAs_opcode isOpcode_of fun rest => rfl
  | jmpRel32 rel => exact readAs_opcode isOpcode_of fun rest => parse_map_ok _ (nextDword_dwordBytes rel rest)
  | jmpRm target => exact readAs_encodeWithRM hwf isOpcode_of fun ov hi lo l => decodeGroup5_digit ..
  | jmpFar sel off =>
    exact readAs_opcode isOpcode_of fun rest => parse_map_ok _ (nextFarPointer_bytes sel off rest)
  | jmpFarMem ptr => exact readAs_encodeWithRM hwf isOpcode_of fun ov hi lo l => decodeGroup5_digit ..
  | callRel32 rel => exact readAs_opcode isOpcode_of fun rest => parse_map_ok _ (nextDword_dwordBytes rel rest)
  | callRm target => exact readAs_encodeWithRM hwf isOpcode_of fun ov hi lo l => decodeGroup5_digit ..
  | callFar sel off =>
    exact readAs_opcode isOpcode_of fun rest => parse_map_ok _ (nextFarPointer_bytes sel off rest)
  | callFarMem ptr => exact readAs_encodeWithRM hwf isOpcode_of fun ov hi lo l => decodeGroup5_digit ..
  | ret => exact readAs_opcode isOpcode_of fun rest => rfl
  | retImm n => exact readAs_opcode isOpcode_of fun rest => parse_map_ok _ (nextWord_wordBytes n rest)
  | retf => exact readAs_opcode isOpcode_of fun rest => rfl
  | retfImm n => exact readAs_opcode isOpcode_of fun rest => parse_map_ok _ (nextWord_wordBytes n rest)
  | int vector => exact readAs_opcode isOpcode_of fun rest => rfl
  | iret => exact readAs_opcode isOpcode_of fun rest => rfl
  | clts => exact readAs_opcode isOpcode_of fun rest => rfl
  | hlt => exact readAs_opcode isOpcode_of fun rest => rfl
  | lgdt src => exact readAs_encodeWithRM hwf isOpcode_of fun ov hi lo l => decodeGroup7_digit ..
  | lidt src => exact readAs_encodeWithRM hwf isOpcode_of fun ov hi lo l => decodeGroup7_digit ..
  | lldt src => exact readAs_encodeWithRM hwf isOpcode_of fun ov hi lo l => decodeGroup6_digit ..
  | lmsw src => exact readAs_encodeWithRM hwf isOpcode_of fun ov hi lo l => decodeGroup7_digit ..
  | ltr src => exact readAs_encodeWithRM hwf isOpcode_of fun ov hi lo l => decodeGroup6_digit ..
  | str dst => exact readAs_encodeWithRM hwf isOpcode_of fun ov hi lo l => decodeGroup6_digit ..
  | movFromCr dst n => exact readAs_special (f := fun n r => .movFromCr r n) fun mb l => rfl
  | movToCr n src => exact readAs_special fun mb l => rfl
  | movFromDr dst n => exact readAs_special (f := fun n r => .movFromDr r n) fun mb l => rfl
  | movToDr n src => exact readAs_special fun mb l => rfl
  | movFromTr dst n => exact readAs_special (f := fun n r => .movFromTr r n) fun mb l => rfl
  | movToTr n src => exact readAs_special fun mb l => rfl
  | arpl dst src => exact readAs_encodeWithReg (f := fun r x => .arpl x r) hwf isOpcode_of fun ov mb l => rfl
  | lar dst src => exact readAs_encodeWithReg hwf isOpcode_of fun ov mb l => rfl
  | lsl dst src => exact readAs_encodeWithReg hwf isOpcode_of fun ov mb l => rfl
  | verr src => exact readAs_encodeWithRM hwf isOpcode_of fun ov hi lo l => decodeGroup6_digit ..
  | verw src => exact readAs_encodeWithRM hwf isOpcode_of fun ov hi lo l => decodeGroup6_digit ..

theorem decode_of_ok {l rest : List Byte} {i : Instr} (h : decodeFrom none false l = .ok i rest) :
    decode l = .instr i (l.length - rest.length) := by
  unfold decode
  rw [h]

theorem decode_of_ud {l rest : List Byte} (h : decodeFrom none false l = .error .ud rest) : decode l = .ud := by
  unfold decode
  rw [h]

theorem decode_of_refused {l rest : List Byte} {why : DecodeRefusal}
    (h : decodeFrom none false l = .error (.refused why) rest) : decode l = .refused why := by
  unfold decode
  rw [h]

/-- Settles O2, from `readAs_encode`. -/
theorem decodeEncode : Obligations.DecodeEncode := by
  intro i rest hwf
  rw [decode_of_ok (readAs_encode i hwf false rest), List.length_append, Nat.add_sub_cancel]

/-- Without LOCK, an opcode that stops stops the decoding. -/
theorem decodeFrom_stop {op : Byte} {l rest : List Byte} {e : DecodeStop} (hop : IsOpcode op)
    (h : decodeOpcode none op l = .error e rest) : decodeFrom none false (op :: l) = .error e rest :=
  (decodeFrom_opcode hop.1 hop.2 l).trans h

/-- Settles O4, from `readAs_encode` after LOCK and the digits of the groups. -/
theorem prefixesAndReservedEncodings : Obligations.PrefixesAndReservedEncodings := by
  refine ⟨fun i rest hwf => ?_, fun _ => rfl, fun _ => rfl, fun _ => rfl, fun _ => rfl,
    fun hi lo rest => ⟨?_, ?_, ?_, ?_, ?_, ?_⟩⟩
  · exact decode_of_ud ((decodeFrom_lock rfl rfl _).trans (readAs_encode i hwf true rest))
  · rintro _ (rfl | rfl) <;> exact decode_of_ud (decodeFrom_stop isOpcode_of (decodeGroup6_digit ..))
  · rintro _ (rfl | rfl) <;> exact decode_of_ud (decodeFrom_stop isOpcode_of (decodeGroup7_digit ..))
  · exact decode_of_ud (decodeFrom_stop isOpcode_of (decodeGroup5_digit ..))
  · exact decode_of_refused (decodeFrom_stop isOpcode_of (decodeGroup6_digit ..))
  · rintro _ (rfl | rfl | rfl) <;>
      exact decode_of_refused (decodeFrom_stop isOpcode_of (decodeGroup7_digit ..))
  · rintro _ (rfl | rfl | rfl) <;>
      exact decode_of_refused (decodeFrom_stop isOpcode_of (decodeGroup5_digit ..))

/-- Settles O1: fixed words, evaluated. -/
theorem decodesSpecWords : Obligations.DecodesSpecWords :=
  ⟨rfl, rfl, rfl, rfl, rfl, rfl, rfl, rfl, rfl, rfl, rfl, rfl⟩

/-! ## What a decoding has read (R142) -/

/-- The reader answers `a` at `l` from at least `k` bytes, which `rest` comes after, and looks no further. -/
def Taken {α : Type} (k : Nat) (P : Parse α) (a : α) (l rest : List Byte) : Prop :=
  ∃ taken, l = taken ++ rest ∧ k ≤ taken.length ∧ ∀ r, P (taken ++ r) = .ok a r

/-- Wherever the reader answers, it takes at least `k` bytes and answers a value with the property `Q`. -/
structure Takes {α : Type} (k : Nat) (Q : α → Prop) (P : Parse α) : Prop where
  of_ok : ∀ {l a rest}, P l = .ok a rest → Q a ∧ Taken k P a l rest

section Combinators

variable {α β : Type} {P : Parse α} {f : α → Parse β} {Q : α → Prop} {R : β → Prop} {j k n : Nat}

theorem parse_bind_inv {l rest : List Byte} {b : β} (h : (P >>= f) l = .ok b rest) :
    ∃ a mid, P l = .ok a mid ∧ f a mid = .ok b rest := by
  cases hP : P l with
  | ok a mid => exact ⟨a, mid, rfl, (parse_bind_ok hP).symm.trans h⟩
  | error e mid => cases (parse_bind_error (f := f) hP).symm.trans h

theorem Taken.weaken {a : α} {l rest : List Byte} (h : Taken k P a l rest) (hj : j ≤ k) :
    Taken j P a l rest := by
  obtain ⟨taken, hl, hk, hrun⟩ := h
  exact ⟨taken, hl, Nat.le_trans hj hk, hrun⟩

theorem Takes.weaken (h : Takes k Q P) (hj : j ≤ k) : Takes j Q P :=
  ⟨fun hP => ⟨(h.of_ok hP).1, (h.of_ok hP).2.weaken hj⟩⟩

theorem takes_pure {a : α} (h : Q a) : Takes 0 Q (pure a) :=
  ⟨by rintro l _ _ ⟨⟩; exact ⟨h, [], rfl, Nat.le_refl 0, fun r => rfl⟩⟩

theorem takes_stop (e : DecodeStop) : Takes k Q (parseStop e) := ⟨by rintro l _ _ ⟨⟩⟩

theorem takes_nextByte : Takes 1 (fun _ => True) nextByte :=
  ⟨by rintro (_ | ⟨b, l⟩) _ _ ⟨⟩; exact ⟨trivial, [b], rfl, Nat.le_refl 1, fun r => rfl⟩⟩

theorem takes_bind (hP : Takes k Q P) (hf : ∀ a, Q a → Takes n R (f a)) : Takes (k + n) R (P >>= f) :=
  ⟨fun h => by
    obtain ⟨a, mid, ha, hb⟩ := parse_bind_inv h
    obtain ⟨hQ, taken, rfl, hk, hrun⟩ := hP.of_ok ha
    obtain ⟨hR, taken', rfl, hn, hrun'⟩ := (hf a hQ).of_ok hb
    refine ⟨hR, taken ++ taken', (List.append_assoc ..).symm, ?_, fun r => ?_⟩
    · rw [List.length_append]
      exact Nat.add_le_add hk hn
    · rw [List.append_assoc, parse_bind_ok (hrun _), hrun']⟩

theorem takes_map {g : α → β} (hP : Takes k Q P) (hg : ∀ a, Q a → R (g a)) :
    Takes k R (do let a ← P; pure (g a)) := takes_bind hP fun a ha => takes_pure (hg a ha)

theorem expectBytes_inv {l mid : List Byte} {u : Unit} (h : expectBytes n l = .ok u mid) : mid = l := by
  unfold expectBytes at h
  split at h <;> cases h
  rfl

/-- Asking for bytes that are taken anyway changes nothing. -/
theorem takes_expectBytes (hP : Takes n Q P) : Takes n Q (do expectBytes n; P) := ⟨fun h => by
  obtain ⟨u, mid, he, ha⟩ := parse_bind_inv h
  rw [expectBytes_inv he] at ha
  obtain ⟨hQ, taken, rfl, hn, hrun⟩ := hP.of_ok ha
  refine ⟨hQ, taken, rfl, hn, fun r => ?_⟩
  rw [parse_bind_ok (expectBytes_ok (by rw [List.length_append]; omega)), hrun]⟩

theorem takes_ite {c : Prop} [Decidable c] {P' : Parse α} (hP : c → Takes k Q P) (hP' : ¬c → Takes k Q P') :
    Takes k Q (if c then P else P') := by
  split
  · next h => exact hP h
  · next h => exact hP' h

end Combinators

theorem takes_nextWord : Takes 2 (fun _ => True) nextWord :=
  takes_expectBytes <| takes_bind takes_nextByte fun _ _ => takes_map takes_nextByte fun _ h => h

theorem takes_nextDword : Takes 4 (fun _ => True) nextDword :=
  takes_expectBytes <| takes_bind takes_nextByte fun _ _ => takes_bind takes_nextByte fun _ _ =>
    takes_bind takes_nextByte fun _ _ => takes_map takes_nextByte fun _ h => h

theorem takes_nextFarPointer : Takes 6 (fun _ => True) nextFarPointer :=
  takes_expectBytes <| takes_bind takes_nextDword fun _ _ => takes_map takes_nextWord fun _ h => h

theorem takes_nextDisp (mode : BitVec 2) (base : Option Reg) :
    Takes (dispLength mode) (fun _ => True) (nextDisp mode base) := by
  unfold nextDisp dispLength
  refine takes_ite (fun h1 => ?_) fun h1 => takes_ite (fun h2 => ?_) fun h2 => ?_
  · rw [if_pos h1]
    exact takes_map takes_nextByte fun _ h => h
  · rw [if_neg h1, if_pos h2]
    exact takes_nextDword
  · rw [if_neg h1, if_neg h2]
    exact takes_ite (fun _ => takes_nextDword.weaken (Nat.zero_le 4)) fun _ => takes_pure trivial

theorem indexOfSib_ne_esp {sb : Byte} {r : Reg} {scale : BitVec 2} (h : indexOfSib sb = some (r, scale)) :
    r ≠ .esp := by
  unfold indexOfSib at h
  split at h
  · cases h
  · next h4 =>
    cases h
    exact fun hr => h4 ((bitsOfReg_regOfBits _).symm.trans (congrArg bitsOfReg hr))

theorem memOperand_sib_wf (seg : SegName) (base : Option Reg) (sb : Byte) (d : Dword) :
    (MemOperand.mk seg base (indexOfSib sb) d).wf = true := by
  unfold MemOperand.wf
  cases h : indexOfSib sb with
  | none => rfl
  | some p => exact bne_iff_ne.mpr (indexOfSib_ne_esp h)

theorem takes_nextMemOperand (ov : Option SegName) (mode : BitVec 2) (rm : BitVec 3) :
    Takes 0 (fun m => m.wf = true) (nextMemOperand ov mode rm) := by
  refine takes_ite (fun _ => ?_) fun _ => ?_
  · refine Takes.weaken ?_ (Nat.zero_le (1 + dispLength mode))
    exact takes_expectBytes <| takes_bind takes_nextByte fun sb _ => takes_map (takes_nextDisp ..)
      fun _ _ => memOperand_sib_wf ..
  · refine Takes.weaken ?_ (Nat.zero_le (dispLength mode))
    exact takes_map (takes_nextDisp ..) fun _ _ => rfl

theorem takes_nextRM (ov : Option SegName) (mb : Byte) : Takes 0 (fun x => x.wf = true) (nextRM ov mb) :=
  takes_ite (fun _ => takes_pure rfl) fun _ => takes_map (takes_nextMemOperand ..) fun _ h => h

/-- The instruction that is read is well formed, and what was read told its length. -/
abbrev TakesInstr (P : Parse Instr) : Prop := Takes 0 (fun i => i.wf = true) P

theorem takesInstr_stop (e : DecodeStop) : TakesInstr (parseStop e) := takes_stop e

theorem takesInstr_pure {i : Instr} (h : i.wf = true := by rfl) : TakesInstr (pure i) :=
  takes_pure (Q := fun i : Instr => i.wf = true) h

/-- An instruction with one immediate operand. -/
theorem takesInstr_map {α : Type} {k : Nat} {P : Parse α} {f : α → Instr} (hP : Takes k (fun _ => True) P)
    (hf : ∀ a, (f a).wf = true := by intro _; rfl) : TakesInstr (do let a ← P; pure (f a)) :=
  (takes_map hP fun a _ => hf a).weaken (Nat.zero_le k)

theorem takesInstr_operand {ov : Option SegName} {mb : Byte} {f : RM → Instr}
    (hf : ∀ x, (f x).wf = x.wf := by intro _; rfl) : TakesInstr (do let x ← nextRM ov mb; pure (f x)) :=
  takes_map (takes_nextRM ov mb) fun x hx => (hf x).trans hx

theorem takesInstr_byte {f : Byte → Parse Instr} (hf : ∀ b, TakesInstr (f b)) : TakesInstr (nextByte >>= f) :=
  (takes_bind takes_nextByte fun b _ => hf b).weaken (Nat.zero_le 1)

/-- An instruction of a ModRM byte and its operand. -/
theorem takesInstr_modrm {ov : Option SegName} {f : Byte → RM → Instr}
    (hf : ∀ mb x, (f mb x).wf = x.wf := by intro _ _; rfl) :
    TakesInstr (do let mb ← nextByte; let x ← nextRM ov mb; pure (f mb x)) :=
  takesInstr_byte fun mb => takesInstr_operand (hf mb)

theorem takesInstr_decodeGroup6 (ov : Option SegName) : TakesInstr (decodeGroup6 ov) := by
  refine takesInstr_byte fun mb => ?_
  split
  exacts [takesInstr_stop _, takesInstr_operand, takesInstr_operand, takesInstr_operand, takesInstr_operand,
    takesInstr_operand, takesInstr_stop _]

theorem takesInstr_decodeGroup7 (ov : Option SegName) : TakesInstr (decodeGroup7 ov) := by
  refine takesInstr_byte fun mb => ?_
  split
  exacts [takesInstr_stop _, takesInstr_stop _, takesInstr_operand, takesInstr_operand, takesInstr_stop _,
    takesInstr_operand, takesInstr_stop _]

theorem takesInstr_decodeGroup5 (ov : Option SegName) : TakesInstr (decodeGroup5 ov) := by
  refine takesInstr_byte fun mb => ?_
  split
  exacts [takesInstr_operand, takesInstr_operand, takesInstr_operand, takesInstr_operand, takesInstr_stop _,
    takesInstr_stop _]

theorem takesInstr_decodeTwoByte (ov : Option SegName) : TakesInstr (decodeTwoByte ov) := by
  refine takesInstr_byte fun op => ?_
  split
  exacts [takesInstr_decodeGroup6 _, takesInstr_decodeGroup7 _, takesInstr_modrm, takesInstr_modrm,
    takesInstr_pure, takesInstr_map takes_nextByte, takesInstr_map takes_nextByte,
    takesInstr_map takes_nextByte, takesInstr_map takes_nextByte, takesInstr_map takes_nextByte,
    takesInstr_map takes_nextByte, takesInstr_stop _]

theorem takesInstr_decodeOpcode (ov : Option SegName) (op : Byte) : TakesInstr (decodeOpcode ov op) := by
  unfold decodeOpcode
  split
  exacts [takesInstr_decodeTwoByte _, takesInstr_modrm, takesInstr_stop _, takesInstr_stop _, takesInstr_modrm,
    takesInstr_map takes_nextFarPointer, takesInstr_map takes_nextWord, takesInstr_pure,
    takesInstr_map takes_nextWord, takesInstr_pure, takesInstr_map takes_nextByte, takesInstr_pure,
    takesInstr_map takes_nextDword, takesInstr_map takes_nextDword, takesInstr_map takes_nextFarPointer,
    takesInstr_map takes_nextByte, takesInstr_stop _, takesInstr_stop _, takesInstr_pure,
    takesInstr_decodeGroup5 _, takesInstr_stop _]

theorem Taken.cons {α : Type} {P P' : Parse α} {k : Nat} {a : α} {b : Byte} {l rest : List Byte}
    (h : Taken k P' a l rest) (hrun : ∀ r, P (b :: r) = P' r) : Taken (k + 1) P a (b :: l) rest := by
  obtain ⟨taken, rfl, hk, hok⟩ := h
  exact ⟨b :: taken, rfl, Nat.succ_le_succ hk, fun r => (hrun _).trans (hok r)⟩

theorem lockStop_ne_ok {α : Type} {P : Parse α} {a : α} {l rest : List Byte} :
    lockStop P l ≠ .ok a rest := by
  intro h
  unfold lockStop at h
  split at h <;> cases h

/-- Overrides, LOCK and the opcode: one byte at least is taken. -/
theorem takes_decodeFrom (ov : Option SegName) (lock : Bool) :
    Takes 1 (fun i => i.wf = true) (decodeFrom ov lock) := ⟨fun {l i rest} h => by
  induction l generalizing ov lock with
  | nil => cases h
  | cons b l ih =>
    cases hov : overrideOf b with
    | some seg =>
      rw [decodeFrom_override hov] at h
      obtain ⟨hwf, htaken⟩ := ih (some seg) lock h
      exact ⟨hwf, (htaken.cons (decodeFrom_override hov)).weaken (Nat.le_succ 1)⟩
    | none =>
      by_cases hb : b = 0xF0
      · rw [decodeFrom_lock hov hb] at h
        obtain ⟨hwf, htaken⟩ := ih ov true h
        exact ⟨hwf, (htaken.cons (decodeFrom_lock hov hb)).weaken (Nat.le_succ 1)⟩
      · have hrun := decodeFrom_opcode (override := ov) (lock := lock) hov hb
        rw [hrun] at h
        cases lock with
        | true => exact absurd h lockStop_ne_ok
        | false =>
          obtain ⟨hwf, htaken⟩ := (takesInstr_decodeOpcode ov b).of_ok h
          exact ⟨hwf, htaken.cons hrun⟩⟩

/-- An instruction is the reading of its own bytes, and it is well formed. -/
theorem decode_instr_inv {l : List Byte} {i : Instr} {n : Nat} (h : decode l = .instr i n) :
    0 < n ∧ n ≤ l.length ∧ i.wf = true ∧ ∀ r, decode (l.take n ++ r) = .instr i n := by
  unfold decode at h
  cases hl : decodeFrom none false l with
  | error e rest => rw [hl] at h; cases e <;> cases h
  | ok j rest =>
    rw [hl] at h
    cases h
    obtain ⟨hwf, taken, rfl, hpos, hrun⟩ := (takes_decodeFrom none false).of_ok hl
    have hlen : (taken ++ rest).length - rest.length = taken.length := by simp
    rw [hlen, List.take_left]
    refine ⟨hpos, by simp, hwf, fun r => ?_⟩
    rw [decode_of_ok (hrun r), List.length_append, Nat.add_sub_cancel]

/-- Settles O3, from `decode_instr_inv` and `decode_prefix_of_instr`: fewer bytes are the first of its own. -/
theorem decodeUsesItsOwnBytes : Obligations.DecodeUsesItsOwnBytes := by
  intro bytes i n h
  obtain ⟨hpos, hle, hwf, hown⟩ := decode_instr_inv h
  refine ⟨hpos, hle, hwf, hown, fun k hk => ?_⟩
  have hsplit : bytes.take k ++ (bytes.take n).drop k = bytes.take n := by
    have htake : (bytes.take n).take k = bytes.take k := by rw [List.take_take, Nat.min_eq_left hk.le]
    rw [← htake, List.take_append_drop]
  have hrest : ((bytes.take n).drop k).length = n - k := by simp [hle]
  have hn : (bytes.take n).length = n := List.length_take_of_le hle
  have hdec : decode (bytes.take k ++ (bytes.take n).drop k) =
      .instr i (bytes.take k ++ (bytes.take n).drop k).length := by
    rw [hsplit, hn, ← hown [], List.append_nil]
  obtain ⟨m, hm, hm0, hmle⟩ := decode_prefix_of_instr hdec (List.ne_nil_of_length_pos (by omega))
  exact ⟨m, hm, hm0, by omega⟩

end Sys2Proof

namespace Sys2Proof.Machine

open Sys2Proof

/-! ## LGDT and LIDT (R233, R234) -/

theorem readTableOperand_mem (m : MemOperand) (s : State) : readTableOperand (.mem m) s =
    (do
      let limit ← segReadWord m.seg (effectiveOffset s.regs m)
      let base ← segReadDword m.seg (effectiveOffset s.regs m + 2)
      pure (TableReg.mk base limit) : Exec TableReg) s := rfl

/-- At CPL 0, LGDT and LIDT end as the reading of their operand does. -/
theorem exec_loadTable (s : State) (x : RM) (h : s.cpl = 0) :
    exec (.lgdt x) s = outcomeOf (readTableOperand x s) (fun table v =>
      .next { v with gdtr := table, eip := v.nextEip }) ∧
    exec (.lidt x) s = outcomeOf (readTableOperand x s) (fun table v =>
      .next { v with idtr := table, eip := v.nextEip }) := by
  constructor
  all_goals
    refine (conclude_privileged h).trans ?_
    rw [conclude_eq_outcomeOf, outcomeOf_bind]
    rfl

/-- Settles O47, from `exec_loadTable` and how the operand is read. -/
theorem loadTableRegisters : Obligations.LoadTableRegisters := by
  intro s u v m r limit base hcpl
  obtain ⟨hgdt, hidt⟩ := exec_loadTable s (.mem m) hcpl
  refine ⟨(exec_loadTable s (.reg r) hcpl).1, (exec_loadTable s (.reg r) hcpl).2, fun e h => ?_,
    fun e h hb => ?_, fun h hb => ?_⟩
  · rw [hgdt, hidt, readTableOperand_mem, run_bind_error h]
    exact ⟨rfl, rfl⟩
  · rw [hgdt, hidt, readTableOperand_mem, run_bind_ok h, run_bind_error hb]
    exact ⟨rfl, rfl⟩
  · have htable : readTableOperand (.mem m) s = .ok ⟨base, limit⟩ v := by
      rw [readTableOperand_mem, run_bind_ok h, run_bind_ok hb, run_pure]
    have hread : s.ReadTo v := (reads_readTableOperand (.mem m)).of_ok htable
    rw [hgdt, hidt, htable, ← hread.nextEip]
    exact ⟨hread, rfl, rfl⟩

end Sys2Proof.Machine

namespace Sys2Proof.Machine

open Sys2Proof

/-! ## Control enters a code segment at the current level (R172, R189) -/

section Entered

variable {s v t : State} {sel : Word} {d : Desc} {target esp : Dword} {cells : List Host.Cell}
  {ps : List Nat}

/-- What the entry does, said of the state before the reads that led to it. -/
theorem enteredCode_after_read (h : s.ReadTo v) (ht : EnteredCode sel d target cells esp v ps t) :
    t.cpl = s.cpl ∧ t.eip = target ∧
      t.segs = { s.segs with cs := cacheOf (sel.extractLsb' 2 14 ++ s.cpl) d } ∧
      t.regs = { s.regs with esp := esp } ∧
      s.StoredTo ps { t with segs := s.segs, regs := s.regs, eip := s.eip } := by
  obtain ⟨hst, hcpl, heip, hregs, -, hsegs⟩ := enteredCode_storedTo ht
  rw [h.segs, h.regs, h.eip] at hst
  rw [h.segs, h.cpl] at hsegs
  rw [h.regs] at hregs
  exact ⟨hcpl.trans h.cpl, heip, hsegs, hregs, hst.after_read h⟩

/-- The pushed bytes are in memory after the entry, and the accessed bit has not overwritten one. -/
theorem enteredCode_mem_read (ht : EnteredCode sel d target cells esp v ps t) (hwf : v.mem.wf = true)
    (hps : ps.Nodup) {c : Host.Cell} (hc : c ∈ cells) : t.mem.read c.1 = c.2 := by
  obtain ⟨mark, u, -, hmark, rfl, rfl⟩ := ht
  have hmem : u.mem = v.mem := ((reads_prepareAccessed ..).of_ok hmark).mem
  exact Memory.read_writeAll_same (cells ++ mark) (hmem ▸ hwf) hps (List.mem_append_left mark hc)

/-- The bytes of a push, from the new ESP on: those of the doubleword pushed last come first. -/
theorem pushPrepared_bytes {vs : List Dword} (h : PushPrepared s vs cells v) :
    cells.map (·.2) = vs.reverse.flatMap dwordBytes := by
  obtain ⟨lin, qs, -, htr, rfl⟩ := h
  exact List.map_snd_zip (by rw [translateRange_length htr, flatMap_dwordBytes_reverse_length])

end Entered

/-! ## Far transfers that complete at their level (R190, R191, R200, R201) -/

section SameLevelCompletes

variable {s v w t : State} {i : Instr} {sel : Word} {off : Dword} {d : Desc} {cells : List Host.Cell}
  {ps : List Nat}

theorem exec_sameLevel_jmp (hi : SameLevelOperand .jmp i s sel off d v) (hp : d.present = true)
    (hlim : off.toNat ≤ d.effLimit.toNat) (ht : EnteredCode sel d off [] s.regs.esp v ps t) :
    exec i s = .next t := by
  rw [exec_sameLevel hi]
  refine conclude_ok ?_
  rw [sameLevelTransfer_jmp hp hlim, (sameLevelOperand_readTo hi).regs, enterCode_of_entered ht]

theorem exec_sameLevel_call (hi : SameLevelOperand .call i s sel off d v) (hp : d.present = true)
    (hlim : off.toNat ≤ d.effLimit.toNat) (hpush : PushPrepared v s.farReturnPointer cells w)
    (ht : EnteredCode sel d off cells (s.regs.esp - 8) w ps t) : exec i s = .next t := by
  have hv := sameLevelOperand_readTo hi
  rw [exec_sameLevel hi]
  refine conclude_ok ?_
  rw [sameLevelTransfer_call hp hlim, hv.farReturnPointer,
    pushAndEnter_of_push (preparePush_of_pushPrepared hpush), hv.regs]
  exact enterCode_of_entered ht

end SameLevelCompletes

/-- Settles O28: the operand is one of `SameLevelOperand`, and the transfer ends as `EnteredCode` says. -/
theorem farTransferToCode : Obligations.FarTransferToCode := by
  intro s u v kind i sel off d hi hn hd hc hpriv hp hlim newSegs
  have hop : SameLevelOperand kind i s sel off d v := .inl ⟨u, hi, hn, hd, hc, hpriv⟩
  have hv : s.ReadTo v := sameLevelOperand_readTo hop
  refine ⟨?_, ?_⟩
  · rintro rfl ps t ht
    obtain ⟨hcpl, heip, hsegs, hregs, hst⟩ := enteredCode_after_read hv ht
    have hkept : t.regs = s.regs := hregs
    rw [← hkept] at hst
    exact ⟨exec_sameLevel_jmp hop hp hlim ht, hcpl, heip, hsegs, hst⟩
  · rintro rfl cells ps w t hpush ht
    have hw : s.ReadTo w := hv.trans (pushPrepared_readTo hpush)
    obtain ⟨hcpl, heip, hsegs, hregs, hst⟩ := enteredCode_after_read hw ht
    exact ⟨exec_sameLevel_call hop hp hlim hpush ht, hcpl, heip, hsegs, hregs, hst,
      pushPrepared_bytes hpush, fun hwf hps c hc => enteredCode_mem_read ht (hw.mem ▸ hwf) hps hc⟩

/-! ## NullIfInaccessible (R216) -/

section NullIfInaccessible

variable {g : SegReg} {new : Level}

theorem SegReg.conformingCode_iff (g : SegReg) :
    g.conformingCode = true ↔ g.typ.getLsbD 3 = true ∧ g.typ.getLsbD 2 = true := by
  unfold SegReg.conformingCode
  rw [Bool.and_eq_true]

theorem SegReg.nullIfInaccessible_null (hv : g.valid = true) (hlt : g.dpl < new)
    (hc : ¬ g.conformingCode = true) : g.nullIfInaccessible new = g.withNull 0 := by
  unfold SegReg.nullIfInaccessible
  rw [if_pos (by simp [hv, hlt, hc])]

theorem SegReg.nullIfInaccessible_keep
    (h : g.valid = false ∨ new ≤ g.dpl ∨ g.conformingCode = true) : g.nullIfInaccessible new = g := by
  unfold SegReg.nullIfInaccessible
  rw [if_neg]
  obtain hv | hle | hc := h
  · simp [hv]
  · simp [BitVec.not_lt.mpr hle]
  · simp [hc]

end NullIfInaccessible

/-- Settles O36: what is accessible or not valid is kept, and anything else is the null selector. -/
theorem nullIfInaccessible : Obligations.NullIfInaccessible := by
  intro g new conforming
  have hconf : g.conformingCode = true ↔ conforming := g.conformingCode_iff
  have hkeep : g.valid = false ∨ new ≤ g.dpl ∨ conforming → g.nullIfInaccessible new = g := fun h =>
    SegReg.nullIfInaccessible_keep (by rwa [hconf])
  have hnull (hv : g.valid = true) (hlt : g.dpl < new) (hc : ¬ conforming) :
      g.nullIfInaccessible new = g.withNull 0 :=
    SegReg.nullIfInaccessible_null hv hlt (by rwa [hconf])
  refine ⟨fun hv hlt hc => ?_, hkeep, fun hleft => ?_⟩
  · rw [hnull hv hlt hc]
    exact ⟨SegReg.withNull_sel g 0, SegReg.withNull_valid g 0⟩
  · by_cases hacc : new ≤ g.dpl ∨ conforming
    · exact hacc
    · obtain ⟨hle, hc⟩ := not_or.mp hacc
      cases hv : g.valid with
      | false =>
        rw [hkeep (.inl hv), hv] at hleft
        exact absurd hleft Bool.false_ne_true
      | true =>
        rw [hnull hv (BitVec.not_le.mp hle) hc, SegReg.withNull_valid] at hleft
        exact absurd hleft Bool.false_ne_true

end Sys2Proof.Machine

/-! Call gates at the same level, and returns that complete. -/

namespace Sys2Proof.Machine

open Sys2Proof

/-! ## Call gates at the same level (R200, R201) -/

/-- Settles O29: the gate's target is an operand of `SameLevelOperand`, as the target of a direct transfer is. -/
theorem callGateAtSameLevel : Obligations.CallGateAtSameLevel := by
  intro s v kind i csel off g d hg hpriv hp hlim
  have hop : SameLevelOperand kind i s csel off d v := .inr ⟨⟨g, hg⟩, hpriv⟩
  have hv : s.ReadTo v := sameLevelOperand_readTo hop
  refine ⟨?_, ?_⟩
  · rintro rfl ps t ht
    obtain ⟨hcpl, heip, hsegs, hregs, hst⟩ := enteredCode_after_read hv ht
    have hkept : t.regs = s.regs := hregs
    rw [← hkept] at hst
    rw [hsegs]
    exact ⟨exec_sameLevel_jmp hop hp hlim ht, hcpl, heip, hst⟩
  · rintro rfl cells ps w t hpush ht
    have hw : s.ReadTo w := hv.trans (pushPrepared_readTo hpush)
    obtain ⟨hcpl, heip, hsegs, hregs, hst⟩ := enteredCode_after_read hw ht
    rw [hsegs]
    exact ⟨exec_sameLevel_call hop hp hlim hpush ht, hcpl, heip, hregs, hst⟩

/-! ## Returns that complete (R211, R214, R215, R216) -/

section ReturnEnds

variable {s u v w p q : State} {rcs rss : Word} {new : Level} {d sd : Desc} {reip resp rssd : Dword}
  {off size : Nat} {n : Word} {codeMark stackMark : List Host.Cell}

/-- The return CS passes rows 3 to 8 of Table 6-3 (R213). -/
theorem returnCS_ok (hrpl : s.cpl ≤ selRpl rcs) (hn : isNull rcs = false)
    (hd : readDesc rcs s = .ok (some d) u) (hc : d.isCode = true) (hp : d.present = true)
    (hpriv : if d.conforming then d.dpl ≤ selRpl rcs else d.dpl = selRpl rcs) :
    returnCS rcs s = .ok d u := by
  rw [returnCS_some hrpl hn hd, if_neg (by simp [hc]), if_neg (by simp [hp]),
    if_neg (by simp [Desc.runsAt_eq_true_iff.mpr ⟨hc, hpriv⟩])]

/-- The return SS passes rows 10 to 15 of Table 6-3 (R213). -/
theorem returnSS_ok (hn : isNull rss = false) (hd : readDesc rss s = .ok (some sd) u)
    (hw : sd.writable = true) (hp : sd.present = true) (hdpl : sd.dpl = new) (hrpl : selRpl rss = new)
    (hb : sd.big = true) : returnSS rss new s = .ok sd u := by
  rw [returnSS_some hn hd, if_neg (by simp [hw]), if_neg (by simp [hp]), if_neg (by simp [hdpl, hrpl]),
    if_pos hb]

theorem accessedStores_of_prepared (h : prepareAccessed rcs d s = .ok codeMark u) :
    accessedStores rcs d s = codeMark.map (·.1) := by
  unfold accessedStores
  rw [h]

/-- Both accessed bits of a return, checked one after the other and then stored together (entry 37). -/
theorem storedTo_two_marks (hcode : prepareAccessed rcs d w = .ok codeMark p)
    (hstack : prepareAccessed rss sd p = .ok stackMark q) :
    q.StoredTo (accessedStores rcs d w ++ accessedStores rss sd p) (q.store (codeMark ++ stackMark)) := by
  rw [accessedStores_of_prepared hcode, accessedStores_of_prepared hstack, ← List.map_append]
  exact State.storedTo_store q (codeMark ++ stackMark)

/-- The state after a return to an outer level: CS:EIP, SS:ESP, CPL and step 3 (R214 to R216). -/
def State.returnedOuter (s : State) (rcs : Word) (d : Desc) (rss : Word) (sd : Desc) (esp reip : Dword) :
    State :=
  (((s.withCS rcs d (selRpl rcs)).withStack rss sd esp).nullInaccessible (selRpl rcs)).jumpTo reip

/-- At the level of the return CS the selectors are those of the frame. -/
theorem State.returnedOuter_eq (s : State) (rcs : Word) (d : Desc) (rss : Word) (sd : Desc)
    (esp reip : Dword) : s.returnedOuter rcs d rss sd esp reip =
      { s with
        segs :=
          { cs := cacheOf rcs d
            ss := cacheOf rss sd
            ds := s.segs.ds.nullIfInaccessible (selRpl rcs)
            es := s.segs.es.nullIfInaccessible (selRpl rcs)
            fs := s.segs.fs.nullIfInaccessible (selRpl rcs)
            gs := s.segs.gs.nullIfInaccessible (selRpl rcs) }
        cpl := selRpl rcs
        regs := { s.regs with esp := esp }
        eip := reip
        storedAhead := [] } := by
  unfold State.returnedOuter State.withCS
  rw [extractLsb_append_selRpl]
  rfl

/-- The offset of the outer SS:ESP, past a frame of `k` bytes and the `n` bytes released. -/
theorem ofNat_esp_released (esp : Dword) (k : Nat) (n : Word) :
    BitVec.ofNat 32 (esp.toNat + k + n.toNat) = esp + n.zeroExtend 32 + BitVec.ofNat 32 k := by
  rw [Nat.add_right_comm, BitVec.ofNat_add, ofNat_esp_add, BitVec.ofNat_toNat]

theorem OuterFrame.readTo (h : OuterFrame off s resp rssd v) : s.ReadTo v := by
  obtain ⟨-, u, h1, h2⟩ := h
  exact ((reads_segReadDword ..).of_ok h1).trans ((reads_segReadDword ..).of_ok h2)

/-- A return to an outer level completes where its last checks pass: what it reads, what it stores, and how
it ends. -/
theorem returnRest_outer_ok (hu : s.ReadTo u) (hout : s.cpl < selRpl rcs)
    (hf : OuterFrame (s.regs.esp.toNat + size + n.toNat) u resp rssd v)
    (hss : returnSS (rssd.extractLsb' 0 16) (selRpl rcs) v = .ok sd w)
    (hlim : reip.toNat ≤ d.effLimit.toNat) (hb : d.big = true)
    (hcode : prepareAccessed rcs d w = .ok codeMark p)
    (hstack : prepareAccessed (rssd.extractLsb' 0 16) sd p = .ok stackMark q) :
    s.ReadTo q ∧
    q.StoredTo (accessedStores rcs d w ++ accessedStores (rssd.extractLsb' 0 16) sd p)
      (q.store (codeMark ++ stackMark)) ∧
    returnRest s size n rcs reip d u = .ok () ((q.store (codeMark ++ stackMark)).returnedOuter rcs d
      (rssd.extractLsb' 0 16) sd (resp + n.zeroExtend 32) reip) := by
  have hw : s.ReadTo w := (hu.trans hf.readTo).trans ((reads_returnSS ..).of_ok hss)
  have hp : s.ReadTo p := hw.trans ((reads_prepareAccessed ..).of_ok hcode)
  refine ⟨hp.trans ((reads_prepareAccessed ..).of_ok hstack), storedTo_two_marks hcode hstack, ?_⟩
  rw [returnRest_outer hout, returnOuter_of_stack hf hss, if_neg (Nat.not_lt.mpr hlim),
    if_neg (by simp [hb]), run_bind_ok hcode, run_bind_ok hstack, run_update]
  rfl

/-- A return to the same level completes likewise. -/
theorem returnRest_same_ok (hu : s.ReadTo u) (hrpl : selRpl rcs = s.cpl)
    (hlim : reip.toNat ≤ d.effLimit.toNat) (hb : d.big = true) (hset : setAccessed rcs d u = .ok () v) :
    returnRest s size n rcs reip d u = .ok () { v with
      segs := { s.segs with cs := cacheOf rcs d }
      regs := { s.regs with esp := s.regs.esp + BitVec.ofNat 32 size + n.zeroExtend 32 }
      eip := reip
      storedAhead := [] } := by
  have hst := setAccessed_storedTo hset
  have hcpl : v.cpl = u.cpl := hst.cpl
  rw [returnRest_same hrpl, returnSame_eq, if_neg (Nat.not_lt.mpr hlim), if_neg (by simp [hb]),
    run_bind_ok hset, run_update, ← hcpl, State.withCS_same_level d (by rw [hcpl, hu.cpl, hrpl]), hst.segs,
    hst.regs, hu.segs, hu.regs]
  rfl

end ReturnEnds

/-- Settles O35: the checks of the return CS and SS pass, and the return ends as `returnRest_outer_ok` says. -/
theorem farReturnToOuterLevel : Obligations.FarReturnToOuterLevel := by
  intro s u v w x y z p q i n reip csword resp ssword d e codeMark stackMark hi hl h1 h2 rcs hout hn hd hc
    hp hpriv hroom h3 h4 rss hsn hsd hsw hsp hsdpl hsrpl hsb hlim hb hcode hstack
  have hv : s.ReadTo v := ((reads_segReadDword ..).of_ok h1).trans ((reads_segReadDword ..).of_ok h2)
  have hw : s.ReadTo w := hv.trans ((reads_readDesc rcs).of_ok hd)
  have hcs : returnCS rcs v = .ok d w := returnCS_ok (hv.cpl ▸ BitVec.le_of_lt hout) hn hd hc hp hpriv
  have hss : returnSS rss (selRpl rcs) y = .ok e z := returnSS_ok hsn hsd hsw hsp hsdpl hsrpl hsb
  have hf : OuterFrame (s.regs.esp.toNat + 8 + n.toNat) w resp ssword y := by
    refine ⟨by rw [hw.segs, Nat.add_right_comm]; exact hroom, x, ?_, ?_⟩
    · exact (congrArg (segReadDword .ss · w) (ofNat_esp_released ..)).trans h3
    · rw [Nat.add_right_comm]
      exact (congrArg (segReadDword .ss · x) (ofNat_esp_released _ 12 _)).trans h4
  obtain ⟨hq, hst, hrest⟩ := returnRest_outer_ok hw hout hf hss hlim hb hcode hstack
  refine ⟨hq, hst, ?_⟩
  rw [exec_farReturn_of_frame hi hl h1 h2, hcs, outcomeOf_ok, hrest, outcomeOf_ok, State.returnedOuter_eq,
    State.store_segs, State.store_regs, hq.segs, hq.regs]

end Sys2Proof.Machine

/-! No return goes to a more privileged level. -/

namespace Sys2Proof.Machine

open Sys2Proof

/-! ## Returns go outward (R212, R364) -/

/-- From the level of `s`, `t` is at the same level or a less privileged one, and CS says which. -/
def Outward (s t : State) : Prop := s.cpl ≤ t.cpl ∧ t.cpl = selRpl t.segs.cs.sel

section Outward

variable {s u : State} {rcs : Word} {d : Desc}

theorem returnOuter_outward (reip : Dword) (off : Nat) (n : Word) (hu : Accessed s u)
    (hout : s.cpl < selRpl rcs) :
    Post (returnOuter rcs d reip off n) u (fun _ t => Outward s t) (fun _ t => Accessed s t) := by
  refine (returnOuter_post rcs d reip off n u).mono (fun _ t ht => ?_) (fun _ _ h => accessed_trans hu h)
  obtain ⟨-, v, sel, sd, esp, -, -, rfl⟩ := ht
  exact ⟨BitVec.le_of_lt hout, (selRpl_append ..).symm⟩

theorem returnSame_outward (reip esp : Dword) (hu : Accessed s u) :
    Post (returnSame rcs d reip esp) u (fun _ t => Outward s t) (fun _ t => Accessed s t) := by
  refine (returnSame_post rcs d reip esp u).mono (fun _ t ht => ?_) (fun _ _ h => accessed_trans hu h)
  obtain ⟨-, v, y, -, rfl⟩ := ht
  exact ⟨hu.cpl ▸ BitVec.le_refl _, (selRpl_append ..).symm⟩

/-- A piece that only reaches memory, and what follows it. -/
theorem post_accessed_bind {α β : Type} {m : Exec α} {f : α → Exec β} {Q : β → State → Prop}
    (hm : Keeps Accessed m) (hu : Accessed s u)
    (hf : ∀ a t, Accessed s t → Post (f a) t Q (fun _ t => Accessed s t)) :
    Post (m >>= f) u Q (fun _ t => Accessed s t) :=
  post_seq (accessed_post hm hu) hf (fun _ _ h => h)

theorem farReturn_outward (n : Word) (s : State) :
    Post (farReturn n) s (fun _ t => Outward s t) (fun _ t => Accessed s t) := by
  have ha := allowsAccess_accessed
  refine post_getState_bind <| post_check (post_raise (accessed_refl s)) fun _ =>
    post_accessed_bind (keeps_segReadDword ha ..) (accessed_refl s) fun reip u hu =>
    post_accessed_bind (keeps_segReadDword ha ..) hu fun rcsd v hv =>
    post_accessed_bind (keeps_returnCS ha ..) hv fun d w hw => ?_
  exact post_ite (returnOuter_outward _ _ _ hw) fun _ => returnSame_outward _ _ hw

theorem interruptReturn_outward (s : State) :
    Post interruptReturn s (fun _ t => Outward s t) (fun _ t => Accessed s t) := by
  have ha := allowsAccess_accessed
  refine post_getState_bind <| post_check (post_raise (accessed_refl s)) fun _ =>
    post_accessed_bind (keeps_segReadDword ha ..) (accessed_refl s) fun reip u hu =>
    post_accessed_bind (keeps_segReadDword ha ..) hu fun rcsd v hv =>
    post_accessed_bind (keeps_segReadDword ha ..) hv fun image w hw =>
    post_accessed_bind (keeps_returnCS ha ..) hw fun d x hx =>
    post_check (post_refuse hx) fun _ => ?_
  exact post_ite
    (fun hout => post_seq (returnOuter_outward _ _ _ hx hout) (fun _ _ h => post_update h) fun _ _ h => h)
    fun _ => post_seq (returnSame_outward _ _ hx) (fun _ _ h => post_update h) fun _ _ h => h

/-- With `deliver_exceptions` false, a meaning that ends in a next state answered: its stops leave that
parameter as it was, and an exception then ends the run (R355). -/
theorem conclude_next_answers {m : Exec Unit} {t : State} {Q : Unit → State → Prop}
    (hm : Post m s Q (fun _ t => Accessed s t)) (hd : s.deliverExceptions = false)
    (h : conclude m s = .next t) : Q () t := by
  rw [conclude_eq_outcomeOf] at h
  cases hr : m s with
  | ok a u =>
    rw [hr, outcomeOf_ok] at h
    cases h
    exact hm.of_ok hr
  | error e u =>
    have hu : u.deliverExceptions = false := (hm.of_error hr).deliverExceptions.trans hd
    rw [hr] at h
    cases e with
    | exc x =>
      rw [outcomeOf_exc, takeException_undelivered x hu, State.endRun_eq] at h
      split at h <;> cases h
    | refuse r => cases h

end Outward

/-- Settles O38: where a return answers, it ends at the RPL of the CS that it loads. -/
theorem returnsGoOutward : Obligations.ReturnsGoOutward := by
  intro s t i hd hi h
  have hfar {n : Word} (hret : i = .retf ∧ n = 0 ∨ i = .retfImm n) : Outward s t :=
    conclude_next_answers (farReturn_outward n s) hd (exec_farReturn hret ▸ h)
  obtain rfl | ⟨n, rfl⟩ | ⟨rfl, hnt⟩ := hi
  · exact hfar (.inl ⟨rfl, rfl⟩)
  · exact hfar (.inr rfl)
  · exact conclude_next_answers (interruptReturn_outward s) hd (exec_iret_nt_clear hnt ▸ h)

end Sys2Proof.Machine

namespace Sys2Proof.Laws

open Sys2Proof Sys2Proof.Machine

/-! ## IRET with NT = 0 (R292, R358) -/

/-- Settles O39: the return ends as a far return does, to the same level or to an outer one, and then the
flags are loaded. -/
theorem interruptReturn : Obligations.InterruptReturn := by
  intro s u v w x reip csword image d hnt hl h1 h2 h3 rcs hn hd hc hp hpriv hb hvm hlim
  have hw : s.ReadTo w := (((reads_segReadDword ..).of_ok h1).trans ((reads_segReadDword ..).of_ok h2)).trans
    ((reads_segReadDword ..).of_ok h3)
  have hx : s.ReadTo x := hw.trans ((reads_readDesc rcs).of_ok hd)
  have hexec (hle : s.cpl ≤ selRpl rcs) : exec .iret s =
      outcomeOf (returnRest s 12 0 rcs reip d x) fun _ t =>
        .next { t with eflags := flagsAfterIret t.eflags image s.cpl } := by
    rw [exec_iret_of_frame hnt hl h1 h2 h3, returnCS_ok (hw.cpl ▸ hle) hn hd hc hp hpriv, outcomeOf_ok,
      if_neg hvm]
  have hrelease (esp : Dword) : esp + (0 : Word).zeroExtend 32 = esp := BitVec.add_zero _
  refine ⟨?_, ?_⟩
  · intro y hrpl hset
    have hst := setAccessed_storedTo hset
    have hflags : y.eflags = s.eflags := hst.eflags.trans hx.eflags
    refine ⟨hx, hst, ?_⟩
    rw [hexec (hrpl ▸ BitVec.le_refl _), returnRest_same_ok hx hrpl hlim hb hset, outcomeOf_ok, hrelease,
      hflags]
    rfl
  · intro y z p q r resp ssword e codeMark stackMark hout hroom h4 h5 rss hsn hsd hsw hsp hsdpl hsrpl hsb
      hcode hstack
    have hss : returnSS rss (selRpl rcs) z = .ok e p := returnSS_ok hsn hsd hsw hsp hsdpl hsrpl hsb
    have hf : OuterFrame (s.regs.esp.toNat + 12 + (0 : Word).toNat) x resp ssword z := by
      refine ⟨by rw [hx.segs]; exact hroom, y, ?_, ?_⟩
      · exact (congrArg (segReadDword .ss · x) (ofNat_esp_add _ 12)).trans h4
      · exact (congrArg (segReadDword .ss · y) (ofNat_esp_add _ 16)).trans h5
    obtain ⟨hr, hst, hrest⟩ := returnRest_outer_ok hx hout hf hss hlim hb hcode hstack
    refine ⟨hr, hst, ?_⟩
    rw [hexec (BitVec.le_of_lt hout), hrest, outcomeOf_ok, State.returnedOuter_eq, State.store_segs,
      State.store_regs, State.store_eflags, hr.segs, hr.regs, hr.eflags, hrelease]

end Sys2Proof.Laws

/-! Near JMP, CALL and RET. -/

namespace Sys2Proof.Machine

open Sys2Proof

/-! ## The offset of a memory operand (R144) -/

/-- The parts are added modulo 2^32, and a part that is left out counts as 0. -/
theorem effectiveOffset_toNat (x : Regs) (m : MemOperand) : (effectiveOffset x m).toNat =
    (m.base.elim 0 (fun b => (x.get b).toNat) +
      m.index.elim 0 (fun i => (x.get i.1).toNat * 2 ^ i.2.toNat) + m.disp.toNat) % 2 ^ 32 := by
  obtain ⟨seg, base, index, disp⟩ := m
  unfold effectiveOffset
  rw [BitVec.toNat_add, BitVec.toNat_add]
  cases base with
  | none =>
    cases index with
    | none => simp
    | some i => simp [Nat.shiftLeft_eq]
  | some b =>
    cases index with
    | none => simp
    | some i => simp [Nat.shiftLeft_eq]

/-! ## The target and the end of a near transfer (R181, R182) -/

section Near

variable {s u : State} {target : Dword}

theorem nearTarget_ok (h : target.toNat ≤ s.segs.cs.limit.toNat) : nearTarget target s = .ok () s := by
  unfold nearTarget
  rw [run_bind_getState, run_ite, if_pos (targetOK_eq_true_iff.mpr h), run_pure]

theorem nearTarget_raises (h : s.segs.cs.limit.toNat < target.toNat) :
    nearTarget target s = .error (.exc (.gp 0)) s := by
  unfold nearTarget
  rw [run_bind_getState, run_ite, if_neg (by simp [targetOK_eq_false_iff.mpr h]), run_raise]

/-- What follows the target check runs where the target lies within the limit of CS. -/
theorem conclude_nearTarget (target : Dword) (k : Unit → Exec Unit) (s : State) :
    conclude (nearTarget target >>= k) s =
      if target.toNat ≤ s.segs.cs.limit.toNat then conclude (k ()) s else takeException (.gp 0) s := by
  by_cases h : target.toNat ≤ s.segs.cs.limit.toNat
  · rw [if_pos h, conclude_bind_ok (nearTarget_ok h)]
  · rw [if_neg h, conclude_bind_exc (nearTarget_raises (Nat.not_le.mp h))]

/-! ## JMP (R182, R183) -/

theorem conclude_nearJump (target : Dword) (s : State) : conclude (nearJump target) s =
    if target.toNat ≤ s.segs.cs.limit.toNat then .next (s.jumpTo target) else takeException (.gp 0) s :=
  conclude_nearTarget ..

/-! ## CALL (R184, R185) -/

/-- The push of a near CALL and the jump, after its target check. -/
theorem conclude_nearCall (target : Dword) (s : State) : conclude (nearCall target) s =
    if target.toNat ≤ s.segs.cs.limit.toNat then
      outcomeOf (pushAll [s.nextEip] s) fun _ t => .next (t.jumpTo target)
    else takeException (.gp 0) s := by
  refine (conclude_nearTarget ..).trans (if_congr Iff.rfl ?_ rfl)
  exact conclude_bind_update (m := pushAll [s.nextEip]) (f := (·.jumpTo target))

/-- Both near CALLs end as `nearCall` does, once the target is known. -/
theorem exec_nearCall {i : Instr}
    (h : (∃ rel, i = .callRel32 rel ∧ target = s.nextEip + rel ∧ u = s) ∨
      (∃ x, i = .callRm x ∧ readRM32 x s = .ok target u)) :
    s.ReadTo u ∧ exec i s = conclude (nearCall target) u := by
  obtain ⟨rel, rfl, rfl, rfl⟩ | ⟨x, rfl, hx⟩ := h
  · exact ⟨.refl u, rfl⟩
  · exact ⟨(reads_readRM32 x).of_ok hx, conclude_bind_ok hx⟩

/-! ## RET (R186) -/

theorem exec_nearReturn {i : Instr} {n : Word} (h : i = .ret ∧ n = 0 ∨ i = .retImm n) :
    exec i s = conclude (nearReturn n) s := by
  obtain ⟨rfl, rfl⟩ | rfl := h <;> rfl

/-- A near RET whose return offset reads: the target check, then ESP and EIP. -/
theorem conclude_nearReturn {n : Word} (h : segReadDword .ss s.regs.esp s = .ok target u) :
    conclude (nearReturn n) s =
      if target.toNat ≤ u.segs.cs.limit.toNat then
        .next (State.jumpTo { u with regs := { u.regs with esp := s.regs.esp + 4 + n.zeroExtend 32 } } target)
      else takeException (.gp 0) u :=
  (conclude_bind_ok h).trans (conclude_nearTarget ..)

end Near

/-! ## The near transfers complete or raise GP(0) -/

/-- Settles O25: every near JMP ends as `conclude_nearJump` says, once its operand is read. -/
theorem nearJumps : Obligations.NearJumps := by
  refine ⟨effectiveOffset_toNat, fun s => ?_⟩
  intro jump
  refine ⟨fun rel => ⟨?_, conclude_nearJump ..⟩, fun rel => ⟨?_, conclude_nearJump ..⟩, fun x => rfl,
    fun r => conclude_nearJump .., fun m target u h => ?_, fun m e u h => conclude_bind_exc h⟩
  · exact decodeEncode (.jmpRel8 rel) [] rfl
  · exact decodeEncode (.jmpRel32 rel) [] rfl
  · have hu : s.ReadTo u := (reads_segReadDword ..).of_ok h
    refine ⟨hu, (conclude_bind_ok h).trans ?_⟩
    rw [conclude_nearJump, hu.segs]
    rfl

/-- Settles O26, by `conclude_nearCall` and what a push does. -/
theorem nearCalls : Obligations.NearCalls := by
  refine ⟨fun _ => rfl, fun _ => rfl, fun s u i target hi => ?_, fun s u x e h => conclude_bind_exc h⟩
  obtain ⟨hu, hexec⟩ := exec_nearCall hi
  rw [conclude_nearCall, hu.segs, hu.nextEip] at hexec
  refine ⟨fun hlim ps v hpush => ⟨hu, (pushedTo_storedTo hpush).1, ?_⟩, fun hlim => ?_,
    fun hlim e v hpush => ?_⟩
  · rw [hexec, if_pos hlim, pushAll_of_pushedTo hpush]
    rfl
  · rw [hexec, if_neg (Nat.not_le.mpr hlim)]
  · rw [hexec, if_pos hlim, hpush, outcomeOf_exc]

/-- Settles O27, by `conclude_nearReturn`. -/
theorem nearReturns : Obligations.NearReturns := by
  refine ⟨rfl, fun _ => rfl, fun s u i n hi => ?_⟩
  rw [exec_nearReturn hi]
  refine ⟨fun target h => ?_, fun e h => conclude_bind_exc (m := segReadDword .ss s.regs.esp) h⟩
  have hu : s.ReadTo u := (reads_segReadDword ..).of_ok h
  refine ⟨hu, ?_⟩
  rw [conclude_nearReturn h, hu.segs, hu.regs]
  rfl

end Sys2Proof.Machine

/-! The instructions reserved for the operating system. At CPL 1, 2 and 3 each raises GP(0) before anything
else; so a step there runs nothing that loads GDTR, IDTR, a debug or test register or CR0, and what every
other instruction leaves is `Kept`, as delivery and the task switch leave it. -/

namespace Sys2Proof.Machine

open Sys2Proof

variable {β : Type}

/-! ## `Privileged()` at CPL 1, 2 and 3 (R231) -/

theorem conclude_privileged_raises {k : Unit → Exec Unit} {s : State} (h : s.cpl ≠ 0) :
    conclude (privileged >>= k) s = takeException (.gp 0) s := conclude_bind_exc (privileged_raises h)

/-- Settles O45: `privileged` is the first line of each. -/
theorem privilegedInstructions : Obligations.PrivilegedInstructions := by
  intro s i hcpl hi
  obtain rfl | rfl | ⟨x, rfl⟩ | ⟨x, rfl⟩ | ⟨x, rfl⟩ | ⟨x, rfl⟩ | ⟨x, rfl⟩ | ⟨r, n, rfl⟩ | ⟨n, r, rfl⟩ |
    ⟨r, n, rfl⟩ | ⟨n, r, rfl⟩ | ⟨r, n, rfl⟩ | ⟨n, r, rfl⟩ := hi
  all_goals exact conclude_privileged_raises hcpl

/-! ## What the instructions of every CPL keep -/

theorem kept_jumpTo (target : Dword) : Keeps Kept (update (·.jumpTo target)) :=
  kept_update fun s => kept_of_plain s _ _ _ _ _ _ _ _ _ _

theorem kept_nearJump (target : Dword) : Keeps Kept (nearJump target) :=
  keeps_bind composes_kept (keeps_nearTarget composes_kept _) fun _ => kept_jumpTo _

theorem kept_nearCall (target : Dword) : Keeps Kept (nearCall target) :=
  keeps_bind composes_kept (keeps_nearTarget composes_kept _) fun _ =>
    keeps_bind composes_kept (keeps_getState composes_kept) fun _ =>
    keeps_bind composes_kept (kept_pushAll _) fun _ => kept_jumpTo _

theorem kept_nearReturn (n : Word) : Keeps Kept (nearReturn n) :=
  keeps_bind composes_kept (keeps_getState composes_kept) fun _ =>
    keeps_bind composes_kept (keeps_segReadDword allowsAccess_kept ..) fun _ =>
    keeps_bind composes_kept (keeps_nearTarget composes_kept _) fun _ =>
    kept_update fun s => kept_of_plain s _ _ _ _ _ _ _ _ _ _

/-- ZF is a flag that EFLAGS may hold either way. -/
theorem kept_writeZF (b : Bool) : Keeps Kept (writeZF b) :=
  kept_update fun _ =>
    ⟨rfl, rfl, Nat.le_refl _, id, rfl, rfl, rfl, rfl, .inl rfl, id, fun hf => hf.setZF b⟩

theorem kept_writeZF_advance (b : Bool) : Keeps Kept (writeZF b >>= fun _ => advance) :=
  keeps_bind composes_kept (kept_writeZF b) fun _ => kept_advance

/-- The result of LAR and LSL, where the descriptor is visible. -/
theorem kept_setReg_writeZF_advance (r : Reg) (v : Dword) (b : Bool) :
    Keeps Kept (setReg r v >>= fun _ => writeZF b >>= fun _ => advance) :=
  keeps_bind composes_kept (kept_setReg r v) fun _ => kept_writeZF_advance b

/-- An instruction that looks up the descriptor its operand selects (R261 to R264). -/
theorem kept_lookup_bind (src : RM) {f : Word → Option Desc → Exec β}
    (hnone : ∀ sel, Keeps Kept (f sel none)) (hsome : ∀ sel d, Keeps Kept (f sel (some d))) :
    Keeps Kept (do let sel ← readRM16 src; let d ← lookupDesc sel; f sel d) := by
  refine keeps_bind composes_kept (keeps_readRM16 allowsAccess_kept src) fun sel =>
    keeps_bind composes_kept (keeps_lookupDesc_of allowsAccess_kept sel) fun d => ?_
  cases d with
  | none => exact hnone sel
  | some d => exact hsome sel d

theorem execArpl_kept {dst : RM} {src : Reg} {s t : State} (h : execArpl dst src s = .next t) : Kept s t :=
  kept_conclude (keeps_bind composes_kept (keeps_checkWritableRM16 allowsAccess_kept dst) fun _ =>
    keeps_bind composes_kept (keeps_readRM16 allowsAccess_kept dst) fun _ =>
    keeps_ite (keeps_bind composes_kept (kept_writeRM16 ..) fun _ => kept_writeZF_advance _)
      (kept_writeZF_advance _)) h

/-- At CPL 1, 2 and 3 every instruction keeps what delivery and the task switch keep: the privileged ones
raise GP(0). -/
theorem exec_kept_of_user {i : Instr} {s t : State} (hcpl : s.cpl ≠ 0) (h : exec i s = .next t) :
    Kept s t := by
  cases i with
  | jmpRel8 rel => exact kept_conclude (kept_nearJump _) h
  | jmpRel32 rel => exact kept_conclude (kept_nearJump _) h
  | jmpRm x =>
    exact kept_conclude (keeps_bind composes_kept (keeps_readRM32 allowsAccess_kept x) fun _ =>
      kept_nearJump _) h
  | callRel32 rel => exact kept_conclude (kept_nearCall _) h
  | callRm x =>
    exact kept_conclude (keeps_bind composes_kept (keeps_readRM32 allowsAccess_kept x) fun _ =>
      kept_nearCall _) h
  | ret => exact kept_conclude (kept_nearReturn _) h
  | retImm n => exact kept_conclude (kept_nearReturn n) h
  | str x =>
    exact kept_conclude (keeps_bind composes_kept (kept_writeRM16 ..) fun _ => kept_advance) h
  | arpl dst src => exact execArpl_kept h
  | lar dst src =>
    exact kept_conclude (kept_lookup_bind src (fun _ => kept_writeZF_advance _) fun _ _ =>
      keeps_ite (kept_setReg_writeZF_advance ..) (kept_writeZF_advance _)) h
  | lsl dst src =>
    exact kept_conclude (kept_lookup_bind src (fun _ => kept_writeZF_advance _) fun _ _ =>
      keeps_ite (kept_setReg_writeZF_advance ..) (kept_writeZF_advance _)) h
  | verr src =>
    exact kept_conclude (kept_lookup_bind src (fun _ => kept_writeZF_advance _) fun _ _ =>
      kept_writeZF_advance _) h
  | verw src =>
    exact kept_conclude (kept_lookup_bind src (fun _ => kept_writeZF_advance _) fun _ _ =>
      kept_writeZF_advance _) h
  | clts | hlt | lgdt | lidt | lldt | lmsw | movFromCr | movToCr | movFromDr | movToDr | movFromTr
  | movToTr => exact kept_takeException ((conclude_privileged_raises hcpl).symm.trans h)
  | movSreg | jmpFar | jmpFarMem | callFar | callFarMem | retf | retfImm | int | iret | ltr =>
    exact exec_kept_of_loadsSegments rfl h

/-- So does every step there, its draws having gone up first. -/
theorem step_kept_of_user {s t : State} (hcpl : s.cpl ≠ 0) (h : step s = .next t) :
    Kept { s with draws := s.draws + 1 } t := by
  obtain ⟨u, hu, ⟨e, d, h⟩ | ⟨i, n, h⟩⟩ := step_eq_next h
  · have hd : Kept u { u with debugTrap := d } := kept_of_plain u _ _ _ _ _ _ _ _ _ _
    exact kept_trans (kept_trans hu.kept hd) (kept_takeException h)
  · have hn : Kept u { u with nextEip := n } := kept_of_plain u _ _ _ _ _ _ _ _ _ _
    have hucpl : u.cpl ≠ 0 := fun h0 => hcpl (hu.cpl.symm.trans h0)
    exact kept_trans (kept_trans hu.kept hn) (exec_kept_of_user hucpl h)

/-- Settles O12, by the walk over the instructions in `exec_kept_of_user`. -/
theorem userKeepsSystemRegisters : Obligations.UserKeepsSystemRegisters := by
  intro s t hcpl h
  have hk := step_kept_of_user hcpl h
  exact ⟨hk.gdtr, hk.idtr, hk.debugRegs, hk.test, hk.cr0⟩

end Sys2Proof.Machine

/-! CLTS, HLT, LMSW, and MOV to and from DRn and TRn, at CPL 0. -/

namespace Sys2Proof.Machine

open Sys2Proof

/-! ## CLTS, HLT and LMSW (R232, R236, R243) -/

theorem withBit_bitTS_false (v : Dword) : withBit v bitTS false = v &&& 0xFFFFFFF7 := rfl

/-- At CPL 0, LMSW ends as the reading of its operand does. -/
theorem exec_lmsw {s : State} (src : RM) (h : s.cpl = 0) : exec (.lmsw src) s =
    outcomeOf (readRM16 src s) fun v u =>
      .next { u with ctl := { u.ctl with cr0 := cr0AfterLmsw u.ctl.cr0 v }, eip := u.nextEip } := by
  refine (conclude_privileged h).trans ?_
  rw [conclude_eq_outcomeOf, outcomeOf_bind]
  rfl

/-- Settles O46; `cr0AfterLmsw_getLsbD` says LMSW bit by bit. -/
theorem machineStatusWord : Obligations.MachineStatusWord := by
  intro s hcpl
  refine ⟨(conclude_privileged hcpl).trans ?_, conclude_privileged hcpl, fun src e u h => ?_,
    fun src v u h => ?_⟩
  · rw [← withBit_bitTS_false]
    rfl
  · rw [exec_lmsw src hcpl, h, outcomeOf_exc]
  · have hread : s.ReadTo u := (reads_readRM16 src).of_ok h
    refine ⟨hread, cr0AfterLmsw s.ctl.cr0 v, ?_, fun k hk => ?_⟩
    · rw [exec_lmsw src hcpl, h, outcomeOf_ok, hread.ctl, hread.nextEip]
    · rw [cr0AfterLmsw_getLsbD _ _ _ hk]
      grind

/-! ## The debug and test registers as cells (R35, R239, R241) -/

theorem ControlRegs.dr_eq (c : ControlRegs) (n : BitVec 3) : c.dr n =
    if n = 0 then some c.dr0 else if n = 1 then some c.dr1 else if n = 2 then some c.dr2
    else if n = 3 then some c.dr3 else if n = 6 then some c.dr6 else if n = 7 then some c.dr7
    else none := by
  obtain rfl | rfl | rfl | rfl | rfl | rfl | rfl | rfl := bitVec3_cases n <;> rfl

/-- `c'` is `c` with the debug register `n` holding `v`, every other register as it was. -/
structure ControlRegs.DrSet (c : ControlRegs) (n : BitVec 3) (v : Dword) (c' : ControlRegs) : Prop where
  same : c'.dr n = some v
  other : ∀ m, m ≠ n → c'.dr m = c.dr m
  rest : (c'.cr0, c'.cr2, c'.cr3, c'.tr6, c'.tr7) = (c.cr0, c.cr2, c.cr3, c.tr6, c.tr7)

theorem ControlRegs.drSet_of_setDr {c c' : ControlRegs} {n : BitVec 3} {v : Dword}
    (h : c.setDr n v = some c') : c.DrSet n v c' := by
  obtain rfl | rfl | rfl | rfl | rfl | rfl | rfl | rfl := bitVec3_cases n
  all_goals cases h
  all_goals exact ⟨rfl, fun m hm => by simp only [ControlRegs.dr_eq, if_neg hm], rfl⟩

/-- Every number but 4 and 5 names a debug register, for reading as for writing. -/
theorem ControlRegs.exists_dr (c : ControlRegs) {n : BitVec 3} (h4 : n ≠ 4) (h5 : n ≠ 5) (v : Dword) :
    (∃ c', c.setDr n v = some c') ∧ ∃ x, c.dr n = some x := by
  have hn := bitVec3_cases n
  simp only [h4, h5, false_or] at hn
  obtain rfl | rfl | rfl | rfl | rfl | rfl := hn
  all_goals exact ⟨⟨_, rfl⟩, _, rfl⟩

theorem ControlRegs.testReg_eq_none (c : ControlRegs) {n : BitVec 3} (h6 : n ≠ 6) (h7 : n ≠ 7) (v : Dword) :
    c.setTestReg n v = none ∧ c.testReg n = none := by
  have hn := bitVec3_cases n
  simp only [h6, h7, or_false] at hn
  obtain rfl | rfl | rfl | rfl | rfl | rfl := hn
  all_goals exact ⟨rfl, rfl⟩

/-! ## MOV to and from DRn and TRn (R239 to R242) -/

section MovSpecial

variable {s : State} {n : BitVec 3} {r : Reg}

/-- The state after MOV to a special register: the register, the flags drawn, EIP (R237; U13). -/
def State.movedTo (s : State) (c : ControlRegs) : State :=
  { s with ctl := c, eflags := drawArithFlags s.eflags (Config.movFlags s.draws), eip := s.nextEip }

/-- The state after MOV of `x` from a special register. -/
def State.movedFrom (s : State) (r : Reg) (x : Dword) : State :=
  { s with
    regs := s.regs.set r x, eflags := drawArithFlags s.eflags (Config.movFlags s.draws), eip := s.nextEip }

theorem exec_movToDr (h : s.cpl = 0) : exec (.movToDr n r) s =
    (s.ctl.setDr n (s.regs.get r)).elim (.refused .noSuchDebugRegister) fun c => .next (s.movedTo c) := by
  refine (conclude_privileged h).trans ?_
  cases s.ctl.setDr n (s.regs.get r) <;> rfl

theorem exec_movFromDr (h : s.cpl = 0) : exec (.movFromDr r n) s =
    (s.ctl.dr n).elim (.refused .noSuchDebugRegister) fun x => .next (s.movedFrom r x) := by
  refine (conclude_privileged h).trans ?_
  cases s.ctl.dr n <;> rfl

theorem exec_movToTr (h : s.cpl = 0) : exec (.movToTr n r) s =
    (s.ctl.setTestReg n (s.regs.get r)).elim (takeException .ud s) fun c => .next (s.movedTo c) := by
  refine (conclude_privileged h).trans ?_
  cases s.ctl.setTestReg n (s.regs.get r) <;> rfl

theorem exec_movFromTr (h : s.cpl = 0) : exec (.movFromTr r n) s =
    (s.ctl.testReg n).elim (takeException .ud s) fun x => .next (s.movedFrom r x) := by
  refine (conclude_privileged h).trans ?_
  cases s.ctl.testReg n <;> rfl

end MovSpecial

/-- Settles O50: which numbers name a cell, and how each of the four moves ends. -/
theorem moveDebugAndTestRegisters : Obligations.MoveDebugAndTestRegisters := by
  intro s r n hcpl flags with_
  rw [exec_movToDr hcpl, exec_movFromDr hcpl, exec_movToTr hcpl, exec_movFromTr hcpl]
  refine ⟨?_, fun h4 h5 => ?_, fun h6 h7 => ?_, ?_, ?_⟩
  · rintro (rfl | rfl) <;> exact ⟨rfl, rfl⟩
  · obtain ⟨⟨c, hc⟩, x, hx⟩ := s.ctl.exists_dr h4 h5 (s.regs.get r)
    obtain ⟨hsame, hother, hrest⟩ := ControlRegs.drSet_of_setDr hc
    rw [hc, hx]
    exact ⟨c, x, rfl, hsame, hother, hrest, rfl, rfl⟩
  · obtain ⟨hset, hget⟩ := s.ctl.testReg_eq_none h6 h7 (s.regs.get r)
    rw [hset, hget]
    exact ⟨rfl, rfl⟩
  · rintro rfl
    exact ⟨rfl, rfl⟩
  · rintro rfl
    exact ⟨rfl, rfl⟩

end Sys2Proof.Machine

/-! LLDT and LTR at CPL 0. -/

namespace Sys2Proof.Machine

open Sys2Proof

/-! ## The busy bit (R301) -/

section Busy

variable {s t : State} {sel : Word}

theorem setBusy_stops {e : Stop} (h : accessByteAddrs sel s = .error e t) : setBusy sel s = .error e t :=
  run_bind_error h

theorem accessByteAddrs_ok {at_ : Nat × Nat} (h : AccessByteAt s sel at_ t) :
    accessByteAddrs sel s = .ok at_ t := by
  obtain ⟨u, hr, hw⟩ := h
  unfold accessByteAddrs
  rw [run_bind_getState, run_bind_ok hr, run_bind_ok hw, run_pure]

/-- Where there is memory at both addresses, the access byte is read at the first and stored, with the busy
bit, at the second. -/
theorem setBusy_ok {r p : Nat} (h : AccessByteAt s sel (r, p) t) (hr : s.hasMemory r = true)
    (hp : s.hasMemory p = true) :
    s.ReadTo t ∧ setBusy sel s = .ok () ((t.noteRead [r]).store [(p, t.byteAt r ||| 0x02)]) := by
  have hat := accessByteAddrs_ok h
  have hread : s.ReadTo t := (reads_accessByteAddrs sel).of_ok hat
  have hmem : ∀ q ∈ [r, p], t.hasMemory q = true := by simp [hread.hasMemory, hr, hp]
  refine ⟨hread, ?_⟩
  unfold setBusy
  rw [run_bind_ok hat, run_bind_ok (requireMemory_ok hmem)]
  rfl

end Busy

/-! ## A system register loaded with a descriptor of the GDT (R235, R280) -/

/-- What LLDT and LTR have in common: the operand selects a descriptor of the GDT, with which `load` goes on;
`null` says what a null selector does. -/
def loadFromGdt (src : RM) (null : Word → Exec Unit) (load : Word → Desc → Exec Unit) : Exec Unit := do
  privileged
  let sel ← readRM16 src
  if isNull sel then null sel
  else if selTI sel then raise (.gp (selErr sel))
  else
    let d ← readDescOr sel (.gp (selErr sel))
    load sel d

section LoadFromGdt

variable {null : Word → Exec Unit} {load : Word → Desc → Exec Unit} {s u v : State} {src : RM} {sel : Word}

theorem conclude_loadFromGdt_exc {e : Exception} (hcpl : s.cpl = 0)
    (h : readRM16 src s = .error (.exc e) u) :
    conclude (loadFromGdt src null load) s = takeException e u :=
  (conclude_privileged hcpl).trans (conclude_bind_exc h)

theorem outcomeOf_readDescOr (sel : Word) (e : Exception)
    (f : Desc → State → Host.Outcome State Fault Refusal) (s : State) :
    outcomeOf (readDescOr sel e s) f =
      outcomeOf (readDesc sel s) fun d t => d.elim (takeException e t) (f · t) := by
  unfold readDescOr
  rw [outcomeOf_bind]
  refine outcomeOf_congr fun d t _ => ?_
  cases d <;> rfl

/-- Where the operand reads as a selector. -/
theorem conclude_loadFromGdt (hcpl : s.cpl = 0) (h : readRM16 src s = .ok sel u) :
    conclude (loadFromGdt src null load) s =
      if isNull sel = true then conclude (null sel) u
      else if selTI sel = true then takeException (.gp (selErr sel)) u
      else outcomeOf (readDesc sel u) fun d v =>
        d.elim (takeException (.gp (selErr sel)) v) fun d => conclude (load sel d) v := by
  refine (conclude_privileged hcpl).trans ((conclude_bind_ok h).trans ?_)
  rw [← outcomeOf_readDescOr]
  split_ifs
  · rfl
  · rfl
  · exact (conclude_eq_outcomeOf ..).trans ((outcomeOf_bind ..).trans
      (outcomeOf_congr fun _ _ _ => (conclude_eq_outcomeOf ..).symm))

end LoadFromGdt

/-! ## LLDT (R235) -/

/-- LLDT of a null selector. -/
def nullLdt (sel : Word) : Exec Unit := do
  update fun t => { t with ldtr := { t.ldtr with sel := sel, valid := false } }
  advance

/-- LLDT of the descriptor `d` of the GDT. -/
def loadLdt (sel : Word) (d : Desc) : Exec Unit := do
  if d.isSeg || d.typ != 2 then raise (.gp (selErr sel))
  else if !d.present then raise (.np (selErr sel))
  else
    update fun t => { t with ldtr := LdtReg.mk sel d.base d.effLimit true }
    advance

theorem exec_lldt (src : RM) (s : State) :
    exec (.lldt src) s = conclude (loadFromGdt src nullLdt loadLdt) s := rfl

/-- The checks of the descriptor, in order. -/
theorem conclude_loadLdt (sel : Word) (d : Desc) (s : State) : conclude (loadLdt sel d) s =
    if d.isSeg = true ∨ d.typ ≠ 2 then takeException (.gp (selErr sel)) s
    else if d.present = false then takeException (.np (selErr sel)) s
    else .next { s with ldtr := ⟨sel, d.base, d.effLimit, true⟩, eip := s.nextEip } := by
  unfold loadLdt
  simp only [Bool.or_eq_true, bne_iff_ne, Bool.not_eq_true']
  split_ifs <;> rfl

/-! ## LTR (R280) -/

/-- LTR of the descriptor `d` of the GDT. -/
def loadTr (sel : Word) (d : Desc) : Exec Unit := do
  if d.isSeg then raise (.gp (selErr sel))
  else if d.typ = 1 then refuse .sixteenBitForm
  else if d.typ != 9 then raise (.gp (selErr sel))
  else if !d.present then raise (.np (selErr sel))
  else
    setBusy sel
    update fun t => { t with tr := TaskReg.mk sel d.base d.effLimit, eip := t.nextEip }

theorem exec_ltr (src : RM) (s : State) :
    exec (.ltr src) s = conclude (loadFromGdt src (fun _ => raise (.gp 0)) loadTr) s := rfl

/-- The checks of the descriptor, in order; then the busy bit is set and TR is loaded. -/
theorem conclude_loadTr (sel : Word) (d : Desc) (s : State) : conclude (loadTr sel d) s =
    if d.isSeg = true then takeException (.gp (selErr sel)) s
    else if d.typ = 1 then .refused .sixteenBitForm
    else if d.typ ≠ 9 then takeException (.gp (selErr sel)) s
    else if d.present = false then takeException (.np (selErr sel)) s
    else outcomeOf (setBusy sel s) fun _ t =>
      .next { t with tr := ⟨sel, d.base, d.effLimit⟩, eip := s.nextEip } := by
  unfold loadTr
  simp only [bne_iff_ne, Bool.not_eq_true']
  split_ifs
  case neg =>
    refine conclude_bind_update.trans (outcomeOf_congr fun _ t ht => ?_)
    rw [((keeps_setBusy allowsAccess_accessed sel).of_ok ht).nextEip]
  all_goals rfl

/-- Settles O48: LLDT and LTR end as `conclude_loadFromGdt`, `conclude_loadLdt` and `conclude_loadTr` say. -/
theorem loadLdtAndTaskRegisters : Obligations.LoadLdtAndTaskRegisters := by
  refine ⟨fun s u src e hcpl h => ⟨conclude_loadFromGdt_exc hcpl h, conclude_loadFromGdt_exc hcpl h⟩,
    fun s u v src sel e hcpl h hn hti hd => ?_, fun s u src sel hcpl h => ?_,
    fun s u src sel hcpl h => ?_,
    fun s t sel e h => ⟨setBusy_stops h, (reads_accessByteAddrs sel).of_error h⟩⟩
  · rw [exec_lldt, exec_ltr, conclude_loadFromGdt hcpl h, conclude_loadFromGdt hcpl h, hn, hti, hd]
    exact ⟨rfl, rfl⟩
  · have hu : s.ReadTo u := (reads_readRM16 src).of_ok h
    rw [exec_lldt, conclude_loadFromGdt hcpl h]
    refine ⟨fun hn => ⟨hu, ?_⟩, fun hn => ⟨fun hti => ?_, fun hti => ⟨fun v hd => ?_, fun d v hd => ?_⟩⟩⟩
    · rw [if_pos hn, ← hu.ldtr, ← hu.nextEip]
      rfl
    · rw [hn, hti]
      rfl
    · rw [hn, hti, hd]
      rfl
    have hv : s.ReadTo v := hu.trans ((reads_readDesc sel).of_ok hd)
    rw [if_neg (by simp [hn]), if_neg (by simp [hti]), hd, outcomeOf_ok, Option.elim_some, conclude_loadLdt]
    refine ⟨fun hbad => if_pos hbad, fun hs htyp => ?_⟩
    rw [if_neg (by simp [hs, htyp])]
    refine ⟨fun hp => if_pos hp, fun hp => ⟨hv, ?_⟩⟩
    rw [if_neg (by simp [hp]), hv.nextEip]
  · have hu : s.ReadTo u := (reads_readRM16 src).of_ok h
    rw [exec_ltr, conclude_loadFromGdt hcpl h]
    refine ⟨fun hn => ?_, fun hn => ⟨fun hti => ?_, fun hti => ⟨fun v hd => ?_, fun d v hd => ?_⟩⟩⟩
    · rw [if_pos hn]
      rfl
    · rw [hn, hti]
      rfl
    · rw [hn, hti, hd]
      rfl
    have hv : s.ReadTo v := hu.trans ((reads_readDesc sel).of_ok hd)
    rw [if_neg (by simp [hn]), if_neg (by simp [hti]), hd, outcomeOf_ok, Option.elim_some, conclude_loadTr,
      hv.nextEip]
    refine ⟨?_, fun hs h1 => ?_, fun hs h9 => ?_⟩
    · rintro (hs | ⟨h1, h9⟩)
      · exact if_pos hs
      · rw [if_neg h1, if_pos h9, ite_self]
    · rw [if_neg (by simp [hs]), if_pos h1]
    rw [if_neg (by simp [hs]), if_neg (by simp [h9]), if_neg (by simp [h9])]
    refine ⟨fun hp => if_pos hp, fun hp => if_neg (by simp [hp]), fun r p x hp hat hr hm => ?_⟩
    obtain ⟨hx, hbusy⟩ := setBusy_ok hat (hv.hasMemory r ▸ hr) (hv.hasMemory p ▸ hm)
    refine ⟨x.noteRead [r], (hv.trans hx).trans (.noteRead x [r]), ?_⟩
    rw [if_neg (by simp [hp]), hbusy, outcomeOf_ok]

end Sys2Proof.Machine

/-! Pointer validation. Each of the five instructions ends with its answer in ZF. LAR, LSL, VERR and VERW have
the look-up of a descriptor in common, and differ only in what they ask of it. -/

namespace Sys2Proof.Machine

open Sys2Proof

/-! ## The answer in ZF (R25) -/

/-- Where neither EFLAGS nor the next EIP has changed since `s`, an instruction ends with the flags of `s` but
for ZF, and after itself. -/
theorem conclude_writeZF_advance {s t : State} (hf : t.eflags = s.eflags) (hn : t.nextEip = s.nextEip)
    (b : Bool) : conclude (writeZF b >>= fun _ => advance) t =
      .next { t with eflags := setZF s.eflags b, eip := s.nextEip } := by
  rw [← hf, ← hn]
  rfl

/-- So it is after what only reads. -/
theorem State.ReadTo.conclude_writeZF_advance {s t : State} (h : s.ReadTo t) (b : Bool) :
    conclude (writeZF b >>= fun _ => advance) t =
      .next { t with eflags := setZF s.eflags b, eip := s.nextEip } :=
  Machine.conclude_writeZF_advance h.eflags h.nextEip b

/-! ## ARPL (R260) -/

/-- What ARPL makes of an operand that reads as `a`, and of the selector `b`. -/
def raiseRpl (dst : RM) (a b : Word) : Exec Unit := do
  if selRpl a < selRpl b then
    writeRM16 dst (withRpl a b)
    writeZF true
  else writeZF false
  advance

section Arpl

variable {s t u v : State} {dst : RM} {src r : Reg} {a b : Word}

theorem exec_arpl (hw : checkWritableRM16 dst s = .ok () u) (ha : readRM16 dst u = .ok a v) :
    exec (.arpl dst src) s = conclude (raiseRpl dst a (s.regs.get16 src)) v :=
  (conclude_bind_ok hw).trans (conclude_bind_ok ha)

theorem conclude_raiseRpl_of_lt (h : selRpl a < selRpl b)
    (hw : writeRM16 dst (withRpl a b) s = .ok () t) :
    conclude (raiseRpl dst a b) s = conclude (writeZF true >>= fun _ => advance) t := by
  unfold raiseRpl
  rw [if_pos h]
  exact conclude_bind_ok hw

theorem conclude_raiseRpl_of_le (h : selRpl b ≤ selRpl a) :
    conclude (raiseRpl dst a b) s = conclude (writeZF false >>= fun _ => advance) s := by
  unfold raiseRpl
  rw [if_neg (BitVec.not_lt.mpr h)]

/-- Of a register, ARPL changes bits 1 and 0 alone. -/
theorem Regs.get_set16_withRpl (x : Regs) (r : Reg) (b : Word) :
    (x.set16 r (withRpl (x.get16 r) b)).get r = (x.get r).extractLsb' 2 30 ++ selRpl b := by
  unfold Regs.set16 Regs.get16 withRpl
  rw [Regs.get_set_same]
  refine BitVec.eq_of_getLsbD_eq fun k hk => ?_
  simp only [BitVec.getLsbD_append, BitVec.getLsbD_extractLsb']
  grind

/-- A word is stored in memory at the addresses that its checks translate. -/
theorem writeRM16_mem {m : MemOperand} {lin : Dword} {ps : List Nat}
    (hc : segCheck m.seg (effectiveOffset s.regs m) 2 true s = .ok lin s)
    (ht : translateRange .write s.userLevel lin 2 s = .ok ps t) :
    writeRM16 (.mem m) a s = .ok () (t.storeBytes ps (wordBytes a)) := by
  rw [← wordBytes_length a] at hc ht
  exact (segWrite_of_segCheck hc).trans (writeBytes_of_translate ht)

end Arpl

/-- Settles O52: the operand is checked and read, and then `raiseRpl` compares the two levels. -/
theorem adjustRpl : Obligations.AdjustRpl := by
  refine ⟨fun _ _ => rfl, fun s u m src e h => conclude_bind_exc h, fun s r src => ?_,
    fun s u v m src a hw ha => ?_⟩
  · have hexec := exec_arpl (s := s) (src := src) (dst := .reg r) rfl rfl
    refine ⟨fun hlt => ⟨s.regs.set16 r (withRpl (s.regs.get16 r) (s.regs.get16 src)), ?_,
      Regs.get_set16_withRpl .., fun q hq => Regs.get_set16_other _ _ hq⟩, fun hle => ?_⟩
    · rw [hexec, conclude_raiseRpl_of_lt hlt rfl]
      rfl
    · rw [hexec, conclude_raiseRpl_of_le hle]
      rfl
  · have hu : s.ReadTo u := (reads_checkWritableRM16 (.mem m)).of_ok hw
    rw [← hu.regs] at ha
    have hv : s.ReadTo v := hu.trans ((reads_segReadWord ..).of_ok ha)
    have hexec := exec_arpl (dst := .mem m) (src := src) hw ha
    refine ⟨hv, fun hlt lin ps w hc ht => ?_, fun hle => ?_⟩
    · have hs : s.StoredTo ps (w.storeBytes ps (wordBytes (withRpl a (s.regs.get16 src)))) :=
        .after_read (hv.trans ((reads_translateRange ..).of_ok ht)) (State.storedTo_storeBytes ..)
      rw [← hv.regs] at hc
      rw [← hv.userLevel] at ht
      exact ⟨hs, (hexec.trans (conclude_raiseRpl_of_lt hlt (writeRM16_mem hc ht))).trans
        (conclude_writeZF_advance hs.eflags hs.nextEip true)⟩
    · exact (hexec.trans (conclude_raiseRpl_of_le hle)).trans (hv.conclude_writeZF_advance false)

/-! ## Looking up a descriptor (R266) -/

/-- What LAR, LSL, VERR and VERW have in common: the operand selects a descriptor, or none. -/
def lookingUp (src : RM) (f : Word → Option Desc → Exec Unit) : Exec Unit := do
  let sel ← readRM16 src
  let d ← lookupDesc sel
  f sel d

section LookingUp

variable {s u v : State} {src : RM} {sel : Word} {f : Word → Option Desc → Exec Unit} {e : Exception}

theorem conclude_lookingUp_operand_exc (h : readRM16 src s = .error (.exc e) u) :
    conclude (lookingUp src f) s = takeException e u := conclude_bind_exc h

theorem lookupDesc_of_null (hn : isNull sel = true) : lookupDesc sel = pure none := if_pos hn

theorem lookupDesc_of_not_null (hn : isNull sel = false) : lookupDesc sel = readDesc sel :=
  if_neg (by simp [hn])

theorem conclude_lookingUp_desc_exc (h : readRM16 src s = .ok sel u) (hn : isNull sel = false)
    (hd : readDesc sel u = .error (.exc e) v) : conclude (lookingUp src f) s = takeException e v := by
  rw [← lookupDesc_of_not_null hn] at hd
  exact (conclude_bind_ok h).trans (conclude_bind_exc hd)

theorem conclude_lookingUp_null (h : readRM16 src s = .ok sel u) (hn : isNull sel = true) :
    conclude (lookingUp src f) s = conclude (f sel none) u := by
  refine (conclude_bind_ok h).trans ?_
  rw [lookupDesc_of_null hn]
  rfl

theorem conclude_lookingUp {d : Option Desc} (h : readRM16 src s = .ok sel u) (hn : isNull sel = false)
    (hd : readDesc sel u = .ok d v) : conclude (lookingUp src f) s = conclude (f sel d) v := by
  rw [← lookupDesc_of_not_null hn] at hd
  exact (conclude_bind_ok h).trans (conclude_bind_ok hd)

end LookingUp

theorem visible_iff {cpl : Level} {sel : Word} {d : Desc} : visible cpl sel d = true ↔
    d.conforming = true ∨ cpl ≤ d.dpl ∧ selRpl sel ≤ d.dpl := by
  simp only [visible, Bool.or_eq_true, Bool.and_eq_true, decide_eq_true_eq]

/-! ## LAR and LSL (R261, R262) -/

/-- LAR and LSL load `x d` where the descriptor `d` passes the test. -/
def loadIf (dst : Reg) (x : Desc → Dword) (test : Word → Desc → Bool) (sel : Word) (d : Option Desc) :
    Exec Unit := do
  match d with
  | none => writeZF false
  | some d =>
    if test sel d then
      setReg dst (x d)
      writeZF true
    else writeZF false
  advance

/-- The descriptors that LAR accepts at level `cpl`. -/
def larTest (cpl : Level) (sel : Word) (d : Desc) : Bool := (d.isSeg || larType d) && visible cpl sel d

/-- The descriptors that LSL accepts at level `cpl`. -/
def lslTest (cpl : Level) (sel : Word) (d : Desc) : Bool := (d.isSeg || lslType d) && visible cpl sel d

theorem exec_lar (dst : Reg) (src : RM) (s : State) : exec (.lar dst src) s =
    conclude (lookingUp src (loadIf dst (larResult · (Config.larBits s.draws)) (larTest s.cpl))) s := rfl

theorem exec_lsl (dst : Reg) (src : RM) (s : State) : exec (.lsl dst src) s =
    conclude (lookingUp src (loadIf dst Desc.effLimit (lslTest s.cpl))) s := rfl

section LoadIf

variable {s t : State} {dst : Reg} {x : Desc → Dword} {test : Word → Desc → Bool} {sel : Word} {d : Desc}

theorem conclude_loadIf_none (h : s.ReadTo t) : conclude (loadIf dst x test sel none) t =
    .next { t with eflags := setZF s.eflags false, eip := s.nextEip } := h.conclude_writeZF_advance false

theorem conclude_loadIf_some (h : s.ReadTo t) : conclude (loadIf dst x test sel (some d)) t =
    if test sel d = true then
      .next { t with regs := s.regs.set dst (x d), eflags := setZF s.eflags true, eip := s.nextEip }
    else .next { t with eflags := setZF s.eflags false, eip := s.nextEip } := by
  unfold loadIf
  dsimp only
  split
  · rw [← h.regs, ← h.eflags, ← h.nextEip]
    rfl
  · exact h.conclude_writeZF_advance false

/-- LAR and LSL over every selector: ZF is cleared where it names no descriptor, or one that fails the test. -/
theorem conclude_lookingUp_loadIf {u : State} {src : RM} (h : readRM16 src s = .ok sel u) :
    let negative (v : State) : Host.Outcome State Fault Refusal :=
      .next { v with eflags := setZF s.eflags false, eip := s.nextEip }
    let ending := conclude (lookingUp src (loadIf dst x test)) s
    s.ReadTo u ∧ (isNull sel = true → ending = negative u) ∧
    (isNull sel = false →
      (∀ v, readDesc sel u = .ok none v → s.ReadTo v ∧ ending = negative v) ∧
      (∀ (d : Desc) (v : State), readDesc sel u = .ok (some d) v → s.ReadTo v ∧
        ending = if test sel d = true then
          .next { v with regs := s.regs.set dst (x d), eflags := setZF s.eflags true, eip := s.nextEip }
        else negative v)) := by
  have hu : s.ReadTo u := (reads_readRM16 src).of_ok h
  refine ⟨hu, fun hn => ?_, fun hn => ⟨fun v hd => ?_, fun d v hd => ?_⟩⟩
  · exact (conclude_lookingUp_null h hn).trans (conclude_loadIf_none hu)
  all_goals have hv : s.ReadTo v := hu.trans ((reads_readDesc sel).of_ok hd)
  · exact ⟨hv, (conclude_lookingUp h hn hd).trans (conclude_loadIf_none hv)⟩
  · exact ⟨hv, (conclude_lookingUp h hn hd).trans (conclude_loadIf_some hv)⟩

end LoadIf

theorem larType_iff {d : Desc} : larType d = true ↔ d.typ.toNat ∉ [0, 8, 0xA, 0xD] := by
  unfold larType
  generalize d.typ = k
  decide +revert

theorem lslType_iff {d : Desc} : lslType d = true ↔ d.typ.toNat ∈ [1, 2, 3, 9, 0xB] := by
  unfold lslType
  generalize d.typ = k
  decide +revert

theorem larTest_iff {cpl : Level} {sel : Word} {d : Desc} : larTest cpl sel d = true ↔
    (d.isSeg = true ∨ d.typ.toNat ∉ [0, 8, 0xA, 0xD]) ∧
      (d.conforming = true ∨ cpl ≤ d.dpl ∧ selRpl sel ≤ d.dpl) := by
  rw [larTest, Bool.and_eq_true, Bool.or_eq_true, larType_iff, visible_iff]

theorem larTest_eq_false_iff {cpl : Level} {sel : Word} {d : Desc} : larTest cpl sel d = false ↔
    d.isSeg = false ∧ d.typ.toNat ∈ [0, 8, 0xA, 0xD] ∨
      d.conforming = false ∧ (d.dpl < cpl ∨ d.dpl < selRpl sel) := by
  rw [← Bool.not_eq_true, larTest_iff, not_and_or, not_or, not_or, not_and_or, not_not, BitVec.not_le,
    BitVec.not_le, Bool.not_eq_true, Bool.not_eq_true]

theorem lslTest_iff {cpl : Level} {sel : Word} {d : Desc} : lslTest cpl sel d = true ↔
    (d.isSeg = true ∨ d.typ.toNat ∈ [1, 2, 3, 9, 0xB]) ∧
      (d.conforming = true ∨ cpl ≤ d.dpl ∧ selRpl sel ≤ d.dpl) := by
  rw [lslTest, Bool.and_eq_true, Bool.or_eq_true, lslType_iff, visible_iff]

/-- The drawn bits lie where the mask 00F0FF00H has none. -/
theorem larResult_and (d : Desc) (x : BitVec 4) : larResult d x &&& 0xFFF0FFFF = d.hi &&& 0x00F0FF00 := by
  have hx : x.zeroExtend 32 <<< 16 &&& (0xFFF0FFFF : Dword) = 0#32 := by decide +revert
  rw [larResult, BitVec.and_or_distrib_right, hx, BitVec.and_assoc, BitVec.or_zero]
  rfl

theorem larResult_extract (d : Desc) (x : BitVec 4) : (larResult d x).extractLsb' 16 4 = x := by
  have hx : (x.zeroExtend 32 <<< 16 : Dword).extractLsb' 16 4 = x := by decide +revert
  rw [larResult, BitVec.extractLsb'_or, hx, BitVec.extractLsb'_and]
  exact (congrArg (· ||| x) BitVec.and_zero).trans BitVec.zero_or

/-- Settles O53: LAR and LSL look up a descriptor and end as `conclude_lookingUp_loadIf` says. -/
theorem loadRightsAndLimit : Obligations.LoadRightsAndLimit := by
  refine ⟨fun _ _ => ⟨rfl, rfl⟩, fun s u dst src e h => ?_, fun s u v dst src sel e h hn hd => ?_,
    fun s u dst src sel h => ?_, fun s u dst src sel h => ?_⟩
  · rw [exec_lar, exec_lsl, conclude_lookingUp_operand_exc h, conclude_lookingUp_operand_exc h]
    exact ⟨rfl, rfl⟩
  · rw [exec_lar, exec_lsl, conclude_lookingUp_desc_exc h hn hd, conclude_lookingUp_desc_exc h hn hd]
    exact ⟨rfl, rfl⟩
  · obtain ⟨hu, hnull, hlook⟩ := conclude_lookingUp_loadIf h
    rw [exec_lar]
    refine ⟨hu, hnull, fun hn => ⟨(hlook hn).1, fun d v hd => ?_⟩⟩
    obtain ⟨hv, hsome⟩ := (hlook hn).2 d v hd
    rw [hsome]
    exact ⟨hv, fun htyp hvis => ⟨_, if_pos (larTest_iff.mpr ⟨htyp, hvis⟩), larResult_and d _,
      larResult_extract d _⟩, fun hbad => if_neg (by simp [larTest_eq_false_iff.mpr hbad])⟩
  · obtain ⟨hu, hnull, hlook⟩ := conclude_lookingUp_loadIf h
    rw [exec_lsl]
    refine ⟨hu, hnull, fun hn => ⟨(hlook hn).1, fun d v hd => ?_⟩⟩
    obtain ⟨hv, hsome⟩ := (hlook hn).2 d v hd
    exact ⟨hv, hsome.trans (if_congr lslTest_iff rfl rfl)⟩

/-! ## VERR and VERW (R263, R264) -/

/-- VERR and VERW answer the test of a descriptor. -/
def answerTest (test : Word → Desc → Bool) (sel : Word) (d : Option Desc) : Exec Unit := do
  match d with
  | none => writeZF false
  | some d => writeZF (test sel d)
  advance

/-- The descriptors of segments that are readable at level `cpl`. -/
def verrTest (cpl : Level) (sel : Word) (d : Desc) : Bool := d.isSeg && d.readable && visible cpl sel d

/-- The descriptors of segments that are writable at level `cpl`. -/
def verwTest (cpl : Level) (sel : Word) (d : Desc) : Bool :=
  d.isSeg && d.writable && decide (cpl ≤ d.dpl) && decide (selRpl sel ≤ d.dpl)

theorem exec_verr (src : RM) (s : State) :
    exec (.verr src) s = conclude (lookingUp src (answerTest (verrTest s.cpl))) s := rfl

theorem exec_verw (src : RM) (s : State) :
    exec (.verw src) s = conclude (lookingUp src (answerTest (verwTest s.cpl))) s := rfl

section AnswerTest

variable {s t : State} {test : Word → Desc → Bool} {sel : Word} {d : Desc}

theorem conclude_answerTest_none (h : s.ReadTo t) : conclude (answerTest test sel none) t =
    .next { t with eflags := setZF s.eflags false, eip := s.nextEip } := h.conclude_writeZF_advance false

theorem conclude_answerTest_some (h : s.ReadTo t) : conclude (answerTest test sel (some d)) t =
    .next { t with eflags := setZF s.eflags (test sel d), eip := s.nextEip } :=
  h.conclude_writeZF_advance _

end AnswerTest

section Tests

variable {cpl : Level} {sel : Word} {d : Desc}

/-- A readable segment is data, which is not conforming, or readable code. -/
theorem verrTest_iff : verrTest cpl sel d = true ↔
    (d.isData = true ∧ cpl ≤ d.dpl ∧ selRpl sel ≤ d.dpl) ∨
    (d.isCode = true ∧ d.hi.getLsbD 9 = true ∧
      (d.hi.getLsbD 10 = true ∨ cpl ≤ d.dpl ∧ selRpl sel ≤ d.dpl)) := by
  rw [verrTest, Bool.and_eq_true, visible_iff, Desc.conforming_iff, Desc.readable, Desc.isCode, Desc.isData]
  cases d.isSeg with
  | false => simp
  | true => cases d.hi.getLsbD 11 <;> simp

theorem verwTest_iff : verwTest cpl sel d = true ↔
    d.isData = true ∧ d.hi.getLsbD 9 = true ∧ cpl ≤ d.dpl ∧ selRpl sel ≤ d.dpl := by
  have hseg : d.isData = true → d.isSeg = true := fun h => (Bool.and_eq_true_iff.mp h).1
  simp only [verwTest, Bool.and_eq_true, decide_eq_true_eq, Desc.writable_iff]
  tauto

end Tests

/-- Settles O54: VERR and VERW look up a descriptor and answer their test of it. -/
theorem verifyAccess : Obligations.VerifyAccess := by
  refine ⟨fun _ => ⟨rfl, rfl⟩, fun s u src e h => ?_, fun s u v src sel e h hn hd => ?_,
    fun s u src sel h => ?_⟩
  · rw [exec_verr, exec_verw, conclude_lookingUp_operand_exc h, conclude_lookingUp_operand_exc h]
    exact ⟨rfl, rfl⟩
  · rw [exec_verr, exec_verw, conclude_lookingUp_desc_exc h hn hd, conclude_lookingUp_desc_exc h hn hd]
    exact ⟨rfl, rfl⟩
  have hu : s.ReadTo u := (reads_readRM16 src).of_ok h
  rw [exec_verr, exec_verw]
  refine ⟨hu, fun hn => ?_, fun hn => ⟨fun v hd => ?_, fun d v hd => ?_⟩⟩
  · exact ⟨(conclude_lookingUp_null h hn).trans (conclude_answerTest_none hu),
      (conclude_lookingUp_null h hn).trans (conclude_answerTest_none hu)⟩
  all_goals have hv : s.ReadTo v := hu.trans ((reads_readDesc sel).of_ok hd)
  · exact ⟨hv, (conclude_lookingUp h hn hd).trans (conclude_answerTest_none hv),
      (conclude_lookingUp h hn hd).trans (conclude_answerTest_none hv)⟩
  · simp only [← verrTest_iff, ← verwTest_iff, Bool.decide_eq_true]
    exact ⟨hv, (conclude_lookingUp h hn hd).trans (conclude_answerTest_some hv),
      (conclude_lookingUp h hn hd).trans (conclude_answerTest_some hv)⟩

end Sys2Proof.Machine

/-! The checks of a task switch, steps 1 and 2 and the page checks, and how the switch goes on after them. -/

namespace Sys2Proof.Machine

open Sys2Proof

/-! ## The incoming TSS (R284, R298, R306, R307) -/

/-- The selector names an entry of the GDT (R85, R284). -/
structure State.InGdt (s : State) (sel : Word) : Prop where
  notNull : isNull sel = false
  global : selTI sel = false
  room : selOffset sel + 7 ≤ s.gdtr.limit.toNat

theorem State.inTable_of_global {s : State} {sel : Word} (h : selTI sel = false) :
    s.inTable sel = decide (selOffset sel + 7 ≤ s.gdtr.limit.toNat) := by
  unfold State.inTable
  rw [if_neg (by simp [h])]

section Incoming

variable {s u v : State} {cause : SwitchCause} {tsel : Word} {ret : Dword} {d : Desc} {bs : List Byte}
  {e : Stop}

theorem incomingTss_not_inGdt
    (h : isNull tsel = true ∨ selTI tsel = true ∨ s.gdtr.limit.toNat < selOffset tsel + 7) :
    incomingTss cause tsel s = .error (.exc (switchError cause tsel)) s := by
  unfold incomingTss
  rw [run_bind_getState, run_ite]
  by_cases hsel : (isNull tsel || selTI tsel) = true
  · rw [if_pos hsel, run_raise]
  · obtain ⟨hn, hti⟩ := Bool.or_eq_false_iff.mp (Bool.not_eq_true _ ▸ hsel)
    have hlim : s.gdtr.limit.toNat < selOffset tsel + 7 := by simpa [hn, hti] using h
    rw [if_neg hsel, run_ite, if_pos (by simp [State.inTable_of_global hti, hlim]), run_raise]

theorem State.InGdt.incomingTss_read_error (h : s.InGdt tsel)
    (hr : sysRead (s.descAddr tsel) 8 s = .error e u) : incomingTss cause tsel s = .error e u := by
  unfold incomingTss
  rw [run_bind_getState, run_ite, if_neg (by simp [h.notNull, h.global]), run_ite,
    if_neg (by simp [State.inTable_of_global h.global, h.room]), run_bind_error hr]

/-- The checks of the descriptor that was read, in order: its type and busy bit, then step 2 (R298). -/
theorem State.InGdt.incomingTss_of_read (h : s.InGdt tsel)
    (hr : sysRead (s.descAddr tsel) 8 s = .ok bs u) : incomingTss cause tsel s =
      if (descOf bs).isSeg = true ∨ (descOf bs).typ.toNat ∉ [1, 3, 9, 0xB] then
        .error (.exc (switchError cause tsel)) u
      else if (descOf bs).typ.toNat = 1 ∨ (descOf bs).typ.toNat = 3 then .error (.refuse .sixteenBitForm) u
      else if (descOf bs).typ.toNat = (if cause = .iret then 9 else 0xB) then
        .error (.exc (switchError cause tsel)) u
      else if (descOf bs).present = false then .error (.exc (.np (selErr tsel))) u
      else if (descOf bs).effLimit.toNat < 103 then .error (.exc (.ts (selErr tsel))) u
      else .ok (descOf bs) u := by
  unfold incomingTss
  rw [run_bind_getState, run_ite, if_neg (by simp [h.notNull, h.global]), run_ite,
    if_neg (by simp [State.inTable_of_global h.global, h.room]), run_bind_ok hr]
  simp only [run_ite]
  simp only [run_raise, run_refuse, run_pure, switchError]
  generalize descOf bs = d
  simp only [Bool.and_eq_true, Bool.or_eq_true, decide_eq_true_eq, bne_iff_ne, ne_eq, ← BitVec.toNat_inj,
    BitVec.reduceToNat, List.mem_cons, List.not_mem_nil, or_false]
  grind

theorem taskSwitch_tss_error (h : incomingTss cause tsel s = .error e u) :
    taskSwitch cause tsel ret s = .error e u := run_bind_error h

theorem taskSwitch_of_tss (h : incomingTss cause tsel s = .ok d u) : taskSwitch cause tsel ret s =
    (prepareSwitch cause tsel d >>= fun pages => commitSwitch cause tsel ret d pages) u := run_bind_ok h

theorem taskSwitch_page_error (h : incomingTss cause tsel s = .ok d u)
    (hp : prepareSwitch cause tsel d u = .error e v) : taskSwitch cause tsel ret s = .error e v :=
  (taskSwitch_of_tss h).trans (run_bind_error hp)

theorem prepareSwitch_saved_error (h : pageCheckRange .write false (s.tr.base + 32) 62 s = .error e u) :
    prepareSwitch cause tsel d s = .error e u :=
  (run_bind_getState ..).trans (run_bind_error h)

end Incoming

/-- Settles O55: what the checks of the incoming TSS answer, the task switch answers. -/
theorem taskSwitchChecks : Obligations.TaskSwitchChecks := by
  intro s cause tsel ret
  refine ⟨fun h => taskSwitch_tss_error (incomingTss_not_inGdt h), fun hn hti hl => ?_⟩
  have hin : s.InGdt tsel := ⟨hn, hti, hl⟩
  refine ⟨fun e u hr => ⟨taskSwitch_tss_error (hin.incomingTss_read_error hr),
    (reads_sysRead ..).of_error hr⟩, fun bs u hr => ?_⟩
  have hu : s.ReadTo u := (reads_sysRead ..).of_ok hr
  intro d
  have heq : incomingTss cause tsel s = _ := hin.incomingTss_of_read hr
  rw [show descOf bs = d from rfl] at heq
  refine ⟨hu, fun h => taskSwitch_tss_error (heq.trans (if_pos h)), fun hs h => ?_, fun hs h => ?_,
    fun hs h => ?_⟩
  · have htyp : d.typ.toNat ∈ [1, 3, 9, 0xB] := by obtain h | h := h <;> simp [h]
    rw [if_neg (by simp [hs, htyp]), if_pos h] at heq
    exact taskSwitch_tss_error heq
  · have htyp : d.typ.toNat = 9 ∨ d.typ.toNat = 0xB := by rw [h]; split <;> simp
    rw [if_neg (by simp [hs]; omega), if_neg (by omega), if_pos h] at heq
    exact taskSwitch_tss_error heq
  · have htyp : d.typ.toNat = 9 ∨ d.typ.toNat = 0xB := by rw [h]; split <;> simp
    have hbusy : d.typ.toNat ≠ (if cause = .iret then 9 else 0xB) := by rw [h]; split <;> simp
    rw [if_neg (by simp [hs]; omega), if_neg (by omega), if_neg hbusy] at heq
    refine ⟨fun hp => ?_, fun hp hlim => ?_, fun hp hlim => ?_⟩
    · rw [if_pos hp] at heq
      exact taskSwitch_tss_error heq
    · rw [if_neg (by simp [hp]), if_pos hlim] at heq
      exact taskSwitch_tss_error heq
    · rw [if_neg (by simp [hp]), if_neg (by omega)] at heq
      refine ⟨heq, fun e v hpage => ?_, fun e v hpage => ⟨taskSwitch_page_error heq hpage,
        hu.stopped ((reads_prepareSwitch ..).of_error hpage)⟩⟩
      rw [← hu.tr] at hpage
      exact taskSwitch_page_error heq (prepareSwitch_saved_error hpage)

/-! ## The page checks, and the switch after them (R295, R300) -/

theorem SwitchCause.nests_iff (c : SwitchCause) : c.nests = true ↔ c = .call ∨ c = .int := by
  cases c <;> simp [SwitchCause.nests]

theorem SwitchCause.frees_iff (c : SwitchCause) : c.frees = true ↔ c = .jmp ∨ c = .iret := by
  cases c <;> simp [SwitchCause.frees]

/-- An operation that never stops answers. -/
theorem Answers.exists_ok {α : Type} {m : Exec α} (h : Answers m) (s : State) : ∃ a t, m s = .ok a t := by
  cases hm : m s with
  | ok a t => exact ⟨a, t, rfl⟩
  | error e t => exact absurd hm (h.ne_error s e t)

theorem answers_linkTasks (tsel : Word) (d : Desc) (pages : SwitchPages) : Answers (linkTasks tsel d pages) :=
  answers_getState_bind fun _ => answers_bind (answers_changeAccessByteIf ..) fun _ =>
    answers_bind (answers_changeAccessByteIf ..) fun _ => answers_update _

section Switch

variable {s t v : State} {cause : SwitchCause} {tsel sel : Word} {d : Desc} {pages : SwitchPages}
  {ps : List Nat} {e : Stop} {b : Bool} {at_ : Option (Nat × Nat)}

theorem accessByteAddrsIf_unchanged (h : b = false) : accessByteAddrsIf b sel s = .ok none s := by
  unfold accessByteAddrsIf
  rw [run_ite, if_neg (by simp [h]), run_pure]

theorem accessByteAddrsIf_changed {p : Nat × Nat} (h : b = true) (ha : AccessByteAt s sel p t) :
    accessByteAddrsIf b sel s = .ok (some p) t := by
  unfold accessByteAddrsIf
  rw [run_ite, if_pos h, run_bind_ok (accessByteAddrs_ok ha), run_pure]

/-- The access byte whose busy bit is cleared (R306). -/
theorem accessByteAddrsIf_freed (h : if cause = .jmp ∨ cause = .iret then
      ∃ p, at_ = some p ∧ AccessByteAt s sel p t else at_ = none ∧ t = s) :
    accessByteAddrsIf cause.frees sel s = .ok at_ t := by
  split at h
  · obtain ⟨p, rfl, ha⟩ := h
    exact accessByteAddrsIf_changed ((SwitchCause.frees_iff _).mpr ‹_›) ha
  · obtain ⟨rfl, rfl⟩ := h
    exact accessByteAddrsIf_unchanged (Bool.eq_false_iff.mpr (mt (SwitchCause.frees_iff _).mp ‹_›))

/-- The access byte whose busy bit is set (R306). -/
theorem accessByteAddrsIf_busied (h : if cause = .iret then at_ = none ∧ t = s else
      ∃ p, at_ = some p ∧ AccessByteAt s sel p t) :
    accessByteAddrsIf (cause != .iret) sel s = .ok at_ t := by
  split at h
  · obtain ⟨rfl, rfl⟩ := h
    exact accessByteAddrsIf_unchanged (by simp [*])
  · obtain ⟨p, rfl, ha⟩ := h
    exact accessByteAddrsIf_changed (by simp [*]) ha

/-- The page checks of a switch pass as `SwitchPrepared` says. -/
theorem prepareSwitch_of_prepared (h : SwitchPrepared s cause tsel d pages v) :
    prepareSwitch cause tsel d s = .ok pages v := by
  obtain ⟨hmem, u, w, x, y, hsaved, himage, hlink, hfreed, hbusied⟩ := h
  simp only [← SwitchCause.nests_iff] at hlink
  have hfreed := accessByteAddrsIf_freed hfreed
  have hbusied := accessByteAddrsIf_busied hbusied
  have hv : s.ReadTo v := (reads_pageCheckRange ..).of_ok hsaved |>.trans
    ((reads_pageCheckRange ..).of_ok himage) |>.trans ((reads_pageCheckRange ..).of_ok hlink) |>.trans
    ((reads_accessByteAddrsIf ..).of_ok hfreed) |>.trans ((reads_accessByteAddrsIf ..).of_ok hbusied)
  have hreq : requireMemory pages.all v = .ok () v :=
    requireMemory_ok fun p hp => (hv.hasMemory p).trans (hmem p hp)
  unfold prepareSwitch
  rw [run_bind_getState, run_bind_ok hsaved, run_bind_ok himage, run_bind_ok hlink, run_bind_ok hfreed,
    run_bind_ok hbusied]
  exact run_bind_ok hreq

/-! Step 5, once the image is read. -/

theorem loadIncoming_virtual (h : (dwordAt (ps.map s.byteAt) 36).getLsbD bitVM = true) :
    loadIncoming cause ps s = .error (.refuse .virtual8086Mode) (s.noteRead ps) := by
  unfold loadIncoming
  rw [run_bind_ok (run_readPhys ps s), run_ite, if_pos h, run_refuse]

/-- Step 5 loads the image and validates it; no prefetched byte is left (R112, R303). -/
theorem loadIncoming_not_virtual (h : (dwordAt (ps.map s.byteAt) 36).getLsbD bitVM = false) :
    loadIncoming cause ps s = (whileTaken validateTask >>= fun _ =>
      pure ((wordAt (ps.map s.byteAt) 100).getLsbD 0))
        ((s.noteRead ps).withTssImage cause (ps.map s.byteAt)) := by
  unfold loadIncoming
  rw [run_bind_ok (run_readPhys ps s), run_ite, if_neg (by simp [h]), run_bind_update]

theorem validateTask_ok (h : loadTaskSegments s = .ok () t) : validateTask s =
    if t.eip.toNat ≤ t.segs.cs.limit.toNat then .ok () t else .error (.exc (.gp 0)) t := by
  unfold validateTask
  rw [run_bind_ok h, run_bind_getState, run_ite]
  simp only [targetOK, decide_eq_true_eq, run_pure, run_raise]

theorem validateTask_error (h : loadTaskSegments s = .error e t) : validateTask s = .error e t :=
  run_bind_error h

/-- The end of step 5, where the segments pass: the EIP is within the CS limit, or GP(0) (R312). -/
theorem whileTaken_validateTask_ok {α : Type} {a : α} (h : loadTaskSegments s = .ok () t) :
    (whileTaken validateTask >>= fun _ => pure a) s =
      if t.eip.toNat ≤ t.segs.cs.limit.toNat then .ok a t.discardPrefetch
      else .error (.exc (.gp 0)) t.discardPrefetch := by
  have hv := validateTask_ok h
  split at hv
  · rw [if_pos ‹_›, run_bind_ok (whileTaken_ok hv), run_pure]
  · rw [if_neg ‹_›, run_bind_error (whileTaken_error hv)]

end Switch

/-- Settles O56: every operation of the switch up to the image answers; step 5 is the last that may stop. -/
theorem taskSwitchCompletes : Obligations.TaskSwitchCompletes := by
  intro s u v cause tsel ret d pages htss hprep
  have hpages := prepareSwitch_of_prepared hprep
  have hv : s.ReadTo v := ((reads_incomingTss ..).of_ok htss).trans ((reads_prepareSwitch ..).of_ok hpages)
  obtain ⟨⟨⟩, x, hlink⟩ := (answers_linkTasks tsel d pages).exists_ok
    (v.store (v.savedCells cause ret pages.saved))
  have hload : taskSwitch cause tsel ret s = loadIncoming cause pages.image x := by
    rw [taskSwitch_of_tss htss, run_bind_ok hpages]
    exact (run_bind_ok (run_saveOutgoing ..)).trans (run_bind_ok hlink)
  refine ⟨hv, _, x, _, _, run_saveOutgoing .., hlink, run_readPhys .., rfl, fun hvm => ?_, fun hvm =>
    ⟨fun t ht => ?_, fun e t ht => ?_⟩⟩
  · rw [hload, loadIncoming_virtual hvm]
  · rw [hload, loadIncoming_not_virtual hvm, whileTaken_validateTask_ok ht]
    rfl
  · rw [hload, loadIncoming_not_virtual hvm, run_bind_error (whileTaken_error (validateTask_error ht))]
    rfl

end Sys2Proof.Machine

/-! Table 7-2 and step 4, where linear and physical addresses are the same. -/

namespace Sys2Proof.Machine

open Sys2Proof

/-! ## The addresses of a switch (R62, R300) -/

/-- Where linear and physical addresses are the same, there is memory at every linear address (R62). -/
theorem State.Flat.hasMemory_of_lt {s : State} (h : s.Flat) {p : Nat} (hp : p < 2 ^ 32) :
    s.hasMemory p = true := by
  have := h.2 (BitVec.ofNat 32 p)
  rwa [BitVec.toNat_ofNat, Nat.mod_eq_of_lt hp] at this

theorem linAddrs_lt {lin : Dword} {n p : Nat} (h : p ∈ linAddrs lin n) : p < 2 ^ 32 := by
  obtain ⟨k, -, rfl⟩ := List.mem_map.mp h
  exact BitVec.isLt _

theorem accessByteAt_flat {s : State} (h : s.Flat) (sel : Word) :
    AccessByteAt s sel ((s.gdtAccessAddr sel).toNat, (s.gdtAccessAddr sel).toNat) s :=
  ⟨s, pageCheck_unpaged _ _ _ h.1, pageCheck_unpaged _ _ _ h.1⟩

/-- The addresses of the access byte of the descriptor of `sel`, where `c` says that it changes. -/
def State.flatAccess (s : State) (sel : Word) (c : Prop) [Decidable c] : Option (Nat × Nat) :=
  if c then some ((s.gdtAccessAddr sel).toNat, (s.gdtAccessAddr sel).toNat) else none

/-- The addresses of a task switch where linear and physical addresses are the same (R300). -/
def State.flatPages (s : State) (cause : SwitchCause) (tsel : Word) (d : Desc) : SwitchPages where
  saved := linAddrs (s.tr.base + 32) 62
  image := linAddrs d.base 104
  link := linAddrs d.base (if cause = .call ∨ cause = .int then 2 else 0)
  freed := s.flatAccess s.tr.sel (cause = .jmp ∨ cause = .iret)
  busied := s.flatAccess tsel (cause ≠ .iret)

theorem mem_accessByteList_flatAccess {s : State} {sel : Word} {c : Prop} [Decidable c] {p : Nat}
    (h : p ∈ accessByteList (s.flatAccess sel c)) : p < 2 ^ 32 := by
  unfold State.flatAccess at h
  split at h
  · have hp : p = (s.gdtAccessAddr sel).toNat := by simpa [accessByteList] using h
    exact hp ▸ BitVec.isLt _
  · simp [accessByteList] at h

theorem switchPrepared_flat {s : State} (h : s.Flat) (cause : SwitchCause) (tsel : Word) (d : Desc) :
    SwitchPrepared s cause tsel d (s.flatPages cause tsel d) s := by
  refine ⟨fun p hp => h.hasMemory_of_lt ?_, s, s, s, s, pageCheckRange_unpaged _ _ _ _ h.1,
    pageCheckRange_unpaged _ _ _ _ h.1, pageCheckRange_unpaged _ _ _ _ h.1, ?_, ?_⟩
  · simp only [SwitchPages.all, List.mem_append] at hp
    obtain (((hp | hp) | hp) | hp) | hp := hp
    · exact linAddrs_lt hp
    · exact linAddrs_lt hp
    · exact linAddrs_lt hp
    · exact mem_accessByteList_flatAccess hp
    · exact mem_accessByteList_flatAccess hp
  · unfold State.flatPages State.flatAccess
    split
    · exact ⟨_, rfl, accessByteAt_flat h _⟩
    · exact ⟨rfl, rfl⟩
  · split
    · exact ⟨if_neg (by simp [*]), rfl⟩
    · exact ⟨_, if_pos ‹_›, accessByteAt_flat h _⟩

/-! ## The three stores of task linking (R301, R306, R307) -/

/-- What a change `f` of the access byte of `sel` stores, where `c` says that there is one. -/
def State.accessCells (s : State) (f : Byte → Byte) (sel : Word) (c : Prop) [Decidable c] : List Host.Cell :=
  if c then [((s.gdtAccessAddr sel).toNat, f (s.mem.read (s.gdtAccessAddr sel).toNat))] else []

section Linking

variable {s : State} {sel tsel : Word} {d : Desc} {cause : SwitchCause} {f : Byte → Byte} {c : Prop}
  [Decidable c]

theorem changeAccessByteIf_flat (hw : s.walked = []) :
    changeAccessByteIf f (s.flatAccess sel c) s = .ok () (s.store (s.accessCells f sel c)) := by
  unfold State.flatAccess State.accessCells
  split
  · refine (run_bind_ok (run_readPhys _ s)).trans ?_
    rw [run_update, State.noteRead_of_walked_nil _ hw]
    simp [State.byteAt_of_not_walked, hw]
  · rw [State.store_nil]
    rfl

theorem State.read_store_accessCells (hwf : s.mem.wf = true) (a : Nat) :
    (s.store (s.accessCells f sel c)).mem.read a =
      if c ∧ a = (s.gdtAccessAddr sel).toNat then f (s.mem.read a) else s.mem.read a := by
  unfold State.accessCells
  by_cases hc : c
  · rw [if_pos hc, State.store_mem]
    simp only [hc, true_and, Memory.writeAll, Memory.read_write _ _ _ hwf]
    split <;> simp [*]
  · simp [hc]

theorem State.storedTo_accessCells :
    s.StoredTo [(s.gdtAccessAddr sel).toNat] (s.store (s.accessCells f sel c)) := by
  refine (State.storedTo_store s _).mono fun a ha => ?_
  unfold State.accessCells at ha
  split at ha
  · simpa using ha
  · cases ha

@[simp] theorem State.gdtAccessAddr_store (s : State) (cells : List Host.Cell) (sel : Word) :
    (s.store cells).gdtAccessAddr sel = s.gdtAccessAddr sel := rfl

/-- The state after the busy bits are changed (R301). -/
def State.busyBitsChanged (s : State) (cause : SwitchCause) (tsel : Word) : State :=
  let t := s.store (s.accessCells freeByte s.tr.sel (cause = .jmp ∨ cause = .iret))
  t.store (t.accessCells busyByte tsel (cause ≠ .iret))

/-- The state after the back link is written too (R306). -/
def State.linked (s : State) (cause : SwitchCause) (tsel : Word) (d : Desc) : State :=
  (s.busyBitsChanged cause tsel).storeBytes (s.flatPages cause tsel d).link (wordBytes s.tr.sel)

theorem linkTasks_flat (hw : s.walked = []) : linkTasks tsel d (s.flatPages cause tsel d) s =
    .ok () { s.linked cause tsel d with
      tr := ⟨tsel, d.base, d.effLimit⟩
      ctl := { s.ctl with cr0 := s.ctl.cr0 ||| 0x00000008 } } := by
  unfold linkTasks
  rw [run_bind_getState]
  refine (run_bind_ok (changeAccessByteIf_flat hw)).trans ?_
  exact run_bind_ok (changeAccessByteIf_flat (s := s.store _) hw)

/-- What the busy bits are after a switch, by Table 7-2; no other byte changes. -/
theorem State.read_busyBitsChanged (hwf : s.mem.wf = true)
    (hne : (s.gdtAccessAddr s.tr.sel).toNat ≠ (s.gdtAccessAddr tsel).toNat) (a : Nat) :
    (s.busyBitsChanged cause tsel).mem.read a =
      if a = (s.gdtAccessAddr tsel).toNat then
        if cause = .iret then s.mem.read a else s.mem.read a ||| 0x02
      else if a = (s.gdtAccessAddr s.tr.sel).toNat then
        if cause = .jmp ∨ cause = .iret then s.mem.read a &&& 0xFD else s.mem.read a
      else s.mem.read a := by
  unfold State.busyBitsChanged
  rw [State.read_store_accessCells (Memory.wf_writeAll _ hwf), State.read_store_accessCells hwf,
    State.gdtAccessAddr_store]
  unfold freeByte busyByte
  grind

theorem linAddrs_two (lin : Dword) : linAddrs lin 2 = [lin.toNat, (lin + 1).toNat] := by
  rw [linAddrs_succ, linAddrs_succ]
  rfl

theorem State.mem_flatPages_link {a : Nat} (h : a ∈ (s.flatPages cause tsel d).link) :
    a ∈ [d.base.toNat, (d.base + 1).toNat] := by
  rw [← linAddrs_two]
  unfold State.flatPages at h
  split at h
  · exact h
  · cases h

/-- Off the back link, memory is as the busy bits leave it. -/
theorem State.read_linked_other {a : Nat} (h : a ∉ [d.base.toNat, (d.base + 1).toNat]) :
    (s.linked cause tsel d).mem.read a = (s.busyBitsChanged cause tsel).mem.read a :=
  State.storeBytes_read_other _ _ _ fun ha => h (State.mem_flatPages_link ha)

theorem State.storedTo_linked : s.StoredTo [(s.gdtAccessAddr s.tr.sel).toNat, (s.gdtAccessAddr tsel).toNat,
    d.base.toNat, (d.base + 1).toNat] (s.linked cause tsel d) := by
  have hbusy := (State.storedTo_accessCells (s := s) (f := freeByte) (sel := s.tr.sel)
    (c := cause = .jmp ∨ cause = .iret)).trans (State.storedTo_accessCells (f := busyByte) (sel := tsel)
      (c := cause ≠ .iret))
  have hlink : (s.busyBitsChanged cause tsel).StoredTo [d.base.toNat, (d.base + 1).toNat]
      (s.linked cause tsel d) := (State.storedTo_storeBytes ..).mono fun _ => State.mem_flatPages_link
  exact hbusy.trans hlink

theorem State.StoredTo.withTask_eq {t : State} {ps : List Nat} (h : s.StoredTo ps t) :
    { t with tr := s.tr, ctl := s.ctl } = t := by
  rw [← h.tr, ← h.ctl]

/-- The back link after a switch, by Table 7-2 (R306). -/
theorem State.bytesAt_linked (hwf : s.mem.wf = true)
    (hb : ∀ a ∈ linAddrs d.base 2, (s.busyBitsChanged cause tsel).mem.read a = s.mem.read a) :
    (s.linked cause tsel d).bytesAt d.base 2 =
      if cause = .call ∨ cause = .int then wordBytes s.tr.sel else s.bytesAt d.base 2 := by
  rw [State.bytesAt_eq_map, State.bytesAt_eq_map]
  unfold State.linked State.flatPages
  split
  · exact Memory.map_read_writeAll_zip (Memory.wf_writeAll _ (Memory.wf_writeAll _ hwf))
      (linAddrs_nodup _ (by decide)) rfl
  · exact List.map_congr_left hb

end Linking

/-- Settles O58: the two access bytes and the back link are stored one after another at distinct addresses, so
that each is what its own store made of it. -/
theorem taskLinking : Obligations.TaskLinking := by
  intro s cause tsel d hflat hwf hw old new hnd
  obtain ⟨hold, hnd⟩ := List.nodup_cons.mp hnd
  obtain ⟨hnew, -⟩ := List.nodup_cons.mp hnd
  obtain ⟨hne, hold⟩ := not_or.mp (mt List.mem_cons.mpr hold)
  have hbusy (a : Nat) : (s.busyBitsChanged cause tsel).mem.read a = _ := State.read_busyBitsChanged hwf hne a
  refine ⟨s.flatPages cause tsel d, _, switchPrepared_flat hflat cause tsel d, linkTasks_flat hw, ?_, ?_,
    ?_, rfl, rfl, ?_⟩
  · exact (State.read_linked_other hnew).trans ((hbusy new).trans (if_pos rfl))
  · exact (State.read_linked_other hold).trans ((hbusy old).trans ((if_neg hne).trans (if_pos rfl)))
  · refine State.bytesAt_linked hwf fun a ha => ?_
    rw [linAddrs_two] at ha
    have hneNew : a ≠ new := fun h => hnew (h ▸ ha)
    have hneOld : a ≠ old := fun h => hold (h ▸ ha)
    rw [hbusy, if_neg hneNew, if_neg hneOld]
  · have hst : s.StoredTo [old, new, d.base.toNat, (d.base + 1).toNat] (s.linked cause tsel d) :=
      State.storedTo_linked
    exact hst.withTask_eq.symm ▸ hst

end Sys2Proof.Machine

/-! The instructions that switch tasks (far JMP and CALL, IRET with NT = 1, INT and delivery through a task
gate), and STR. -/

namespace Sys2Proof.Machine

open Sys2Proof

/-! ## A switch made by an instruction (R300, R305) -/

/-- How an instruction ends that raises DB where `trap` asks for it (R305). -/
def trapOutcome (trap : Bool) (t : State) : Host.Outcome State Fault Refusal :=
  if trap then takeException .db t else .next t

theorem conclude_raise_db (m : Exec Bool) (s : State) :
    conclude (m >>= fun trap => if trap then raise .db else pure ()) s = outcomeOf (m s) trapOutcome := by
  rw [conclude_eq_outcomeOf, outcomeOf_bind]
  refine outcomeOf_congr fun trap t _ => ?_
  cases trap <;> rfl

theorem conclude_switchByInstruction (cause : SwitchCause) (tsel : Word) (s : State) :
    conclude (switchByInstruction cause tsel) s =
      outcomeOf (taskSwitch cause tsel s.nextEip s) trapOutcome := conclude_raise_db _ s

section FarTransfer

variable {s u v : State} {kind : FarKind} {i : Instr} {sel : Word} {off : Dword} {d : Desc}

theorem tssTransfer_allowed (hti : selTI sel = false) (hcpl : v.cpl ≤ d.dpl) (hrpl : selRpl sel ≤ d.dpl) :
    tssTransfer kind sel d v = switchByInstruction kind.cause sel v := by
  unfold tssTransfer
  rw [run_bind_getState, run_ite, if_neg (by simp [hti]), run_ite,
    if_neg (BitVec.not_lt.mpr (maxLevel_le_iff.mpr ⟨hcpl, hrpl⟩))]

theorem taskGateTransfer_allowed (hcpl : v.cpl ≤ d.dpl) (hrpl : selRpl sel ≤ d.dpl)
    (hp : d.present = true) :
    taskGateTransfer kind sel d v = switchByInstruction kind.cause d.gateSelector v := by
  unfold taskGateTransfer
  rw [run_bind_getState, run_ite, if_neg (BitVec.not_lt.mpr (maxLevel_le_iff.mpr ⟨hcpl, hrpl⟩)), run_ite,
    if_neg (by simp [hp])]

end FarTransfer

/-- Settles O32: the dispatch on the descriptor leads to the switch, directly or through the task gate. -/
theorem farTransferToTask : Obligations.FarTransferToTask := by
  intro s u v t kind i sel tsel off d hop hn hd hs hcpl hrpl htarget
  have hv : s.ReadTo v := (farOperand_readTo hop).trans ((reads_readDesc sel).of_ok hd)
  rw [← hv.cpl] at hcpl
  obtain ⟨-, hgate, htss, -⟩ := farTransfer_system (kind := kind) (off := off) hn hd hs
  have hfar : farTransfer kind sel off u = switchByInstruction kind.cause tsel v := by
    obtain ⟨htyp, hti, rfl⟩ | ⟨htyp, hp, rfl⟩ := htarget
    · rw [htss (by obtain h | h := htyp <;> simp [h]), tssTransfer_allowed hti hcpl hrpl]
    · rw [hgate (by simp [htyp]), taskGateTransfer_allowed hcpl hrpl hp]
      rfl
  have hexec : exec i s = outcomeOf (taskSwitch kind.cause tsel s.nextEip v) trapOutcome := by
    rw [exec_of_farOperand hop, conclude_eq_outcomeOf, hfar, ← conclude_eq_outcomeOf,
      conclude_switchByInstruction, hv.nextEip]
  refine ⟨fun trap h => ?_, fun e h => ?_, fun r h => ?_⟩ <;> rw [hexec, h] <;> rfl

/-! ## IRET with NT = 1 (R291) -/

theorem exec_iret_nt_set {s : State} (h : s.eflags.getLsbD bitNT = true) : exec .iret s =
    conclude (sysRead s.tr.base 2 >>= fun bs => switchByInstruction .iret (wordAt bs 0)) s := by
  change conclude _ s = _
  rw [conclude_eq_outcomeOf, run_ite, if_pos h, ← conclude_eq_outcomeOf]

/-- Settles O44: the back link is read, and then the switch is made by the instruction. -/
theorem interruptReturnToTask : Obligations.InterruptReturnToTask := by
  intro s hnt
  have hexec := exec_iret_nt_set hnt
  refine ⟨fun e u h => hexec.trans (conclude_bind_exc h), fun bs u h => ?_⟩
  rw [conclude_bind_ok h, conclude_switchByInstruction, ((reads_sysRead ..).of_ok h).nextEip] at hexec
  refine ⟨fun trap t h => ?_, fun e t h => ?_, fun r t h => ?_⟩ <;> rw [hexec, h] <;> rfl

/-! ## The gate of a vector (R293, R357) -/

section Gate

variable {s u : State} {n : Nat} {software : Bool} {bs : List Byte}

theorem idtGate_beyond_limit (h : s.idtr.limit.toNat < 8 * n + 7) :
    idtGate n software s = .error (.exc (.gp (idtErr n))) s := by
  unfold idtGate
  rw [run_bind_getState, run_ite, if_pos h, run_raise]

/-- The checks of the entry that was read, in the order of R357, and for INT of R293. -/
theorem idtGate_of_read (h : 8 * n + 7 ≤ s.idtr.limit.toNat)
    (hr : sysRead (s.idtr.base + BitVec.ofNat 32 (8 * n)) 8 s = .ok bs u) : idtGate n software s =
      if (descOf bs).isSeg = true ∨ (descOf bs).typ.toNat ∉ [5, 6, 7, 0xE, 0xF] then
        .error (.exc (.gp (idtErr n))) u
      else if software = false ∧ ((descOf bs).typ.toNat = 6 ∨ (descOf bs).typ.toNat = 7) then
        .error (.refuse .sixteenBitForm) u
      else if software = true ∧ (descOf bs).dpl < s.cpl then .error (.exc (.gp (idtErr n))) u
      else if (descOf bs).present = false then .error (.exc (.np (idtErr n))) u
      else if (descOf bs).typ.toNat = 6 ∨ (descOf bs).typ.toNat = 7 then .error (.refuse .sixteenBitForm) u
      else .ok (descOf bs) u := by
  unfold idtGate
  rw [run_bind_getState, run_ite, if_neg (by omega), run_bind_ok hr]
  simp only [run_ite]
  simp only [run_raise, run_refuse, run_pure]
  generalize descOf bs = g
  simp only [Bool.and_eq_true, Bool.or_eq_true, Bool.not_eq_true', Bool.or_eq_false_iff, decide_eq_true_eq,
    decide_eq_false_iff_not, ← BitVec.toNat_inj, BitVec.reduceToNat, List.mem_cons, List.not_mem_nil,
    or_false, not_or, and_assoc]

end Gate

/-- Settles O40: the branches of `idtGate_of_read`. -/
theorem interruptGateChecks : Obligations.InterruptGateChecks := by
  intro s n software hn code
  refine ⟨idtGate_beyond_limit, fun hl bs u hr => ?_⟩
  intro g small
  have heq : idtGate n software s = _ := idtGate_of_read hl hr
  rw [show descOf bs = g from rfl] at heq
  refine ⟨fun h => heq.trans (if_pos h), fun hs ht => ?_⟩
  rw [if_neg (by simp [hs, ht])] at heq
  refine ⟨fun hsw hsm => heq.trans (if_pos ⟨hsw, hsm⟩), fun hsw hdpl => ?_, fun hok => ?_⟩
  · rw [if_neg (by simp [hsw]), if_pos ⟨hsw, hdpl⟩] at heq
    exact heq
  · have hsmall : ¬(software = false ∧ small) := by obtain ⟨-, h⟩ | ⟨h, -⟩ := hok <;> simp [h]
    have hdpl : ¬(software = true ∧ g.dpl < s.cpl) := by
      obtain ⟨h, -⟩ | ⟨-, h⟩ := hok
      · simp [h]
      · simp [BitVec.not_lt.mpr h]
    rw [if_neg hsmall, if_neg hdpl] at heq
    refine ⟨fun hp => heq.trans (if_pos hp), fun hp hsm => ?_, fun hp hsm => ?_⟩
    · rw [if_neg (by simp [hp]), if_pos hsm] at heq
      exact heq
    · rw [if_neg (by simp [hp]), if_neg hsm] at heq
      exact heq

/-! ## Delivery through a task gate (R286, R294), and INT (R293) -/

section Deliver

variable {s u v : State} {n : Nat} {software : Bool} {ret : Dword} {code : Option Dword} {g : Desc}
  {trap : Bool}

/-- The end of delivery through a task gate: the error code, and no prefetched byte (R112, R294). -/
def pushCode (code : Option Dword) (trap : Bool) : Exec Bool := do
  match code with
  | some c => pushAll [c]
  | none => pure ()
  update (·.discardPrefetch)
  pure trap

theorem deliver_task_gate (h : idtGate n software s = .ok g u) (ht : g.typ.toNat = 5) :
    deliver n code ret software s =
      (taskSwitch .int g.gateSelector ret >>= fun trap => pushCode code trap) u := by
  refine (run_bind_ok h).trans ((run_ite ..).trans (if_pos ?_))
  exact BitVec.eq_of_toNat_eq ht

theorem deliver_of_switch (h : idtGate n software s = .ok g u) (ht : g.typ.toNat = 5)
    (hsw : taskSwitch .int g.gateSelector ret u = .ok trap v) :
    deliver n code ret software s = pushCode code trap v :=
  (deliver_task_gate h ht).trans (run_bind_ok hsw)

end Deliver

/-- Settles O42: delivery through a task gate is the switch and then `pushCode`; INT is its delivery. -/
theorem interruptAndTaskGate : Obligations.InterruptAndTaskGate := by
  refine ⟨fun s u v n software ret g trap hg ht hsw => ⟨?_, fun c ps t hpush => ?_, fun c e t hpush => ?_⟩,
    fun s u v n software code ret g e hg ht hsw => (deliver_task_gate hg ht).trans (run_bind_error hsw),
    fun s t vector => ?_⟩
  · rw [deliver_of_switch hg ht hsw]
    exact congrArg (EStateM.Result.ok trap) (taskSwitch_discarded hsw)
  · rw [deliver_of_switch hg ht hsw]
    exact run_bind_ok (pushAll_of_pushedTo hpush)
  · rw [deliver_of_switch hg ht hsw]
    exact run_bind_error hpush
  · have hexec : exec (.int vector) s = _ := conclude_raise_db (deliver vector.toNat none s.nextEip true) s
    refine ⟨fun h => ?_, fun h => ?_, fun e h => ?_, fun r h => ?_⟩ <;> rw [hexec, h] <;> rfl

/-! ## STR (R281) -/

/-- Settles O51: STR is the write of its operand. -/
theorem storeTaskRegister : Obligations.StoreTaskRegister := by
  refine ⟨fun _ => rfl, fun s r => ⟨s.regs.set16 r s.tr.sel, rfl, Regs.get16_set16_same ..,
    Regs.set16_upper .., fun q hq => Regs.get_set16_other _ _ hq⟩, fun s u m a ps hc ht => ?_,
    fun s m e u h => conclude_bind_exc h⟩
  have hu : s.ReadTo u := (reads_translateRange ..).of_ok ht
  have hst : s.StoredTo ps (u.storeBytes ps (wordBytes s.tr.sel)) :=
    .after_read hu (State.storedTo_storeBytes ..)
  refine ⟨hu, hst, (conclude_bind_ok (writeRM16_mem hc ht)).trans ?_⟩
  rw [← hst.nextEip]
  rfl

end Sys2Proof.Machine
